-- ==== Sys2Proof/Word.lean ====
section
/-! DEFINITION. The 16-bit highway word, the multiframe stamp and the 8-bit message tag (Chapter 12, R171; 00_scope.md section 4.2). -/

namespace Sys2Proof

/-- One word of either highway: 16 bits, bit 15 most significant (R171). -/
abbrev Word16 := BitVec 16

/-- The multiframe stamp: an unsigned 16-bit count that continues at 0 after 65,535 (section 4.2 of the scope file, R139). -/
abbrev Stamp := BitVec 16

/-- The tag that the controller puts in a management message and finds in the reply (R172). -/
abbrev Tag := BitVec 8

/-- One of the 48 lines, numbered 0 to 47 (section 4.3 of the scope file). -/
abbrev LineNo := Fin 48

end Sys2Proof
end

