-- ==== Sys2Proof/Config.lean ====
section
/-! DEFINITION. What an implementation fixes. The manual leaves no quantity of the device to an implementation and
states a value for every result, so this model has no configuration constant and no free value: what the manual
leaves open is the ORDER in which two events of one multiframe are taken, and that order is the order of the
queue of commands (and, for the two groups of blocks that use one sense record, an operand of SENSE_RECORD). -/

namespace Sys2Proof

/-- The number of subscriber pairs served by one device (section 1 of the scope file). -/
abbrev numLines : Nat := 48

end Sys2Proof
end

