-- ==== Sys2Proof/Syntax.lean ====
section
/-! DEFINITION. The commands: one constructor of `Instr` per row of spec/opcode_table.json, and the operand types. -/

namespace Sys2Proof

/-- The six tables of R160. -/
inductive TableId where
  | profile | tonePlan | cadence | faultPlan | testPlan | settings
  deriving DecidableEq, Repr

/-- The seven feed codes of R171 (OPEN is `opened`). -/
inductive FeedCode where
  | opened | standby | forward | reverse | ring | testTip | testRing
  deriving DecidableEq, Repr

/-- Which of the two groups of blocks takes one sense record first: the line's own blocks (recovery, detector,
engines, sequencer, test engine) or the fault monitor. R119 gives the outcome of either order and fixes neither. -/
inductive RecordOrder where
  | blocksFirst | monitorFirst
  deriving DecidableEq, Repr

/-- The commands. A row that is a management command carries the tag and the argument words of a complete message
that has passed the check word; a row that is an event inside another step carries the line or table it
concerns (notes/assumptions/1.md, 2.md). -/
inductive Instr where
  | powerOnReset
  | lineEnable (tag : Tag) (line profile : Word16)
  | lineDisable (tag : Tag) (line : Word16)
  | lineConnect (tag : Tag) (line : Word16)
  | linePolarity (tag : Tag) (line polarity : Word16)
  | lineProfile (tag : Tag) (line profile : Word16)
  | ringStart (tag : Tag) (line cadence cycles : Word16)
  | ringStop (tag : Tag) (line : Word16)
  | testRequest (tag : Tag) (line kind : Word16)
  | lineQuery (tag : Tag) (line : Word16)
  | partQuery (tag : Tag)
  | partReset (tag : Tag)
  | loadOpen (tag : Tag) (table first count : Word16)
  | loadBlock (tag : Tag) (table block : Word16) (entry : List Word16)
  | loadCommit (tag : Tag) (table : Word16)
  | loadCancel (tag : Tag) (table : Word16)
  | entryRead (tag : Tag) (table choice index : Word16)
  | managementWord (control data : Word16)
  | gapExpiry
  | fsPulseHunt (pulse : Nat)
  | syncAcquire
  | frameBoundary (fs : Bool)
  | huntEntry
  | senseRecord (line : LineNo) (status i vt vr : Word16) (order : RecordOrder)
  | senseLost (line : LineNo)
  | feedStuck (line : LineNo) (echo : FeedCode)
  | audioUpstream (line : LineNo) (sample : Word16)
  | audioDownstream (line : LineNo) (sample : Word16)
  | reportFrame
  | debounceAccept (line : LineNo)
  | edgeMaskExpire (line : LineNo)
  | feedMaskEnd (line : LineNo)
  | seizure (line : LineNo)
  | release (line : LineNo)
  | makeConfirm (line : LineNo)
  | digitEnd (line : LineNo)
  | lockout (line : LineNo)
  | stringTimeout (line : LineNo)
  | toneBlockComplete (line : LineNo)
  | ringStepExpire (line : LineNo)
  | ringMaskEnd (line : LineNo)
  | ringTrip (line : LineNo)
  | ringOffTrip (line : LineNo)
  | faultWindowClose (line : LineNo)
  | faultConfirm (line : LineNo)
  | faultClear (line : LineNo)
  | testTake
  | testSettleEnd
  | testStepEnd
  | noEcho
  | sweepExpiry
  | loadLapse (table : TableId)
  | commitDone (table : TableId)
  | fsAbsentExpectedBoundary
  deriving DecidableEq, Repr

end Sys2Proof
end

