-- ==== Sys2Proof/Decode.lean ====
section
/-! DEFINITION. Reading a command from the bits of its table row. spec/opcode_table.json gives no row any bits ("fields": []
in every row), so no word spells a command; how the words of a management message are read is the meaning of
MANAGEMENT_WORD (Machine/Management.lean). -/

namespace Sys2Proof

/-- No row of the table has bits: no word spells a command. -/
def decodeTableWord (_nbits _w : Nat) : Option Instr := none

end Sys2Proof
end

