-- ==== Sys2Proof/Machine/Limits.lean ====
section
/-! DEFINITION. The fixed capacities, limits and table sizes of the device, each with the rule that gives it. -/

namespace Sys2Proof.Machine

/-- Capacity of the ALARM queue (R155). -/
def alarmCapacity : Nat := 16
/-- Capacity of the REPLY queue (R155). -/
def replyCapacity : Nat := 8
/-- Capacity of the SIGNAL queue (R155). -/
def signalCapacity : Nat := 96
/-- Capacity of a line's digit buffer (R78). -/
def bufferCapacity : Nat := 32
/-- Capacity of the test request queue (R125). -/
def testQueueCapacity : Nat := 8
/-- Words a management message may hold (R149). -/
def messageCapacity : Nat := 40
/-- Frames without a valid word at which a message is truncated (R150). -/
def gapLimit : Nat := 65
/-- Misses at which the device enters HUNT (R138). -/
def missLimit : Nat := 4
/-- Invalid records at which a line becomes sense-lost (R144). -/
def lossLimit : Nat := 8
/-- Mismatching records at which FEED_STUCK is raised (R146). -/
def stuckLimit : Nat := 16
/-- Clamp of the sense values (R143). -/
def senseClamp : Int := 1000
/-- Stop value of the per-line timers (section 4.1 of the scope file). -/
def timerStop : Nat := 65535
/-- Stop value of the four-bit runs (R92, R107). -/
def runStop : Nat := 15
/-- Largest stored dial period (R44). -/
def periodStop : Nat := 4095
/-- Periods the history holds (R44). -/
def historyCapacity : Nat := 8
/-- The pulse count that stands for too many pulses (R43). -/
def pulseStop : Nat := 11
/-- Step age at which a test is aborted with NO_ECHO (R130). -/
def echoLimit : Nat := 1000
/-- Multiframes after which an open load lapses (R166). -/
def lapseLimit : Nat := 1000
/-- Multiframes of one second of SWEEP_PERIOD (R127). -/
def sweepUnit : Nat := 1000
/-- Records of a fault window (R109). -/
def windowLength : Nat := 64

end Sys2Proof.Machine

namespace Sys2Proof.TableId

/-- Entries of each table (R160). -/
def entries : TableId → Nat
  | .profile => 8
  | .tonePlan => 1
  | .cadence => 4
  | .faultPlan => 17
  | .testPlan => 12
  | .settings => 1

/-- Words of one entry of each table (R172). -/
def entryLength : TableId → Nat
  | .profile => 24
  | .tonePlan => 25
  | .cadence => 6
  | .faultPlan => 9
  | .testPlan => 5
  | .settings => 3

end Sys2Proof.TableId
end

