-- ==== Sys2Proof/Machine/State.lean ====
section
/-! DEFINITION. The state of the device as plain data: the named values (section 4.5 of the scope file), the fields of every
block (R1, R22, R40, R57, R78, R92, R107, R123, R136, R148, R155, R156, R160, R163), the queue of commands, and the state
after power-on reset. -/

namespace Sys2Proof.Machine

/-! ### Named values -/

/-- The nine line states (R1). -/
inductive LineState where
  | disabled | idle | seized | dialling | connected | lockout | ringing | fault | test
  deriving DecidableEq, Repr

/-- The causes of a STATE record (R4). -/
inductive Cause where
  | enable | disable | seize | firstDigit | connect | lockout | release | ring | answer | ringEnd | stopped
  | fault | faultCleared | testEnd
  deriving DecidableEq, Repr

/-- The commanded polarity (R1). -/
inductive Polarity where
  | forward | reverse
  deriving DecidableEq, Repr

/-- The two stores of a table (R160). -/
inductive Bank where
  | a | b
  deriving DecidableEq, Repr

/-- The role of a bank (R163). -/
inductive Role where
  | active | shadow | retiring
  deriving DecidableEq, Repr

/-- The symbols of a digit entry (R79). -/
inductive Symbol where
  | digit (d : Fin 10) | star | hash | a | b | c | d | flash | error
  deriving DecidableEq, Repr

/-- How a digit entry was made (R79). -/
inductive Method where
  | pulse | tone | hook | none
  deriving DecidableEq, Repr

/-- The cause of an ERROR entry (R79). -/
inductive ErrorCause where
  | badBreak | tooManyPulses | interrupted
  deriving DecidableEq, Repr

/-- Why a string closed (R84, R85, R86). -/
inductive CloseReason where
  | flash | terminator | limit | timeout | release | connect | fault | disable
  deriving DecidableEq, Repr

/-- The status of a reply (R152). -/
inductive Status where
  | ok | check | unknown | length | range | state | busy | full | order | incomplete | truncated
  deriving DecidableEq, Repr

/-- The kinds of a line test (R123). -/
inductive TestKind where
  | foreign | leak | loopCheck
  deriving DecidableEq, Repr

/-- Who raised a test request (R123). -/
inductive Origin where
  | commanded | sweep
  deriving DecidableEq, Repr

/-- The outcome of a test (R133). -/
inductive Verdict where
  | pass | fail | aborted | skipped
  deriving DecidableEq, Repr

/-- Why a test was aborted (R134). -/
inductive AbortCause where
  | disabled | senseLost | syncLost | noEcho
  deriving DecidableEq, Repr

/-- The severity of a fault class (R108). -/
inductive Severity where
  | advisory | hazard
  deriving DecidableEq, Repr

/-- The grouping of the applied feed (R113). -/
inductive FeedGroup where
  | opened | standby | loop | ring | test
  deriving DecidableEq, Repr

/-- The quantity a test step measures (R131). -/
inductive Quantity where
  | tipDc | ringDc | tipAc | ringAc | loopI
  deriving DecidableEq, Repr

/-- The two debounced loop states (R22). -/
inductive Level where
  | noLoop | loop
  deriving DecidableEq, Repr

/-- The run condition of the tone engine (R57). -/
inductive RunCondition where
  | stopped | running | held
  deriving DecidableEq, Repr

/-- The tone state (R57). -/
inductive ToneState where
  | quiet | candidate | on | gap
  deriving DecidableEq, Repr

/-- The phase of a test step (R123). -/
inductive StepPhase where
  | waitEcho | settle | measure
  deriving DecidableEq, Repr

/-- The frame alignment (R136). -/
inductive SyncState where
  | hunt | sync
  deriving DecidableEq, Repr

/-- The management receiver's state (R148). -/
inductive ReceiverState where
  | idle | assembling | discarding
  deriving DecidableEq, Repr

/-- How a string is reported (R81). -/
inductive ReportMode where
  | each | string
  deriving DecidableEq, Repr

/-! ### Per-line blocks -/

/-- A debounce run of count 1 or more (R22). -/
structure DebounceRun where
  count : Nat
  start : Stamp
  age : Nat
  deriving DecidableEq, Repr

/-- A break in progress (R22). -/
structure Break where
  stamp : Stamp
  timer : Nat
  interrupted : Bool
  deriving DecidableEq, Repr

/-- The loop detector (R22). A `run` of none is a debounce run of count 0. -/
structure LoopDetector where
  raw : Bool
  accepted : Level
  debounced : Level
  transition : Option Stamp
  run : Option DebounceRun
  edgeExpiry : Option Stamp
  brk : Option Break
  pendingMake : Bool
  makeTimer : Nat
  feedMask : Nat
  deriving DecidableEq, Repr

/-- The pulse digit engine (R40). -/
structure PulseEngine where
  count : Nat
  digitStart : Option Stamp
  lastBreak : Option Stamp
  history : List Nat
  tbase : Nat
  deriving DecidableEq, Repr

/-- The two recursion values of one bin: `s1` the newer (R57). -/
structure Bin where
  s1 : Int
  s2 : Int
  deriving DecidableEq, Repr

/-- The tone digit engine (R57). -/
structure ToneEngine where
  run : RunCondition
  bins : Vector Bin 8
  sampleCount : Nat
  power : Nat
  blockStart : Option Stamp
  state : ToneState
  key : Option Symbol
  candidateCount : Nat
  gapCount : Nat
  onBlocks : Nat
  digitStart : Option Stamp
  deriving DecidableEq, Repr

/-- A digit entry (R79). -/
structure DigitEntry where
  symbol : Symbol
  method : Method
  start : Stamp
  pulses : Option Nat
  period : Option Nat
  duration : Option Nat
  error : Option ErrorCause
  deriving DecidableEq, Repr

/-- An item of the digit buffer that is due for reporting (R78). -/
inductive DueItem where
  | string (reason : CloseReason) (closed : Stamp) (entries : List DigitEntry)
  | single (made : Stamp) (entry : DigitEntry)
  deriving DecidableEq, Repr

/-- The ring sequencer (R92). `running` is the sequencer state. -/
structure RingSequencer where
  running : Bool
  cadence : Option Nat
  step : Option Nat
  timer : Nat
  cyclesLeft : Option Nat
  armed : Bool
  maskCount : Nat
  window : List Int
  windowSum : Int
  tripRun : Nat
  deriving DecidableEq, Repr

/-- The fault monitor (R107). `closed` is the model's own mark that the window has closed (notes/assumptions/20.md). -/
structure FaultMonitor where
  windowStart : Stamp
  recordCount : Nat
  tipSum : Int
  ringSum : Int
  tipMax : Option Int
  tipMin : Option Int
  ringMax : Option Int
  ringMin : Option Int
  loopSum : Nat
  discard : Bool
  candidateClass : Option Nat
  candidateRun : Nat
  confirmedClass : Nat
  confirmedSeverity : Option Severity
  confirmedClear : Option Nat
  reported : Option Bool
  clearRun : Nat
  closed : Bool
  deriving DecidableEq, Repr

/-- A line context (R1), with the sub-states of the line's blocks and the fields the highway interface keeps per line
(R136). The digit buffer of R78 is `due` followed by `openString`; an `openString` of no entry is an absent string.
`entryMark` and `recoveryDue` are the model's own (notes/assumptions/15.md, 16.md). -/
structure Line where
  state : LineState
  profileIndex : Nat
  pendingProfile : Option Nat
  polarity : Polarity
  commandedFeed : FeedCode
  appliedFeed : FeedCode
  profileBank : Bank
  toneBank : Bank
  cadenceBank : Bank
  faultBank : Bank
  lockoutTimer : Nat
  stringTimer : Nat
  stateBeforeTest : Option LineState
  senseLost : Bool
  feedStuck : Bool
  stateLost : Bool
  overrun : Bool
  loop : LoopDetector
  pulse : PulseEngine
  tone : ToneEngine
  ring : RingSequencer
  monitor : FaultMonitor
  due : List DueItem
  openString : List DigitEntry
  lastI : Int
  lastVt : Int
  lastVr : Int
  invalidRun : Nat
  mismatchRun : Nat
  entryMark : Bool
  recoveryDue : Bool
  deriving DecidableEq, Repr

/-! ### Shared blocks -/

/-- The highway interface (R136). The acquisition candidate is the label of the FS pulse that began it. -/
structure Highway where
  sync : SyncState
  candidate : Option Nat
  missCount : Nat
  frame : Option Nat
  stamp : Stamp
  stampAtLoss : Option Stamp
  firstAcquisition : Bool
  deriving DecidableEq, Repr

/-- The words in flight on both ports (R141, R142, R145, R147): the audio words received in the frame under way, what is
sent in it, absent where nothing is driven, and the number of inbound slots of each port that have passed in it. -/
structure Wires where
  upReceived : Vector Word16 48
  downReceived : Vector Word16 48
  trunkAudio : Option (Vector Word16 48)
  lineAudio : Option (Vector Word16 48)
  feedWords : List Word16
  marker : Bool
  report : Option (Word16 × Word16)
  lineSlot : Nat
  trunkSlot : Nat
  deriving DecidableEq, Repr

/-- A test request (R123). -/
structure Request where
  line : LineNo
  kind : TestKind
  origin : Origin
  deriving DecidableEq, Repr

/-- The result of one completed test step (R123). -/
structure StepResult where
  step : Nat
  value : Int
  pass : Bool
  deriving DecidableEq, Repr

/-- The test engine (R123). `busy` is the engine state. -/
structure TestEngine where
  busy : Bool
  queue : List Request
  held : Option Request
  bank : Option Bank
  step : Option Nat
  phase : Option StepPhase
  stepAge : Nat
  settleCount : Nat
  measureTimer : Nat
  sampleCount : Nat
  sampleSum : Int
  sampleMax : Option Int
  sampleMin : Option Int
  results : List StepResult
  sweepPointer : LineNo
  sweepTimer : Nat
  deriving DecidableEq, Repr

/-- The management receiver (R148). -/
structure Receiver where
  state : ReceiverState
  buffer : List Word16
  tag : Option Tag
  gap : Nat
  deriving DecidableEq, Repr

/-- What a record carries, by its kind (R173). -/
inductive Payload where
  | reply (command : BitVec 8) (tag : Tag) (status : Status) (result : List Word16)
  | loadLapsed (table : TableId) (accepted : Nat)
  | commitDone (table : TableId) (tag : Tag)
  | state (new old : LineState) (cause : Cause)
  | digit (overrun : Bool) (entry : DigitEntry)
  | digits (overrun : Bool) (reason : CloseReason) (entries : List DigitEntry)
  | snapshot (state : LineState) (before : Option LineState) (level : Level) (polarity : Polarity) (fill : Nat)
      (faultClass : Nat)
  | faultRaise (faultClass : Nat) (severity : Severity) (previous : Nat)
  | faultClear (faultClass : Nat) (severity : Severity)
  | testResult (kind : TestKind) (origin : Origin) (verdict : Verdict) (cause : Option AbortCause)
      (results : List StepResult)
  | senseLost
  | senseBack
  | feedStuck (commanded echoed : FeedCode)
  | feedOk (feed : FeedCode)
  | syncRestored (stampAtLoss : Stamp)
  deriving DecidableEq, Repr

/-- A report record. A `line` of none is line 63, the device as a whole (R155). -/
structure Record where
  line : Option LineNo
  stamp : Stamp
  alarmLost : Bool
  payload : Payload
  deriving DecidableEq, Repr

/-- The report unit (R155 to R157, R159). The serialiser is FREE when `sending` is none; otherwise it holds the record
and the position of the next word to send. -/
structure ReportUnit where
  alarm : List Record
  reply : List Record
  signal : List Record
  alarmLost : Bool
  servicePointer : LineNo
  sending : Option (Record × Nat)
  deriving DecidableEq, Repr

/-- An entry of a table: its words as stored and its valid mark (R160, R169, R172). -/
structure Entry where
  valid : Bool
  words : List Word16
  deriving DecidableEq, Repr

/-- An OPEN load (R163). -/
structure Load where
  first : Nat
  count : Nat
  accepted : Nat
  lapse : Nat
  deriving DecidableEq, Repr

/-- A table (R160, R163): `active` names the ACTIVE bank; the other bank is RETIRING exactly while `retiringTag` holds the
tag of the commit that made it so, and SHADOW otherwise; a `load` of none is CLOSED. -/
structure Table where
  bankA : List Entry
  bankB : List Entry
  active : Bank
  retiringTag : Option Tag
  load : Option Load
  deriving DecidableEq, Repr

/-- The table store (R160). -/
structure TableStore where
  profile : Table
  tonePlan : Table
  cadence : Table
  faultPlan : Table
  testPlan : Table
  settings : Table
  deriving DecidableEq, Repr

/-- The state of the device, with the queue of commands that wait. -/
structure State where
  pending : List Instr
  highway : Highway
  wires : Wires
  lines : Vector Line 48
  engine : TestEngine
  receiver : Receiver
  report : ReportUnit
  tables : TableStore
  deriving DecidableEq, Repr

/-! ### Reset values -/

/-- The detector's values after reset, stop or start, with the feed-mask count given (R22). -/
def LoopDetector.initial (feedMask : Nat) : LoopDetector :=
  { raw := false, accepted := .noLoop, debounced := .noLoop, transition := none, run := none, edgeExpiry := none,
    brk := none, pendingMake := false, makeTimer := 0, feedMask := feedMask }

/-- The pulse engine's values after power-on reset and PART_RESET (R40). -/
def PulseEngine.initial : PulseEngine :=
  { count := 0, digitStart := none, lastBreak := none, history := [], tbase := 0 }

/-- Eight bins with every recursion value 0 (R57). -/
def clearedBins : Vector Bin 8 := Vector.replicate 8 ⟨0, 0⟩

/-- The tone engine's values after reset or stop (R57). -/
def ToneEngine.initial : ToneEngine :=
  { run := .stopped, bins := clearedBins, sampleCount := 0, power := 0, blockStart := none, state := .quiet,
    key := none, candidateCount := 0, gapCount := 0, onBlocks := 0, digitStart := none }

/-- The ring sequencer's values after reset or stop (R92). -/
def RingSequencer.initial : RingSequencer :=
  { running := false, cadence := none, step := none, timer := 0, cyclesLeft := none, armed := false, maskCount := 0,
    window := [], windowSum := 0, tripRun := 0 }

/-- The fault monitor's values after power-on reset and PART_RESET, for the window that starts at the given stamp (R107). -/
def FaultMonitor.initial (windowStart : Stamp) : FaultMonitor :=
  { windowStart := windowStart, recordCount := 0, tipSum := 0, ringSum := 0, tipMax := none, tipMin := none,
    ringMax := none, ringMin := none, loopSum := 0, discard := true, candidateClass := none, candidateRun := 0,
    confirmedClass := 0, confirmedSeverity := none, confirmedClear := none, reported := none, clearRun := 0,
    closed := false }

/-- A line after power-on reset (R1, R22, R40, R57, R78, R92, R107, R136). -/
def Line.initial : Line :=
  { state := .disabled, profileIndex := 0, pendingProfile := none, polarity := .forward, commandedFeed := .opened,
    appliedFeed := .opened, profileBank := .a, toneBank := .a, cadenceBank := .a, faultBank := .a, lockoutTimer := 0,
    stringTimer := 0, stateBeforeTest := none, senseLost := false, feedStuck := false, stateLost := false,
    overrun := false, loop := .initial 0, pulse := .initial, tone := .initial, ring := .initial,
    monitor := .initial 0, due := [], openString := [], lastI := 0, lastVt := 0, lastVr := 0, invalidRun := 0,
    mismatchRun := 0, entryMark := false, recoveryDue := false }

/-- The test engine after power-on reset (R123). -/
def TestEngine.initial : TestEngine :=
  { busy := false, queue := [], held := none, bank := none, step := none, phase := none, stepAge := 0,
    settleCount := 0, measureTimer := 0, sampleCount := 0, sampleSum := 0, sampleMax := none, sampleMin := none,
    results := [], sweepPointer := 0, sweepTimer := 0 }

/-- The receiver's values in IDLE (R148). -/
def Receiver.initial : Receiver :=
  { state := .idle, buffer := [], tag := none, gap := 0 }

/-- The report unit after power-on reset (R155 to R157, R159). -/
def ReportUnit.initial : ReportUnit :=
  { alarm := [], reply := [], signal := [], alarmLost := false, servicePointer := 47, sending := none }

/-- The highway interface after power-on reset (R136). -/
def Highway.initial : Highway :=
  { sync := .hunt, candidate := none, missCount := 0, frame := none, stamp := 0, stampAtLoss := none,
    firstAcquisition := true }

/-- 48 audio words of 0. -/
def silence : Vector Word16 48 := Vector.replicate 48 0

/-- The words in flight while nothing is received or driven (R138, R147). -/
def Wires.quiet : Wires :=
  { upReceived := silence, downReceived := silence, trunkAudio := none, lineAudio := none, feedWords := [],
    marker := false, report := none, lineSlot := 0, trunkSlot := 0 }

/-- A power-on entry: every field 0, with the given valid mark (R160). -/
def Entry.powerOn (t : TableId) (valid : Bool) : Entry :=
  { valid := valid, words := List.replicate t.entryLength 0 }

/-- A table after power-on reset: bank A ACTIVE, bank B SHADOW, the load CLOSED (R160, R163). -/
def Table.initial (t : TableId) (valid : Bool) : Table :=
  { bankA := List.replicate t.entries (.powerOn t valid), bankB := List.replicate t.entries (.powerOn t valid),
    active := .a, retiringTag := none, load := none }

/-- The table store after power-on reset: the defaults of SETTINGS are valid and have code 0 in every word (R160). -/
def TableStore.initial : TableStore :=
  { profile := .initial .profile false, tonePlan := .initial .tonePlan false, cadence := .initial .cadence false,
    faultPlan := .initial .faultPlan false, testPlan := .initial .testPlan false, settings := .initial .settings true }

/-- The device right after power-on reset: in HUNT, with every block at its power-on values (R147). -/
def State.reset : State :=
  { pending := [], highway := .initial, wires := .quiet, lines := Vector.replicate 48 .initial, engine := .initial,
    receiver := .initial, report := .initial, tables := .initial }

/-! ### Reasons a step could stop -/

/-- The faults of the device: none. The manual gives every command and event an effect on every state, a status or no
effect at all, so no meaning raises a fault. -/
inductive Fault where
  deriving DecidableEq, Repr

/-- The refusals of the model. -/
inductive Refusal where
  /-- Raised by an arm of `exec` for a command that has no meaning yet; safe, since nothing is then claimed of it.
  No arm raises it: every command has its meaning. -/
  | notModelled (mnemonic : String)
  deriving DecidableEq, Repr

end Sys2Proof.Machine
end

