-- ==== Sys2Proof/Machine/Codes.lean ====
section
/-! DEFINITION. The code of every named value and its reading (R171), and the packing of fields into words (R171 to R173). -/

namespace Sys2Proof.Machine

/-- Bits `hi` down to `lo` of a word, as an unsigned value. -/
def bits (w : Word16) (hi lo : Nat) : Nat := w.toNat / 2 ^ lo % 2 ^ (hi + 1 - lo)

/-- Bit `i` of a word. -/
def bitSet (w : Word16) (i : Nat) : Bool := w.toNat / 2 ^ i % 2 = 1

/-- A word made of fields, each a value and the position of its lowest bit; unassigned bits are 0 (R171). -/
def pack (fields : List (Nat × Nat)) : Word16 :=
  BitVec.ofNat 16 ((fields.map fun f => f.1 * 2 ^ f.2).sum)

/-- A word holding a signed value in two's complement. -/
def signedWord (v : Int) : Word16 := BitVec.ofInt 16 v

/-- The code of a flag (R171). -/
def flagCode (f : Bool) : Nat := if f then 1 else 0

/-- Feed codes (R171). -/
def feedCode : FeedCode → Nat
  | .opened => 0 | .standby => 1 | .forward => 2 | .reverse => 3 | .ring => 4 | .testTip => 5 | .testRing => 6

/-- The feed code a code names; 7 names none (R171). -/
def feedOfCode : Nat → Option FeedCode
  | 0 => some .opened | 1 => some .standby | 2 => some .forward | 3 => some .reverse | 4 => some .ring
  | 5 => some .testTip | 6 => some .testRing | _ => none

/-- Line states (R171). -/
def stateCode : LineState → Nat
  | .disabled => 0 | .idle => 1 | .seized => 2 | .dialling => 3 | .connected => 4 | .lockout => 5 | .ringing => 6
  | .fault => 7 | .test => 8

/-- A field that may hold an absent state: 15 stands for absent (R171). -/
def optStateCode : Option LineState → Nat
  | some st => stateCode st
  | none => 15

/-- STATE causes, in the order of the table of R4 (R171). -/
def causeCode : Cause → Nat
  | .enable => 0 | .disable => 1 | .seize => 2 | .firstDigit => 3 | .connect => 4 | .lockout => 5 | .release => 6
  | .ring => 7 | .answer => 8 | .ringEnd => 9 | .stopped => 10 | .fault => 11 | .faultCleared => 12 | .testEnd => 13

/-- Symbols (R171). -/
def symbolCode : Symbol → Nat
  | .digit d => d.val | .star => 10 | .hash => 11 | .a => 12 | .b => 13 | .c => 14 | .d => 15 | .flash => 16
  | .error => 17

/-- The symbol a key-map entry or a TERMINATOR holds; 31 is UNUSED or none, and no other code is valid there (R171, R172). -/
def symbolOfCode (c : Nat) : Option Symbol :=
  if h : c < 10 then some (.digit ⟨c, h⟩)
  else match c with
    | 10 => some .star | 11 => some .hash | 12 => some .a | 13 => some .b | 14 => some .c | 15 => some .d
    | _ => none

/-- Methods (R171). -/
def methodCode : Method → Nat
  | .pulse => 0 | .tone => 1 | .hook => 2 | .none => 3

/-- Error causes, 0 when absent (R171). -/
def errorCode : Option ErrorCause → Nat
  | none => 0 | some .badBreak => 1 | some .tooManyPulses => 2 | some .interrupted => 3

/-- Close reasons (R171). -/
def reasonCode : CloseReason → Nat
  | .flash => 0 | .terminator => 1 | .limit => 2 | .timeout => 3 | .release => 4 | .connect => 5 | .fault => 6
  | .disable => 7

/-- Reply status (R171). -/
def statusCode : Status → Nat
  | .ok => 0 | .check => 1 | .unknown => 2 | .length => 3 | .range => 4 | .state => 5 | .busy => 6 | .full => 7
  | .order => 8 | .incomplete => 9 | .truncated => 10

/-- Tables (R171). -/
def tableCode : TableId → Nat
  | .profile => 0 | .tonePlan => 1 | .cadence => 2 | .faultPlan => 3 | .testPlan => 4 | .settings => 5

/-- The table an argument word names (R171). -/
def tableOfWord (w : Word16) : Option TableId :=
  match w.toNat with
  | 0 => some .profile | 1 => some .tonePlan | 2 => some .cadence | 3 => some .faultPlan | 4 => some .testPlan
  | 5 => some .settings | _ => none

/-- Test kinds (R171). -/
def kindCode : TestKind → Nat
  | .foreign => 0 | .leak => 1 | .loopCheck => 2

/-- The test kind a code names (R171). -/
def kindOfCode : Nat → Option TestKind
  | 0 => some .foreign | 1 => some .leak | 2 => some .loopCheck | _ => none

/-- Origins (R171). -/
def originCode : Origin → Nat
  | .commanded => 0 | .sweep => 1

/-- Verdicts (R171). -/
def verdictCode : Verdict → Nat
  | .pass => 0 | .fail => 1 | .aborted => 2 | .skipped => 3

/-- Abort causes, 0 when absent (R171). -/
def abortCode : Option AbortCause → Nat
  | none => 0 | some .disabled => 1 | some .senseLost => 2 | some .syncLost => 3 | some .noEcho => 4

/-- Severities (R171). -/
def severityCode : Severity → Nat
  | .advisory => 0 | .hazard => 1

/-- The confirmed severity in a LINE_QUERY reply: 0 absent, 1 ADVISORY, 2 HAZARD (R173). -/
def optSeverityCode : Option Severity → Nat
  | none => 0 | some .advisory => 1 | some .hazard => 2

/-- Feed groups (R171). -/
def groupCode : FeedGroup → Nat
  | .opened => 0 | .standby => 1 | .loop => 2 | .ring => 3 | .test => 4

/-- The quantity a code names (R171). -/
def quantityOfCode : Nat → Option Quantity
  | 0 => some .tipDc | 1 => some .ringDc | 2 => some .tipAc | 3 => some .ringAc | 4 => some .loopI | _ => none

/-- Polarities (R171). -/
def polarityCode : Polarity → Nat
  | .forward => 0 | .reverse => 1

/-- The polarity an argument word names (R171). -/
def polarityOfWord (w : Word16) : Option Polarity :=
  match w.toNat with
  | 0 => some .forward | 1 => some .reverse | _ => none

/-- Loop states (R171). -/
def levelCode : Level → Nat
  | .noLoop => 0 | .loop => 1

/-- Tone states (R171). -/
def toneStateCode : ToneState → Nat
  | .quiet => 0 | .candidate => 1 | .on => 2 | .gap => 3

/-- Step phases, 0 when absent (R171). -/
def phaseCode : Option StepPhase → Nat
  | none => 0 | some .waitEcho => 1 | some .settle => 2 | some .measure => 3

/-- Banks (R171). -/
def bankCode : Bank → Nat
  | .a => 0 | .b => 1

/-- Roles (R171). -/
def roleCode : Role → Nat
  | .active => 0 | .shadow => 1 | .retiring => 2

/-- Sync states (R171). -/
def syncCode : SyncState → Nat
  | .hunt => 0 | .sync => 1

/-- The line field of a record: the line's number, or 63 for the device as a whole (R155, R173). -/
def lineCode : Option LineNo → Nat
  | some l => l.val
  | none => 63

/-- The line an argument word names; a number above 47 names none (R151). -/
def lineOfWord (w : Word16) : Option LineNo :=
  if h : w.toNat < 48 then some ⟨w.toNat, h⟩ else none

/-- The word that closes a message or a record: its sum with the words before it is 0 modulo 65,536 (R155, R172). -/
def checkWord (ws : List Word16) : Word16 := -ws.sum

end Sys2Proof.Machine
end

