-- ==== Sys2Proof/Machine/Operands.lean ====
section
/-! DEFINITION. Every form in which the device receives words: the control word, the sense status word, the argument words, and
the entries of the six tables with their validity (R58, R93, R108, R143, R161, R162, R171, R172). -/

namespace Sys2Proof.Machine

/-! ### Highway words -/

/-- The three flags of a management or report control word (R171). -/
structure ControlFlags where
  v : Bool
  s : Bool
  e : Bool
  deriving DecidableEq, Repr

/-- Bit 15 V, bit 14 S, bit 13 E; the other bits are ignored on receipt (R171). -/
def readControl (w : Word16) : ControlFlags := { v := bitSet w 15, s := bitSet w 14, e := bitSet w 13 }

/-- The control word the device sends with a report word (R171). -/
def writeControl (f : ControlFlags) : Word16 :=
  pack [(flagCode f.v, 15), (flagCode f.s, 14), (flagCode f.e, 13)]

/-- The echoed feed code of a VALID sense record: the valid flag is set and bits 2 to 0 name a feed code; none for an
invalid record (R143, R171). -/
def validEcho (status : Word16) : Option FeedCode :=
  if bitSet status 15 then feedOfCode (bits status 2 0) else none

/-- A sense value, signed and clamped to plus or minus 1,000 (R143). -/
def clampSense (w : Word16) : Int := max (-senseClamp) (min senseClamp w.toInt)

/-- A sense record as the highway interface hands it to a line's blocks (R143, R110): its values, whether it is held,
whether its echo changed the applied feed, and whether the line was sense-lost or in TEST at the handing. -/
structure Handed where
  i : Int
  vt : Int
  vr : Int
  held : Bool
  changed : Bool
  lost : Bool
  inTest : Bool
  deriving DecidableEq, Repr

/-! ### Table entries -/

/-- Word `i` of an entry, numbered from 1 as R172 numbers them. -/
def entryWord (ws : List Word16) (i : Nat) : Word16 := ws.getD (i - 1) 0

/-- Word `i` of an entry as an unsigned value. -/
def entryNat (ws : List Word16) (i : Nat) : Nat := (entryWord ws i).toNat

/-- Word `i` of an entry as a signed value. -/
def entryInt (ws : List Word16) (i : Nat) : Int := (entryWord ws i).toInt

/-- The fields of a PROFILE entry (R161, R172). -/
structure Profile where
  onThr : Nat
  offThr : Nat
  debounce : Nat
  feedMask : Nat
  maskMin : Nat
  maskFrac : Nat
  avgN : Nat
  seizeMin : Nat
  brkMin : Nat
  brkMax : Nat
  makeMin : Nat
  idtMin : Nat
  idtMult : Nat
  flashMin : Nat
  flashMax : Nat
  releaseMin : Nat
  lockoutT : Nat
  strTimeout : Nat
  strMax : Nat
  rtThr : Nat
  rtWin : Nat
  rtMask : Nat
  rtConf : Nat
  reportMode : ReportMode
  dialMode : Nat
  connTone : Bool
  mute : Bool
  terminator : Option Symbol
  deriving DecidableEq, Repr

/-- The PROFILE fields of an entry's words (R172). -/
def readProfile (ws : List Word16) : Profile :=
  let modes := entryWord ws 24
  { onThr := entryNat ws 1, offThr := entryNat ws 2, debounce := entryNat ws 3, feedMask := entryNat ws 4,
    maskMin := entryNat ws 5, maskFrac := entryNat ws 6, avgN := entryNat ws 7, seizeMin := entryNat ws 8,
    brkMin := entryNat ws 9, brkMax := entryNat ws 10, makeMin := entryNat ws 11, idtMin := entryNat ws 12,
    idtMult := entryNat ws 13, flashMin := entryNat ws 14, flashMax := entryNat ws 15, releaseMin := entryNat ws 16,
    lockoutT := entryNat ws 17, strTimeout := entryNat ws 18, strMax := entryNat ws 19, rtThr := entryNat ws 20,
    rtWin := entryNat ws 21, rtMask := entryNat ws 22, rtConf := entryNat ws 23,
    reportMode := if bitSet modes 15 then .string else .each, dialMode := bits modes 14 13,
    connTone := bitSet modes 12, mute := bitSet modes 11, terminator := symbolOfCode (bits modes 4 0) }

/-- DIAL_MODE is PULSE (1) or BOTH (3) (R31, R172). -/
def Profile.pulseDialling (p : Profile) : Bool := p.dialMode = 1 || p.dialMode = 3

/-- DIAL_MODE is TONE (2) or BOTH (3) (R59, R172). -/
def Profile.toneDialling (p : Profile) : Bool := p.dialMode = 2 || p.dialMode = 3

/-- The profile can run the tone engine, so the TONE_PLAN entry must be valid (R5, R9). -/
def Profile.needsTonePlan (p : Profile) : Bool := p.toneDialling || p.connTone

/-- A code that TERMINATOR or a key-map entry may hold (R172). -/
def validSymbolCode (c : Nat) : Bool := c ≤ 15 || c = 31

/-- A value within an inclusive range. -/
def within (lo hi v : Nat) : Bool := lo ≤ v && v ≤ hi

/-- A signed value within an inclusive range. -/
def withinInt (lo hi v : Int) : Bool := lo ≤ v && v ≤ hi

/-- Validity of a PROFILE entry (R161, R172). -/
def validProfile (ws : List Word16) : Bool :=
  let p := readProfile ws
  let modes := entryWord ws 24
  within 20 600 p.onThr && within 10 600 p.offThr && p.offThr + 10 ≤ p.onThr &&
  within 1 15 p.debounce && p.debounce < p.brkMin &&
  within 0 50 p.feedMask && within 0 20 p.maskMin && within 0 127 p.maskFrac &&
  (p.avgN = 1 || p.avgN = 2 || p.avgN = 4 || p.avgN = 8) &&
  within 10 500 p.seizeMin && within 10 200 p.brkMin && within p.brkMin 250 p.brkMax && within 5 200 p.makeMin &&
  within 50 1000 p.idtMin && within 0 255 p.idtMult &&
  within (p.brkMax + 1) 1998 p.flashMin && within p.flashMin 1998 p.flashMax &&
  within (p.flashMax + 1) 2000 p.releaseMin &&
  (p.lockoutT = 0 || within 1000 65535 p.lockoutT) &&
  within 500 20000 p.strTimeout && within 1 32 p.strMax &&
  within 20 600 p.rtThr && within 10 50 p.rtWin && within 0 200 p.rtMask && within 1 15 p.rtConf &&
  p.dialMode != 0 && validSymbolCode (bits modes 4 0) && bits modes 10 5 = 0

/-- The fields of the TONE_PLAN entry (R58, R172). -/
structure TonePlan where
  coefficients : Vector Int 8
  n : Nat
  eMin : Nat
  twf : Nat
  twr : Nat
  dom : Nat
  frac : Nat
  onBlocks : Nat
  offBlocks : Nat
  deriving DecidableEq, Repr

/-- The TONE_PLAN fields of an entry's words (R172); the key map is read by `keyMapCode`. -/
def readTonePlan (ws : List Word16) : TonePlan :=
  { coefficients := Vector.ofFn fun k : Fin 8 => entryInt ws (k.val + 1), n := entryNat ws 9,
    eMin := entryNat ws 10 * 65536 + entryNat ws 11, twf := entryNat ws 12, twr := entryNat ws 13,
    dom := entryNat ws 14, frac := entryNat ws 15, onBlocks := entryNat ws 16, offBlocks := entryNat ws 17 }

/-- The code of key-map entry `i`: word 18 + i/2 holds the even entry in bits 12 to 8, the odd one in bits 4 to 0 (R172). -/
def keyMapCode (ws : List Word16) (i : Nat) : Nat :=
  let w := entryWord ws (18 + i / 2)
  if i % 2 = 0 then bits w 12 8 else bits w 4 0

/-- Key-map entry `i`, none for UNUSED (R58). -/
def keyMapEntry (ws : List Word16) (i : Nat) : Option Symbol := symbolOfCode (keyMapCode ws i)

/-- Validity of the TONE_PLAN entry (R58, R162, R172). -/
def validTonePlan (ws : List Word16) : Bool :=
  let p := readTonePlan ws
  ((List.range 8).all fun k => withinInt (-32767) 32767 (entryInt ws (k + 1))) &&
  within 80 256 p.n && within 0 255 p.twf && within 0 255 p.twr && within 16 255 p.dom && within 0 16 p.frac &&
  within 1 8 p.onBlocks && within 1 8 p.offBlocks &&
  ((List.range 16).all fun i => validSymbolCode (keyMapCode ws i)) &&
  ((List.range 8).all fun j =>
    let w := entryWord ws (18 + j)
    bits w 15 13 = 0 && bits w 7 5 = 0)

/-- Duration of cadence step `n`, 1 to 6 (R93, R172). -/
def cadenceDuration (ws : List Word16) (n : Nat) : Nat := entryNat ws n

/-- Step `n` is the last step of the pattern: it is step 6, or the step after it has duration 0 (R93). -/
def lastCadenceStep (ws : List Word16) (n : Nat) : Bool := 6 ≤ n || cadenceDuration ws (n + 1) = 0

/-- Validity of a CADENCE entry (R93, R162). -/
def validCadence (ws : List Word16) : Bool :=
  ((List.range 6).all fun k => within 0 10000 (cadenceDuration ws (k + 1))) && 0 < cadenceDuration ws 1

/-- The band thresholds of FAULT_PLAN entry 0 (R108, R172). -/
structure BandThresholds where
  dc1 : Int
  dc2 : Int
  dc3 : Int
  ac1 : Int
  ac2 : Int
  ac3 : Int
  lp1 : Int
  lp2 : Int
  lp3 : Int
  deriving DecidableEq, Repr

/-- The thresholds of entry 0's words: DC signed, AC and LP unsigned (R172). -/
def readThresholds (ws : List Word16) : BandThresholds :=
  { dc1 := entryInt ws 1, dc2 := entryInt ws 2, dc3 := entryInt ws 3, ac1 := entryNat ws 4, ac2 := entryNat ws 5,
    ac3 := entryNat ws 6, lp1 := entryNat ws 7, lp2 := entryNat ws 8, lp3 := entryNat ws 9 }

/-- Validity of FAULT_PLAN entry 0: thresholds in range and strictly rising (R108, R162). -/
def validThresholds (ws : List Word16) : Bool :=
  let t := readThresholds ws
  withinInt (-1000) 1000 t.dc1 && withinInt (-1000) 1000 t.dc3 && t.dc1 < t.dc2 && t.dc2 < t.dc3 &&
  withinInt 0 1000 t.ac1 && withinInt 0 1000 t.ac3 && t.ac1 < t.ac2 && t.ac2 < t.ac3 &&
  withinInt 0 1000 t.lp1 && withinInt 0 1000 t.lp3 && t.lp1 < t.lp2 && t.lp2 < t.lp3

/-- A wanted value with its care flag (R108). -/
structure Wanted where
  care : Bool
  value : Nat
  deriving DecidableEq, Repr

/-- The fields of FAULT_PLAN entries 1 to 16 (R108, R172). -/
structure ClassEntry where
  enabled : Bool
  tdc : Wanted
  rdc : Wanted
  tac : Wanted
  rac : Wanted
  ilp : Wanted
  group : Wanted
  faultClass : Nat
  severity : Severity
  confirmCount : Nat
  clearCount : Nat
  deriving DecidableEq, Repr

/-- The class pattern of an entry's words (R172). -/
def readClassEntry (ws : List Word16) : ClassEntry :=
  let w1 := entryWord ws 1
  let w2 := entryWord ws 2
  let w3 := entryWord ws 3
  { enabled := bitSet w1 15, tdc := ⟨bitSet w1 5, bits w2 15 14⟩, rdc := ⟨bitSet w1 4, bits w2 13 12⟩,
    tac := ⟨bitSet w1 3, bits w2 11 10⟩, rac := ⟨bitSet w1 2, bits w2 9 8⟩, ilp := ⟨bitSet w1 1, bits w2 7 6⟩,
    group := ⟨bitSet w1 0, bits w2 2 0⟩, faultClass := bits w3 15 12,
    severity := if bitSet w3 8 then .hazard else .advisory, confirmCount := bits w3 7 4, clearCount := bits w3 3 0 }

/-- Validity of FAULT_PLAN entries 1 to 16: every field in range and every unassigned bit 0 (R108, R162, R171). -/
def validClassEntry (ws : List Word16) : Bool :=
  let e := readClassEntry ws
  bits (entryWord ws 1) 14 6 = 0 && bits (entryWord ws 2) 5 3 = 0 && bits (entryWord ws 3) 11 9 = 0 &&
  e.group.value ≤ 4 && within 1 15 e.confirmCount && within 1 15 e.clearCount &&
  ((List.range 6).all fun k => entryNat ws (k + 4) = 0)

/-- The fields of a TEST_PLAN entry (R162, R172). -/
structure TestStep where
  enabled : Bool
  feed : FeedCode
  quantity : Quantity
  settle : Nat
  measure : Nat
  lower : Int
  upper : Int
  deriving DecidableEq, Repr

/-- The step of an entry's words. A code that names no value is read only in an entry that is not valid, which no test
runs; it is read there as the value of code 0 (R162, R172). -/
def readTestStep (ws : List Word16) : TestStep :=
  let w1 := entryWord ws 1
  { enabled := bitSet w1 15, feed := (feedOfCode (bits w1 10 8)).getD .opened,
    quantity := (quantityOfCode (bits w1 2 0)).getD .tipDc, settle := entryNat ws 2, measure := entryNat ws 3,
    lower := entryInt ws 4, upper := entryInt ws 5 }

/-- Validity of a TEST_PLAN entry; a feed code of RING makes it invalid (R162, R172). -/
def validTestStep (ws : List Word16) : Bool :=
  let w1 := entryWord ws 1
  let feed := bits w1 10 8
  bits w1 14 11 = 0 && bits w1 7 3 = 0 && feed ≤ 6 && feed != feedCode .ring && bits w1 2 0 ≤ 4 &&
  within 0 500 (entryNat ws 2) && within 1 1000 (entryNat ws 3) &&
  withinInt (-1000) 1000 (entryInt ws 4) && withinInt (-1000) 1000 (entryInt ws 5) && entryInt ws 4 ≤ entryInt ws 5

/-- The fields of the SETTINGS entry (R162, R172). -/
structure Settings where
  sweepPeriod : Nat
  sweepKind : TestKind
  alarmAdvisory : Bool
  deriving DecidableEq, Repr

/-- The settings of the entry's words, which are always those of a valid entry (R160, R172). -/
def readSettings (ws : List Word16) : Settings :=
  { sweepPeriod := entryNat ws 1, sweepKind := (kindOfCode (entryNat ws 2)).getD .foreign,
    alarmAdvisory := entryNat ws 3 = 1 }

/-- Validity of the SETTINGS entry (R162). -/
def validSettings (ws : List Word16) : Bool :=
  entryNat ws 1 ≤ 3600 && entryNat ws 2 ≤ 2 && entryNat ws 3 ≤ 1

/-- Validity of an entry of a table, read under the layout of the index it is written at (R161, R162, R165, R172). -/
def validEntry (t : TableId) (index : Nat) (ws : List Word16) : Bool :=
  match t with
  | .profile => validProfile ws
  | .tonePlan => validTonePlan ws
  | .cadence => validCadence ws
  | .faultPlan => if index = 0 then validThresholds ws else validClassEntry ws
  | .testPlan => validTestStep ws
  | .settings => validSettings ws

end Sys2Proof.Machine
end

