-- ==== Sys2Proof/Machine/Ops.lean ====
section
/-! DEFINITION. The named operations over lines, tables and the parameters a line is bound to: access, the bank selectors and the
users of a bank, the profile and the plans that govern a line, and the commanded feed (R2, R3, R160, R163, R168). -/

namespace Sys2Proof.Machine

/-! ### Lines -/

/-- The context of a line. -/
def State.line (s : State) (l : LineNo) : Line := s.lines.get l

/-- The state with a line's context replaced. -/
def setLine (l : LineNo) (c : Line) (s : State) : State := { s with lines := s.lines.set l.val c l.isLt }

/-- The state with a line's context changed. -/
def modLine (l : LineNo) (f : Line → Line) (s : State) : State := setLine l (f (s.line l)) s

/-- The state with every line's context changed. -/
def mapLines (f : Line → Line) (s : State) : State := { s with lines := Vector.ofFn fun i => f (s.line i) }

/-- The stamp of the multiframe under way (R139). -/
def State.stamp (s : State) : Stamp := s.highway.stamp

/-- The distance from an earlier stamp to a later one, modulo 65,536 (section 4.2 of the scope file). -/
def stampDistance (later earlier : Stamp) : Nat := (later - earlier).toNat

/-- A timer advanced by 1, stopping at its stop value (section 4.1 of the scope file). -/
def advance (stop t : Nat) : Nat := min stop (t + 1)

/-! ### Tables -/

/-- The other bank. -/
def Bank.other : Bank → Bank
  | .a => .b
  | .b => .a

/-- A table of the store. -/
def TableStore.get (ts : TableStore) : TableId → Table
  | .profile => ts.profile
  | .tonePlan => ts.tonePlan
  | .cadence => ts.cadence
  | .faultPlan => ts.faultPlan
  | .testPlan => ts.testPlan
  | .settings => ts.settings

/-- The store with one table replaced. -/
def TableStore.set (ts : TableStore) (t : TableId) (tb : Table) : TableStore :=
  match t with
  | .profile => { ts with profile := tb }
  | .tonePlan => { ts with tonePlan := tb }
  | .cadence => { ts with cadence := tb }
  | .faultPlan => { ts with faultPlan := tb }
  | .testPlan => { ts with testPlan := tb }
  | .settings => { ts with settings := tb }

/-- The entries of a bank. -/
def Table.bank (tb : Table) : Bank → List Entry
  | .a => tb.bankA
  | .b => tb.bankB

/-- The table with the entries of a bank replaced. -/
def Table.setBank (tb : Table) (bank : Bank) (es : List Entry) : Table :=
  match bank with
  | .a => { tb with bankA := es }
  | .b => { tb with bankB := es }

/-- The role of a bank (R163). -/
def Table.role (tb : Table) (bank : Bank) : Role :=
  if bank = tb.active then .active else if tb.retiringTag.isSome then .retiring else .shadow

/-- A table of the device. -/
def State.table (s : State) (t : TableId) : Table := s.tables.get t

/-- The device with a table replaced. -/
def setTable (t : TableId) (tb : Table) (s : State) : State := { s with tables := s.tables.set t tb }

/-- The ACTIVE bank of a table. -/
def State.activeBank (s : State) (t : TableId) : Bank := (s.table t).active

/-- An entry of a bank; beyond the table's end, an entry that is not valid. -/
def State.entry (s : State) (t : TableId) (bank : Bank) (i : Nat) : Entry :=
  ((s.table t).bank bank).getD i ⟨false, []⟩

/-- The entry is valid in the table's ACTIVE bank. -/
def State.activeValid (s : State) (t : TableId) (i : Nat) : Bool := (s.entry t (s.activeBank t) i).valid

/-- The words of an entry of the ACTIVE bank. -/
def State.activeWords (s : State) (t : TableId) (i : Nat) : List Word16 := (s.entry t (s.activeBank t) i).words

/-- The SETTINGS in force: entry 0 of the ACTIVE bank (R160). -/
def State.settings (s : State) : Settings := readSettings (s.activeWords .settings 0)

/-- The bank a line's selector names, for the four line tables (R1, R160). -/
def Line.selector (c : Line) : TableId → Option Bank
  | .profile => some c.profileBank
  | .tonePlan => some c.toneBank
  | .cadence => some c.cadenceBank
  | .faultPlan => some c.faultBank
  | .testPlan => none
  | .settings => none

/-- The users of a bank: the lines whose selector names it, and for TEST_PLAN the engine while it holds it (R160). -/
def State.users (s : State) (t : TableId) (bank : Bank) : Nat :=
  match t with
  | .testPlan => if s.engine.bank = some bank then 1 else 0
  | _ => s.lines.toList.countP fun c => c.selector t = some bank

/-! ### What governs a line -/

/-- The profile a line context is bound to (R1, R160). -/
def State.profileFor (s : State) (c : Line) : Profile :=
  readProfile (s.entry .profile c.profileBank c.profileIndex).words

/-- The profile a line is bound to. -/
def State.profile (s : State) (l : LineNo) : Profile := s.profileFor (s.line l)

/-- The words of the TONE_PLAN entry a line is bound to (R58). -/
def State.toneWords (s : State) (l : LineNo) : List Word16 := (s.entry .tonePlan (s.line l).toneBank 0).words

/-- The words of the CADENCE entry a ringing line is bound to (R93). -/
def State.cadenceWords (s : State) (l : LineNo) : List Word16 :=
  (s.entry .cadence (s.line l).cadenceBank ((s.line l).ring.cadence.getD 0)).words

/-- A step with an odd number is a ring-on step (R92). -/
def ringOnStep (step : Option Nat) : Bool := step.getD 0 % 2 = 1

/-- The states in which the loop detector times breaks (R22). -/
def timesBreaks (st : LineState) : Bool :=
  st = .seized || st = .dialling || st = .connected || st = .lockout

/-- The pulse engine runs: SEIZED or DIALLING under pulse dialling (R41). -/
def pulseRuns (p : Profile) (st : LineState) : Bool := (st = .seized || st = .dialling) && p.pulseDialling

/-- The tone engine runs: SEIZED or DIALLING under tone dialling, or CONNECTED under CONN_TONE (R59). -/
def toneRuns (p : Profile) (st : LineState) : Bool :=
  ((st = .seized || st = .dialling) && p.toneDialling) || (st = .connected && p.connTone)

/-- A digit in progress: a pulse count, a break, or a tone state other than QUIET (R11). -/
def Line.digitInProgress (c : Line) : Bool :=
  1 ≤ c.pulse.count || c.loop.brk.isSome || c.tone.state != .quiet

/-- The buffer fill: the entries held, due and open together (R78). -/
def Line.fill (c : Line) : Nat :=
  (c.due.map fun
    | .string _ _ es => es.length
    | .single _ _ => 1).sum + c.openString.length

/-- The line has backlog: a due item, or its state-lost flag (R87, R158). -/
def Line.backlog (c : Line) : Bool := !c.due.isEmpty || c.stateLost

/-! ### Feed -/

/-- The step of the TEST_PLAN program that the engine is at (R123, R162). -/
def State.testStepAt (s : State) (step : Nat) : Entry :=
  s.entry .testPlan (s.engine.bank.getD .a) ((s.engine.held.map fun r => 4 * kindCode r.kind).getD 0 + (step - 1))

/-- The step under way. -/
def State.currentStep (s : State) : TestStep := readTestStep (s.testStepAt (s.engine.step.getD 1)).words

/-- The feed code of a polarity. -/
def polarityFeed : Polarity → FeedCode
  | .forward => .forward
  | .reverse => .reverse

/-- The commanded feed that R2 gives a line by its state. -/
def State.feedFor (s : State) (c : Line) : FeedCode :=
  match c.state with
  | .disabled => .opened
  | .idle => .standby
  | .seized => .forward
  | .dialling => .forward
  | .connected => polarityFeed c.polarity
  | .lockout => .standby
  | .ringing => if ringOnStep c.ring.step then .ring else .standby
  | .fault => .opened
  | .test => s.currentStep.feed

/-- Recomputes a line's commanded feed (R2). -/
def refreshFeed (l : LineNo) (s : State) : State :=
  modLine l (fun c => { c with commandedFeed := s.feedFor c }) s

/-! ### Starts and stops of a line's blocks -/

/-- The detector at a start or stop: the values of R22, with the feed-mask count kept (R22, R35). -/
def Line.restartDetector (c : Line) : Line := { c with loop := .initial c.loop.feedMask }

/-- The pulse count returns to 0 and the stamps are removed; the history and Tbase are kept (R41, R53). -/
def Line.discardPulse (c : Line) : Line :=
  { c with pulse := { c.pulse with count := 0, digitStart := none, lastBreak := none } }

/-- The tone engine stops, dropping what it holds (R60). -/
def Line.stopTone (c : Line) : Line := { c with tone := .initial }

/-- The tone engine starts afresh: RUNNING, or HELD in HUNT and on a sense-lost line (R59). -/
def startTone (alignment : SyncState) (c : Line) : Line :=
  { c with tone := { ToneEngine.initial with run := if alignment = .hunt || c.senseLost then .held else .running } }

/-- The block under way is abandoned or complete: recursions, sample count and power sum return to 0 (R19, R60, R62, R67), and
its start stamp is absent until the next block's first sample (the model's choice, notes/assumptions/30.md). -/
def ToneEngine.abandonBlock (t : ToneEngine) : ToneEngine :=
  { t with bins := clearedBins, sampleCount := 0, power := 0, blockStart := none }

/-- A RUNNING tone engine becomes HELD (R61). -/
def Line.holdTone (c : Line) : Line :=
  if c.tone.run = .running then { c with tone := { c.tone with run := .held } } else c

/-- The ring sequencer stops (R92). -/
def Line.stopRing (c : Line) : Line := { c with ring := .initial }

/-- A digit in progress is discarded: the pulse count, the tone digit, the break (R6, R16). -/
def Line.dropDigits (c : Line) : Line := c.discardPulse.stopTone.restartDetector

end Sys2Proof.Machine
end

