-- ==== Sys2Proof/Machine/Flags.lean ====
section
/-! DEFINITION. Offering records to the three queues, with the flags that tell of a record that found no room: alarm-lost,
state-lost, overrun, and the backlog (R82, R87, R88, R155, R157, R158), and the release of a RETIRING bank (R168). -/

namespace Sys2Proof.Machine

/-- A record of the multiframe under way. -/
def State.record (s : State) (line : Option LineNo) (p : Payload) : Record :=
  { line := line, stamp := s.stamp, alarmLost := false, payload := p }

/-- Offers an ALARM record: kept with the alarm-lost flag, which is then cleared, or discarded with the flag set (R157). -/
def offerAlarm (line : Option LineNo) (p : Payload) (s : State) : State :=
  if s.report.alarm.length < alarmCapacity then
    { s with report := { s.report with
        alarm := s.report.alarm ++ [{ s.record line p with alarmLost := s.report.alarmLost }], alarmLost := false } }
  else { s with report := { s.report with alarmLost := true } }

/-- Offers a REPLY record: kept, or discarded when the queue is full (R157). -/
def offerReply (line : Option LineNo) (p : Payload) (s : State) : State :=
  if s.report.reply.length < replyCapacity then
    { s with report := { s.report with reply := s.report.reply ++ [s.record line p] } }
  else s

/-- Puts a record at the back of the SIGNAL queue. -/
def pushSignal (r : Record) (s : State) : State :=
  { s with report := { s.report with signal := s.report.signal ++ [r] } }

/-- A SIGNAL record of the line would be kept: the queue has room and the line has no backlog (R158). -/
def State.signalKeeps (s : State) (l : LineNo) : Bool :=
  s.report.signal.length < signalCapacity && !(s.line l).backlog

/-- Offers a STATE record; one that is not kept sets the state-lost flag (R4, R158). Its stamp is that of the change, as R4
gives it, for every cause (the model's choice against R39, notes/assumptions/29.md). -/
def offerState (l : LineNo) (new old : LineState) (cause : Cause) (s : State) : State :=
  if s.signalKeeps l then pushSignal (s.record (some l) (.state new old cause)) s
  else modLine l (fun c => { c with stateLost := true }) s

/-- The record of a due item, carrying the overrun flag (R87, R88). -/
def itemRecord (l : LineNo) (overrun : Bool) : DueItem → Record
  | .string reason closed es => ⟨some l, closed, false, .digits overrun reason es⟩
  | .single made e => ⟨some l, made, false, .digit overrun e⟩

/-- The record of an item is kept: it takes the overrun flag away (R88). -/
def keepItem (l : LineNo) (item : DueItem) (s : State) : State :=
  pushSignal (itemRecord l (s.line l).overrun item) (modLine l (fun c => { c with overrun := false }) s)

/-- Offers the record of an item that has become due: kept, or the item stays in the buffer behind the due items (R87). -/
def offerItem (l : LineNo) (item : DueItem) (s : State) : State :=
  if s.signalKeeps l then keepItem l item s
  else modLine l (fun c => { c with due := c.due ++ [item] }) s

/-- A RETIRING bank without a user becomes SHADOW, and COMMIT_DONE is offered with the stored tag (R168). -/
def releaseBank (t : TableId) (s : State) : State :=
  match (s.table t).retiringTag with
  | none => s
  | some tag =>
    if s.users t (s.activeBank t).other = 0 then
      offerReply none (.commitDone t tag) (setTable t { s.table t with retiringTag := none } s)
    else s

/-- The tables that have users, in table code order (R160). -/
def userTables : List TableId := [.profile, .tonePlan, .cadence, .faultPlan, .testPlan]

/-- The table store completes every migration whose last user has moved. It does so where that user binds the ACTIVE bank or the
test engine returns its bank, and for a command behind the command's reply (R133, R151, R168, notes/assumptions/18.md). -/
def releaseBanks (s : State) : State := userTables.foldl (fun s t => releaseBank t s) s

end Sys2Proof.Machine
end

