-- ==== Sys2Proof/Machine/LineStates.lean ====
section
/-! DEFINITION. The line state machine (Chapter 1): closing the open string, applying a profile, the rest-point examination, and
the one operation by which a line enters a state. -/

namespace Sys2Proof.Machine

/-! ### Closing a string -/

/-- Closes the open string, if any: it becomes a closed string with the reason and the stamp at the event, both timers
return to 0, and its DIGITS record is offered (R12, R83, R84 to R87). -/
def closeString (l : LineNo) (reason : CloseReason) (s : State) : State :=
  let c := s.line l
  if c.openString.isEmpty then s
  else offerItem l (.string reason s.stamp c.openString)
    (modLine l (fun c => { c with openString := [], stringTimer := 0, lockoutTimer := 0 }) s)

/-! ### Profiles and selectors -/

/-- Tbase: the mean of the newest AVG_N periods, rounded down, or 0 for an empty history (R46). -/
def tbaseOf (avgN : Nat) (history : List Nat) : Nat :=
  let taken := history.drop (history.length - min avgN history.length)
  taken.sum / taken.length

/-- The tone engine starts or stops as the new profile newly includes or excludes it (R20, R59, R60). -/
def switchTone (s : State) (old new : Profile) (c : Line) : Line :=
  if toneRuns new c.state && !toneRuns old c.state then startTone s.highway.sync c
  else if toneRuns old c.state && !toneRuns new c.state then c.stopTone
  else c

/-- The pulse engine stops when the new profile excludes it; Tbase follows a new AVG_N (R41, R46, R56). -/
def switchPulse (old new : Profile) (c : Line) : Line :=
  let c := if pulseRuns old c.state && !pulseRuns new c.state then c.discardPulse else c
  if new.avgN = old.avgN then c
  else { c with pulse := { c.pulse with tbase := tbaseOf new.avgN c.pulse.history } }

/-- Binds a line to a profile of the ACTIVE bank, with the effects of R20: dialling methods, Tbase, and the close of an
open string when the reporting mode goes from STRING to EACH (R20, R56, R85; for a rebinding of the same index,
notes/assumptions/13.md). -/
def adoptProfile (l : LineNo) (index : Nat) (s : State) : State :=
  let old := s.profile l
  let s := modLine l (fun c => { c with profileIndex := index, profileBank := s.activeBank .profile }) s
  let new := s.profile l
  let s := modLine l (fun c => switchPulse old new (switchTone s old new c)) s
  if old.reportMode = .string && new.reportMode = .each then closeString l .timeout s else s

/-- Applies a pending profile index, and removes it (R19 step 1, R20). -/
def applyPending (l : LineNo) (s : State) : State :=
  match (s.line l).pendingProfile with
  | none => s
  | some index => adoptProfile l index (modLine l (fun c => { c with pendingProfile := none }) s)

/-- Binds the PROFILE selector to the ACTIVE bank if it names another (R19 step 2). -/
def bindProfile (l : LineNo) (s : State) : State :=
  if (s.line l).profileBank = s.activeBank .profile then s else adoptProfile l (s.line l).profileIndex s

/-- Binds the TONE_PLAN selector to the ACTIVE bank if it names another; a running engine abandons its block (R19 step 3). -/
def bindTonePlan (l : LineNo) (s : State) : State :=
  if (s.line l).toneBank = s.activeBank .tonePlan then s
  else modLine l (fun c => { c with
    toneBank := s.activeBank .tonePlan, tone := if c.tone.run = .running then c.tone.abandonBlock else c.tone }) s

/-- Binds the CADENCE selector of a line that is not RINGING to the ACTIVE bank (R19, R106). -/
def bindCadence (l : LineNo) (s : State) : State :=
  if (s.line l).state = .ringing then s
  else modLine l (fun c => { c with cadenceBank := s.activeBank .cadence }) s

/-- The line is at a rest point (R19). -/
def Line.atRest (c : Line) : Bool :=
  match c.state with
  | .disabled | .idle | .lockout | .fault => true
  | .seized | .dialling | .connected => c.loop.debounced = .loop && c.pulse.count = 0 && c.tone.state = .quiet
  | .ringing | .test => false

/-- The line examines its position (R19). -/
def examine (l : LineNo) (s : State) : State :=
  bindCadence l (if (s.line l).atRest then bindTonePlan l (bindProfile l (applyPending l s)) else s)

/-! ### Entering a state -/

/-- Enters a state without a STATE record: `f` makes the changes of the line's blocks that go with the transition, and the
commanded feed follows the state (R2). -/
def changeState (l : LineNo) (new : LineState) (f : Line → Line) (s : State) : State :=
  refreshFeed l (modLine l (fun c => { f c with state := new }) s)

/-- Enters a state, offers its STATE record, and examines the line's position (R2, R4, R19). -/
def enter (l : LineNo) (new : LineState) (cause : Cause) (f : Line → Line) (s : State) : State :=
  examine l (offerState l new (s.line l).state cause (changeState l new f s))

/-- An event moves the line to a state, and the migrations that the change of state completes are reported at once (R168). A
command enters a state by `enter` alone: the table store acts behind the command's reply (R151). -/
def move (l : LineNo) (new : LineState) (cause : Cause) (f : Line → Line) (s : State) : State :=
  releaseBanks (enter l new cause f s)

/-- Seizure: SEIZED, the lockout timer and the history at 0, the tone engine started under tone dialling (R10, R45, R59). -/
def enterSeized (l : LineNo) (s : State) : State :=
  let p := s.profile l
  move l .seized .seize (fun c =>
    let c := { c with lockoutTimer := 0, pulse := .initial }
    if p.toneDialling then startTone s.highway.sync c else c) s

/-- Lockout: the detector continues, the pulse and tone engines stop (R12, R13, R60). -/
def enterLockout (l : LineNo) (s : State) : State :=
  move l .lockout .lockout (fun c => c.discardPulse.stopTone) s

/-- The detector at a release: the break and a pending make are removed, the levels are NO_LOOP, the make timer is 0, and a
debounce run in progress is kept (R34). -/
def LoopDetector.released (d : LoopDetector) : LoopDetector :=
  { d with brk := none, pendingMake := false, accepted := .noLoop, debounced := .noLoop, makeTimer := 0 }

/-- Release: the string closes, the digit in progress is discarded, the polarity returns to FORWARD (R14, R34). -/
def enterReleased (l : LineNo) (s : State) : State :=
  move l .idle .release (fun c => { c.discardPulse.stopTone with loop := c.loop.released, polarity := .forward })
    (closeString l .release s)

/-- A confirmed hazard on a working line: the string closes, ringing and the digit in progress end, the engines and the
detector stop, the polarity returns to FORWARD (R16, R104). -/
def enterFault (l : LineNo) (s : State) : State :=
  move l .fault .fault (fun c => { c.dropDigits.stopRing with polarity := .forward }) (closeString l .fault s)

/-- A line in FAULT whose class is no longer HAZARD returns to IDLE, where its detector starts (R17). -/
def leaveFault (l : LineNo) (s : State) : State := move l .idle .faultCleared (·.restartDetector) s

/-- Ringing ends without answer: the detector continues from a ring-off step and restarts from a ring-on step (R15, R96, R97). -/
def endRinging (l : LineNo) (cause : Cause) (s : State) : State :=
  enter l .idle cause (fun c =>
    (if ringOnStep c.ring.step then c.restartDetector else c).stopRing) s

/-- The detector at answer: LOOP, stamped at the ring-trip, with no run, break, pending make or edge mask (R35; the fields
that R35 does not name keep their values, notes/assumptions/17.md). -/
def LoopDetector.answered (d : LoopDetector) (stamp : Stamp) : LoopDetector :=
  { d with accepted := .loop, debounced := .loop, transition := some stamp, run := none, edgeExpiry := none,
           brk := none, pendingMake := false, makeTimer := 0 }

/-- Answer: the sequencer stops, the polarity is FORWARD, the detector takes LOOP, and the tone engine starts under
CONN_TONE (R15, R103). -/
def enterAnswered (l : LineNo) (s : State) : State :=
  let p := s.profile l
  move l .connected .answer (fun c =>
    let c := { c.stopRing with polarity := .forward, loop := c.loop.answered s.stamp }
    if p.connTone then startTone s.highway.sync c else c) s

end Sys2Proof.Machine
end

