-- ==== Sys2Proof/Machine/Collector.lean ====
section
/-! DEFINITION. The digit collector (Chapter 5): taking an entry, the closing checks, the string timer and its timeout. -/

namespace Sys2Proof.Machine

/-- The reason with which an entry that has joined the open string closes it, if it does; the first that holds (R84). -/
def closingReason (p : Profile) (entry : DigitEntry) (length : Nat) : Option CloseReason :=
  if entry.symbol = .flash then some .flash
  else if p.terminator = some entry.symbol then some .terminator
  else if p.strMax ≤ length then some .limit
  else none

/-- An entry takes the STRING route: SEIZED or DIALLING under REPORT_MODE STRING (R81). -/
def stringRoute (p : Profile) (st : LineState) : Bool :=
  (st = .seized || st = .dialling) && p.reportMode = .string

/-- Steps 2 and 3 of R80: places the entry, or discards it with the overrun flag set, and makes the closing checks
(R81, R82, R84). -/
def placeEntry (l : LineNo) (entry : DigitEntry) (s : State) : State :=
  let c := s.line l
  let p := s.profile l
  if bufferCapacity ≤ c.fill then modLine l (fun c => { c with overrun := true }) s
  else if stringRoute p c.state then
    let s := modLine l (fun c => { c with openString := c.openString ++ [entry] }) s
    match closingReason p entry (s.line l).openString.length with
    | some reason => closeString l reason s
    | none => s
  else offerItem l (.single s.stamp entry) s

/-- The collector takes an entry (R80): both timers return to 0, the entry is placed or discarded, the string is checked,
and the first entry of a SEIZED line moves it to DIALLING (R11). -/
def takeEntry (l : LineNo) (entry : DigitEntry) (s : State) : State :=
  let s := modLine l (fun c => { c with lockoutTimer := 0, stringTimer := 0, entryMark := true }) s
  let s := placeEntry l entry s
  if (s.line l).state = .seized then move l .dialling .firstDigit id s else s

/-- An ERROR entry (R79). -/
def errorEntry (cause : ErrorCause) (start : Stamp) : DigitEntry :=
  { symbol := .error, method := .none, start := start, pulses := none, period := none, duration := none,
    error := some cause }

/-! ### The lockout and string timers -/

/-- What holds both timers still at a record: a digit in progress, or an entry since the previous record used (R12, R83). -/
def Line.timersHeld (c : Line) : Bool := c.digitInProgress || c.entryMark

/-- The line is SEIZED or DIALLING. -/
def dialling (st : LineState) : Bool := st = .seized || st = .dialling

/-- LOCKOUT: the timer has reached LOCKOUT_T on a SEIZED line, or on a DIALLING line with no open string (R12). -/
def lockoutDue (s : State) (l : LineNo) : Bool :=
  let c := s.line l
  let p := s.profile l
  p.lockoutT != 0 && p.lockoutT ≤ c.lockoutTimer && !c.timersHeld &&
    (c.state = .seized || (c.state = .dialling && c.openString.isEmpty))

/-- Moves the line to LOCKOUT if that is due (R12). -/
def lockoutIfDue (l : LineNo) (s : State) : State := if lockoutDue s l then enterLockout l s else s

/-- The lockout timer's advance at a record, and the move to LOCKOUT it brings (R12). -/
def advanceLockout (l : LineNo) (s : State) : State :=
  let c := s.line l
  if dialling c.state && !c.timersHeld then
    lockoutIfDue l (modLine l (fun c => { c with lockoutTimer := advance timerStop c.lockoutTimer }) s)
  else s

/-- The pause since the last entry has reached STR_TIMEOUT (R85). -/
def stringTimeoutDue (s : State) (l : LineNo) : Bool :=
  let c := s.line l
  !c.openString.isEmpty && (s.profile l).strTimeout ≤ c.stringTimer && !c.timersHeld

/-- The two comparisons of an open string at a record, in order: its length with STR_MAX where `limit` says that it is
compared, and then the timer with STR_TIMEOUT (R85). -/
def compareString (l : LineNo) (limit : Bool) (s : State) : State :=
  if limit && (s.profile l).strMax ≤ (s.line l).openString.length then closeString l .limit s
  else if stringTimeoutDue s l then closeString l .timeout s
  else s

/-- The string timer has reached STR_TIMEOUT: the open string closes, with reason LIMIT where it also holds STR_MAX entries
or more (R85). -/
def stringTimeoutIfDue (l : LineNo) (s : State) : State := compareString l (stringTimeoutDue s l) s

/-- The string timer's advance at a record while a string is open, then the comparison of the string's length with STR_MAX,
then the timer's comparison (R83, R85). -/
def advanceString (l : LineNo) (s : State) : State :=
  let c := s.line l
  if c.openString.isEmpty then s
  else
    compareString l true (if c.timersHeld then s
      else modLine l (fun c => { c with stringTimer := advance timerStop c.stringTimer }) s)

end Sys2Proof.Machine
end

