-- ==== Sys2Proof/Machine/PulseDigits.lean ====
section
/-! DEFINITION. The pulse digit engine (Chapter 3): counting, the period history, the derived thresholds, and the end of a digit. -/

namespace Sys2Proof.Machine

/-- The edge-mask length Tm (R26, R47). -/
def edgeMaskLength (p : Profile) (tbase : Nat) : Nat := max p.maskMin (p.maskFrac * tbase / 128)

/-- The interdigit threshold IDT_eff (R47). -/
def interdigit (p : Profile) (tbase : Nat) : Nat := max p.idtMin (p.idtMult * tbase / 32)

/-- Captures a period: the spacing of two counted breaks, stored as at most 4,095; the oldest of eight is removed (R44, R46). Two
breaks exactly 65,536 ms apart give the 0 of R44's modulo, although R40 gives every period as 1 or more (the model's choice,
notes/assumptions/34.md). -/
def capturePeriod (p : Profile) (period : Nat) (e : PulseEngine) : PulseEngine :=
  let kept := if historyCapacity ≤ e.history.length then e.history.drop 1 else e.history
  let history := kept ++ [min periodStop period]
  { e with history := history, tbase := tbaseOf p.avgN history }

/-- Counts a pulse break with its stamp (R42, R43). -/
def countPulse (p : Profile) (stamp : Stamp) (e : PulseEngine) : PulseEngine :=
  let captured := match e.lastBreak with
    | some last => if 1 ≤ e.count then capturePeriod p (stampDistance stamp last) e else e
    | none => e
  { captured with
    count := advance pulseStop e.count
    digitStart := if e.count = 0 then some stamp else e.digitStart
    lastBreak := some stamp }

/-- The symbol of a digit of 1 to 10 pulses (R49). -/
def pulseSymbol (count : Nat) : Symbol := .digit (Fin.ofNat 10 count)

/-- The entry of a digit that ends with its count, 1 to 10 or 11 (R49, R50). -/
def pulseEntry (e : PulseEngine) : DigitEntry :=
  if pulseStop ≤ e.count then errorEntry .tooManyPulses (e.digitStart.getD 0)
  else { symbol := pulseSymbol e.count, method := .pulse, start := e.digitStart.getD 0, pulses := some e.count,
         period := some e.tbase, duration := none, error := none }

/-- A pulse digit in progress ends with its entry, and the count and stamps are removed (R48, R51). -/
def endPulseDigit (l : LineNo) (s : State) : State :=
  if 1 ≤ (s.line l).pulse.count then modLine l (·.discardPulse) (takeEntry l (pulseEntry (s.line l).pulse) s)
  else s

/-- The digit end of R48: the engine runs, a count is held, no break is present and the make has lasted IDT_eff. -/
def digitEndDue (s : State) (l : LineNo) : Bool :=
  let c := s.line l
  let p := s.profile l
  pulseRuns p c.state && 1 ≤ c.pulse.count && c.loop.brk.isNone && interdigit p c.pulse.tbase ≤ c.loop.makeTimer

/-- Ends the pulse digit if that is due (R48). -/
def digitEndIfDue (l : LineNo) (s : State) : State := if digitEndDue s l then endPulseDigit l s else s

/-- The recovery examination: a pulse count or a break present on a SEIZED or DIALLING line becomes one INTERRUPTED entry
(R54). -/
def recoverPulse (l : LineNo) (s : State) : State :=
  let c := s.line l
  if dialling c.state && (1 ≤ c.pulse.count || c.loop.brk.isSome) then
    let start := if 1 ≤ c.pulse.count then c.pulse.digitStart else c.loop.brk.map (·.stamp)
    modLine l (·.discardPulse) (takeEntry l (errorEntry .interrupted (start.getD 0)) s)
  else s

end Sys2Proof.Machine
end

