-- ==== Sys2Proof/Machine/LoopDetection.lean ====
section
/-! DEFINITION. The loop detector (Chapter 2): the raw bit, the masks, the debounce stage, and the events seizure, release, make
confirmation and debounce acceptance. -/

namespace Sys2Proof.Machine

/-- The raw loop bit of a sample (R24). -/
def rawBit (p : Profile) (previous : Bool) (i : Int) : Bool :=
  if (p.onThr : Int) ≤ i.natAbs then true else if (i.natAbs : Int) ≤ p.offThr then false else previous

/-- The level a raw bit stands for (R27). -/
def levelOf (raw : Bool) : Level := if raw then .loop else .noLoop

/-- The detector's timers advance at a record used (R28). -/
def LoopDetector.advanceTimers (d : LoopDetector) : LoopDetector :=
  { d with
    run := d.run.map fun r => { r with age := advance timerStop r.age }
    brk := d.brk.map fun b => { b with timer := advance timerStop b.timer }
    makeTimer := if d.accepted = .loop then advance timerStop d.makeTimer else d.makeTimer }

/-- The sample's time is earlier than an expiry (R26). -/
def earlier (now expiry : Stamp) : Bool :=
  let d := stampDistance expiry now
  1 ≤ d && d ≤ 32767

/-- The sample is edge-masked: an expiry is present and the sample's time is earlier (R26). -/
def edgeMasked (d : LoopDetector) (now : Stamp) : Bool :=
  match d.edgeExpiry with
  | some e => earlier now e
  | none => false

/-- The first used sample not earlier than the expiry removes it (R26). -/
def expireEdge (now : Stamp) (d : LoopDetector) : LoopDetector :=
  if edgeMasked d now then d else { d with edgeExpiry := none }

/-- The debounce stage up to acceptance: a usable sample that agrees ends the run, one that differs begins or extends it
(R27). -/
def extendRun (now : Stamp) (d : LoopDetector) : LoopDetector :=
  if levelOf d.raw = d.accepted then { d with run := none }
  else match d.run with
    | none => { d with run := some { count := 1, start := now, age := 0 } }
    | some r => { d with run := some { r with count := r.count + 1 } }

/-- Acceptance of a transition from a run: the level changes, backdated to the run's start; the edge mask is set; break,
make and pending make change (R26, R27, R28, R33). -/
def acceptRun (p : Profile) (st : LineState) (tbase : Nat) (r : DebounceRun) (d : LoopDetector) : LoopDetector :=
  let d := { d with
    transition := some r.start, run := none,
    edgeExpiry := some (r.start + BitVec.ofNat 16 (edgeMaskLength p tbase)) }
  match d.accepted with
  | .loop =>
    let brk := if timesBreaks st && d.brk.isNone then some ⟨r.start, r.age, false⟩ else d.brk
    { d with accepted := .noLoop, makeTimer := 0, brk := brk, pendingMake := false, debounced := .noLoop }
  | .noLoop =>
    let d := { d with accepted := .loop, makeTimer := r.age }
    if d.brk.isSome then { d with pendingMake := true } else { d with debounced := .loop }

/-- The detector runs on the line: a state in which it runs, or a ring-off step (R3, R36). -/
def detectorRuns (c : Line) : Bool :=
  match c.state with
  | .idle | .seized | .dialling | .connected | .lockout => true
  | .ringing => !ringOnStep c.ring.step
  | .disabled | .fault | .test => false

/-- The run has reached DEBOUNCE (R27). -/
def acceptDue (s : State) (l : LineNo) : Bool :=
  match (s.line l).loop.run with
  | some r => detectorRuns (s.line l) && 1 ≤ r.count && (s.profile l).debounce ≤ r.count
  | none => false

/-- Accepts the transition of the run in progress if that is due (R27). -/
def acceptIfDue (l : LineNo) (s : State) : State :=
  let c := s.line l
  match c.loop.run with
  | some r =>
    if acceptDue s l then
      modLine l (fun c => { c with loop := acceptRun (s.profile l) c.state c.pulse.tbase r c.loop }) s
    else s
  | none => s

/-- The open length of a present break (R28). -/
def openLength (d : LoopDetector) (b : Break) : Nat := b.timer - (if d.pendingMake then d.makeTimer else 0)

/-- A break's open length has reached RELEASE_MIN (R34). -/
def releaseDue (s : State) (l : LineNo) : Bool :=
  let c := s.line l
  match c.loop.brk with
  | some b => timesBreaks c.state && (s.profile l).releaseMin ≤ openLength c.loop b
  | none => false

/-- The release check (R34). -/
def releaseIfDue (l : LineNo) (s : State) : State := if releaseDue s l then enterReleased l s else s

/-- A FLASH entry (R31, R32). -/
def flashEntry (b : Break) (d : Nat) : DigitEntry :=
  { symbol := .flash, method := .hook, start := b.stamp, pulses := none, period := none, duration := some d,
    error := none }

/-- The break's duration lies in the flash band (R31, R32). -/
def flashLength (p : Profile) (d : Nat) : Bool := p.flashMin ≤ d && d ≤ p.flashMax

/-- Classification of a confirmed break of duration `d` by the line's state (R30, R31, R32, R51, R52). -/
def classifyBreak (l : LineNo) (b : Break) (d : Nat) (s : State) : State :=
  let p := s.profile l
  let st := (s.line l).state
  if b.interrupted then s
  else if st = .connected then
    if flashLength p d then takeEntry l (flashEntry b d) s else s
  else if dialling st then
    if d < p.brkMin then s
    else if flashLength p d then takeEntry l (flashEntry b d) (endPulseDigit l s)
    else if !p.pulseDialling then s
    else if d ≤ p.brkMax then modLine l (fun c => { c with pulse := countPulse p b.stamp c.pulse }) s
    else takeEntry l (errorEntry .badBreak b.stamp) (modLine l (·.discardPulse) s)
  else s

/-- A pending make's timer has reached MAKE_MIN (R30). -/
def makeConfirmDue (s : State) (l : LineNo) : Bool :=
  let c := s.line l
  timesBreaks c.state && c.loop.pendingMake && c.loop.brk.isSome && (s.profile l).makeMin ≤ c.loop.makeTimer

/-- The make confirmation: the break is classified, then the break and the pending make are removed and the debounced state
becomes LOOP (R30). -/
def makeConfirmIfDue (l : LineNo) (s : State) : State :=
  match (s.line l).loop.brk with
  | some b =>
    if makeConfirmDue s l then
      modLine l (fun c => { c with loop := { c.loop with brk := none, pendingMake := false, debounced := .loop } })
        (classifyBreak l b (openLength (s.line l).loop b) s)
    else s
  | none => s

/-- The seizure check finds a seizure (R29). -/
def seizureDue (s : State) (l : LineNo) : Bool :=
  let c := s.line l
  c.state = .idle && c.loop.debounced = .loop && (s.profile l).seizeMin ≤ c.loop.makeTimer

/-- The seizure check (R29). -/
def seizureIfDue (l : LineNo) (s : State) : State := if seizureDue s l then enterSeized l s else s

/-- Steps 2 to 4 of R23 up to acceptance, on a sample that is feed-masked or not (R24, R26, R27, R28). -/
def sampleDetector (p : Profile) (now : Stamp) (i : Int) (feedMasked : Bool) (d : LoopDetector) : LoopDetector :=
  let d := ({ d with raw := rawBit p d.raw i } : LoopDetector).advanceTimers
  let d := expireEdge now d
  if feedMasked || edgeMasked d now then d else extendRun now d

/-- The detector uses a record: the steps of R23 from step 2 on. Acceptance (step 4) belongs to a usable sample. -/
def useDetector (l : LineNo) (i : Int) (feedMasked : Bool) (s : State) : State :=
  let usable := !feedMasked && !edgeMasked (s.line l).loop s.stamp
  let s := modLine l (fun c => { c with loop := sampleDetector (s.profile l) s.stamp i feedMasked c.loop }) s
  let s := if usable then acceptIfDue l s else s
  seizureIfDue l (makeConfirmIfDue l (releaseIfDue l s))

/-- The detector's recovery changes: the run and the edge mask are removed, a present break is marked interrupted (R38). -/
def LoopDetector.recover (d : LoopDetector) : LoopDetector :=
  { d with run := none, edgeExpiry := none, brk := d.brk.map fun b => { b with interrupted := true } }

end Sys2Proof.Machine
end

