-- ==== Sys2Proof/Machine/Ringing.lean ====
section
/-! DEFINITION. The ring sequencer (Chapter 6): starting and stopping, the trip measurements, the step timer and the cadence, and
recovery. -/

namespace Sys2Proof.Machine

/-! ### Steps -/

/-- The sequencer's resets at the start of a step, and at recovery in a ring-on step (R102, R105). -/
def RingSequencer.clearTrip (r : RingSequencer) : RingSequencer :=
  { r with window := [], windowSum := 0, tripRun := 0, armed := false, maskCount := 0 }

/-- A step begins: timer 0, the resets of R102, the detector stopped or started afresh, and the feed of the step (R36, R95,
R102). -/
def beginRingStep (l : LineNo) (step : Nat) (s : State) : State :=
  refreshFeed l (modLine l (fun c =>
    { c.restartDetector with ring := { c.ring.clearTrip with step := some step, timer := 0 } }) s)

/-- The sequencer as RING_START sets it (R94). -/
def RingSequencer.started (cadence cycles : Nat) : RingSequencer :=
  { RingSequencer.initial with
    running := true, cadence := some cadence, step := some 1, cyclesLeft := if cycles = 0 then none else some cycles }

/-- Ringing starts: the CADENCE selector is bound, the sequencer runs, the detector stops (R15, R35, R94). -/
def startRinging (l : LineNo) (cadence cycles : Nat) (s : State) : State :=
  let bank := s.activeBank .cadence
  enter l .ringing .ring (fun c =>
    { c.restartDetector with cadenceBank := bank, ring := .started cadence cycles }) s

/-- The step timer has reached the duration of the step (R95). -/
def ringStepDue (s : State) (l : LineNo) : Bool :=
  let c := s.line l
  c.state = .ringing && cadenceDuration (s.cadenceWords l) (c.ring.step.getD 1) ≤ c.ring.timer && 1 ≤ c.ring.timer

/-- The step expires if that is due: the next step, step 1 of the next cycle, or the end of ringing (R95, R96). -/
def ringStepExpireIfDue (l : LineNo) (s : State) : State :=
  let c := s.line l
  let step := c.ring.step.getD 1
  if !ringStepDue s l then s
  else if lastCadenceStep (s.cadenceWords l) step then
    match c.ring.cyclesLeft with
    | none => beginRingStep l 1 s
    | some n =>
      if n ≤ 1 then releaseBanks (endRinging l .ringEnd s)
      else beginRingStep l 1 (modLine l (fun c => { c with ring := { c.ring with cyclesLeft := some (n - 1) } }) s)
  else beginRingStep l (step + 1) s

/-- The step timer's advance at a record, and the expiry it brings (R95). -/
def advanceRingTimer (l : LineNo) (s : State) : State :=
  ringStepExpireIfDue l (modLine l (fun c => { c with ring := { c.ring with timer := c.ring.timer + 1 } }) s)

/-! ### Trip in a ring-on step -/

/-- The record keeps a step armed, arms it, or disarms it (R99). -/
def armRing (p : Profile) (applied : FeedCode) (r : RingSequencer) : RingSequencer :=
  if applied = .ring then (if r.armed then r else { r with armed := true, maskCount := p.rtMask })
  else if r.armed then r.clearTrip else r

/-- The ring mask count is reduced by a ring-masked record (R99). -/
def RingSequencer.reduceMask (r : RingSequencer) : RingSequencer := { r with maskCount := r.maskCount - 1 }

/-- A measured current joins the trip window, the oldest leaving a full one; the trip run follows the mean, which is
truncated toward zero (R100). -/
def measureRing (p : Profile) (i : Int) (r : RingSequencer) : RingSequencer :=
  let full := p.rtWin ≤ r.window.length
  let leaving : Int := if full then r.window.headD 0 else 0
  let kept := if full then r.window.drop 1 else r.window
  let window := kept ++ [i]
  let sum := r.windowSum - leaving + i
  let run :=
    if window.length < p.rtWin then 0
    else if (p.rtThr : Int) ≤ (sum.tdiv p.rtWin).natAbs then advance runStop r.tripRun
    else 0
  { r with window := window, windowSum := sum, tripRun := run }

/-- A ring-on trip: the trip run has reached RT_CONF in a ring-on step (R100). -/
def ringTripDue (s : State) (l : LineNo) : Bool :=
  let c := s.line l
  c.state = .ringing && ringOnStep c.ring.step && 1 ≤ c.ring.tripRun && (s.profile l).rtConf ≤ c.ring.tripRun

/-- Answers the line if a ring-on trip is found (R103). -/
def ringTripIfDue (l : LineNo) (s : State) : State := if ringTripDue s l then enterAnswered l s else s

/-- The trip measurement of a ring-on step on a record (R99, R100). -/
def ringOnRecord (l : LineNo) (i : Int) (held : Bool) (s : State) : State :=
  let p := s.profile l
  let s := modLine l (fun c => { c with ring := armRing p c.appliedFeed c.ring }) s
  let r := (s.line l).ring
  if !r.armed then s
  else if 1 ≤ r.maskCount then modLine l (fun c => { c with ring := c.ring.reduceMask }) s
  else if held then s
  else ringTripIfDue l (modLine l (fun c => { c with ring := measureRing p i c.ring }) s)

/-- The event RING_MASK_END: the last ring-masked record of an armed step reduces the count to 0 (R99). -/
def ringMaskEndIfDue (l : LineNo) (s : State) : State :=
  let c := s.line l
  if c.state = .ringing && ringOnStep c.ring.step && c.ring.armed && c.ring.maskCount = 1 then
    modLine l (fun c => { c with ring := c.ring.reduceMask }) s
  else s

/-! ### Trip in a ring-off step -/

/-- A ring-off trip: the debounced state is LOOP and the make timer has reached RT_CONF in a ring-off step (R101). -/
def ringOffTripDue (s : State) (l : LineNo) : Bool :=
  let c := s.line l
  c.state = .ringing && !ringOnStep c.ring.step && c.loop.debounced = .loop && (s.profile l).rtConf ≤ c.loop.makeTimer

/-- Answers the line if a ring-off trip is found (R101, R103). -/
def ringOffTripIfDue (l : LineNo) (s : State) : State := if ringOffTripDue s l then enterAnswered l s else s

/-- The detector and the trip measurement of a ring-off step on a record: used only under STANDBY (R98, R101). -/
def ringOffRecord (l : LineNo) (i : Int) (feedMasked : Bool) (s : State) : State :=
  if (s.line l).appliedFeed = .standby then ringOffTripIfDue l (useDetector l i feedMasked s) else s

/-! ### A record of a RINGING line -/

/-- The work of R102 on a record a RINGING line uses: detector, trip measurement, then the step timer unless the line was
answered. -/
def ringRecord (l : LineNo) (i : Int) (held feedMasked : Bool) (s : State) : State :=
  let s :=
    if ringOnStep (s.line l).ring.step then ringOnRecord l i held s else ringOffRecord l i feedMasked s
  if (s.line l).state = .ringing then advanceRingTimer l s else s

/-- The sequencer's recovery in a ring-on step; a ring-off step's is the detector's (R105). -/
def Line.recoverRing (c : Line) : Line :=
  if c.state = .ringing && ringOnStep c.ring.step then { c with ring := c.ring.clearTrip } else c

end Sys2Proof.Machine
end

