-- ==== Sys2Proof/Machine/ToneDigits.lean ====
section
/-! DEFINITION. The tone digit engine (Chapter 4): the arithmetic of one sample, the end of a block, its classification, the
validation automaton, recovery, and the mute. -/

namespace Sys2Proof.Machine

/-! ### Samples -/

/-- The arithmetic shift right, which rounds toward minus infinity (R63, R64, R66, R111). -/
def shiftRight (v : Int) (n : Nat) : Int := v / 2 ^ n

/-- The scaled sample (R63). -/
def scaledSample (w : Word16) : Int := shiftRight w.toInt 2

/-- One recursion of one bin (R64). -/
def stepBin (x c : Int) (b : Bin) : Bin := { s1 := x + shiftRight (c * b.s1) 14 - b.s2, s2 := b.s1 }

/-- A RUNNING engine takes one scaled sample (R59, R63, R64, R65). -/
def takeSample (plan : TonePlan) (stamp : Stamp) (x : Int) (t : ToneEngine) : ToneEngine :=
  { t with
    bins := Vector.ofFn fun k : Fin 8 => stepBin x (plan.coefficients.get k) (t.bins.get k)
    sampleCount := t.sampleCount + 1
    power := t.power + (x * x).toNat
    blockStart := if t.sampleCount = 0 then some stamp else t.blockStart }

/-! ### The end of a block -/

/-- The largest bin energy (R66). -/
def energyStop : Int := 4294967295

/-- The energy of a bin (R66). -/
def binEnergy (c : Int) (b : Bin) : Int :=
  let a := shiftRight b.s1 8
  let e := shiftRight b.s2 8
  max 0 (min energyStop (a * a + e * e - shiftRight (c * a * e) 14))

/-- The block's reference power (R67). -/
def referencePower (n power : Nat) : Nat := n * power / 2 ^ 17

/-- The eight energies of a block (R66). -/
def blockEnergies (plan : TonePlan) (t : ToneEngine) : Vector Int 8 :=
  Vector.ofFn fun k : Fin 8 => binEnergy (plan.coefficients.get k) (t.bins.get k)

/-- The index of the largest of four energies from `first` on, the lowest index among equals (R69). -/
def winner (es : Vector Int 8) (first : Nat) : Nat :=
  (List.range 4).foldl
    (fun best j => if es.getD best 0 < es.getD (first + j) 0 then first + j else best) first

/-- Check 2 of a block (R69). -/
def energyCheck (plan : TonePlan) (er eh : Int) : Bool := (plan.eMin : Int) ≤ er && (plan.eMin : Int) ≤ eh

/-- Check 3 of a block (R70). -/
def twistCheck (plan : TonePlan) (er eh : Int) : Bool := plan.twf * er ≤ 16 * eh && plan.twr * eh ≤ 16 * er

/-- Check 4 of a block: the winner of a group over each other bin of the group (R70). -/
def dominanceCheck (plan : TonePlan) (es : Vector Int 8) (first win : Nat) : Bool :=
  (List.range 4).all fun j => first + j = win || plan.dom * es.getD (first + j) 0 ≤ 16 * es.getD win 0

/-- Check 5 of a block (R71). -/
def talkOffCheck (plan : TonePlan) (er eh : Int) (pref : Nat) : Bool := plan.frac * (pref : Int) ≤ 16 * (er + eh)

/-- The result of a block that is not forced: a key, or none for NT (R69 to R71). -/
def classifyEnergies (words : List Word16) (es : Vector Int 8) (pref : Nat) : Option Symbol :=
  let plan := readTonePlan words
  let r := winner es 0
  let h := winner es 4
  let er := es.getD r 0
  let eh := es.getD h 0
  if energyCheck plan er eh && twistCheck plan er eh && dominanceCheck plan es 0 r && dominanceCheck plan es 4 h &&
      talkOffCheck plan er eh pref then
    keyMapEntry words (4 * r + (h - 4))
  else none

/-- A block is forced to NT: a pulse count is held or a break is present (R68). -/
def Line.forcesNoTone (c : Line) : Bool := 1 ≤ c.pulse.count || c.loop.brk.isSome

/-- The result of the block that completes on a line (R66 to R71). -/
def blockResult (s : State) (l : LineNo) : Option Symbol :=
  let c := s.line l
  let words := s.toneWords l
  let plan := readTonePlan words
  if c.forcesNoTone then none
  else classifyEnergies words (blockEnergies plan c.tone) (referencePower plan.n c.tone.power)

/-! ### The validation automaton -/

/-- The tone state returns to QUIET: the key, counts and digit start stamp are removed (R60, R72 to R75). -/
def ToneEngine.quieten (t : ToneEngine) : ToneEngine :=
  { t with state := .quiet, key := none, candidateCount := 0, gapCount := 0, onBlocks := 0, digitStart := none }

/-- The candidate run of key `k` has reached `n` blocks: it is proved at ON_BLOCKS (R72). -/
def proveKey (plan : TonePlan) (k : Symbol) (n : Nat) (start : Option Stamp) (t : ToneEngine) : ToneEngine :=
  { t with
    state := if plan.onBlocks ≤ n then .on else .candidate
    key := some k
    candidateCount := n
    onBlocks := if plan.onBlocks ≤ n then plan.onBlocks else 0
    digitStart := start }

/-- The duration of a tone digit (R75). -/
def toneDuration (plan : TonePlan) (onBlocks : Nat) : Nat := min timerStop (onBlocks * plan.n / 8)

/-- The entry of a tone digit that ends (R75). -/
def toneEntry (plan : TonePlan) (t : ToneEngine) : DigitEntry :=
  { symbol := t.key.getD (.digit 0), method := .tone, start := t.digitStart.getD 0, pulses := none, period := none,
    duration := some (toneDuration plan t.onBlocks), error := none }

/-- The tone digit in progress ends: its entry goes to the collector, and the key, counts and stamps are removed (R75). -/
def endToneDigit (l : LineNo) (plan : TonePlan) (s : State) : State :=
  modLine l (fun c => { c with tone := c.tone.quieten }) (takeEntry l (toneEntry plan (s.line l).tone) s)

/-- A candidate run of `k` begins with the block of the given start stamp (R72). -/
def beginRun (l : LineNo) (plan : TonePlan) (k : Symbol) (start : Option Stamp) (s : State) : State :=
  modLine l (fun c => { c with tone := proveKey plan k 1 start c.tone.quieten }) s

/-- One step of the automaton on a block's result, the block having the given start stamp (R72 to R74). -/
def automaton (l : LineNo) (plan : TonePlan) (result : Option Symbol) (start : Option Stamp) (s : State) : State :=
  let t := (s.line l).tone
  let put (t' : ToneEngine) : State := modLine l (fun c => { c with tone := t' }) s
  match t.state, result with
  | .quiet, none => s
  | .quiet, some k => beginRun l plan k start s
  | .candidate, none => put t.quieten
  | .candidate, some k =>
    if t.key = some k then put (proveKey plan k (t.candidateCount + 1) t.digitStart t) else beginRun l plan k start s
  | .on, none =>
    if plan.offBlocks ≤ 1 then endToneDigit l plan s else put { t with state := .gap, gapCount := 1 }
  | .on, some k =>
    if t.key = some k then put { t with onBlocks := advance timerStop t.onBlocks }
    else beginRun l plan k start (endToneDigit l plan s)
  | .gap, none =>
    if plan.offBlocks ≤ t.gapCount + 1 then endToneDigit l plan s else put { t with gapCount := t.gapCount + 1 }
  | .gap, some k =>
    if t.key = some k then
      put { t with state := .on, gapCount := 0, onBlocks := min timerStop (t.onBlocks + t.gapCount + 1) }
    else beginRun l plan k start (endToneDigit l plan s)

/-- A block completes: the engine is RUNNING and its sample count has reached N (R66). Under a TONE_PLAN entry that was never
loaded N is read as 0, and every sample completes a block (the model's choice, notes/assumptions/31.md). -/
def toneBlockDue (s : State) (l : LineNo) : Bool :=
  let t := (s.line l).tone
  t.run = .running && (readTonePlan (s.toneWords l)).n ≤ t.sampleCount && 1 ≤ t.sampleCount

/-- Completes the block if that is due: the energies are computed, the recursions cleared, the block classified, and the
automaton driven (R66 to R75). -/
def toneBlockIfDue (l : LineNo) (s : State) : State :=
  if toneBlockDue s l then
    automaton l (readTonePlan (s.toneWords l)) (blockResult s l) (s.line l).tone.blockStart
      (modLine l (fun c => { c with tone := c.tone.abandonBlock }) s)
  else s

/-- A RUNNING engine uses an audio word of its line (R63 to R66). -/
def toneSample (l : LineNo) (w : Word16) (s : State) : State :=
  if (s.line l).tone.run = .running then
    toneBlockIfDue l
      (modLine l (fun c => { c with
        tone := takeSample (readTonePlan (s.toneWords l)) s.stamp (scaledSample w) c.tone }) s)
  else s

/-! ### Mute and recovery -/

/-- The upstream sample is replaced by 0: the tone state is ON or GAP and MUTE is yes (R76). -/
def muted (s : State) (l : LineNo) : Bool :=
  ((s.line l).tone.state = .on || (s.line l).tone.state = .gap) && (s.profile l).mute

/-- A HELD engine recovers: the block is abandoned, a digit in progress becomes an INTERRUPTED entry, and the engine is
RUNNING (R62). -/
def recoverTone (l : LineNo) (s : State) : State :=
  let t := (s.line l).tone
  if t.run = .held then
    let s := modLine l (fun c => { c with tone := c.tone.abandonBlock }) s
    let s := if t.state = .quiet then s else takeEntry l (errorEntry .interrupted (t.digitStart.getD 0)) s
    modLine l (fun c => { c with tone := { c.tone.quieten with run := .running } }) s
  else s

end Sys2Proof.Machine
end

