-- ==== Sys2Proof/Machine/FaultMonitoring.lean ====
section
/-! DEFINITION. The fault monitor (Chapter 7): windows, measurements, bands, the observation and its class, persistence, and what
a confirmation or a clearing does to the line. -/

namespace Sys2Proof.Machine

/-! ### Windows -/

/-- A stamp rounded down to a multiple of 64 (R109). -/
def windowStartOf (stamp : Stamp) : Stamp := BitVec.ofNat 16 (stamp.toNat / windowLength * windowLength)

/-- The record begins a new window (R109 step 1). -/
def startsWindow (stamp : Stamp) (m : FaultMonitor) : Bool :=
  stamp.toNat % windowLength = 0 || windowLength ≤ stampDistance stamp m.windowStart

/-- A new window: the accumulators are cleared, and the discard mark is set only if the window missed its first records
(R109 step 1). -/
def FaultMonitor.startWindow (stamp : Stamp) (m : FaultMonitor) : FaultMonitor :=
  { m with
    windowStart := windowStartOf stamp, recordCount := 0, tipSum := 0, ringSum := 0, tipMax := none, tipMin := none,
    ringMax := none, ringMin := none, loopSum := 0, discard := stamp.toNat % windowLength != 0, closed := false }

/-- Binds the FAULT_PLAN selector to the ACTIVE bank, which may complete that table's migration (R109 step 1, R168). -/
def bindFaultPlan (l : LineNo) (s : State) : State :=
  releaseBank .faultPlan (modLine l (fun c => { c with faultBank := s.activeBank .faultPlan }) s)

/-- Step 1 of R109, with the migration of the FAULT_PLAN selector. -/
def startWindowIfDue (l : LineNo) (s : State) : State :=
  if startsWindow s.stamp (s.line l).monitor then
    modLine l (fun c => { c with monitor := c.monitor.startWindow s.stamp }) (bindFaultPlan l s)
  else s

/-- The record sets the discard mark (R110). -/
def Handed.discards (h : Handed) : Bool := h.changed || h.held || h.lost || h.inTest

/-- A maximum after one more value; an absent one takes the value (R109, R131). -/
def raiseMax (old : Option Int) (v : Int) : Option Int := some (old.elim v (max v))

/-- A minimum after one more value; an absent one takes the value (R109, R131). -/
def lowerMin (old : Option Int) (v : Int) : Option Int := some (old.elim v (min v))

/-- Steps 2 and 3 of R109: the discard conditions and the accumulation. -/
def FaultMonitor.accumulate (h : Handed) (m : FaultMonitor) : FaultMonitor :=
  { m with
    discard := m.discard || h.discards
    recordCount := advance windowLength m.recordCount
    tipSum := m.tipSum + h.vt
    ringSum := m.ringSum + h.vr
    loopSum := m.loopSum + h.i.natAbs
    tipMax := raiseMax m.tipMax h.vt
    tipMin := lowerMin m.tipMin h.vt
    ringMax := raiseMax m.ringMax h.vr
    ringMin := lowerMin m.ringMin h.vr }

/-! ### The observation and its class -/

/-- The five measurements of a window (R111). -/
structure Measurements where
  tipDc : Int
  ringDc : Int
  tipAc : Int
  ringAc : Int
  loop : Int
  deriving DecidableEq, Repr

/-- Half of a swing, rounded down; a window without records has no swing (R111, R132). -/
def halfSwing (high low : Option Int) : Int := shiftRight (high.getD 0 - low.getD 0) 1

/-- The measurements of the window's accumulators (R111). -/
def measurements (m : FaultMonitor) : Measurements :=
  { tipDc := shiftRight m.tipSum 6, ringDc := shiftRight m.ringSum 6, tipAc := halfSwing m.tipMax m.tipMin,
    ringAc := halfSwing m.ringMax m.ringMin, loop := shiftRight m.loopSum 6 }

/-- The band of a value under three rising thresholds (R112). -/
def band (t1 t2 t3 v : Int) : Nat := if v < t1 then 0 else if v < t2 then 1 else if v < t3 then 2 else 3

/-- The feed group of an applied feed (R113). -/
def feedGroup : FeedCode → FeedGroup
  | .opened => .opened
  | .standby => .standby
  | .forward => .loop
  | .reverse => .loop
  | .ring => .ring
  | .testTip => .test
  | .testRing => .test

/-- The observation of a window (R113). -/
structure Observation where
  tdc : Nat
  rdc : Nat
  tac : Nat
  rac : Nat
  ilp : Nat
  group : FeedGroup
  deriving DecidableEq, Repr

/-- The observation that the measurements and the applied feed make under the thresholds (R112, R113). -/
def observe (t : BandThresholds) (m : Measurements) (applied : FeedCode) : Observation :=
  { tdc := band t.dc1 t.dc2 t.dc3 m.tipDc, rdc := band t.dc1 t.dc2 t.dc3 m.ringDc,
    tac := band t.ac1 t.ac2 t.ac3 m.tipAc, rac := band t.ac1 t.ac2 t.ac3 m.ringAc,
    ilp := band t.lp1 t.lp2 t.lp3 m.loop, group := feedGroup applied }

/-- A wanted value is met: it is not cared for, or the observation has it (R114). -/
def Wanted.met (w : Wanted) (v : Nat) : Bool := !w.care || w.value = v

/-- An entry matches an observation (R114). -/
def ClassEntry.fits (e : ClassEntry) (o : Observation) : Bool :=
  e.enabled && e.tdc.met o.tdc && e.rdc.met o.rdc && e.tac.met o.tac && e.rac.met o.rac && e.ilp.met o.ilp &&
  e.group.met (groupCode o.group)

/-- An entry of the FAULT_PLAN bank a line is bound to (R108). -/
def State.faultEntry (s : State) (l : LineNo) (i : Nat) : Entry := s.entry .faultPlan (s.line l).faultBank i

/-- The observation of the window under way (R111 to R113). -/
def observation (s : State) (l : LineNo) : Observation :=
  observe (readThresholds (s.faultEntry l 0).words) (measurements (s.line l).monitor) (s.line l).appliedFeed

/-- The first matching entry of the sixteen, if any (R114). -/
def matchingEntry (s : State) (l : LineNo) : Option ClassEntry :=
  ((List.range 16).find? fun k =>
      (s.faultEntry l (k + 1)).valid && (readClassEntry (s.faultEntry l (k + 1)).words).fits (observation s l)).map
    fun k => readClassEntry (s.faultEntry l (k + 1)).words

/-- The window's class: 0 if no entry matches (R114). -/
def windowClass (s : State) (l : LineNo) : Nat := ((matchingEntry s l).map (·.faultClass)).getD 0

/-! ### Persistence -/

/-- The update of both runs by the class of a window (R115). -/
def FaultMonitor.updateRuns (cls : Nat) (m : FaultMonitor) : FaultMonitor :=
  { m with
    candidateClass := some cls
    candidateRun := if m.candidateClass = some cls then advance runStop m.candidateRun else 1
    clearRun :=
      if m.confirmedClass = 0 then 0 else if cls = m.confirmedClass then 0 else advance runStop m.clearRun }

/-- The window under way has closed and was counted: it is not discarded, the line is not in TEST, where no class is confirmed or
cleared, and entry 0 is valid (R16, R110, R119). -/
def windowCounted (s : State) (l : LineNo) : Bool :=
  (s.line l).monitor.closed && !(s.line l).monitor.discard && (s.line l).state != .test && (s.faultEntry l 0).valid

/-- The entry with which the candidate class is confirmed at the close, if it is (R116). -/
def faultConfirmEntry (s : State) (l : LineNo) : Option ClassEntry :=
  let m := (s.line l).monitor
  match matchingEntry s l with
  | some e =>
    if windowCounted s l && m.candidateClass = some e.faultClass && e.faultClass != 0 &&
        e.faultClass != m.confirmedClass && e.confirmCount ≤ m.candidateRun then some e
    else none
  | none => none

/-- FAULT_RAISE is offered at a confirmation (R118). -/
def raiseOffered (s : State) (m : FaultMonitor) (severity : Severity) : Bool :=
  severity = .hazard || s.settings.alarmAdvisory || m.confirmedSeverity = some .hazard || m.reported = some true

/-- The monitor's fields at a confirmation (R107, R116, R118). -/
def FaultMonitor.confirm (e : ClassEntry) (reported : Bool) (m : FaultMonitor) : FaultMonitor :=
  { m with
    confirmedClass := e.faultClass, confirmedSeverity := some e.severity, confirmedClear := some e.clearCount,
    reported := some reported, clearRun := 0 }

/-- The monitor's fields at a clearing (R117). -/
def FaultMonitor.cleared (m : FaultMonitor) : FaultMonitor :=
  { m with
    confirmedClass := 0, confirmedSeverity := none, confirmedClear := none, reported := none, clearRun := 0 }

/-- A state in which a confirmed hazard moves the line to FAULT (R16, R119). -/
def workingState (st : LineState) : Bool :=
  st = .idle || st = .seized || st = .dialling || st = .connected || st = .lockout || st = .ringing

/-- The line acts on a change of the confirmed severity between HAZARD and other (R16, R17, R119). -/
def reportHazard (l : LineNo) (before after : Bool) (s : State) : State :=
  if !before && after && workingState (s.line l).state then enterFault l s
  else if before && !after && (s.line l).state = .fault then leaveFault l s
  else s

/-- The confirmed severity is HAZARD. -/
def FaultMonitor.hazard (m : FaultMonitor) : Bool := m.confirmedSeverity = some .hazard

/-- Confirms the candidate class with an entry: its fields, its FAULT_RAISE record, its report to the line (R116, R118,
R119). -/
def confirmFault (l : LineNo) (e : ClassEntry) (s : State) : State :=
  let m := (s.line l).monitor
  let offered := raiseOffered s m e.severity
  let s := modLine l (fun c => { c with monitor := c.monitor.confirm e offered }) s
  let s := if offered then offerAlarm (some l) (.faultRaise e.faultClass e.severity m.confirmedClass) s else s
  reportHazard l m.hazard (e.severity = .hazard) s

/-- Confirms the candidate class if that is due (R116). -/
def faultConfirmIfDue (l : LineNo) (s : State) : State :=
  match faultConfirmEntry s l with
  | some e => confirmFault l e s
  | none => s

/-- The confirmed class is cleared at the close (R117). -/
def faultClearDue (s : State) (l : LineNo) : Bool :=
  let m := (s.line l).monitor
  windowCounted s l && (faultConfirmEntry s l).isNone && m.confirmedClass != 0 && m.confirmedClear.getD 0 ≤ m.clearRun &&
    1 ≤ m.clearRun

/-- Clears the confirmed class if that is due: the FAULT_CLEAR record, the fields, the report to the line (R117 to R119). -/
def faultClearIfDue (l : LineNo) (s : State) : State :=
  if faultClearDue s l then
    let m := (s.line l).monitor
    let s := if m.reported = some true then
        offerAlarm (some l) (.faultClear m.confirmedClass (m.confirmedSeverity.getD .advisory)) s
      else s
    reportHazard l m.hazard false (modLine l (fun c => { c with monitor := c.monitor.cleared }) s)
  else s

/-- The window closes at the record of its last multiframe (R109 step 4). FAULT_WINDOW_CLOSE sent on its own in that multiframe
before the line's record closes it without that record (the model's choice, notes/assumptions/20.md). -/
def windowCloseDue (s : State) (l : LineNo) : Bool :=
  s.stamp.toNat % windowLength = windowLength - 1 && !(s.line l).monitor.closed

/-- The monitor's window is closed; one that closes in TEST is discarded (R110, R119). -/
def FaultMonitor.close (inTest : Bool) (m : FaultMonitor) : FaultMonitor :=
  { m with closed := true, discard := m.discard || inTest }

/-- Closes the window if that is due: one that is not discarded is classed, updates the runs, and confirms or clears
(R110 to R117). -/
def windowCloseIfDue (l : LineNo) (s : State) : State :=
  if windowCloseDue s l then
    let s := modLine l (fun c => { c with monitor := c.monitor.close (c.state = .test) }) s
    if windowCounted s l then
      let s := modLine l (fun c => { c with monitor := c.monitor.updateRuns (windowClass s l) }) s
      match faultConfirmEntry s l with
      | some e => confirmFault l e s
      | none => faultClearIfDue l s
    else s
  else s

/-- The monitor takes a record (R109). -/
def monitorRecord (l : LineNo) (h : Handed) (s : State) : State :=
  windowCloseIfDue l
    (modLine l (fun c => { c with monitor := c.monitor.accumulate h }) (startWindowIfDue l s))

end Sys2Proof.Machine
end

