-- ==== Sys2Proof/Machine/TestEngine.lean ====
section
/-! DEFINITION. The test engine (Chapter 8): the request queue, the sweep, the taking of requests, the steps of a test, and its
end or abort. -/

namespace Sys2Proof.Machine

/-- The device with its test engine changed. -/
def modEngine (f : TestEngine → TestEngine) (s : State) : State := { s with engine := f s.engine }

/-! ### The request queue -/

/-- A request that the controller raised. -/
def Request.commanded (r : Request) : Bool := r.origin = .commanded

/-- The queue holds a request for the line. -/
def queuedFor (l : LineNo) (q : List Request) : Bool := q.any fun r => r.line = l

/-- A COMMANDED request joins at the back of the commanded requests (R125). -/
def joinCommanded (r : Request) (q : List Request) : List Request :=
  q.filter (·.commanded) ++ [r] ++ q.filter (!·.commanded)

/-- A COMMANDED request is offered to the queue; none where the outcome is FULL (R125). -/
def offerCommanded (l : LineNo) (kind : TestKind) (q : List Request) : Option (List Request) :=
  if q.any fun r => r.line = l && r.commanded then
    some (q.map fun r => if r.line = l then { r with kind := kind } else r)
  else if queuedFor l q then
    some (joinCommanded ⟨l, kind, .commanded⟩ (q.filter fun r => r.line != l))
  else if q.length < testQueueCapacity then some (joinCommanded ⟨l, kind, .commanded⟩ q)
  else none

/-- A SWEEP request is offered to the queue: dropped if its line is queued or held, or the queue is full (R125). -/
def offerSweep (l : LineNo) (kind : TestKind) (e : TestEngine) : TestEngine :=
  if queuedFor l e.queue || e.held.any (fun r => r.line = l) then e
  else if e.queue.length < testQueueCapacity then { e with queue := e.queue ++ [⟨l, kind, .sweep⟩] }
  else e

/-! ### Steps -/

/-- The step's accumulators, cleared (R130, R132). -/
def TestEngine.clearStep (e : TestEngine) : TestEngine :=
  { e with stepAge := 0, settleCount := 0, measureTimer := 0, sampleCount := 0, sampleSum := 0, sampleMax := none,
           sampleMin := none }

/-- The engine at the start of a step (R130). -/
def TestEngine.atStep (n : Nat) (e : TestEngine) : TestEngine :=
  { e.clearStep with step := some n, phase := some .waitEcho }

/-- A step begins: the engine's fields and the line's commanded feed (R130). -/
def beginTestStep (l : LineNo) (n : Nat) (s : State) : State := refreshFeed l (modEngine (·.atStep n) s)

/-! ### Taking a request -/

/-- A request is admissible in its line's state (R129). -/
def admissible (origin : Origin) (st : LineState) : Bool :=
  st = .idle || (origin = .commanded && (st = .disabled || st = .fault))

/-- A TEST_PLAN entry can be run as a step: valid and enabled (R129, R131). -/
def runnable (e : Entry) : Bool := e.valid && (readTestStep e.words).enabled

/-- The program of a kind is runnable in the ACTIVE bank (R129). -/
def programRunnable (s : State) (kind : TestKind) : Bool :=
  runnable (s.entry .testPlan (s.activeBank .testPlan) (4 * kindCode kind))

/-- A test starts: the engine is BUSY with the request and the ACTIVE bank, the line enters TEST without a STATE record,
its detector stops, step 1 begins, and the line's position is examined (R18, R19, R129, R130). -/
def startTest (r : Request) (s : State) : State :=
  let bank := s.activeBank .testPlan
  let s := modEngine (fun e =>
    { e.atStep 1 with busy := true, held := some r, bank := some bank, results := [] }) s
  releaseBanks (examine r.line (changeState r.line .test
    (fun c => { c.restartDetector with stateBeforeTest := some c.state }) s))

/-- The TEST_RESULT record of a request (R133). -/
def testResult (r : Request) (verdict : Verdict) (cause : Option AbortCause) (results : List StepResult) : Payload :=
  .testResult r.kind r.origin verdict cause results

/-- A head request that meets an inadmissible line or no runnable program: SKIPPED, or dropped without a record (R129). -/
def skipRequest (r : Request) (s : State) : State :=
  if r.commanded then offerAlarm (some r.line) (testResult r .skipped none []) s else s

/-- Takes requests from the head until one starts a test or the queue is empty (R129). -/
def takeFrom : List Request → State → State
  | [], s => modEngine (fun e => { e with queue := [] }) s
  | r :: rest, s =>
    if admissible r.origin (s.line r.line).state && programRunnable s r.kind then
      startTest r (modEngine (fun e => { e with queue := rest }) s)
    else takeFrom rest (skipRequest r s)

/-- A FREE engine takes the head request (R129). -/
def takeRequests (s : State) : State := if s.engine.busy then s else takeFrom s.engine.queue s

/-! ### The end of a test -/

/-- The engine becomes FREE: the bank held is returned, and the held request, step and results are removed; the step's
counters are cleared with them (R133, notes/assumptions/23.md). -/
def TestEngine.freed (e : TestEngine) : TestEngine :=
  { TestEngine.initial with queue := e.queue, sweepPointer := e.sweepPointer, sweepTimer := e.sweepTimer }

/-- The return state of a line whose test ends (R18). -/
def returnState (before : LineState) (hazard : Bool) : LineState :=
  match before with
  | .disabled => .disabled
  | .fault => .fault
  | _ => if hazard then .fault else .idle

/-- The line leaves TEST for its return state; one that returns to DISABLED is not sense-lost there (R18). -/
def returnLine (l : LineNo) (s : State) : State :=
  let c := s.line l
  let back := returnState (c.stateBeforeTest.getD .idle) c.monitor.hazard
  move l back .testEnd (fun c =>
    { c.restartDetector with
      stateBeforeTest := none, senseLost := if back = .disabled then false else c.senseLost }) s

/-- The engine offers the TEST_RESULT of its held request (R133, R134). -/
def reportTest (verdict : Verdict) (cause : Option AbortCause) (s : State) : State :=
  match s.engine.held with
  | some r => offerAlarm (some r.line) (testResult r verdict cause s.engine.results) s
  | none => s

/-- The engine becomes FREE, which may complete a TEST_PLAN migration, and takes the next head request (R133 steps 3
and 4). -/
def freeEngine (s : State) : State := takeRequests (releaseBanks (modEngine (·.freed) s))

/-- A test ends or is aborted with its line still in TEST: the TEST_RESULT, the line's return, the engine FREE (R133,
R134). -/
def finishTest (l : LineNo) (verdict : Verdict) (cause : Option AbortCause) (s : State) : State :=
  freeEngine (returnLine l (reportTest verdict cause s))

/-- An abort with a cause (R134). -/
def abortTest (l : LineNo) (cause : AbortCause) (s : State) : State := finishTest l .aborted (some cause) s

/-- The verdict of a test that has run its last step (R133). -/
def verdictOf (results : List StepResult) : Verdict := if results.all (·.pass) then .pass else .fail

/-! ### Records -/

/-- The value of a step (R132). -/
def stepValue (q : Quantity) (e : TestEngine) : Int :=
  if e.sampleCount = 0 then 0
  else match q with
    | .tipDc | .ringDc | .loopI => e.sampleSum.tdiv e.sampleCount
    | .tipAc | .ringAc => halfSwing e.sampleMax e.sampleMin

/-- The result of the step under way (R132). -/
def stepResult (step : TestStep) (e : TestEngine) : StepResult :=
  let v := stepValue step.quantity e
  { step := e.step.getD 1, value := v, pass := e.sampleCount != 0 && step.lower ≤ v && v ≤ step.upper }

/-- The test engine is BUSY in the given phase. -/
def inPhase (p : StepPhase) (s : State) : Bool := s.engine.busy && s.engine.phase = some p

/-- The measure timer has reached the measure time (R131). -/
def testStepEndDue (s : State) : Bool :=
  inPhase .measure s && s.currentStep.measure ≤ s.engine.measureTimer && 1 ≤ s.engine.measureTimer

/-- Ends the step if that is due: its result, then the next step or the end of the test (R131 to R133). -/
def testStepEndIfDue (l : LineNo) (s : State) : State :=
  if testStepEndDue s then
    let n := s.engine.step.getD 1
    let next := n < 4 && runnable (s.testStepAt (n + 1))
    let s := modEngine (fun e => { e.clearStep with results := e.results ++ [stepResult s.currentStep e] }) s
    if next then beginTestStep l (n + 1) s
    else finishTest l (verdictOf s.engine.results) none s
  else s

/-- The sample of a record that a quantity measures (R131). -/
def sampleOf (q : Quantity) (h : Handed) : Int :=
  match q with
  | .tipDc | .tipAc => h.vt
  | .ringDc | .ringAc => h.vr
  | .loopI => h.i

/-- A sample joins the accumulators (R131). -/
def TestEngine.sample (v : Int) (e : TestEngine) : TestEngine :=
  { e with sampleCount := e.sampleCount + 1, sampleSum := e.sampleSum + v, sampleMax := raiseMax e.sampleMax v,
           sampleMin := lowerMin e.sampleMin v }

/-- A record taken in MEASURE: the timer advances, a valid record is accumulated, and the step may end (R131). -/
def measureStep (l : LineNo) (h : Handed) (s : State) : State :=
  let v := sampleOf s.currentStep.quantity h
  testStepEndIfDue l
    (modEngine (fun e =>
      let e := { e with measureTimer := e.measureTimer + 1 }
      if h.held then e else e.sample v) s)

/-- The settle count is at 0 in SETTLE (R131). -/
def testSettleEndDue (s : State) : Bool := inPhase .settle s && s.engine.settleCount = 0

/-- Moves the phase from SETTLE to MEASURE if that is due (R131). -/
def testSettleEndIfDue (s : State) : State :=
  if testSettleEndDue s then modEngine (fun e => { e with phase := some .measure }) s else s

/-- A record taken in SETTLE (R131). -/
def settleStep (l : LineNo) (h : Handed) (s : State) : State :=
  if testSettleEndDue s then measureStep l h (testSettleEndIfDue s)
  else modEngine (fun e => { e with settleCount := e.settleCount - 1 }) s

/-- The step age has reached 1,000 in WAIT_ECHO (R130). -/
def noEchoDue (s : State) : Bool := inPhase .waitEcho s && echoLimit ≤ s.engine.stepAge

/-- Aborts the test with cause NO_ECHO if that is due (R130, R134). -/
def noEchoIfDue (l : LineNo) (s : State) : State := if noEchoDue s then abortTest l .noEcho s else s

/-- The engine acts on a record of its held line (R130, R131). -/
def testRecord (l : LineNo) (h : Handed) (s : State) : State :=
  let step := s.currentStep
  let echoed := (s.line l).appliedFeed = step.feed
  match s.engine.phase with
  | some .waitEcho =>
    if echoed then
      settleStep l h (modEngine (fun e => { e with phase := some .settle, settleCount := step.settle }) s)
    else noEchoIfDue l (modEngine (fun e => { e with stepAge := e.stepAge + 1 }) s)
  | some .settle => if echoed then settleStep l h s else abortTest l .noEcho s
  | some .measure => if echoed then measureStep l h s else abortTest l .noEcho s
  | none => s

/-! ### The sweep -/

/-- The line at a distance above another, wrapping from 47 to 0 (R128, R159). -/
def lineAfter (l : LineNo) (k : Nat) : LineNo := Fin.ofNat 48 (l.val + k)

/-- The first line in IDLE from the sweep pointer upward (R128). -/
def sweepChoice (s : State) : Option LineNo :=
  ((List.range 48).find? fun k => (s.line (lineAfter s.engine.sweepPointer k)).state = .idle).map
    (lineAfter s.engine.sweepPointer)

/-- The sweep timer has reached the period (R127). -/
def sweepDue (s : State) : Bool :=
  s.settings.sweepPeriod != 0 && s.settings.sweepPeriod * sweepUnit ≤ s.engine.sweepTimer

/-- The sweep expires if that is due: the timer returns to 0, a request is offered for the line chosen, the pointer moves
past it, and a FREE engine takes its head request (R127 to R129). -/
def sweepExpiryIfDue (s : State) : State :=
  if sweepDue s then
    let chosen := sweepChoice s
    let kind := s.settings.sweepKind
    let s := modEngine (fun e => { e with sweepTimer := 0 }) s
    match chosen with
    | some l => takeRequests (modEngine (fun e => { offerSweep l kind e with sweepPointer := lineAfter l 1 }) s)
    | none => s
  else s

/-- The sweep timer at an advance of the stamp (R127). That an expiry is taken here, before every other event of its
multiframe, is the model's choice: R128 lets a change of a line's state come before it (notes/assumptions/35.md). -/
def sweepTick (s : State) : State :=
  if s.settings.sweepPeriod = 0 then modEngine (fun e => { e with sweepTimer := 0 }) s
  else sweepExpiryIfDue (modEngine (fun e => { e with sweepTimer := e.sweepTimer + 1 }) s)

end Sys2Proof.Machine
end

