-- ==== Sys2Proof/Machine/Reports.lean ====
section
/-! DEFINITION. The report unit (Chapter 10): the words of a record (R155, R173), the serialiser (R156), and the service of backlog
(R88, R89, R159). -/

namespace Sys2Proof.Machine

/-! ### The words of a record -/

/-- The three words of a digit entry (R173). -/
def entryWords (e : DigitEntry) : List Word16 :=
  [pack [(symbolCode e.symbol, 11), (methodCode e.method, 9), (errorCode e.error, 7), (e.pulses.getD 0, 0)],
   e.start,
   BitVec.ofNat 16 (match e.method with
     | .pulse => e.period.getD 0
     | .tone => e.duration.getD 0
     | .hook => e.duration.getD 0
     | .none => 0)]

/-- The two words of a step result (R173). -/
def stepResultWords (r : StepResult) : List Word16 := [pack [(r.step, 13), (flagCode r.pass, 0)], signedWord r.value]

/-- The kind code of a record (R173). -/
def kindOf : Payload → Nat
  | .reply .. => 1
  | .loadLapsed .. => 2
  | .commitDone .. => 3
  | .state .. => 8
  | .digit .. => 9
  | .digits .. => 10
  | .snapshot .. => 11
  | .faultRaise .. => 16
  | .faultClear .. => 17
  | .testResult .. => 18
  | .senseLost => 19
  | .senseBack => 20
  | .feedStuck .. => 21
  | .feedOk .. => 22
  | .syncRestored .. => 23

/-- The payload words of a record (R173). -/
def payloadWords : Payload → List Word16
  | .reply command tag status result => pack [(command.toNat, 8), (tag.toNat, 0)] :: pack [(statusCode status, 0)] :: result
  | .loadLapsed table accepted => [pack [(tableCode table, 12), (accepted, 0)]]
  | .commitDone table tag => [pack [(tableCode table, 12), (tag.toNat, 0)]]
  | .state new old cause => [pack [(stateCode new, 12), (stateCode old, 8), (causeCode cause, 0)]]
  | .digit overrun e => pack [(flagCode overrun, 15)] :: entryWords e
  | .digits overrun reason es =>
    pack [(flagCode overrun, 15), (reasonCode reason, 8), (es.length, 0)] :: es.flatMap entryWords
  | .snapshot state before level polarity fill faultClass =>
    [pack [(stateCode state, 12), (optStateCode before, 8), (levelCode level, 7), (polarityCode polarity, 6), (fill, 0)],
     pack [(faultClass, 0)]]
  | .faultRaise cls severity previous => [pack [(cls, 12), (severityCode severity, 11), (previous, 0)]]
  | .faultClear cls severity => [pack [(cls, 12), (severityCode severity, 11)]]
  | .testResult kind origin verdict cause results =>
    pack [(kindCode kind, 14), (originCode origin, 13), (verdictCode verdict, 11), (abortCode cause, 8),
      (results.length, 0)] :: results.flatMap stepResultWords
  | .senseLost => []
  | .senseBack => []
  | .feedStuck commanded echoed => [pack [(feedCode commanded, 4), (feedCode echoed, 0)]]
  | .feedOk feed => [pack [(feedCode feed, 0)]]
  | .syncRestored stampAtLoss => [stampAtLoss]

/-- The words of a record before its check word (R155, R173). -/
def Record.body (r : Record) : List Word16 :=
  pack [(kindOf r.payload, 10), (flagCode r.alarmLost, 9), (lineCode r.line, 0)] :: r.stamp :: payloadWords r.payload

/-- All the words of a record: the 16-bit sum is 0 (R155). -/
def Record.words (r : Record) : List Word16 := r.body ++ [checkWord r.body]

/-! ### Service of backlog -/

/-- The SNAPSHOT of a line (R159). -/
def snapshotOf (c : Line) : Payload :=
  .snapshot c.state c.stateBeforeTest c.loop.debounced c.polarity c.fill c.monitor.confirmedClass

/-- A served line gives its oldest due item, or else a SNAPSHOT, after which its state-lost flag is cleared (R88, R89,
R159). -/
def serveLine (l : LineNo) (s : State) : State :=
  match (s.line l).due with
  | item :: rest => keepItem l item (modLine l (fun c => { c with due := rest }) s)
  | [] =>
    pushSignal (s.record (some l) (snapshotOf (s.line l))) (modLine l (fun c => { c with stateLost := false }) s)

/-- The line to be served: the first with backlog from the one after the service pointer (R159). -/
def serviceChoice (s : State) : Option LineNo :=
  ((List.range 48).find? fun k => (s.line (lineAfter s.report.servicePointer (k + 1))).backlog).map
    fun k => lineAfter s.report.servicePointer (k + 1)

/-- The service that follows each departure from the SIGNAL queue (R159). -/
def serveBacklog (s : State) : State :=
  match serviceChoice s with
  | some l => serveLine l { s with report := { s.report with servicePointer := l } }
  | none => s

/-! ### The serialiser -/

/-- The report words of the frame under way (R156, R171). -/
def putReport (c : ControlFlags) (data : Word16) (s : State) : State :=
  { s with wires := { s.wires with report := some (writeControl c, data) } }

/-- The device with its serialiser changed. -/
def setSending (x : Option (Record × Nat)) (s : State) : State := { s with report := { s.report with sending := x } }

/-- Sends word `i` of a record: S with the first, E with the last, after which the serialiser is FREE (R156). -/
def sendWord (r : Record) (i : Nat) (s : State) : State :=
  let last := r.words.length ≤ i + 1
  putReport ⟨true, i = 0, last⟩ (r.words.getD i 0) (setSending (if last then none else some (r, i + 1)) s)

/-- A FREE serialiser takes the head of the first queue that is not empty, and sends its first word; a departure from the
SIGNAL queue is followed by a service (R156, R159). With no record to send V is clear; S and E are then clear and the data
word is 0 (the model's choice, notes/assumptions/32.md). -/
def chooseRecord (s : State) : State :=
  match s.report.alarm, s.report.reply, s.report.signal with
  | r :: rest, _, _ => sendWord r 0 { s with report := { s.report with alarm := rest } }
  | [], r :: rest, _ => sendWord r 0 { s with report := { s.report with reply := rest } }
  | [], [], r :: rest => sendWord r 0 (serveBacklog { s with report := { s.report with signal := rest } })
  | [], [], [] => putReport ⟨false, false, false⟩ 0 s

/-- The serialiser in one outbound trunk frame (R156). -/
def reportFrame (s : State) : State :=
  match s.report.sending with
  | some (r, i) => sendWord r i s
  | none => chooseRecord s

end Sys2Proof.Machine
end

