-- ==== Sys2Proof/Machine/Tables.lean ====
section
/-! DEFINITION. The table store's commands and events (Chapter 11): loading, commit, cancel, lapse, and reading, and the replies
of management commands (R151, R152). -/

namespace Sys2Proof.Machine

/-! ### Replies -/

/-- Offers the reply of a command (R152). -/
def replyWith (code : Nat) (tag : Tag) (line : Option LineNo) (status : Status) (result : List Word16) (s : State) : State :=
  offerReply line (.reply (BitVec.ofNat 8 code) tag status result) s

/-- Offers a reply without result words: a refusal, or the OK of a command that returns none (R152). -/
def replyStatus (code : Nat) (tag : Tag) (line : Option LineNo) (status : Status) (s : State) : State :=
  replyWith code tag line status [] s

/-- The first check that fails, in the order given (R151). -/
def firstFailure (checks : List (Bool × Status)) : Option Status := (checks.find? (·.1)).map (·.2)

/-- A command that passes every check has its effect, then its reply OK; one that fails a check is answered with the
status of the first that fails, and changes nothing (R151). -/
def guarded (code : Nat) (tag : Tag) (line : Option LineNo) (checks : List (Bool × Status)) (effect : State → State)
    (s : State) : State :=
  match firstFailure checks with
  | some status => replyStatus code tag line status s
  | none => replyStatus code tag line .ok (effect s)

/-! ### Loads -/

/-- The bank of a table that is not ACTIVE (R169). -/
def Table.otherBank (tb : Table) : Bank := tb.active.other

/-- LOAD_OPEN's effect: the ACTIVE bank is copied into the SHADOW bank and the load opens (R164). -/
def Table.openLoad (first count : Nat) (tb : Table) : Table :=
  { tb.setBank tb.otherBank (tb.bank tb.active) with load := some ⟨first, count, 0, 0⟩ }

/-- LOAD_OPEN (R164). -/
def loadOpen (tag : Tag) (table first count : Word16) (s : State) : State :=
  match tableOfWord table with
  | none => replyStatus 10 tag none .range s
  | some t =>
    let n := t.entries
    guarded 10 tag none
      [(n ≤ first.toNat || count.toNat = 0 || n < first.toNat + count.toNat, .range),
       ((s.table t).load.isSome, .state),
       ((s.table t).retiringTag.isSome, .busy)]
      (setTable t ((s.table t).openLoad first.toNat count.toNat)) s

/-- LOAD_BLOCK's effect: the entry is written with its valid mark set, the accepted count rises, the lapse timer restarts
(R165). -/
def Table.writeBlock (ld : Load) (block : Nat) (words : List Word16) (tb : Table) : Table :=
  { tb.setBank tb.otherBank ((tb.bank tb.otherBank).set (ld.first + block) ⟨true, words⟩) with
    load := some { ld with accepted := ld.accepted + 1, lapse := 0 } }

/-- The entry of a block is judged not valid: under the layout of its index, which FAULT_PLAN has only while its load is
OPEN (R165). -/
def blockInvalid (t : TableId) (load : Option Load) (block : Nat) (words : List Word16) : Bool :=
  match load, t with
  | none, .faultPlan => false
  | none, .profile | none, .tonePlan | none, .cadence | none, .testPlan | none, .settings => !validEntry t block words
  | some ld, _ => !validEntry t (ld.first + block) words

/-- LOAD_BLOCK, its length check included, which depends on the table named (R151, R165). -/
def loadBlock (tag : Tag) (table block : Word16) (entry : List Word16) (s : State) : State :=
  match tableOfWord table with
  | none => replyStatus 11 tag none .range s
  | some t =>
    let load := (s.table t).load
    let ld := load.getD ⟨0, 0, 0, 0⟩
    guarded 11 tag none
      [(entry.length != t.entryLength, .length),
       (t.entries ≤ block.toNat || blockInvalid t load block.toNat entry, .range),
       (load.isNone, .state),
       (block.toNat != ld.accepted || ld.accepted = ld.count, .order)]
      (setTable t ((s.table t).writeBlock ld block.toNat entry)) s

/-- The load of a table is closed (R166, R167, R170). -/
def Table.closeLoad (tb : Table) : Table := { tb with load := none }

/-- LOAD_CANCEL (R166). -/
def loadCancel (tag : Tag) (table : Word16) (s : State) : State :=
  match tableOfWord table with
  | none => replyStatus 13 tag none .range s
  | some t =>
    guarded 13 tag none [((s.table t).load.isNone, .state)] (setTable t (s.table t).closeLoad) s

/-- The load lapses if its timer has reached 1,000 (R166). -/
def loadLapseIfDue (t : TableId) (s : State) : State :=
  match (s.table t).load with
  | some ld =>
    if lapseLimit ≤ ld.lapse then
      offerReply none (.loadLapsed t ld.accepted) (setTable t (s.table t).closeLoad s)
    else s
  | none => s

/-- The lapse timer of a load at an advance of the stamp (R166): it advances and stops at 1,000, where the load lapses at the
multiframe that begins. -/
def Load.tick (ld : Load) : Load := { ld with lapse := advance lapseLimit ld.lapse }

/-- The lapse timer of a table at an advance of the stamp (R166). -/
def lapseTick (t : TableId) (s : State) : State := setTable t { s.table t with load := (s.table t).load.map Load.tick } s

/-- The six tables in code order (R171). -/
def allTables : List TableId := [.profile, .tonePlan, .cadence, .faultPlan, .testPlan, .settings]

/-- The lapse timers of all tables at an advance of the stamp (R166). -/
def lapseTicks (s : State) : State := allTables.foldl (fun s t => lapseTick t s) s

/-- The lapses of the multiframe under way that are still due at its end (R166). Up to there LOAD_LAPSE takes a lapse in any place
among the multiframe's commands, and a block or a commit that is taken first prevents it (the model's choice,
notes/assumptions/33.md). -/
def dueLapses (s : State) : State := allTables.foldl (fun s t => loadLapseIfDue t s) s

/-! ### Commit -/

/-- The roles after a commit: the SHADOW bank is ACTIVE, the former one RETIRING under the tag if it has a user (R167). -/
def Table.commit (tag : Tag) (used : Bool) (tb : Table) : Table :=
  { tb with load := none, active := tb.otherBank, retiringTag := if used then some tag else none }

/-- The sweep timer after a commit: 0 if the SWEEP_PERIOD in force changed (R127, R167). -/
def restartSweep (before : Nat) (s : State) : State :=
  if s.settings.sweepPeriod = before then s else modEngine (fun e => { e with sweepTimer := 0 }) s

/-- LOAD_COMMIT's effect before its reply (R167 steps 1 to 3). -/
def commitTable (t : TableId) (tag : Tag) (s : State) : State :=
  restartSweep s.settings.sweepPeriod
    (setTable t ((s.table t).commit tag (1 ≤ s.users t (s.activeBank t))) s)

/-- LOAD_COMMIT: the effect, the reply OK, and COMMIT_DONE where the former bank became SHADOW at once (R167). -/
def loadCommit (tag : Tag) (table : Word16) (s : State) : State :=
  match tableOfWord table with
  | none => replyStatus 12 tag none .range s
  | some t =>
    let ld := (s.table t).load.getD ⟨0, 0, 0, 0⟩
    match firstFailure
      [((s.table t).load.isNone, .state), ((s.table t).retiringTag.isSome, .busy),
       (ld.accepted < ld.count, .incomplete)] with
    | some status => replyStatus 12 tag none status s
    | none =>
      let s := replyStatus 12 tag none .ok (commitTable t tag s)
      if (s.table t).retiringTag.isSome then s else offerReply none (.commitDone t tag) s

/-! ### Reading -/

/-- The bank a bank choice names: ACTIVE 0, OTHER 1 (R169, R171). -/
def chosenBank (choice : Word16) (tb : Table) : Option Bank :=
  match choice.toNat with
  | 0 => some tb.active
  | 1 => some tb.otherBank
  | _ => none

/-- The result words of ENTRY_READ (R173). -/
def entryReadWords (tb : Table) (bank : Bank) (e : Entry) : List Word16 :=
  pack [(bankCode bank, 15), (roleCode (tb.role bank), 12), (flagCode e.valid, 0)] :: e.words

/-- ENTRY_READ (R169). -/
def entryRead (tag : Tag) (table choice index : Word16) (s : State) : State :=
  match tableOfWord table with
  | none => replyStatus 14 tag none .range s
  | some t =>
    match chosenBank choice (s.table t) with
    | none => replyStatus 14 tag none .range s
    | some bank =>
      if t.entries ≤ index.toNat then replyStatus 14 tag none .range s
      else replyWith 14 tag none .ok (entryReadWords (s.table t) bank (s.entry t bank index.toNat)) s

end Sys2Proof.Machine
end

