-- ==== Sys2Proof/Machine/LineCommands.lean ====
section
/-! DEFINITION. The management commands on a line and on the device (R5 to R9, R94, R97, R126, R152 to R154). -/

namespace Sys2Proof.Machine

/-- A command that names a line: refused RANGE with line 63 when the number is above 47; otherwise the checks, the effect
and the reply under the line's number, and then the table store's completed migrations (R151, R152, R168). -/
def lineCommand (code : Nat) (tag : Tag) (line : Word16) (checks : LineNo → List (Bool × Status))
    (effect : LineNo → State → State) (s : State) : State :=
  match lineOfWord line with
  | none => replyStatus code tag none .range s
  | some l =>
    match firstFailure (checks l) with
    | some status => replyStatus code tag (some l) status s
    | none => releaseBanks (replyStatus code tag (some l) .ok (effect l s))

/-- The named PROFILE entry, and the TONE_PLAN entry if that profile needs it, are valid in the ACTIVE banks (R5, R9). -/
def profileUsable (s : State) (index : Nat) : Bool :=
  s.activeValid .profile index &&
    (!(readProfile (s.activeWords .profile index)).needsTonePlan || s.activeValid .tonePlan 0)

/-- LINE_ENABLE's effect (R5). -/
def enableLine (l : LineNo) (profile : Nat) (s : State) : State :=
  let s := adoptProfile l profile s
  let new := if (s.line l).monitor.hazard then LineState.fault else .idle
  enter l new .enable (fun c =>
    { c.restartDetector with
      toneBank := s.activeBank .tonePlan, cadenceBank := s.activeBank .cadence, polarity := .forward,
      lockoutTimer := 0 }) s

/-- LINE_ENABLE (R5). -/
def lineEnable (tag : Tag) (line profile : Word16) (s : State) : State :=
  lineCommand 1 tag line
    (fun l => [(8 ≤ profile.toNat, .range),
      ((s.line l).state != .disabled || !profileUsable s profile.toNat, .state)])
    (fun l => enableLine l profile.toNat) s

/-- The line is the one the test engine holds (R124, R134). -/
def testHeld (s : State) (l : LineNo) : Bool := s.engine.busy && s.engine.held.any fun r => r.line = l

/-- A line enters DISABLED: its digits, open string and ringing end, and its fields are as R6 gives. -/
def disableLine (l : LineNo) (s : State) : State :=
  enter l .disabled .disable (fun c =>
    { c.dropDigits.stopRing with
      pendingProfile := none, polarity := .forward, lockoutTimer := 0, stringTimer := 0, senseLost := false,
      stateBeforeTest := none })
    (closeString l .disable s)

/-- LINE_DISABLE: a DISABLED line is only answered; the held line's test is aborted, its TEST_RESULT before the STATE
record, and after the reply the engine is FREE and takes its next request (R6, R134, R151). -/
def lineDisable (tag : Tag) (line : Word16) (s : State) : State :=
  match lineOfWord line with
  | none => replyStatus 2 tag none .range s
  | some l =>
    if (s.line l).state = .disabled then replyStatus 2 tag (some l) .ok s
    else if testHeld s l then
      freeEngine (replyStatus 2 tag (some l) .ok (disableLine l (reportTest .aborted (some .disabled) s)))
    else releaseBanks (replyStatus 2 tag (some l) .ok (disableLine l s))

/-- LINE_CONNECT's effect (R7). -/
def connectLine (l : LineNo) (s : State) : State :=
  let p := s.profile l
  enter l .connected .connect (fun c =>
    let c := c.discardPulse.stopTone
    if p.connTone then startTone s.highway.sync c else c)
    (closeString l .connect s)

/-- LINE_CONNECT (R7). -/
def lineConnect (tag : Tag) (line : Word16) (s : State) : State :=
  lineCommand 4 tag line (fun l => [(!dialling (s.line l).state, .state)]) connectLine s

/-- LINE_POLARITY's effect (R8). -/
def setPolarity (l : LineNo) (p : Polarity) (s : State) : State :=
  let s := modLine l (fun c => { c with polarity := p }) s
  if (s.line l).state = .connected then refreshFeed l s else s

/-- LINE_POLARITY (R8). -/
def linePolarity (tag : Tag) (line polarity : Word16) (s : State) : State :=
  lineCommand 5 tag line
    (fun l => [((polarityOfWord polarity).isNone, .range), ((s.line l).state = .disabled, .state)])
    (fun l => setPolarity l ((polarityOfWord polarity).getD .forward)) s

/-- LINE_PROFILE (R9). -/
def lineProfile (tag : Tag) (line profile : Word16) (s : State) : State :=
  lineCommand 3 tag line
    (fun l => [(8 ≤ profile.toNat, .range),
      ((s.line l).state = .disabled || !profileUsable s profile.toNat, .state)])
    (fun l => modLine l (fun c => { c with pendingProfile := some profile.toNat })) s

/-- RING_START (R94). -/
def ringStart (tag : Tag) (line cadence cycles : Word16) (s : State) : State :=
  lineCommand 6 tag line
    (fun l => [(4 ≤ cadence.toNat || 256 ≤ cycles.toNat, .range),
      ((s.line l).state != .idle || !s.activeValid .cadence cadence.toNat, .state)])
    (fun l => startRinging l cadence.toNat cycles.toNat) s

/-- RING_STOP (R97). -/
def ringStop (tag : Tag) (line : Word16) (s : State) : State :=
  lineCommand 7 tag line (fun l => [((s.line l).state != .ringing, .state)]) (fun l => endRinging l .stopped) s

/-- TEST_REQUEST: the request joins the queue, the reply is offered, and then a FREE engine takes its head request (R126,
R129, R151). -/
def testRequest (tag : Tag) (line kind : Word16) (s : State) : State :=
  match lineOfWord line with
  | none => replyStatus 8 tag none .range s
  | some l =>
    match kindOfCode kind.toNat with
    | none => replyStatus 8 tag (some l) .range s
    | some k =>
      if (s.line l).state = .test then replyStatus 8 tag (some l) .state s
      else match offerCommanded l k s.engine.queue with
        | none => replyStatus 8 tag (some l) .full s
        | some q =>
          takeRequests (replyStatus 8 tag (some l) .ok (modEngine (fun e => { e with queue := q }) s))

/-- The nine result words of LINE_QUERY (R152, R173). -/
def lineQueryWords (c : Line) : List Word16 :=
  let ringing := c.state = .ringing
  [pack [(stateCode c.state, 12), (optStateCode c.stateBeforeTest, 8), (c.profileIndex, 4),
     (c.pendingProfile.getD 15, 0)],
   pack [(polarityCode c.polarity, 15), (feedCode c.commandedFeed, 12), (feedCode c.appliedFeed, 8),
     (bankCode c.profileBank, 3), (bankCode c.toneBank, 2), (bankCode c.cadenceBank, 1), (bankCode c.faultBank, 0)],
   pack [(levelCode c.loop.debounced, 15), (flagCode c.loop.brk.isSome, 14), (c.pulse.count, 8),
     (toneStateCode c.tone.state, 6), ((c.tone.key.map symbolCode).getD 31, 0)],
   pack [(c.pulse.tbase, 0)],
   pack [(c.ring.cadence.getD 7, 13), (c.ring.step.getD 0, 10), (if ringing then c.ring.cyclesLeft.getD 0 else 0, 0)],
   pack [(c.monitor.confirmedClass, 12), (optSeverityCode c.monitor.confirmedSeverity, 10),
     (c.monitor.candidateClass.getD 31, 4), (c.monitor.candidateRun, 0)],
   pack [(c.monitor.clearRun, 12), (c.fill, 6), (c.openString.length, 0)],
   pack [(c.due.length, 10), (flagCode c.senseLost, 3), (flagCode c.stateLost, 2), (flagCode c.overrun, 1),
     (flagCode c.feedStuck, 0)],
   pack [(c.lockoutTimer, 0)]]

/-- LINE_QUERY (R152). -/
def lineQuery (tag : Tag) (line : Word16) (s : State) : State :=
  match lineOfWord line with
  | none => replyStatus 9 tag none .range s
  | some l => replyWith 9 tag (some l) .ok (lineQueryWords (s.line l)) s

/-- The two words of a table in the PART_QUERY result (R173). -/
def tableQueryWords (tb : Table) : List Word16 :=
  let ld := tb.load.getD ⟨0, 0, 0, 0⟩
  [pack [(roleCode (tb.role .a), 14), (roleCode (tb.role .b), 12), (flagCode tb.load.isSome, 11), (ld.first, 0)],
   pack [(ld.count, 8), (ld.accepted, 0)]]

/-- The word of the test engine in the PART_QUERY result, 0 when FREE (R173). -/
def engineQueryWord (e : TestEngine) : Word16 :=
  match e.busy, e.held with
  | true, some r =>
    pack [(1, 15), (r.line.val, 8), (kindCode r.kind, 6), (originCode r.origin, 5), (e.step.getD 0, 2),
      (phaseCode e.phase, 0)]
  | true, none => pack [(1, 15)]
  | false, _ => 0

/-- The eighteen result words of PART_QUERY (R153, R173). -/
def partQueryWords (s : State) : List Word16 :=
  [pack [(syncCode s.highway.sync, 15), (flagCode s.highway.stampAtLoss.isSome, 14)],
   s.highway.stampAtLoss.getD 0,
   pack [(s.report.alarm.length, 11), (s.report.reply.length, 7), (flagCode s.report.alarmLost, 6),
     (s.report.servicePointer.val, 0)],
   pack [(s.report.signal.length, 9), (s.lines.toList.countP (·.backlog), 0)]] ++
  allTables.flatMap (fun t => tableQueryWords (s.table t)) ++
  [engineQueryWord s.engine,
   pack [(s.engine.queue.length, 12), (s.engine.sweepPointer.val, 0)]]

/-- PART_QUERY (R153). -/
def partQuery (tag : Tag) (s : State) : State := replyWith 15 tag none .ok (partQueryWords s) s

/-- A line at PART_RESET: the values of R1, with the selectors at the ACTIVE banks, and the fields that R1, R22 and R136
keep (notes/assumptions/12.md for the fault window). -/
def Line.partReset (s : State) (c : Line) : Line :=
  { Line.initial with
    appliedFeed := c.appliedFeed
    profileBank := s.activeBank .profile
    toneBank := s.activeBank .tonePlan
    cadenceBank := s.activeBank .cadence
    faultBank := s.activeBank .faultPlan
    loop := .initial c.loop.feedMask
    monitor := .initial (windowStartOf s.stamp)
    lastI := c.lastI
    lastVt := c.lastVt
    lastVr := c.lastVr
    invalidRun := c.invalidRun
    recoveryDue := c.recoveryDue }

/-- The engine at PART_RESET: the sweep pointer and timer are kept (R123). -/
def TestEngine.partReset (e : TestEngine) : TestEngine :=
  { TestEngine.initial with sweepPointer := e.sweepPointer, sweepTimer := e.sweepTimer }

/-- The report unit at PART_RESET: the queues are emptied and the alarm-lost flag is cleared (R154). -/
def ReportUnit.partReset (r : ReportUnit) : ReportUnit :=
  { r with alarm := [], reply := [], signal := [], alarmLost := false }

/-- A table at PART_RESET: its load is closed and its RETIRING bank is SHADOW (R170). -/
def Table.partReset (tb : Table) : Table := { tb with load := none, retiringTag := none }

/-- The table store at PART_RESET (R170). -/
def TableStore.partReset (ts : TableStore) : TableStore :=
  { profile := ts.profile.partReset, tonePlan := ts.tonePlan.partReset, cadence := ts.cadence.partReset,
    faultPlan := ts.faultPlan.partReset, testPlan := ts.testPlan.partReset, settings := ts.settings.partReset }

/-- The changes that together are the reset (R154). -/
def resetPart (s : State) : State :=
  { mapLines (Line.partReset s) s with
    engine := s.engine.partReset, report := s.report.partReset, tables := s.tables.partReset }

/-- PART_RESET: the reset, then the reply OK into the emptied queue (R154). -/
def partReset (tag : Tag) (s : State) : State := replyStatus 16 tag none .ok (resetPart s)

end Sys2Proof.Machine
end

