-- ==== Sys2Proof/Machine/Management.lean ====
section
/-! DEFINITION. The management receiver (Chapter 10): the assembly of a message from the words of the frames, truncation, the
checks of a completed message, and its execution (R148 to R152, R172). -/

namespace Sys2Proof.Machine

/-- The device with its receiver replaced. -/
def setReceiver (r : Receiver) (s : State) : State := { s with receiver := r }

/-- The receiver returns to IDLE with its buffer emptied, its tag absent and its gap count 0 (R148). -/
def idleReceiver (s : State) : State := setReceiver .initial s

/-! ### Completed messages -/

/-- The command code of a first word (R172). -/
def codeOf (first : Word16) : Nat := bits first 15 8

/-- The tag of a first word (R172). -/
def tagOf (first : Word16) : Tag := BitVec.ofNat 8 (bits first 7 0)

/-- A message's word count is not the count that R172 gives for its command; a LOAD_BLOCK's count beyond the three words
that hold its table argument is judged with its table (R151). -/
def lengthFails (code count : Nat) : Bool :=
  match code with
  | 1 | 3 | 5 | 8 => count != 4
  | 2 | 4 | 7 | 9 | 12 | 13 => count != 3
  | 6 | 10 | 14 => count != 5
  | 15 | 16 => count != 2
  | _ => count < 3

/-- The command of a message that passed the check word, the code and the length, by its code; `arg i` is argument `i`
and `entry` the words between the second argument and the check word (R172). -/
def executeCommand (code : Nat) (tag : Tag) (arg : Nat → Word16) (entry : List Word16) (s : State) : State :=
  match code with
  | 1 => lineEnable tag (arg 1) (arg 2) s
  | 2 => lineDisable tag (arg 1) s
  | 3 => lineProfile tag (arg 1) (arg 2) s
  | 4 => lineConnect tag (arg 1) s
  | 5 => linePolarity tag (arg 1) (arg 2) s
  | 6 => ringStart tag (arg 1) (arg 2) (arg 3) s
  | 7 => ringStop tag (arg 1) s
  | 8 => testRequest tag (arg 1) (arg 2) s
  | 9 => lineQuery tag (arg 1) s
  | 10 => loadOpen tag (arg 1) (arg 2) (arg 3) s
  | 11 => loadBlock tag (arg 1) (arg 2) entry s
  | 12 => loadCommit tag (arg 1) s
  | 13 => loadCancel tag (arg 1) s
  | 14 => entryRead tag (arg 1) (arg 2) (arg 3) s
  | 15 => partQuery tag s
  | 16 => partReset tag s
  | _ => s

/-- A completed message: the checks of R151 in order, then the command. The receiver is IDLE by then (R148). -/
def executeMessage (ws : List Word16) (s : State) : State :=
  let first := ws.headD 0
  let code := codeOf first
  let tag := tagOf first
  let fail (status : Status) := replyStatus code tag none status s
  if ws.sum != 0 then fail .check
  else if code = 0 || 16 < code then fail .unknown
  else if lengthFails code ws.length then fail .length
  else executeCommand code tag (fun i => ws.dropLast.getD i 0) (ws.dropLast.drop 3) s

/-- The message under way ends without completing: answered with the status, with the code and tag of its first word, and
the receiver is IDLE (R149, R150, R152, R173). -/
def endMessage (status : Status) (s : State) : State :=
  let first := s.receiver.buffer.headD 0
  replyStatus (codeOf first) (s.receiver.tag.getD 0) none status (idleReceiver s)

/-! ### The words of a frame -/

/-- A word begins a message; with E set it completes it at once (R149). -/
def beginMessage (e : Bool) (data : Word16) (s : State) : State :=
  if e then executeMessage [data] (idleReceiver s)
  else setReceiver { state := .assembling, buffer := [data], tag := some (tagOf data), gap := 0 } s

/-- A word of a message under way in ASSEMBLING (R149). -/
def appendWord (e : Bool) (data : Word16) (s : State) : State :=
  let r := s.receiver
  if messageCapacity ≤ r.buffer.length then
    if e then endMessage .length s else setReceiver { r with state := .discarding, gap := 0 } s
  else if e then executeMessage (r.buffer ++ [data]) (idleReceiver s)
  else setReceiver { r with buffer := r.buffer ++ [data], gap := 0 } s

/-- More than 64 frames have passed without a valid word in a message under way (R150). -/
def gapDue (s : State) : Bool := s.receiver.state != .idle && gapLimit ≤ s.receiver.gap

/-- Truncates the message under way if that is due (R150). -/
def gapExpiryIfDue (s : State) : State := if gapDue s then endMessage .truncated s else s

/-- The receiver takes the management control and data words of a frame (R149, R150). -/
def managementWord (control data : Word16) (s : State) : State :=
  let f := readControl control
  match s.receiver.state with
  | .idle => if f.v && f.s then beginMessage f.e data s else s
  | .assembling | .discarding =>
    if !f.v then gapExpiryIfDue (setReceiver { s.receiver with gap := s.receiver.gap + 1 } s)
    else if f.s then beginMessage f.e data (endMessage .truncated s)
    else if s.receiver.state = .assembling then appendWord f.e data s
    else if f.e then endMessage .length s
    else setReceiver { s.receiver with gap := 0 } s

/-- A complete message's command taken by the receiver in SYNC: the receiver is at its IDLE values (R148), and in HUNT no
message completes (R138, notes/assumptions/2.md, 9.md). -/
def takeCommand (f : State → State) (s : State) : State :=
  if s.highway.sync = .sync then f (idleReceiver s) else s

end Sys2Proof.Machine
end

