-- ==== Sys2Proof/Machine/Highway.lean ====
section
/-! DEFINITION. The highway interface (Chapter 9): sync, the stamp, frames and their words, audio, sense records and their handing
to the blocks of a line, the echo comparison. -/

namespace Sys2Proof.Machine

/-! ### Sync and frames -/

/-- The device with its highway interface changed. -/
def modHighway (f : Highway → Highway) (s : State) : State := { s with highway := f s.highway }

/-- The feed code word of a line (R145, R171). -/
def feedWord (c : Line) : Word16 := pack [(feedCode c.commandedFeed, 0)]

/-- The feed code words of lines 6f to 6f + 5 (R141, R145). -/
def frameFeedWords (f : Nat) (s : State) : List Word16 :=
  (List.range 6).map fun k => feedWord (s.line (Fin.ofNat 48 (6 * f + k)))

/-- The words sent in a frame that begins: the audio received in the frame before (R142), the feed code words and the marker
(R145); the words received and the slots passed start afresh. -/
def beginFrameWords (f : Nat) (audio : Bool) (s : State) : State :=
  { s with wires :=
    { upReceived := silence, downReceived := silence,
      trunkAudio := some (if audio then s.wires.upReceived else silence),
      lineAudio := some (if audio then s.wires.downReceived else silence),
      feedWords := frameFeedWords f s, marker := f = 0, report := none, lineSlot := 0, trunkSlot := 0 } }

/-- The stamp advances by 1 (R139). -/
def advanceStamp (s : State) : State := modHighway (fun h => { h with stamp := h.stamp + 1 }) s

/-- What an advance of the stamp drives: the sweep timer, then the lapse timers (R127, R166; notes/assumptions/8.md, 35.md). -/
def stampTicks (s : State) : State := lapseTicks (sweepTick s)

/-- The device enters HUNT: the stamp at loss is taken, the record being sent is abandoned, the RUNNING tone engines are
HELD, and nothing is driven (R61, R138, R147, R156). The lapses of the broken multiframe come first (R166;
notes/assumptions/33.md). -/
def enterHunt (s : State) : State :=
  let s := modHighway (fun h =>
    { h with sync := .hunt, candidate := none, frame := none, stampAtLoss := some h.stamp }) (dueLapses s)
  { setSending none (mapLines (·.holdTone) s) with wires := .quiet }

/-- HUNT is due: the miss count has reached 4 in SYNC (R138). -/
def huntDue (s : State) : Bool := s.highway.sync = .sync && missLimit ≤ s.highway.missCount

/-- A frame begins at a counted boundary: a frame 0 ends a multiframe, with the lapses still due in it, and advances the stamp
(R138, R139, R166; notes/assumptions/33.md). -/
def passBoundary (s : State) : State :=
  let f := (s.highway.frame.getD 7 + 1) % 8
  let s := modHighway (fun h => { h with frame := some f }) s
  beginFrameWords f true (if f = 0 then stampTicks (advanceStamp (dueLapses s)) else s)

/-- A counted frame boundary in SYNC, with FS present or absent (R138). -/
def frameBoundary (fs : Bool) (s : State) : State :=
  if s.highway.sync = .sync then
    let s := modHighway (fun h => { h with missCount := if fs then 0 else advance missLimit h.missCount }) s
    if huntDue s then enterHunt s else passBoundary s
  else s

/-! ### The return to SYNC -/

/-- The test under way is aborted at the return (R134, R140). -/
def abortAtReturn (s : State) : State :=
  match s.engine.busy, s.engine.held with
  | true, some r => abortTest r.line .syncLost s
  | _, _ => s

/-- The changes the blocks make at a return to SYNC, after the stamp has advanced (R140). -/
def returnToSync (s : State) : State :=
  let s := offerAlarm none (.syncRestored (s.highway.stampAtLoss.getD 0)) s
  let s := idleReceiver (abortAtReturn s)
  mapLines (fun c => { c with monitor := { c.monitor with discard := true }, recoveryDue := true }) (setSending none s)

/-- FS at the expected boundary of a candidate: the device enters SYNC with frame 0 (R137, R139, R140). -/
def syncAcquire (s : State) : State :=
  if s.highway.sync = .hunt && s.highway.candidate.isSome then
    let first := s.highway.firstAcquisition
    let s := modHighway (fun h =>
      { h with sync := .sync, candidate := none, missCount := 0, frame := some 0, firstAcquisition := false }) s
    beginFrameWords 0 false (if first then s else stampTicks (returnToSync (advanceStamp s)))
  else s

/-- An FS pulse in HUNT becomes or replaces the candidate (R137). -/
def fsPulse (pulse : Nat) (s : State) : State :=
  if s.highway.sync = .hunt then modHighway (fun h => { h with candidate := some pulse }) s else s

/-- No FS at the expected boundary: the candidate is removed (R137). -/
def fsAbsent (s : State) : State :=
  if s.highway.sync = .hunt then modHighway (fun h => { h with candidate := none }) s else s

/-! ### Slots -/

/-- The word of slot `k` of the inbound line-port frame arrives: the slots come in order, so a word whose slot has passed is
no word of the frame (R141, notes/assumptions/5.md). -/
def onLineSlot (k : Nat) (f : State → State) (s : State) : State :=
  if s.wires.lineSlot ≤ k then f { s with wires := { s.wires with lineSlot := k + 1 } } else s

/-- The same for a slot of the inbound trunk-port frame (R141). -/
def onTrunkSlot (k : Nat) (f : State → State) (s : State) : State :=
  if s.wires.trunkSlot ≤ k then f { s with wires := { s.wires with trunkSlot := k + 1 } } else s

/-- The slot of a line's sense record, behind the 48 audio words, in the one frame of the multiframe that holds it (R141). -/
def onSenseSlot (l : LineNo) (f : State → State) (s : State) : State :=
  if s.highway.frame = some (l.val / 6) then onLineSlot (48 + l.val % 6) f s else s

/-- The slot of the two management words of a frame, behind the 48 audio words (R141). -/
def onManagementSlot (f : State → State) (s : State) : State := onTrunkSlot 48 f s

/-- The slot of the two report words of an outbound frame, which are given once in it (R141, R156). -/
def onReportSlot (f : State → State) (s : State) : State := if s.wires.report.isNone then f s else s

/-! ### Audio -/

/-- An upstream audio word: handed to the tone engine, and kept for the trunk port, muted as the tone state then gives
(R76, R142). -/
def audioUpstream (l : LineNo) (w : Word16) (s : State) : State :=
  let s := toneSample l w s
  let sent := if muted s l then 0 else w
  { s with wires := { s.wires with upReceived := s.wires.upReceived.set l.val sent l.isLt } }

/-- A downstream audio word, kept for the line port (R142). -/
def audioDownstream (l : LineNo) (w : Word16) (s : State) : State :=
  { s with wires := { s.wires with downReceived := s.wires.downReceived.set l.val w l.isLt } }

/-! ### The echo -/

/-- The mismatch run has reached 16 with the feed-stuck flag clear (R146). -/
def feedStuckDue (s : State) (l : LineNo) (echo : FeedCode) : Bool :=
  let c := s.line l
  echo != c.commandedFeed && stuckLimit ≤ c.mismatchRun && !c.feedStuck

/-- Sets the feed-stuck flag and offers FEED_STUCK if that is due (R146). -/
def feedStuckIfDue (l : LineNo) (echo : FeedCode) (s : State) : State :=
  if feedStuckDue s l echo then
    offerAlarm (some l) (.feedStuck (s.line l).commandedFeed echo) (modLine l (fun c => { c with feedStuck := true }) s)
  else s

/-- The comparison of a valid record's echo with the commanded feed (R146). -/
def compareEcho (l : LineNo) (echo : FeedCode) (s : State) : State :=
  if echo = (s.line l).commandedFeed then
    let s' := modLine l (fun c => { c with mismatchRun := 0, feedStuck := false }) s
    if (s.line l).feedStuck then offerAlarm (some l) (.feedOk echo) s' else s'
  else
    feedStuckIfDue l echo (modLine l (fun c => { c with mismatchRun := advance stuckLimit c.mismatchRun }) s)

/-- The applied feed takes the echoed code; a change sets the feed-mask count (R2, R25). -/
def applyEcho (feedMask : Nat) (echo : FeedCode) (c : Line) : Line :=
  { c with
    appliedFeed := echo
    loop := if echo = c.appliedFeed then c.loop else { c.loop with feedMask := feedMask } }

/-! ### Handing a record to a line -/

/-- The recovery changes of a line's blocks, in order: detector, sequencer, pulse engine, tone engine (R38, R54, R62, R105,
R140, R144). -/
def recoverLine (l : LineNo) (s : State) : State :=
  recoverTone l (recoverPulse l (modLine l (fun c => { c.recoverRing with loop := c.loop.recover }) s))

/-- The line's own blocks use a record by the line's state: the test engine, the sequencer with the detector, or the
detector and then the interdigit check (R3, R23, R48, R102, R130). -/
def blocksRecord (l : LineNo) (h : Handed) (feedMasked : Bool) (s : State) : State :=
  match (s.line l).state with
  | .test => if testHeld s l then testRecord l h s else s
  | .ringing => ringRecord l h.i h.held feedMasked s
  | .idle | .seized | .dialling | .connected | .lockout => digitEndIfDue l (useDetector l h.i feedMasked s)
  | .disabled | .fault => s

/-- The line's blocks at a record: at the first record used after a loss the recovery changes come first, and a test on a
line whose sense has returned is aborted (R134, R140, R144). -/
def useBlocks (l : LineNo) (h : Handed) (feedMasked back : Bool) (s : State) : State :=
  let s := if back || (s.line l).recoveryDue then recoverLine l s else s
  if back && testHeld s l then abortTest l .senseLost s else blocksRecord l h feedMasked s

/-- The line's blocks and the fault monitor take one record in the order given. A change of state by the monitor stops the
blocks' work on the record (R109, R119, notes/assumptions/4.md). -/
def useRecord (l : LineNo) (h : Handed) (feedMasked back : Bool) (order : RecordOrder) (s : State) : State :=
  match order with
  | .blocksFirst => monitorRecord l h (useBlocks l h feedMasked back s)
  | .monitorFirst =>
    let s' := monitorRecord l h s
    if (s'.line l).state = (s.line l).state then useBlocks l h feedMasked back s' else s'

/-- The feed-mask count is reduced by a record on which it stands above 0 (R25). -/
def LoopDetector.reduceMask (d : LoopDetector) : LoopDetector := { d with feedMask := d.feedMask - 1 }

/-- A record handed to a line (R143, R144): while sense-lost the fault monitor alone takes it; otherwise the feed mask is
settled, the lockout and string timers advance, the blocks use it, and the line examines its position, where migrations may
complete (R12, R19, R25, R83, R109, R168). A profile applied at a move to LOCKOUT governs the blocks on this same record (the model's choice,
notes/assumptions/28.md). -/
def handRecord (l : LineNo) (h : Handed) (back : Bool) (order : RecordOrder) (s : State) : State :=
  if h.lost then monitorRecord l h s
  else
    let feedMasked := 1 ≤ (s.line l).loop.feedMask
    let s := modLine l (fun c => { c with loop := c.loop.reduceMask }) s
    let s := useRecord l h feedMasked back order (advanceString l (advanceLockout l s))
    releaseBanks (examine l (modLine l (fun c => { c with entryMark := false, recoveryDue := false }) s))

/-! ### Sense records -/

/-- A valid record: sense returns if it was lost, the values are clamped and kept, the echo is compared and applied, and
the record is handed (R143, R144, R146). -/
def validRecord (l : LineNo) (echo : FeedCode) (i vt vr : Int) (order : RecordOrder) (s : State) : State :=
  let back := (s.line l).senseLost
  let s := if back then
      offerAlarm (some l) .senseBack (modLine l (fun c => { c with senseLost := false }) s)
    else s
  let s := modLine l (fun c => { c with lastI := i, lastVt := vt, lastVr := vr, invalidRun := 0 }) s
  let changed := echo != (s.line l).appliedFeed
  let s := modLine l (applyEcho (s.profile l).feedMask echo) (compareEcho l echo s)
  handRecord l ⟨i, vt, vr, false, changed, false, (s.line l).state = .test⟩ back order s

/-- The line becomes sense-lost: the invalid run stands at 8 on a line that is not DISABLED and has sense (R144). -/
def senseLostDue (s : State) (l : LineNo) : Bool :=
  let c := s.line l
  c.state != .disabled && lossLimit ≤ c.invalidRun && !c.senseLost

/-- Makes the line sense-lost if that is due: the flag, the SENSE_LOST record, and a RUNNING tone engine HELD (R61, R144). -/
def senseLostIfDue (l : LineNo) (s : State) : State :=
  if senseLostDue s l then
    offerAlarm (some l) .senseLost (modLine l (fun c => { c.holdTone with senseLost := true }) s)
  else s

/-- An invalid record: replaced by a held record of the last valid values; the invalid run counts (R143, R144). -/
def invalidRecord (l : LineNo) (order : RecordOrder) (s : State) : State :=
  let s := senseLostIfDue l (modLine l (fun c => { c with invalidRun := advance lossLimit c.invalidRun }) s)
  let c := s.line l
  handRecord l ⟨c.lastI, c.lastVt, c.lastVr, true, false, c.senseLost, c.state = .test⟩ false order s

/-- The arrival of a sense record (R143). -/
def senseRecord (l : LineNo) (status i vt vr : Word16) (order : RecordOrder) (s : State) : State :=
  match validEcho status with
  | some echo => validRecord l echo (clampSense i) (clampSense vt) (clampSense vr) order s
  | none => invalidRecord l order s

/-- Runs a meaning only in SYNC: what reaches the device in HUNT is not handled (R138, notes/assumptions/9.md). -/
def inSync (f : State → State) (s : State) : State := if s.highway.sync = .sync then f s else s

/-- Runs an event that belongs to a record of a line only where records are used: in SYNC, on a line with sense (R37,
notes/assumptions/26.md). -/
def whileUsed (l : LineNo) (f : State → State) (s : State) : State :=
  if s.highway.sync = .sync && !(s.line l).senseLost then f s else s

end Sys2Proof.Machine
end

