-- ==== Sys2Proof/Machine/Events.lean ====
section
/-! DEFINITION. The meaning of every command and event: one definition for each constructor of `Instr`, over the operations of
the device's blocks. Every meaning ends in a next state. -/

namespace Sys2Proof.Machine

/-- What a command answers. -/
abbrev Result := Host.Outcome State Fault Refusal

/-! ### Reset -/

/-- POWER_ON_RESET: every block at its power-on values, in HUNT; the commands that wait are the sender's (R147,
notes/assumptions/10.md). -/
def execPowerOnReset (s : State) : Result := .next { State.reset with pending := s.pending }

/-! ### Management commands -/

/-- LINE_ENABLE (R5). -/
def execLineEnable (tag : Tag) (line profile : Word16) (s : State) : Result :=
  .next (takeCommand (lineEnable tag line profile) s)

/-- LINE_DISABLE (R6). -/
def execLineDisable (tag : Tag) (line : Word16) (s : State) : Result := .next (takeCommand (lineDisable tag line) s)

/-- LINE_CONNECT (R7). -/
def execLineConnect (tag : Tag) (line : Word16) (s : State) : Result := .next (takeCommand (lineConnect tag line) s)

/-- LINE_POLARITY (R8). -/
def execLinePolarity (tag : Tag) (line polarity : Word16) (s : State) : Result :=
  .next (takeCommand (linePolarity tag line polarity) s)

/-- LINE_PROFILE (R9). -/
def execLineProfile (tag : Tag) (line profile : Word16) (s : State) : Result :=
  .next (takeCommand (lineProfile tag line profile) s)

/-- RING_START (R94). -/
def execRingStart (tag : Tag) (line cadence cycles : Word16) (s : State) : Result :=
  .next (takeCommand (ringStart tag line cadence cycles) s)

/-- RING_STOP (R97). -/
def execRingStop (tag : Tag) (line : Word16) (s : State) : Result := .next (takeCommand (ringStop tag line) s)

/-- TEST_REQUEST (R126). -/
def execTestRequest (tag : Tag) (line kind : Word16) (s : State) : Result :=
  .next (takeCommand (testRequest tag line kind) s)

/-- LINE_QUERY (R152). -/
def execLineQuery (tag : Tag) (line : Word16) (s : State) : Result := .next (takeCommand (lineQuery tag line) s)

/-- PART_QUERY (R153). -/
def execPartQuery (tag : Tag) (s : State) : Result := .next (takeCommand (partQuery tag) s)

/-- PART_RESET (R154). -/
def execPartReset (tag : Tag) (s : State) : Result := .next (takeCommand (partReset tag) s)

/-- LOAD_OPEN (R164). -/
def execLoadOpen (tag : Tag) (table first count : Word16) (s : State) : Result :=
  .next (takeCommand (loadOpen tag table first count) s)

/-- LOAD_BLOCK (R165). -/
def execLoadBlock (tag : Tag) (table block : Word16) (entry : List Word16) (s : State) : Result :=
  .next (takeCommand (loadBlock tag table block entry) s)

/-- LOAD_COMMIT (R167). -/
def execLoadCommit (tag : Tag) (table : Word16) (s : State) : Result := .next (takeCommand (loadCommit tag table) s)

/-- LOAD_CANCEL (R166). -/
def execLoadCancel (tag : Tag) (table : Word16) (s : State) : Result := .next (takeCommand (loadCancel tag table) s)

/-- ENTRY_READ (R169). -/
def execEntryRead (tag : Tag) (table choice index : Word16) (s : State) : Result :=
  .next (takeCommand (entryRead tag table choice index) s)

/-! ### Words and frames -/

/-- MANAGEMENT_WORD (R149). -/
def execManagementWord (control data : Word16) (s : State) : Result :=
  .next (inSync (onManagementSlot (managementWord control data)) s)

/-- GAP_EXPIRY (R150). -/
def execGapExpiry (s : State) : Result := .next (inSync gapExpiryIfDue s)

/-- FS_PULSE_HUNT (R137). -/
def execFsPulseHunt (pulse : Nat) (s : State) : Result := .next (fsPulse pulse s)

/-- FS_ABSENT_EXPECTED_BOUNDARY (R137). -/
def execFsAbsentExpectedBoundary (s : State) : Result := .next (fsAbsent s)

/-- SYNC_ACQUIRE (R137). -/
def execSyncAcquire (s : State) : Result := .next (syncAcquire s)

/-- FRAME_BOUNDARY (R138). -/
def execFrameBoundary (fs : Bool) (s : State) : Result := .next (frameBoundary fs s)

/-- HUNT_ENTRY (R138). -/
def execHuntEntry (s : State) : Result := .next (if huntDue s then enterHunt s else s)

/-- SENSE_RECORD (R143). -/
def execSenseRecord (line : LineNo) (status i vt vr : Word16) (order : RecordOrder) (s : State) : Result :=
  .next (inSync (onSenseSlot line (senseRecord line status i vt vr order)) s)

/-- SENSE_LOST (R144). -/
def execSenseLost (line : LineNo) (s : State) : Result := .next (inSync (senseLostIfDue line) s)

/-- FEED_STUCK (R146). -/
def execFeedStuck (line : LineNo) (echo : FeedCode) (s : State) : Result := .next (inSync (feedStuckIfDue line echo) s)

/-- AUDIO_UPSTREAM (R142). -/
def execAudioUpstream (line : LineNo) (sample : Word16) (s : State) : Result :=
  .next (inSync (onLineSlot line.val (audioUpstream line sample)) s)

/-- AUDIO_DOWNSTREAM (R142). -/
def execAudioDownstream (line : LineNo) (sample : Word16) (s : State) : Result :=
  .next (inSync (onTrunkSlot line.val (audioDownstream line sample)) s)

/-- REPORT_FRAME (R156). -/
def execReportFrame (s : State) : Result := .next (inSync (onReportSlot reportFrame) s)

/-! ### Events of the loop detector -/

/-- DEBOUNCE_ACCEPT (R27). -/
def execDebounceAccept (line : LineNo) (s : State) : Result := .next (whileUsed line (acceptIfDue line) s)

/-- EDGE_MASK_EXPIRE (R26). -/
def execEdgeMaskExpire (line : LineNo) (s : State) : Result :=
  .next (whileUsed line (modLine line fun c =>
    if detectorRuns c then { c with loop := expireEdge s.stamp c.loop } else c) s)

/-- FEED_MASK_END (R25). -/
def execFeedMaskEnd (line : LineNo) (s : State) : Result :=
  .next (whileUsed line (modLine line fun c =>
    if c.loop.feedMask = 1 then { c with loop := c.loop.reduceMask } else c) s)

/-- SEIZURE (R29). -/
def execSeizure (line : LineNo) (s : State) : Result := .next (whileUsed line (seizureIfDue line) s)

/-- RELEASE (R34). -/
def execRelease (line : LineNo) (s : State) : Result := .next (whileUsed line (releaseIfDue line) s)

/-- MAKE_CONFIRM (R30). -/
def execMakeConfirm (line : LineNo) (s : State) : Result := .next (whileUsed line (makeConfirmIfDue line) s)

/-! ### Events of the engines, the collector and the line -/

/-- DIGIT_END (R48). -/
def execDigitEnd (line : LineNo) (s : State) : Result := .next (whileUsed line (digitEndIfDue line) s)

/-- LOCKOUT (R12). -/
def execLockout (line : LineNo) (s : State) : Result := .next (whileUsed line (lockoutIfDue line) s)

/-- STRING_TIMEOUT (R85). -/
def execStringTimeout (line : LineNo) (s : State) : Result := .next (whileUsed line (stringTimeoutIfDue line) s)

/-- TONE_BLOCK_COMPLETE (R66). -/
def execToneBlockComplete (line : LineNo) (s : State) : Result :=
  .next (inSync (toneBlockIfDue line) s)

/-! ### Events of the ring sequencer -/

/-- RING_STEP_EXPIRE (R95). -/
def execRingStepExpire (line : LineNo) (s : State) : Result := .next (whileUsed line (ringStepExpireIfDue line) s)

/-- RING_MASK_END (R99). -/
def execRingMaskEnd (line : LineNo) (s : State) : Result := .next (whileUsed line (ringMaskEndIfDue line) s)

/-- RING_TRIP (R100). -/
def execRingTrip (line : LineNo) (s : State) : Result := .next (whileUsed line (ringTripIfDue line) s)

/-- RING_OFF_TRIP (R101). -/
def execRingOffTrip (line : LineNo) (s : State) : Result := .next (whileUsed line (ringOffTripIfDue line) s)

/-! ### Events of the fault monitor -/

/-- FAULT_WINDOW_CLOSE (R111). -/
def execFaultWindowClose (line : LineNo) (s : State) : Result :=
  .next (inSync (windowCloseIfDue line) s)

/-- FAULT_CONFIRM (R116). -/
def execFaultConfirm (line : LineNo) (s : State) : Result :=
  .next (inSync (faultConfirmIfDue line) s)

/-- FAULT_CLEAR (R117). -/
def execFaultClear (line : LineNo) (s : State) : Result :=
  .next (inSync (faultClearIfDue line) s)

/-! ### Events of the test engine and the table store -/

/-- Runs an event that belongs to a record of the engine's held line (R130, R131). -/
def onHeldLine (f : LineNo → State → State) (s : State) : State :=
  match s.engine.held with
  | some r => whileUsed r.line (f r.line) s
  | none => s

/-- TEST_TAKE (R129). -/
def execTestTake (s : State) : Result := .next (inSync takeRequests s)

/-- TEST_SETTLE_END (R131). -/
def execTestSettleEnd (s : State) : Result := .next (onHeldLine (fun _ => testSettleEndIfDue) s)

/-- TEST_STEP_END (R131). -/
def execTestStepEnd (s : State) : Result := .next (onHeldLine testStepEndIfDue s)

/-- NO_ECHO (R130). -/
def execNoEcho (s : State) : Result := .next (onHeldLine noEchoIfDue s)

/-- SWEEP_EXPIRY (R127; it is due in no state that a boundary leaves, notes/assumptions/35.md). -/
def execSweepExpiry (s : State) : Result := .next (inSync sweepExpiryIfDue s)

/-- LOAD_LAPSE (R166). -/
def execLoadLapse (table : TableId) (s : State) : Result := .next (inSync (loadLapseIfDue table) s)

/-- COMMIT_DONE (R168). -/
def execCommitDone (table : TableId) (s : State) : Result := .next (inSync (releaseBank table) s)

end Sys2Proof.Machine
end

