-- ==== Sys2Proof/Machine/Dispatch.lean ====
section
/-! DEFINITION. The dispatch: one arm for each command, a direct call of its meaning. -/

namespace Sys2Proof.Machine

/-- The effect of a command on everything but the queue of commands. -/
def exec (i : Instr) (s : State) : Host.Outcome State Fault Refusal :=
  match i with
  | .powerOnReset => Sys2Proof.Machine.execPowerOnReset s
  | .lineEnable tag line profile => Sys2Proof.Machine.execLineEnable tag line profile s
  | .lineDisable tag line => Sys2Proof.Machine.execLineDisable tag line s
  | .lineConnect tag line => Sys2Proof.Machine.execLineConnect tag line s
  | .linePolarity tag line polarity => Sys2Proof.Machine.execLinePolarity tag line polarity s
  | .lineProfile tag line profile => Sys2Proof.Machine.execLineProfile tag line profile s
  | .ringStart tag line cadence cycles => Sys2Proof.Machine.execRingStart tag line cadence cycles s
  | .ringStop tag line => Sys2Proof.Machine.execRingStop tag line s
  | .testRequest tag line kind => Sys2Proof.Machine.execTestRequest tag line kind s
  | .lineQuery tag line => Sys2Proof.Machine.execLineQuery tag line s
  | .partQuery tag => Sys2Proof.Machine.execPartQuery tag s
  | .partReset tag => Sys2Proof.Machine.execPartReset tag s
  | .loadOpen tag table first count => Sys2Proof.Machine.execLoadOpen tag table first count s
  | .loadBlock tag table block entry => Sys2Proof.Machine.execLoadBlock tag table block entry s
  | .loadCommit tag table => Sys2Proof.Machine.execLoadCommit tag table s
  | .loadCancel tag table => Sys2Proof.Machine.execLoadCancel tag table s
  | .entryRead tag table choice index => Sys2Proof.Machine.execEntryRead tag table choice index s
  | .managementWord control data => Sys2Proof.Machine.execManagementWord control data s
  | .gapExpiry => Sys2Proof.Machine.execGapExpiry s
  | .fsPulseHunt pulse => Sys2Proof.Machine.execFsPulseHunt pulse s
  | .syncAcquire => Sys2Proof.Machine.execSyncAcquire s
  | .frameBoundary fs => Sys2Proof.Machine.execFrameBoundary fs s
  | .huntEntry => Sys2Proof.Machine.execHuntEntry s
  | .senseRecord line status current vt vr order => Sys2Proof.Machine.execSenseRecord line status current vt vr order s
  | .senseLost line => Sys2Proof.Machine.execSenseLost line s
  | .feedStuck line echo => Sys2Proof.Machine.execFeedStuck line echo s
  | .audioUpstream line sample => Sys2Proof.Machine.execAudioUpstream line sample s
  | .audioDownstream line sample => Sys2Proof.Machine.execAudioDownstream line sample s
  | .reportFrame => Sys2Proof.Machine.execReportFrame s
  | .debounceAccept line => Sys2Proof.Machine.execDebounceAccept line s
  | .edgeMaskExpire line => Sys2Proof.Machine.execEdgeMaskExpire line s
  | .feedMaskEnd line => Sys2Proof.Machine.execFeedMaskEnd line s
  | .seizure line => Sys2Proof.Machine.execSeizure line s
  | .release line => Sys2Proof.Machine.execRelease line s
  | .makeConfirm line => Sys2Proof.Machine.execMakeConfirm line s
  | .digitEnd line => Sys2Proof.Machine.execDigitEnd line s
  | .lockout line => Sys2Proof.Machine.execLockout line s
  | .stringTimeout line => Sys2Proof.Machine.execStringTimeout line s
  | .toneBlockComplete line => Sys2Proof.Machine.execToneBlockComplete line s
  | .ringStepExpire line => Sys2Proof.Machine.execRingStepExpire line s
  | .ringMaskEnd line => Sys2Proof.Machine.execRingMaskEnd line s
  | .ringTrip line => Sys2Proof.Machine.execRingTrip line s
  | .ringOffTrip line => Sys2Proof.Machine.execRingOffTrip line s
  | .faultWindowClose line => Sys2Proof.Machine.execFaultWindowClose line s
  | .faultConfirm line => Sys2Proof.Machine.execFaultConfirm line s
  | .faultClear line => Sys2Proof.Machine.execFaultClear line s
  | .testTake => Sys2Proof.Machine.execTestTake s
  | .testSettleEnd => Sys2Proof.Machine.execTestSettleEnd s
  | .testStepEnd => Sys2Proof.Machine.execTestStepEnd s
  | .noEcho => Sys2Proof.Machine.execNoEcho s
  | .sweepExpiry => Sys2Proof.Machine.execSweepExpiry s
  | .loadLapse table => Sys2Proof.Machine.execLoadLapse table s
  | .commitDone table => Sys2Proof.Machine.execCommitDone table s
  | .fsAbsentExpectedBoundary => Sys2Proof.Machine.execFsAbsentExpectedBoundary s

end Sys2Proof.Machine
end

