-- ==== Sys2Proof/Safety.lean ====
section
/-! DEFINITION. What statements about the device are made of: the frame of an event of one line, and the invariants that every
step keeps. -/

namespace Sys2Proof.Machine

/-! ### Frames -/

/-- A line's context without the fields that an examination (R19), the reporting of digits and states (R87, R158) or the two
dialling timers (R12, R83) may change: what is left are the state, the feeds, the polarity, the loop detector, the ring
sequencer, the fault monitor, the FAULT_PLAN selector, the test's return state, the sense values and the flags. -/
def Line.steady (c : Line) : Line :=
  { c with
    profileIndex := 0, pendingProfile := none, profileBank := .a, toneBank := .a, cadenceBank := .a, lockoutTimer := 0,
    stringTimer := 0, stateLost := false, overrun := false, pulse := .initial, tone := .initial, due := [],
    openString := [], entryMark := false }

/-- Every bank's entries, every ACTIVE bank and every load are the same; a RETIRING bank may have been released, and no other is
RETIRING. -/
def SameTables (s t : State) : Prop :=
  ∀ x, (t.table x).bankA = (s.table x).bankA ∧ (t.table x).bankB = (s.table x).bankB ∧
    (t.table x).active = (s.table x).active ∧ (t.table x).load = (s.table x).load ∧
    ((t.table x).retiringTag = (s.table x).retiringTag ∨ (t.table x).retiringTag = none)

/-- From `s` to `t` the REPLY queue gains the COMMIT_DONE of every RETIRING bank released in between, with the tag stored for
it, unless the queue is full, and nothing else: where no bank is RETIRING the queue is the same (R157, R168). -/
def Migrated (s t : State) : Prop :=
  ∃ added, t.report.reply = s.report.reply ++ added ∧ added.Nodup ∧
    (∀ r ∈ added, ∃ x tag, (s.table x).retiringTag = some tag ∧ (t.table x).retiringTag = none ∧
      r = s.record none (.commitDone x tag)) ∧
    ∀ x tag, (s.table x).retiringTag = some tag → (t.table x).retiringTag = none →
      s.record none (.commitDone x tag) ∈ added ∨ replyCapacity ≤ t.report.reply.length

/-- From `s` to `t` only the context of line `l` has changed; beside it, records may have joined the back of the ALARM and
SIGNAL queues, the alarm-lost flag may have changed, and RETIRING banks may have been released, with their COMMIT_DONE
records. -/
structure OnlyLine (l : LineNo) (s t : State) : Prop where
  lines : ∀ k, k ≠ l → t.line k = s.line k
  pending : t.pending = s.pending
  highway : t.highway = s.highway
  wires : t.wires = s.wires
  engine : t.engine = s.engine
  receiver : t.receiver = s.receiver
  sending : t.report.sending = s.report.sending
  servicePointer : t.report.servicePointer = s.report.servicePointer
  alarm : s.report.alarm <+: t.report.alarm
  signal : s.report.signal <+: t.report.signal
  tables : SameTables s t
  migrated : Migrated s t

/-- The ALARM queue and the alarm-lost flag are the same. -/
def SameAlarm (s t : State) : Prop := t.report.alarm = s.report.alarm ∧ t.report.alarmLost = s.report.alarmLost

/-- An examination of the line finds nothing to do (R19): no profile is pending, and its PROFILE, TONE_PLAN and CADENCE
selectors name the ACTIVE banks. -/
structure State.Settled (s : State) (l : LineNo) : Prop where
  pending : (s.line l).pendingProfile = none
  profile : (s.line l).profileBank = s.activeBank .profile
  tonePlan : (s.line l).toneBank = s.activeBank .tonePlan
  cadence : (s.line l).cadenceBank = s.activeBank .cadence

/-! ### Records offered -/

/-- The SIGNAL queue after one offer of a record of the line (R158). -/
def State.signalAfter (s : State) (l : LineNo) (r : Record) : List Record :=
  if s.signalKeeps l then s.report.signal ++ [r] else s.report.signal

/-- The REPLY queue after one offer (R157). -/
def State.replyAfter (s : State) (r : Record) : List Record :=
  if s.report.reply.length < replyCapacity then s.report.reply ++ [r] else s.report.reply

/-- The state with a record offered to the REPLY queue and nothing else changed. -/
def State.withReply (r : Record) (s : State) : State := { s with report := { s.report with reply := s.replyAfter r } }

/-- The REPLY record of a command (R152), made in the multiframe under way. -/
def State.replyRecord (s : State) (code : Nat) (tag : Tag) (line : Option LineNo) (status : Status)
    (result : List Word16) : Record :=
  s.record line (.reply (BitVec.ofNat 8 code) tag status result)

/-- From `s` to `t` one ALARM record was offered, and no other (R157). -/
def AlarmOffered (line : Option LineNo) (p : Payload) (s t : State) : Prop :=
  if s.report.alarm.length < alarmCapacity then
    t.report.alarm = s.report.alarm ++ [⟨line, s.stamp, s.report.alarmLost, p⟩] ∧ t.report.alarmLost = false
  else t.report.alarm = s.report.alarm ∧ t.report.alarmLost = true

/-- From `s` to `t` an ALARM record was offered before any other (R157). -/
def AlarmFirst (line : Option LineNo) (p : Payload) (s t : State) : Prop :=
  if s.report.alarm.length < alarmCapacity then
    s.report.alarm ++ [⟨line, s.stamp, s.report.alarmLost, p⟩] <+: t.report.alarm
  else s.report.alarm <+: t.report.alarm ∧ t.report.alarmLost = true

/-! ### Migrations and strings -/

/-- The same state but for completed migrations: a RETIRING bank that has no user may have been released, with its COMMIT_DONE
(R168). -/
structure UpToMigration (s t : State) : Prop where
  lines : t.lines = s.lines
  pending : t.pending = s.pending
  highway : t.highway = s.highway
  wires : t.wires = s.wires
  engine : t.engine = s.engine
  receiver : t.receiver = s.receiver
  sending : t.report.sending = s.report.sending
  servicePointer : t.report.servicePointer = s.report.servicePointer
  alarm : SameAlarm s t
  signal : t.report.signal = s.report.signal
  tables : SameTables s t
  migrated : Migrated s t
  released : ∀ x tag, (s.table x).retiringTag = some tag → (t.table x).retiringTag = none →
    s.users x (s.activeBank x).other = 0

/-- From `s` to `t` the migrations whose last user has moved complete, as the COMMIT_DONE events of the five tables with users
in code order (R168). -/
def MigrationsComplete (s t : State) : Prop :=
  ∃ a b c d, exec (.commitDone .profile) s = .next a ∧ exec (.commitDone .tonePlan) a = .next b ∧
    exec (.commitDone .cadence) b = .next c ∧ exec (.commitDone .faultPlan) c = .next d ∧
    exec (.commitDone .testPlan) d = .next t

/-- From `s` to `t` the reply of a command whose own effect has been made is offered, and then the table store completes the
migrations that the effect leaves due (R151, R168). -/
def Replied (code : Nat) (tag : Tag) (line : Option LineNo) (status : Status) (s t : State) : Prop :=
  MigrationsComplete (s.withReply (s.replyRecord code tag line status [])) t

/-- From `s` to `t` everything that the event `i` makes is made, the migrations that it completes included; the contents of the
tables are the same. -/
def Makes (i : Instr) (s t : State) : Prop := exec i s = .next t ∧ SameTables s t ∧ Migrated s t

/-- From `s` to `m` the line's open string, if any, closes with a reason: its DIGITS record is kept and carries the overrun
flag away, or the string waits behind the line's due items (R83, R86 to R88). -/
structure ClosesString (l : LineNo) (reason : CloseReason) (s m : State) : Prop where
  frame : OnlyLine l s m
  alarm : SameAlarm s m
  reply : m.report.reply = s.report.reply
  absent : (s.line l).openString = [] → m = s
  kept : (s.line l).openString ≠ [] → s.signalKeeps l = true →
    m.line l = { s.line l with openString := [], stringTimer := 0, lockoutTimer := 0, overrun := false } ∧
      m.report.signal =
        s.report.signal ++ [s.record (some l) (.digits (s.line l).overrun reason (s.line l).openString)]
  waits : (s.line l).openString ≠ [] → s.signalKeeps l = false →
    m.line l = { s.line l with
        openString := [], stringTimer := 0, lockoutTimer := 0,
        due := (s.line l).due ++ [.string reason s.stamp (s.line l).openString] } ∧
      m.report.signal = s.report.signal

/-! ### Rest points -/

/-- A rest point (R19). -/
def Line.RestPoint (c : Line) : Prop :=
  (c.state = .disabled ∨ c.state = .idle ∨ c.state = .lockout ∨ c.state = .fault) ∨
    (c.state = .seized ∨ c.state = .dialling ∨ c.state = .connected) ∧
      c.loop.debounced = .loop ∧ c.pulse.count = 0 ∧ c.tone.state = .quiet

/-- The profile that governs the line after an examination at a rest point: the pending index or else the index it has, in the
ACTIVE bank (R19, R20). -/
def State.nextProfile (s : State) (l : LineNo) : Profile :=
  readProfile (s.entry .profile (s.activeBank .profile) ((s.line l).pendingProfile.getD (s.line l).profileIndex)).words

/-- A line's context after steps 1 and 2 of R19: the pending profile is applied and the PROFILE selector bound; the tone and
pulse engines start or stop as the profile newly includes or excludes them, and Tbase follows a new AVG_N (R20, R41, R46,
R59, R60). -/
def State.reprofiled (s : State) (l : LineNo) : Line :=
  let c := s.line l
  let old := s.profile l
  let new := s.nextProfile l
  let pulse : PulseEngine :=
    if pulseRuns old c.state = true ∧ pulseRuns new c.state = false then
      { c.pulse with count := 0, digitStart := none, lastBreak := none }
    else c.pulse
  { c with
    pendingProfile := none
    profileIndex := c.pendingProfile.getD c.profileIndex
    profileBank := s.activeBank .profile
    tone :=
      if toneRuns new c.state = true ∧ toneRuns old c.state = false then
        { ToneEngine.initial with run := if s.highway.sync = .hunt ∨ c.senseLost = true then .held else .running }
      else if toneRuns old c.state = true ∧ toneRuns new c.state = false then .initial
      else c.tone
    pulse := if new.avgN = old.avgN then pulse else { pulse with tbase := tbaseOf new.avgN pulse.history } }

/-- From `s` to `t` the line examines its position. At a rest point the pending profile is applied, an open string closes where
the reporting mode goes from STRING to EACH, and the PROFILE and TONE_PLAN selectors name the ACTIVE banks, a running tone
engine abandoning its block at a rebinding; at every examination a line that is not RINGING binds its CADENCE selector
(R19, R20, R85; that a rebinding has the effects of an applied profile: notes/assumptions/13.md). -/
structure Examines (l : LineNo) (s t : State) : Prop where
  elsewhere : ¬ (s.line l).RestPoint →
    t = setLine l { s.line l with
      cadenceBank := if (s.line l).state = .ringing then (s.line l).cadenceBank else s.activeBank .cadence } s
  rest : (s.line l).RestPoint → ∃ m,
    (if (s.profile l).reportMode = .string ∧ (s.nextProfile l).reportMode = .each then
      ClosesString l .timeout (setLine l (s.reprofiled l) s) m
    else m = setLine l (s.reprofiled l) s) ∧
    t = setLine l { m.line l with
      toneBank := s.activeBank .tonePlan
      cadenceBank := s.activeBank .cadence
      tone :=
        if (s.line l).toneBank ≠ s.activeBank .tonePlan ∧ (m.line l).tone.run = .running then
          { (m.line l).tone with bins := clearedBins, sampleCount := 0, power := 0, blockStart := none }
        else (m.line l).tone } m

/-! ### Entering a state, and entries -/

/-- From `s` to `t` the line enters a state with a cause. `after` is its context apart from what the examination and the
STATE record may change; a settled line is exactly `after`, with the state-lost flag set if the STATE record was not kept,
and any line is then examined. No bank is released yet (R2, R4, R19, R158). -/
structure EntersState (l : LineNo) (after : Line) (cause : Cause) (s t : State) : Prop where
  frame : OnlyLine l s t
  alarm : SameAlarm s t
  tables : t.tables = s.tables
  reply : t.report.reply = s.report.reply
  steady : (t.line l).steady = after.steady
  record : s.signalAfter l (s.record (some l) (.state after.state (s.line l).state cause)) <+: t.report.signal
  settled : s.Settled l →
    t.line l = { after with stateLost := after.stateLost || !s.signalKeeps l } ∧
      t.report.signal = s.signalAfter l (s.record (some l) (.state after.state (s.line l).state cause))
  examined : ∃ m, m = { setLine l (m.line l) s with report := { s.report with signal := m.report.signal } } ∧
    m.line l = { after with stateLost := after.stateLost || !s.signalKeeps l } ∧
    m.report.signal = s.signalAfter l (s.record (some l) (.state after.state (s.line l).state cause)) ∧
    Examines l m t

/-- From `s` to `t` an event moves the line to a state: it enters it, and the migrations that this completes are reported at
once (R168). -/
def MovesLine (l : LineNo) (after : Line) (cause : Cause) (s t : State) : Prop :=
  ∃ n, EntersState l after cause s n ∧ MigrationsComplete n t

/-- A line's context after an entry is made, before it is placed: both timers are 0 (R80 step 1). -/
def Line.entryMade (c : Line) : Line := { c with lockoutTimer := 0, stringTimer := 0, entryMark := true }

/-- From `s` to `m` the collector places an entry: it is discarded from a full buffer, joins the open string, closes the
string it joins, or becomes a due item of its own (R80 to R82, R84, R87, R88). -/
structure PlacesEntry (l : LineNo) (e : DigitEntry) (s m : State) : Prop where
  frame : OnlyLine l s m
  alarm : SameAlarm s m
  discarded : bufferCapacity ≤ (s.line l).fill →
    m.line l = { (s.line l).entryMade with overrun := true } ∧ m.report.signal = s.report.signal
  joins : (s.line l).fill < bufferCapacity → stringRoute (s.profile l) (s.line l).state = true →
    closingReason (s.profile l) e ((s.line l).openString.length + 1) = none →
    m.line l = { (s.line l).entryMade with openString := (s.line l).openString ++ [e] } ∧
      m.report.signal = s.report.signal
  closes : ∀ reason, (s.line l).fill < bufferCapacity → stringRoute (s.profile l) (s.line l).state = true →
    closingReason (s.profile l) e ((s.line l).openString.length + 1) = some reason →
    if s.signalKeeps l then
      m.line l = { (s.line l).entryMade with openString := [], overrun := false } ∧
        m.report.signal = s.report.signal ++
          [s.record (some l) (.digits (s.line l).overrun reason ((s.line l).openString ++ [e]))]
    else
      m.line l = { (s.line l).entryMade with
          openString := [], due := (s.line l).due ++ [.string reason s.stamp ((s.line l).openString ++ [e])] } ∧
        m.report.signal = s.report.signal
  single : (s.line l).fill < bufferCapacity → stringRoute (s.profile l) (s.line l).state = false →
    if s.signalKeeps l then
      m.line l = { (s.line l).entryMade with overrun := false } ∧
        m.report.signal = s.report.signal ++ [s.record (some l) (.digit (s.line l).overrun e)]
    else
      m.line l = { (s.line l).entryMade with due := (s.line l).due ++ [.single s.stamp e] } ∧
        m.report.signal = s.report.signal

/-- From `s` to `t` the collector takes an entry: it is placed, and a SEIZED line then moves to DIALLING (R11, R80). -/
def TakesEntry (l : LineNo) (e : DigitEntry) (s t : State) : Prop :=
  ∃ m, PlacesEntry l e s m ∧
    if (s.line l).state = .seized then
      MovesLine l { m.line l with state := .dialling, commandedFeed := .forward } .firstDigit m t
    else t = m

/-! ### What statements name -/

/-- The six feed code words of frame `f`: the commanded feed codes of lines `6f` to `6f + 5`. -/
def feedWordsOf (f : Nat) (s : State) : List Word16 :=
  (List.range 6).map fun k => pack [(feedCode (s.line (Fin.ofNat 48 (6 * f + k))).commandedFeed, 0)]

/-- The break that a make confirmation ends with, of open length `d`, on a line whose make has lasted MAKE_MIN. -/
def confirms (s : State) (l : LineNo) (b : Break) (d : Nat) : Prop :=
  s.highway.sync = .sync ∧ (s.line l).senseLost = false ∧ timesBreaks (s.line l).state = true ∧
    (s.line l).loop.brk = some b ∧ (s.line l).loop.pendingMake = true ∧
    (s.profile l).makeMin ≤ (s.line l).loop.makeTimer ∧ d = b.timer - (s.line l).loop.makeTimer

/-- A line's context after a make confirmation: no break, no pending make, debounced LOOP. -/
def confirmed (c : Line) : Line := { c with loop := { c.loop with brk := none, pendingMake := false, debounced := .loop } }

/-- The state to which a line returns from TEST (R18). -/
def Line.returnsTo (c : Line) : LineState :=
  if c.stateBeforeTest = some .disabled then .disabled
  else if c.stateBeforeTest = some .fault ∨ c.monitor.confirmedSeverity = some .hazard then .fault
  else .idle

/-- A line's context in the state to which it returns from TEST, its detector afresh (R18, R35). -/
def Line.returned (c : Line) : Line :=
  { c with
    state := c.returnsTo, commandedFeed := if c.returnsTo = .idle then .standby else .opened
    stateBeforeTest := none, loop := .initial c.loop.feedMask
    senseLost := if c.returnsTo = .disabled then false else c.senseLost }

/-- From `s` to `t` the test engine returns its bank, which may complete a migration, becomes FREE with its queue, sweep pointer
and sweep timer kept, and takes the head request as TEST_TAKE does (R133 steps 3 and 4, R168). -/
def FreesEngine (s t : State) : Prop :=
  ∃ w, MigrationsComplete { s with engine := { TestEngine.initial with
      queue := s.engine.queue, sweepPointer := s.engine.sweepPointer, sweepTimer := s.engine.sweepTimer } } w ∧
    exec .testTake w = .next t

/-- From `s` to `t` the test of request `r` ends with a verdict, in the order of R133: its TEST_RESULT, the line's move to its
return state with a STATE record, and the engine FREE, which takes its next request. The TEST_RESULT is thus the first ALARM
record and the STATE record the first SIGNAL record, the engine holds the request no more, and the line keeps its return state
(R18, R133, R134). -/
def EndsTest (r : Request) (verdict : Verdict) (cause : Option AbortCause) (results : List StepResult) (s t : State) :
    Prop :=
  let c := s.line r.line
  let result : Payload := .testResult r.kind r.origin verdict cause results
  (∃ u v, AlarmOffered (some r.line) result s u ∧
    u = { s with report := { s.report with alarm := u.report.alarm, alarmLost := u.report.alarmLost } } ∧
    MovesLine r.line c.returned .testEnd u v ∧ FreesEngine v t) ∧
  AlarmFirst (some r.line) result s t ∧ t.engine.held ≠ some r ∧ (t.line r.line).steady = c.returned.steady ∧
    s.signalAfter r.line (s.record (some r.line) (.state c.returnsTo c.state .testEnd)) <+: t.report.signal

/-! ### Slots and sense records -/

/-- The sense record of line `l` can arrive: the device is in SYNC, in the frame that holds it, and its slot has not passed
(R141). -/
def State.recordArrives (s : State) (l : LineNo) : Prop :=
  s.highway.sync = .sync ∧ s.highway.frame = some (l.val / 6) ∧ s.wires.lineSlot ≤ 48 + l.val % 6

/-- The state with the slot of the line's sense record passed. -/
def State.recordPassed (s : State) (l : LineNo) : State :=
  { s with wires := { s.wires with lineSlot := 49 + l.val % 6 } }

/-- The management words of the frame can arrive: the device is in SYNC, and their slot has not passed (R141). -/
def State.managementArrives (s : State) : Prop := s.highway.sync = .sync ∧ s.wires.trunkSlot ≤ 48

/-- The state with the slot of the management words passed. -/
def State.managementPassed (s : State) : State := { s with wires := { s.wires with trunkSlot := 49 } }

/-- A status word is that of a valid record with an echo, or of an invalid record (R143). -/
def carriesEcho (status : Word16) : Option FeedCode → Prop
  | some f => bitSet status 15 = true ∧ bits status 2 0 = feedCode f
  | none => bitSet status 15 = false ∨ bits status 2 0 = 7

/-- A sense value within plus and minus 1,000 (R143). -/
def clamped (w : Word16) : Int := max (-1000) (min 1000 w.toInt)

/-- The record is used by the line: it is valid, or it leaves the line with its sense (R144). -/
def Line.usesRecord (c : Line) (echo : Option FeedCode) : Prop :=
  echo.isSome = true ∨ c.senseLost = false ∧ (c.state = .disabled ∨ c.invalidRun < 7)

/-- The feed-mask count of a record as the detector meets it: a valid record that changes the applied feed sets it (R25). -/
def Line.maskCount (c : Line) (feedMask : Nat) (echo : Option FeedCode) : Nat :=
  if ∃ f, echo = some f ∧ f ≠ c.appliedFeed then feedMask else c.loop.feedMask

/-- A line's context when a record that it uses has been checked, compared and applied, with the feed-mask count reduced
(R25, R143, R146). -/
def Line.checked (c : Line) (feedMask : Nat) (echo : Option FeedCode) (i vt vr : Word16) : Line :=
  let loop := { c.loop with feedMask := c.maskCount feedMask echo - 1 }
  match echo with
  | some f =>
    let run := if f = c.commandedFeed then 0 else min 16 (c.mismatchRun + 1)
    { c with
      appliedFeed := f, lastI := clamped i, lastVt := clamped vt, lastVr := clamped vr, invalidRun := 0
      senseLost := false, mismatchRun := run, loop := loop
      feedStuck := if f = c.commandedFeed then false else c.feedStuck || decide (run = 16) }
  | none => { c with invalidRun := min 8 (c.invalidRun + 1), loop := loop }

/-- The record begins a new window of the line's fault monitor (R109 step 1). -/
abbrev Line.StartsWindow (c : Line) (stamp : Stamp) : Prop :=
  stamp.toNat % 64 = 0 ∨ 64 ≤ (stamp - c.monitor.windowStart).toNat

/-- The line's fault monitor after a record of the multiframe `stamp` has been gathered, before its window closes. `lost` says
that the record is handed while the line is sense-lost (R109 steps 1 to 3, R110). -/
def Line.gathers (c : Line) (stamp : Stamp) (echo : Option FeedCode) (i vt vr : Word16) (lost : Bool) : FaultMonitor :=
  let m := c.monitor
  let m : FaultMonitor :=
    if c.StartsWindow stamp then
      { m with
        windowStart := BitVec.ofNat 16 (stamp.toNat / 64 * 64), recordCount := 0, tipSum := 0, ringSum := 0, tipMax := none
        tipMin := none, ringMax := none, ringMin := none, loopSum := 0, discard := stamp.toNat % 64 != 0
        closed := false }
    else m
  let changed := match echo with
    | some f => f != c.appliedFeed
    | none => false
  let i : Int := if echo.isSome = true then clamped i else c.lastI
  let vt : Int := if echo.isSome = true then clamped vt else c.lastVt
  let vr : Int := if echo.isSome = true then clamped vr else c.lastVr
  { m with
    discard := m.discard || (changed || echo.isNone || lost || decide (c.state = .test))
    recordCount := min 64 (m.recordCount + 1)
    tipSum := m.tipSum + vt, ringSum := m.ringSum + vr, loopSum := m.loopSum + i.natAbs
    tipMax := some (m.tipMax.elim vt (max vt)), tipMin := some (m.tipMin.elim vt (min vt))
    ringMax := some (m.ringMax.elim vr (max vr)), ringMin := some (m.ringMin.elim vr (min vr)) }

/-- The lockout and string timers stand still at the record: a digit is in progress, or an entry was made since the line's
previous record used (R11, R12, R83). -/
abbrev Line.TimersStand (c : Line) : Prop :=
  1 ≤ c.pulse.count ∨ c.loop.brk.isSome = true ∨ c.tone.state ≠ .quiet ∨ c.entryMark = true

/-- From `s` to `t` the lockout timer and then the string timer of the line take a record, each with what it brings: the move to
LOCKOUT; the close of a string that holds STR_MAX entries or else of one whose timer has run out (R12, R83, R85). -/
def TimersTake (l : LineNo) (s t : State) : Prop :=
  let c := s.line l
  ∃ m, (if (c.state = .seized ∨ c.state = .dialling) ∧ ¬ c.TimersStand then
      Makes (.lockout l) (setLine l { c with lockoutTimer := min 65535 (c.lockoutTimer + 1) } s) m
    else m = s) ∧
    let d := m.line l
    let advanced :=
      if d.TimersStand then m else setLine l { d with stringTimer := min 65535 (d.stringTimer + 1) } m
    (d.openString = [] → t = m) ∧
    (d.openString ≠ [] → (m.profile l).strMax ≤ d.openString.length → ClosesString l .limit advanced t) ∧
    (d.openString ≠ [] → d.openString.length < (m.profile l).strMax → Makes (.stringTimeout l) advanced t)

/-- The INTERRUPTED entry of a digit with a start stamp (R54, R62). -/
def interruptedEntry (start : Option Stamp) : DigitEntry :=
  ⟨.error, .none, start.getD 0, none, none, none, some .interrupted⟩

/-- From `s` to `t` the line's blocks make their recovery changes: the detector and a ring-on step, then the pulse engine's
entry, then the tone engine's (R38, R54, R62, R105). -/
def Recovers (l : LineNo) (s t : State) : Prop :=
  let c := s.line l
  let recovered := setLine l { c with
    loop := { c.loop with
      run := none, edgeExpiry := none, brk := c.loop.brk.map fun b => { b with interrupted := true } }
    ring :=
      if c.state = .ringing ∧ ringOnStep c.ring.step = true then
        { c.ring with window := [], windowSum := 0, tripRun := 0, armed := false, maskCount := 0 }
      else c.ring } s
  ∃ m,
    (if (c.state = .seized ∨ c.state = .dialling) ∧ (1 ≤ c.pulse.count ∨ c.loop.brk.isSome = true) then
      ∃ n, TakesEntry l
          (interruptedEntry (if 1 ≤ c.pulse.count then c.pulse.digitStart else c.loop.brk.map (·.stamp))) recovered n ∧
        m = setLine l { n.line l with
          pulse := { (n.line l).pulse with count := 0, digitStart := none, lastBreak := none } } n
    else m = recovered) ∧
    let d := m.line l
    let abandoned := setLine l { d with
      tone := { d.tone with bins := clearedBins, sampleCount := 0, power := 0, blockStart := none } } m
    if d.tone.run = .held then
      ∃ n, (if d.tone.state = .quiet then n = abandoned
          else TakesEntry l (interruptedEntry d.tone.digitStart) abandoned n) ∧
        t = setLine l { n.line l with
          tone := { (n.line l).tone with
            run := .running, state := .quiet, key := none, candidateCount := 0, gapCount := 0, onBlocks := 0
            digitStart := none } } n
    else t = m

/-- The sample is edge-masked: its time is earlier than the expiry (R26). -/
def LoopDetector.Masked (d : LoopDetector) (now : Stamp) : Prop :=
  ∃ e, d.edgeExpiry = some e ∧ 1 ≤ (e - now).toNat ∧ (e - now).toNat ≤ 32767

/-- The detector after the raw bit, the timers, the masks and the debounce count of one sample (R24 to R28). -/
def LoopDetector.Sampled (p : Profile) (now : Stamp) (i : Int) (feedMasked : Prop) (d d' : LoopDetector) : Prop :=
  let raw := if (p.onThr : Int) ≤ |i| then true else if |i| ≤ p.offThr then false else d.raw
  let aged := d.run.map fun r => { r with age := min 65535 (r.age + 1) }
  let agrees := raw = true ↔ d.accepted = .loop
  let passed : LoopDetector := { d with
    raw := raw
    brk := d.brk.map fun b => { b with timer := min 65535 (b.timer + 1) }
    makeTimer := if d.accepted = .loop then min 65535 (d.makeTimer + 1) else d.makeTimer
    edgeExpiry := d'.edgeExpiry
    run := d'.run }
  d' = passed ∧ (d.Masked now → d'.edgeExpiry = d.edgeExpiry) ∧ (¬ d.Masked now → d'.edgeExpiry = none) ∧
    (feedMasked ∨ d.Masked now → d'.run = aged) ∧
    (¬ feedMasked → ¬ d.Masked now → agrees → d'.run = none) ∧
    (¬ feedMasked → ¬ d.Masked now → ¬ agrees →
      (aged = none → d'.run = some ⟨1, now, 0⟩) ∧ ∀ r, aged = some r → d'.run = some { r with count := r.count + 1 })

/-- From `s` to `t` the detector uses a record: the sample, then on a usable one the acceptance, then the release check, the
make confirmation and the seizure check, each as the event of that name (R23). -/
def DetectorUses (l : LineNo) (i : Int) (feedMasked : Prop) (s t : State) : Prop :=
  let c := s.line l
  ∃ d a b e, c.loop.Sampled (s.profile l) s.stamp i feedMasked d ∧
    let sampled := setLine l { c with loop := d } s
    (feedMasked ∨ c.loop.Masked s.stamp → a = sampled) ∧
    (¬ feedMasked → ¬ c.loop.Masked s.stamp → Makes (.debounceAccept l) sampled a) ∧
    Makes (.release l) a b ∧ Makes (.makeConfirm l) b e ∧ Makes (.seizure l) e t

/-- From `s` to `t` the ring sequencer uses a record: arming, mask and measurement in a ring-on step, the detector under
STANDBY in a ring-off step, and then, on a line not answered, the step timer (R95, R98 to R102). -/
def SequencerUses (l : LineNo) (i : Int) (held : Bool) (feedMasked : Prop) (s t : State) : Prop :=
  let c := s.line l
  let r := c.ring
  let cleared : RingSequencer := { r with window := [], windowSum := 0, tripRun := 0, armed := false, maskCount := 0 }
  let armed : RingSequencer :=
    if c.appliedFeed = .ring then
      if r.armed = true then r else { r with armed := true, maskCount := (s.profile l).rtMask }
    else if r.armed = true then cleared
    else r
  let put (r' : RingSequencer) := setLine l { c with ring := r' } s
  ∃ m,
    (ringOnStep r.step = true →
      (armed.armed = false → m = put armed) ∧
      (armed.armed = true → 1 ≤ armed.maskCount → m = put { armed with maskCount := armed.maskCount - 1 }) ∧
      (armed.armed = true → armed.maskCount = 0 → held = true → m = put armed) ∧
      (armed.armed = true → armed.maskCount = 0 → held = false →
        Makes (.ringTrip l) (put (measureRing (s.profile l) i armed)) m)) ∧
    (ringOnStep r.step = false →
      (c.appliedFeed ≠ .standby → m = s) ∧
      (c.appliedFeed = .standby → ∃ n, DetectorUses l i feedMasked s n ∧ Makes (.ringOffTrip l) n m)) ∧
    ((m.line l).state ≠ .ringing → t = m) ∧
    ((m.line l).state = .ringing →
      Makes (.ringStepExpire l)
        (setLine l { m.line l with ring := { (m.line l).ring with timer := (m.line l).ring.timer + 1 } } m) t)

/-- From `s` to `t` the test engine uses a record of its held line, at step `n` of request `r`: the wait for the echo, the
settle count, the measurement, and the abort where the echo departs (R130, R131, R134). -/
def EngineUses (r : Request) (n : Nat) (i vt vr : Int) (held : Bool) (s t : State) : Prop :=
  let e := s.engine
  let step := readTestStep (s.entry .testPlan (e.bank.getD .a) (4 * kindCode r.kind + (n - 1))).words
  let echoed := (s.line r.line).appliedFeed = step.feed
  let put (e' : TestEngine) : State := { s with engine := e' }
  let sample : Int := match step.quantity with
    | .tipDc | .tipAc => vt
    | .ringDc | .ringAc => vr
    | .loopI => i
  let measured (e' : TestEngine) : TestEngine :=
    if held = true then { e' with phase := some .measure, measureTimer := e'.measureTimer + 1 }
    else { e' with
      phase := some .measure, measureTimer := e'.measureTimer + 1, sampleCount := e'.sampleCount + 1
      sampleSum := e'.sampleSum + sample
      sampleMax := some (e'.sampleMax.elim sample (max sample)), sampleMin := some (e'.sampleMin.elim sample (min sample)) }
  (e.phase = some .waitEcho → ¬ echoed → Makes .noEcho (put { e with stepAge := e.stepAge + 1 }) t) ∧
  (e.phase = some .waitEcho → echoed → 1 ≤ step.settle →
    t = put { e with phase := some .settle, settleCount := step.settle - 1 }) ∧
  (e.phase = some .waitEcho → echoed → step.settle = 0 →
    Makes .testStepEnd (put (measured { e with settleCount := 0 })) t) ∧
  (e.phase = some .settle → echoed → 1 ≤ e.settleCount → t = put { e with settleCount := e.settleCount - 1 }) ∧
  (e.phase = some .settle → echoed → e.settleCount = 0 → Makes .testStepEnd (put (measured e)) t) ∧
  (e.phase = some .measure → echoed → Makes .testStepEnd (put (measured e)) t) ∧
  (e.phase = some .settle ∨ e.phase = some .measure → ¬ echoed → EndsTest r .aborted (some .noEcho) e.results s t)

/-- From `s` to `t` the fault monitor of the line takes a record that the line uses, the line's context as the record found it
being `c`: a window that begins binds the FAULT_PLAN selector, which may complete that table's migration; the record is
gathered; and in the last multiframe of the window the window closes (R109, R110, R168). -/
def MonitorTakes (l : LineNo) (c : Line) (echo : Option FeedCode) (i vt vr : Word16) (s t : State) : Prop :=
  let taken : Line := { c with monitor := (s.line l).monitor }
  ∃ g, (taken.StartsWindow s.stamp →
      exec (.commitDone .faultPlan) (setLine l { s.line l with faultBank := s.activeBank .faultPlan } s) = .next g) ∧
    (¬ taken.StartsWindow s.stamp → g = s) ∧
    let gathered := setLine l { g.line l with monitor := taken.gathers s.stamp echo i vt vr false } g
    if s.stamp.toNat % 64 = 63 then Makes (.faultWindowClose l) gathered t else t = gathered

/-- From `s` to `t` the line uses a sense record: it is checked, the timers take it, the blocks recover where that is due and
use it in the way given, before the fault monitor or behind it by the order of the record, and the line examines its position,
where migrations may complete, as at every change of state before. A monitor that takes the record first and changes the
line's state leaves the blocks nothing of it. What the record's check offers to the ALARM queue is left open here (R12, R19,
R83, R109, R119, R140, R143, R144, R168). -/
def RecordUsed (l : LineNo) (order : RecordOrder) (echo : Option FeedCode) (i vt vr : Word16)
    (blocks : Prop → State → State → Prop) (s t : State) : Prop :=
  let c := s.line l
  let mask := (s.profile l).feedMask
  let uses (a b : State) : Prop := ∃ w,
    (c.senseLost = true ∨ c.recoveryDue = true → Recovers l a w) ∧
    (c.senseLost = false → c.recoveryDue = false → w = a) ∧ blocks (1 ≤ c.maskCount mask echo) w b
  let monitor := MonitorTakes l c echo i vt vr
  ∃ u v x y z,
    u = { setLine l (c.checked mask echo i vt vr) (s.recordPassed l) with
      report := { s.report with alarm := u.report.alarm, alarmLost := u.report.alarmLost } } ∧
    TimersTake l u v ∧
    (order = .blocksFirst → uses v x ∧ monitor x y) ∧
    (order = .monitorFirst → monitor v x ∧
      ((x.line l).state = (v.line l).state → uses x y) ∧ ((x.line l).state ≠ (v.line l).state → y = x)) ∧
    Examines l (setLine l { y.line l with entryMark := false, recoveryDue := false } y) z ∧ MigrationsComplete z t

/-! ### Lapses and ticks -/

/-- From `s` to `u` the lapses still due are taken, as the LOAD_LAPSE events of the six tables in code order (R166). -/
def LapsesDue (s u : State) : Prop :=
  ∃ a b c d e, exec (.loadLapse .profile) s = .next a ∧ exec (.loadLapse .tonePlan) a = .next b ∧
    exec (.loadLapse .cadence) b = .next c ∧ exec (.loadLapse .faultPlan) c = .next d ∧
    exec (.loadLapse .testPlan) d = .next e ∧ exec (.loadLapse .settings) e = .next u

/-- From `s` to `t` an advance of the stamp is made known: the sweep timer advances, standing at 0 where SWEEP_PERIOD is 0, and
its expiry has the effects of SWEEP_EXPIRY; then every OPEN load's lapse timer advances, stopping at 1,000 (R127, R166; the
place of the expiry: notes/assumptions/8.md, 35.md). -/
def Ticks (s t : State) : Prop :=
  let period := s.settings.sweepPeriod * 1000
  let timed (n : Nat) : State := { s with engine := { s.engine with sweepTimer := n } }
  ∃ v, (period = 0 → v = timed 0) ∧
    (s.engine.sweepTimer + 1 < period → v = timed (s.engine.sweepTimer + 1)) ∧
    (period ≠ 0 → period ≤ s.engine.sweepTimer + 1 → exec .sweepExpiry (timed (s.engine.sweepTimer + 1)) = .next v) ∧
    t = { v with tables := t.tables } ∧
    let ticked (ld : Load) : Load := { ld with lapse := min 1000 (ld.lapse + 1) }
    ∀ x, t.table x = { v.table x with load := (v.table x).load.map ticked }

/-! ### Invariants -/

/-- The three report queues hold at most 16, 8 and 96 records (R155). -/
def State.queuesBounded (s : State) : Prop :=
  s.report.alarm.length ≤ alarmCapacity ∧ s.report.reply.length ≤ replyCapacity ∧
    s.report.signal.length ≤ signalCapacity

/-- The test request queue holds at most 8 requests, never two for the same line, and never one for the line under test
(R125). -/
def State.testQueueLawful (s : State) : Prop :=
  s.engine.queue.length ≤ testQueueCapacity ∧ (s.engine.queue.map (·.line)).Nodup ∧
    ∀ r, s.engine.held = some r → queuedFor r.line s.engine.queue = false

/-- The test engine holds a request exactly while it is BUSY (R123). -/
def State.engineLawful (s : State) : Prop := s.engine.busy = s.engine.held.isSome

/-- The lines in TEST are exactly the line whose request the BUSY test engine holds (R124). -/
def State.testLawful (s : State) : Prop :=
  s.engineLawful ∧ ∀ l, (s.line l).state = .test ↔ testHeld s l = true

/-- No digit buffer holds more than 32 entries (R78). -/
def State.buffersBounded (s : State) : Prop := ∀ l, (s.line l).fill ≤ bufferCapacity

/-- The commanded feed that R2 gives a line outside TEST by its own state, polarity and ring step. -/
def Line.feedByState (c : Line) : Option FeedCode :=
  match c.state with
  | .disabled => some .opened
  | .idle => some .standby
  | .seized => some .forward
  | .dialling => some .forward
  | .connected => some (polarityFeed c.polarity)
  | .lockout => some .standby
  | .ringing => some (if ringOnStep c.ring.step then .ring else .standby)
  | .fault => some .opened
  | .test => none

/-- What holds of every line's context: outside TEST the commanded feed is that of its state (R2); the ring sequencer runs
exactly while it is RINGING (R92); a DISABLED line is not sense-lost (R6, R18); a state before test is stored exactly while
it is in TEST (R1). -/
structure Line.Lawful (c : Line) : Prop where
  feed : ∀ f, c.feedByState = some f → c.commandedFeed = f
  ring : c.ring.running = true ↔ c.state = .ringing
  sense : c.state = .disabled → c.senseLost = false
  before : c.stateBeforeTest.isSome = true ↔ c.state = .test

/-- Every line's context is lawful. -/
def State.linesLawful (s : State) : Prop := ∀ l, (s.line l).Lawful

/-- What holds of every table: both banks have the table's length; an OPEN load lies within the table, has accepted at most its
count and has a lapse timer of at most 1,000; no load is OPEN beside a RETIRING bank (R160, R163, R164, R166). -/
structure Table.Lawful (x : TableId) (tb : Table) : Prop where
  bankA : tb.bankA.length = x.entries
  bankB : tb.bankB.length = x.entries
  load : ∀ ld, tb.load = some ld →
    1 ≤ ld.count ∧ ld.first + ld.count ≤ x.entries ∧ ld.accepted ≤ ld.count ∧ ld.lapse ≤ lapseLimit ∧ tb.retiringTag = none

/-- Every table is lawful, and a bank is RETIRING only while it has a user (R163, R168). -/
def State.tablesLawful (s : State) : Prop :=
  (∀ x, (s.table x).Lawful x) ∧ ∀ x, (s.table x).retiringTag.isSome = true → 1 ≤ s.users x (s.activeBank x).other

/-- The frame number is present in SYNC and absent in HUNT, where no record is being sent (R136, R138). -/
def State.syncLawful (s : State) : Prop :=
  (s.highway.sync = .sync ↔ s.highway.frame.isSome = true) ∧ (s.highway.sync = .hunt → s.report.sending = none)

end Sys2Proof.Machine
end

