-- ==== Sys2Proof/Certificates/Slice0/Obligations.lean ====
section
/-! DEFINITION. The statements for the provers. Each is about one step of the device (`exec`, `step`) or about one operation;
`OnlyLine`, `EntersState`, `MovesLine`, `ClosesString`, `TakesEntry`, `Replied`, `MigrationsComplete` and the other relations
between two states are those of Safety.lean. That a word counts in its slot of the frame alone (`recordArrives`,
`managementArrives`, the slots and the report words of the frame) is as notes/assumptions/5.md says. -/

open Sys2Proof Sys2Proof.Machine

/-! ### The queue of commands -/

/-- One step takes the command at the front of the queue and runs it on the state with the queue's rest. (The queue:
notes/assumptions/3.md.) -/
def Obligations.StepRunsFrontCommand : Prop :=
  ∀ (s : State) (c : Instr) (rest : List Instr), s.pending = c :: rest → step s = exec c (s.withPending rest)

/-- On an empty queue the device idles (the model's choice, notes/assumptions/3.md), and no command changes the queue of
commands that wait. That POWER_ON_RESET keeps them too is notes/assumptions/10.md. -/
def Obligations.QueueOfCommands : Prop :=
  (∀ s : State, s.pending = [] → step s = .next s) ∧
  (∀ (c : Instr) (s t : State), exec c s = .next t → t.pending = s.pending)

/-! ### Reset -/

/-- POWER_ON_RESET puts every block at its power-on values and the device in HUNT; the values at which a line's blocks start,
stop or are reset are spelled out behind it. That the commands that wait are kept is notes/assumptions/10.md; the values of
the fields that the model adds are its choices too: the words in flight and the slots (notes/assumptions/22.md), a line's
entry mark, recovery mark and closed mark (notes/assumptions/15.md, 16.md, 20.md). -/
def Obligations.PowerOnResetValues : Prop :=
  (∀ s : State, ∃ t, exec .powerOnReset s = .next t ∧ t = { State.reset with pending := s.pending } ∧
    t.highway = ⟨.hunt, none, 0, none, 0, none, true⟩ ∧
    (∀ l, t.line l =
      { state := .disabled, profileIndex := 0, pendingProfile := none, polarity := .forward
        commandedFeed := .opened, appliedFeed := .opened
        profileBank := .a, toneBank := .a, cadenceBank := .a, faultBank := .a
        lockoutTimer := 0, stringTimer := 0, stateBeforeTest := none
        senseLost := false, feedStuck := false, stateLost := false, overrun := false
        loop := .initial 0, pulse := .initial, tone := .initial, ring := .initial, monitor := .initial 0
        due := [], openString := []
        lastI := 0, lastVt := 0, lastVr := 0, invalidRun := 0, mismatchRun := 0
        entryMark := false, recoveryDue := false }) ∧
    t.engine = ⟨false, [], none, none, none, none, 0, 0, 0, 0, 0, none, none, [], 0, 0⟩ ∧
    t.receiver = ⟨.idle, [], none, 0⟩ ∧ t.report = ⟨[], [], [], false, 47, none⟩ ∧
    t.wires = ⟨Vector.replicate 48 0, Vector.replicate 48 0, none, none, [], false, none, 0, 0⟩ ∧
    (∀ x, (t.table x).active = .a ∧ (t.table x).retiringTag = none ∧ (t.table x).load = none) ∧
    (∀ x bank i, i < x.entries → t.entry x bank i = ⟨decide (x = .settings), List.replicate x.entryLength 0⟩)) ∧
  (∀ n, LoopDetector.initial n =
    { raw := false, accepted := .noLoop, debounced := .noLoop, transition := none, run := none, edgeExpiry := none
      brk := none, pendingMake := false, makeTimer := 0, feedMask := n }) ∧
  PulseEngine.initial = { count := 0, digitStart := none, lastBreak := none, history := [], tbase := 0 } ∧
  ToneEngine.initial =
    { run := .stopped, bins := Vector.replicate 8 ⟨0, 0⟩, sampleCount := 0, power := 0, blockStart := none, state := .quiet
      key := none, candidateCount := 0, gapCount := 0, onBlocks := 0, digitStart := none } ∧
  RingSequencer.initial =
    { running := false, cadence := none, step := none, timer := 0, cyclesLeft := none, armed := false, maskCount := 0
      window := [], windowSum := 0, tripRun := 0 } ∧
  (∀ w, FaultMonitor.initial w =
    { windowStart := w, recordCount := 0, tipSum := 0, ringSum := 0, tipMax := none, tipMin := none, ringMax := none
      ringMin := none, loopSum := 0, discard := true, candidateClass := none, candidateRun := 0, confirmedClass := 0
      confirmedSeverity := none, confirmedClear := none, reported := none, clearRun := 0, closed := false }) ∧
  TestEngine.initial = ⟨false, [], none, none, none, none, 0, 0, 0, 0, 0, none, none, [], 0, 0⟩ ∧
  Receiver.initial = ⟨.idle, [], none, 0⟩

/-- In HUNT no stimulus of a frame, no management command and no event of a line has any effect (R138; that such a command
sent in HUNT is not handled is notes/assumptions/9.md, and an event sent on its own 26.md). -/
def Obligations.HuntHandlesNothing : Prop :=
  ∀ (s : State) (tag : Tag) (l : LineNo) (a b c d : Word16) (ws : List Word16) (o : RecordOrder) (f : FeedCode)
    (x : TableId), s.highway.sync = .hunt →
    (∀ i ∈ ([.lineEnable tag a b, .lineDisable tag a, .lineConnect tag a, .linePolarity tag a b, .lineProfile tag a b,
        .ringStart tag a b c, .ringStop tag a, .testRequest tag a b, .lineQuery tag a, .partQuery tag, .partReset tag,
        .loadOpen tag a b c, .loadBlock tag a b ws, .loadCommit tag a, .loadCancel tag a, .entryRead tag a b c,
        .managementWord a b, .gapExpiry, .frameBoundary true, .frameBoundary false, .huntEntry,
        .senseRecord l a b c d o, .senseLost l, .feedStuck l f, .audioUpstream l a, .audioDownstream l a, .reportFrame,
        .debounceAccept l, .edgeMaskExpire l, .feedMaskEnd l, .seizure l, .release l, .makeConfirm l, .digitEnd l,
        .lockout l, .stringTimeout l, .toneBlockComplete l, .ringStepExpire l, .ringMaskEnd l, .ringTrip l,
        .ringOffTrip l, .faultWindowClose l, .faultConfirm l, .faultClear l, .testTake, .testSettleEnd, .testStepEnd,
        .noEcho, .sweepExpiry, .loadLapse x, .commitDone x] : List Instr), exec i s = .next s)

/-! ### Commands on a line -/

/-- LINE_ENABLE on a DISABLED line with a usable profile. The profile is bound, Tbase following a new AVG_N, and an open
string closes where the reporting mode goes from STRING to EACH (notes/assumptions/13.md). The line then enters IDLE, or FAULT
where its confirmed class is a hazard; the reply follows, and then the migrations that this leaves due. The place of a
COMMIT_DONE: notes/assumptions/18.md. The block start stamp that a rebinding of TONE_PLAN removes: notes/assumptions/30.md. -/
def Obligations.LineEnableTaken : Prop :=
  ∀ (s : State) (tag : Tag) (line profile : Word16) (l : LineNo),
    s.highway.sync = .sync → line.toNat = l.val → (s.line l).state = .disabled → profile.toNat < 8 →
    s.activeValid .profile profile.toNat = true →
    ((readProfile (s.activeWords .profile profile.toNat)).needsTonePlan = true → s.activeValid .tonePlan 0 = true) →
    let c := s.line l
    let old := s.profile l
    let new := readProfile (s.activeWords .profile profile.toNat)
    let state : LineState := if c.monitor.confirmedSeverity = some .hazard then .fault else .idle
    let feed : FeedCode := if c.monitor.confirmedSeverity = some .hazard then .opened else .standby
    let bound := setLine l { c with
      profileIndex := profile.toNat
      profileBank := s.activeBank .profile
      pulse := if new.avgN = old.avgN then c.pulse else { c.pulse with tbase := tbaseOf new.avgN c.pulse.history } }
        (idleReceiver s)
    ∃ m u t, exec (.lineEnable tag line profile) s = .next t ∧
      (if old.reportMode = .string ∧ new.reportMode = .each then ClosesString l .timeout bound m else m = bound) ∧
      EntersState l { m.line l with
        state := state, commandedFeed := feed, polarity := .forward, lockoutTimer := 0
        loop := .initial c.loop.feedMask, toneBank := s.activeBank .tonePlan, cadenceBank := s.activeBank .cadence }
        .enable m u ∧
      Replied 1 tag (some l) .ok u t ∧ OnlyLine l (idleReceiver s) u ∧ SameAlarm s t ∧
      (t.line l).steady =
        ({ c with
            state := state, commandedFeed := feed, polarity := .forward, loop := .initial c.loop.feedMask } : Line).steady ∧
      (t.line l).lockoutTimer = 0 ∧ (t.line l).profileBank = s.activeBank .profile ∧
      (t.line l).toneBank = s.activeBank .tonePlan ∧ (t.line l).cadenceBank = s.activeBank .cadence ∧
      (c.pendingProfile = none → (t.line l).profileIndex = profile.toNat) ∧
      (c.openString = [] → s.signalAfter l (s.record (some l) (.state state .disabled .enable)) <+: t.report.signal)

/-- LINE_DISABLE on a line that the test engine does not hold: the open string closes first, and the line is DISABLED with its
activities ended, the reply following; on a DISABLED line the command is only answered. Of the line under test: the test is
aborted with cause DISABLED, its TEST_RESULT offered first; the line is DISABLED, with a STATE record from TEST with cause
DISABLE; and after the reply the engine is FREE and takes its next request. What a rebinding at the examination changes, and
the place of a COMMIT_DONE: notes/assumptions/13.md, 18.md; the engine's fields once FREE: notes/assumptions/23.md; the reply
before the freed engine takes its next request: notes/assumptions/24.md. The block start stamp that a rebinding of TONE_PLAN
removes: notes/assumptions/30.md. -/
def Obligations.LineDisableTaken : Prop :=
  (∀ (s : State) (tag : Tag) (line : Word16) (l : LineNo),
    s.highway.sync = .sync → line.toNat = l.val → (s.line l).state ≠ .disabled → testHeld s l = false →
    ∃ m u t, ClosesString l .disable (idleReceiver s) m ∧ exec (.lineDisable tag line) s = .next t ∧
      EntersState l
        { m.line l with
          state := .disabled, commandedFeed := .opened, polarity := .forward, pendingProfile := none,
          lockoutTimer := 0, stringTimer := 0, stateBeforeTest := none, senseLost := false,
          loop := .initial (m.line l).loop.feedMask, ring := .initial, tone := .initial,
          pulse := { (m.line l).pulse with count := 0, digitStart := none, lastBreak := none } } .disable m u ∧
      Replied 2 tag (some l) .ok u t) ∧
  (∀ (s : State) (tag : Tag) (line : Word16) (l : LineNo),
    s.highway.sync = .sync → line.toNat = l.val → (s.line l).state = .disabled →
    exec (.lineDisable tag line) s = .next ((idleReceiver s).withReply (s.replyRecord 2 tag (some l) .ok []))) ∧
  (∀ (s : State) (tag : Tag) (line : Word16) (l : LineNo) (r : Request),
      s.highway.sync = .sync → line.toNat = l.val → (s.line l).state = .test → s.engine.busy = true →
      s.engine.held = some r → r.line = l → s.testQueueLawful →
      let result : Payload := .testResult r.kind r.origin .aborted (some .disabled) s.engine.results
      ∃ a m v t, exec (.lineDisable tag line) s = .next t ∧
        AlarmOffered (some l) result (idleReceiver s) a ∧
        a = { idleReceiver s with report := { s.report with alarm := a.report.alarm, alarmLost := a.report.alarmLost } } ∧
        ClosesString l .disable a m ∧
        EntersState l
          { m.line l with
            state := .disabled, commandedFeed := .opened, polarity := .forward, pendingProfile := none,
            lockoutTimer := 0, stringTimer := 0, stateBeforeTest := none, senseLost := false,
            loop := .initial (m.line l).loop.feedMask, ring := .initial, tone := .initial,
            pulse := { (m.line l).pulse with count := 0, digitStart := none, lastBreak := none } } .disable m v ∧
        FreesEngine (v.withReply (v.replyRecord 2 tag (some l) .ok [])) t ∧
        (t.line l).steady =
          ({ s.line l with
              state := .disabled, commandedFeed := .opened, polarity := .forward, stateBeforeTest := none,
              senseLost := false, loop := .initial (s.line l).loop.feedMask, ring := .initial } : Line).steady ∧
        AlarmFirst (some l) result s t ∧
        ((s.line l).openString = [] →
          s.signalAfter l (s.record (some l) (.state .disabled .test .disable)) <+: t.report.signal) ∧
        t.engine.held ≠ some r ∧ s.replyAfter (s.replyRecord 2 tag (some l) .ok []) <+: t.report.reply)

/-- LINE_CONNECT on a SEIZED or DIALLING line: the open string closes first, and the line is CONNECTED under the commanded
polarity, its tone engine started afresh under CONN_TONE. LINE_POLARITY and LINE_PROFILE on a line that is not DISABLED: the
polarity is stored, and is the commanded feed at once on a CONNECTED line; the profile index is pending; nothing else of the
line changes. What a rebinding at the examination changes, and the place of a COMMIT_DONE: notes/assumptions/13.md, 18.md. The
block start stamp that a rebinding of TONE_PLAN removes: notes/assumptions/30.md. -/
def Obligations.LineConnectPolarityProfileTaken : Prop :=
  (∀ (s : State) (tag : Tag) (line : Word16) (l : LineNo),
      s.highway.sync = .sync → line.toNat = l.val → (s.line l).state = .seized ∨ (s.line l).state = .dialling →
      ∃ m u t, ClosesString l .connect (idleReceiver s) m ∧ exec (.lineConnect tag line) s = .next t ∧
        EntersState l
          { m.line l with
            state := .connected, commandedFeed := polarityFeed (m.line l).polarity,
            pulse := { (m.line l).pulse with count := 0, digitStart := none, lastBreak := none },
            tone :=
              if (s.profile l).connTone then
                { ToneEngine.initial with run := if (m.line l).senseLost then .held else .running }
              else .initial } .connect m u ∧
        Replied 4 tag (some l) .ok u t) ∧
  (∀ (s : State) (tag : Tag) (line polarity : Word16) (l : LineNo) (p : Polarity),
    s.highway.sync = .sync → line.toNat = l.val → polarity.toNat = polarityCode p → (s.line l).state ≠ .disabled →
    let stored := setLine l
      { s.line l with
        polarity := p
        commandedFeed := if (s.line l).state = .connected then polarityFeed p else (s.line l).commandedFeed } (idleReceiver s)
    ∃ t, exec (.linePolarity tag line polarity) s = .next t ∧ Replied 5 tag (some l) .ok stored t ∧
      t.lines = stored.lines ∧ SameAlarm s t ∧ t.report.signal = s.report.signal) ∧
  (∀ (s : State) (tag : Tag) (line profile : Word16) (l : LineNo),
    s.highway.sync = .sync → line.toNat = l.val → (s.line l).state ≠ .disabled → profile.toNat < 8 →
    s.activeValid .profile profile.toNat = true →
    ((readProfile (s.activeWords .profile profile.toNat)).needsTonePlan = true → s.activeValid .tonePlan 0 = true) →
    let stored := setLine l { s.line l with pendingProfile := some profile.toNat } (idleReceiver s)
    ∃ t, exec (.lineProfile tag line profile) s = .next t ∧ Replied 3 tag (some l) .ok stored t ∧
      t.lines = stored.lines ∧ SameAlarm s t ∧ t.report.signal = s.report.signal)

/-- RING_START on an IDLE line with a valid cadence: ringing begins with step 1, a ring-on step. What a rebinding at the
examination changes, and the place of a COMMIT_DONE: notes/assumptions/13.md, 18.md. The block start stamp that a rebinding of
TONE_PLAN removes: notes/assumptions/30.md. -/
def Obligations.RingStartTaken : Prop :=
  ∀ (s : State) (tag : Tag) (line cadence cycles : Word16) (l : LineNo),
    s.highway.sync = .sync → line.toNat = l.val → (s.line l).state = .idle → cadence.toNat < 4 → cycles.toNat < 256 →
    s.activeValid .cadence cadence.toNat = true →
    ∃ u t, exec (.ringStart tag line cadence cycles) s = .next t ∧
      EntersState l
        { s.line l with
          state := .ringing, commandedFeed := .ring, cadenceBank := s.activeBank .cadence,
          loop := .initial (s.line l).loop.feedMask,
          ring :=
            { running := true, cadence := some cadence.toNat, step := some 1, timer := 0,
              cyclesLeft := if cycles.toNat = 0 then none else some cycles.toNat,
              armed := false, maskCount := 0, window := [], windowSum := 0, tripRun := 0 } } .ring (idleReceiver s) u ∧
      Replied 6 tag (some l) .ok u t ∧ (t.line l).cadenceBank = s.activeBank .cadence

/-- RING_STOP: taken on a RINGING line, which returns to IDLE, and refused STATE in any other state. What a rebinding at the
examination changes, and the place of a COMMIT_DONE: notes/assumptions/13.md, 18.md. The block start stamp that a rebinding of
TONE_PLAN removes: notes/assumptions/30.md. -/
def Obligations.RingStop : Prop :=
  ∀ (s : State) (tag : Tag) (line : Word16) (l : LineNo), s.highway.sync = .sync → line.toNat = l.val →
    ((s.line l).state = .ringing →
      ∃ u t, exec (.ringStop tag line) s = .next t ∧
        EntersState l
          { s.line l with
            state := .idle, commandedFeed := .standby, ring := .initial,
            loop := if ringOnStep (s.line l).ring.step then .initial (s.line l).loop.feedMask else (s.line l).loop }
          .stopped (idleReceiver s) u ∧
        Replied 7 tag (some l) .ok u t) ∧
    ((s.line l).state ≠ .ringing →
      exec (.ringStop tag line) s = .next ((idleReceiver s).withReply (s.replyRecord 7 tag (some l) .state [])))

/-- TEST_REQUEST: while a test is under way the request queue follows the cases of R125 and nothing else changes; for an
IDLE line while the engine is FREE with an empty queue the test begins at once. In every case where the queue takes the
request, the reply OK is offered and then a FREE engine takes the head request as TEST_TAKE does; so a FREE engine with an
empty queue begins the test of a DISABLED or FAULT line too, and answers SKIPPED for an inadmissible line or a program that
cannot be run. The place of a COMMIT_DONE: notes/assumptions/18.md. -/
def Obligations.TestRequestTaken : Prop :=
  (∀ (s : State) (tag : Tag) (line kind : Word16) (l : LineNo) (k : TestKind),
    s.highway.sync = .sync → line.toNat = l.val → kind.toNat = kindCode k → (s.line l).state ≠ .test →
    s.engine.busy = true →
    let q := s.engine.queue
    let commandedForLine := ∃ r ∈ q, r.line = l ∧ r.origin = .commanded
    let queued := ∃ r ∈ q, r.line = l
    let answered (status : Status) (queue : List Request) := Host.Outcome.next
      { (idleReceiver s).withReply (s.replyRecord 8 tag (some l) status []) with engine := { s.engine with queue := queue } }
    let run := exec (.testRequest tag line kind) s
    (commandedForLine → run = answered .ok (q.map fun r => if r.line = l then { r with kind := k } else r)) ∧
    (¬ commandedForLine → (queued ∨ q.length < 8) →
      run = answered .ok
        ((q.filter fun r => r.origin = .commanded ∧ r.line ≠ l) ++ [⟨l, k, .commanded⟩] ++
          (q.filter fun r => r.origin ≠ .commanded ∧ r.line ≠ l))) ∧
    (¬ queued → 8 ≤ q.length → run = answered .full q)) ∧
  (∀ (s : State) (tag : Tag) (line kind : Word16) (l : LineNo) (k : TestKind),
    s.highway.sync = .sync → line.toNat = l.val → kind.toNat = kindCode k → (s.line l).state = .idle →
    s.engine.busy = false → s.engine.queue = [] → programRunnable s k = true →
    ∃ t, exec (.testRequest tag line kind) s = .next t ∧ t.engine.busy = true ∧
      t.engine.held = some ⟨l, k, .commanded⟩ ∧ t.engine.queue = [] ∧ t.engine.step = some 1 ∧
      t.engine.phase = some .waitEcho ∧ (t.line l).state = .test ∧ (t.line l).stateBeforeTest = some .idle ∧
      (∀ j, j ≠ l → t.line j = s.line j) ∧ SameAlarm s t ∧ t.report.signal = s.report.signal ∧
      s.replyAfter (s.replyRecord 8 tag (some l) .ok []) <+: t.report.reply) ∧
  (∀ (s : State) (tag : Tag) (line kind : Word16) (l : LineNo) (k : TestKind),
    s.highway.sync = .sync → line.toNat = l.val → kind.toNat = kindCode k → (s.line l).state ≠ .test →
    (∃ r ∈ s.engine.queue, r.line = l) ∨ s.engine.queue.length < 8 →
    let queue :=
      if ∃ r ∈ s.engine.queue, r.line = l ∧ r.origin = .commanded then
        s.engine.queue.map fun r => if r.line = l then { r with kind := k } else r
      else
        (s.engine.queue.filter fun r => r.origin = .commanded ∧ r.line ≠ l) ++ [⟨l, k, .commanded⟩] ++
          (s.engine.queue.filter fun r => r.origin ≠ .commanded ∧ r.line ≠ l)
    exec (.testRequest tag line kind) s = exec .testTake
      { (idleReceiver s).withReply (s.replyRecord 8 tag (some l) .ok []) with
        engine := { s.engine with queue := queue } }) ∧
  (∀ (s : State) (tag : Tag) (line kind : Word16) (l : LineNo) (k : TestKind),
    s.highway.sync = .sync → line.toNat = l.val → kind.toNat = kindCode k → s.engine.busy = false →
    s.engine.queue = [] →
    ((s.line l).state = .disabled ∨ (s.line l).state = .fault → programRunnable s k = true →
      ∃ t, exec (.testRequest tag line kind) s = .next t ∧ t.engine.busy = true ∧
        t.engine.held = some ⟨l, k, .commanded⟩ ∧ (t.line l).state = .test ∧
        (t.line l).stateBeforeTest = some (s.line l).state ∧
        s.replyAfter (s.replyRecord 8 tag (some l) .ok []) <+: t.report.reply) ∧
    ((s.line l).state = .seized ∨ (s.line l).state = .dialling ∨ (s.line l).state = .connected ∨
        (s.line l).state = .lockout ∨ (s.line l).state = .ringing ∨
        (s.line l).state ≠ .test ∧ programRunnable s k = false →
      ∃ t, exec (.testRequest tag line kind) s = .next t ∧ t.engine = s.engine ∧ t.lines = s.lines ∧
        AlarmOffered (some l) (.testResult k .commanded .skipped none []) s t ∧
        t.report.reply = s.replyAfter (s.replyRecord 8 tag (some l) .ok [])))

/-! ### Queries and resets -/

/-- LINE_QUERY, PART_QUERY and ENTRY_READ change nothing: they are answered with their result words, nine, eighteen, and the
entry's behind one word. ENTRY_READ is refused RANGE for a table, a bank choice or an index that names nothing, and taken in
every other case. -/
def Obligations.QueriesChangeNothing : Prop :=
  ∀ (s : State) (tag : Tag), s.highway.sync = .sync →
    let flag (b : Bool) : Nat := if b = true then 1 else 0
    let lineWords (c : Line) : List Word16 :=
      [pack [(stateCode c.state, 12), ((c.stateBeforeTest.map stateCode).getD 15, 8), (c.profileIndex, 4),
         (c.pendingProfile.getD 15, 0)],
       pack [(polarityCode c.polarity, 15), (feedCode c.commandedFeed, 12), (feedCode c.appliedFeed, 8),
         (bankCode c.profileBank, 3), (bankCode c.toneBank, 2), (bankCode c.cadenceBank, 1), (bankCode c.faultBank, 0)],
       pack [(levelCode c.loop.debounced, 15), (flag c.loop.brk.isSome, 14), (c.pulse.count, 8),
         (toneStateCode c.tone.state, 6), ((c.tone.key.map symbolCode).getD 31, 0)],
       BitVec.ofNat 16 c.pulse.tbase,
       pack [(c.ring.cadence.getD 7, 13), (c.ring.step.getD 0, 10),
         (if c.state = .ringing then c.ring.cyclesLeft.getD 0 else 0, 0)],
       pack [(c.monitor.confirmedClass, 12),
         (match c.monitor.confirmedSeverity with | none => 0 | some .advisory => 1 | some .hazard => 2, 10),
         (c.monitor.candidateClass.getD 31, 4), (c.monitor.candidateRun, 0)],
       pack [(c.monitor.clearRun, 12), (c.fill, 6), (c.openString.length, 0)],
       pack [(c.due.length, 10), (flag c.senseLost, 3), (flag c.stateLost, 2), (flag c.overrun, 1), (flag c.feedStuck, 0)],
       BitVec.ofNat 16 c.lockoutTimer]
    let tableWords (x : TableId) : List Word16 :=
      let tb := s.table x
      let loaded (f : Load → Nat) := (tb.load.map f).getD 0
      [pack [(roleCode (tb.role .a), 14), (roleCode (tb.role .b), 12), (flag tb.load.isSome, 11), (loaded (·.first), 0)],
       pack [(loaded (·.count), 8), (loaded (·.accepted), 0)]]
    let partWords : List Word16 :=
      [pack [(1, 15), (flag s.highway.stampAtLoss.isSome, 14)], s.highway.stampAtLoss.getD 0,
       pack [(s.report.alarm.length, 11), (s.report.reply.length, 7), (flag s.report.alarmLost, 6),
         (s.report.servicePointer.val, 0)],
       pack [(s.report.signal.length, 9), (s.lines.toList.countP (·.backlog), 0)]] ++
      tableWords .profile ++ tableWords .tonePlan ++ tableWords .cadence ++ tableWords .faultPlan ++
      tableWords .testPlan ++ tableWords .settings ++
      [match s.engine.busy, s.engine.held with
         | true, some r => pack [(1, 15), (r.line.val, 8), (kindCode r.kind, 6), (originCode r.origin, 5),
             (s.engine.step.getD 0, 2), (phaseCode s.engine.phase, 0)]
         | true, none => pack [(1, 15)]
         | false, _ => 0,
       pack [(s.engine.queue.length, 12), (s.engine.sweepPointer.val, 0)]]
    (∀ (line : Word16) (l : LineNo), line.toNat = l.val →
      exec (.lineQuery tag line) s =
        .next ((idleReceiver s).withReply (s.replyRecord 9 tag (some l) .ok (lineWords (s.line l))))) ∧
    exec (.partQuery tag) s =
      .next ((idleReceiver s).withReply (s.replyRecord 15 tag none .ok partWords)) ∧
    (∀ (table choice index : Word16) (x : TableId), table.toNat = tableCode x → choice.toNat ≤ 1 →
      index.toNat < x.entries →
      let bank := if choice.toNat = 0 then (s.table x).active else (s.table x).active.other
      let e := s.entry x bank index.toNat
      exec (.entryRead tag table choice index) s =
        .next ((idleReceiver s).withReply (s.replyRecord 14 tag none .ok
          (pack [(bankCode bank, 15), (roleCode ((s.table x).role bank), 12), (flagCode e.valid, 0)] :: e.words)))) ∧
    (∀ table choice index : Word16,
      (5 < table.toNat ∨ 1 < choice.toNat ∨ ∃ x, table.toNat = tableCode x ∧ x.entries ≤ index.toNat) →
      exec (.entryRead tag table choice index) s =
        .next ((idleReceiver s).withReply (s.replyRecord 14 tag none .range [])))

/-- PART_RESET: the lines, the test engine, the loads and the report queues are reset; the highway interface, the banks'
contents and the serialiser are kept. The model's choices in it: the window start of the fault monitors
(notes/assumptions/12.md), and the model's own marks, of which the recovery mark is kept (notes/assumptions/16.md) and the
entry mark and the closed mark are clear (notes/assumptions/15.md, 20.md). -/
def Obligations.PartResetResets : Prop :=
  ∀ (s : State) (tag : Tag), s.highway.sync = .sync →
    ∃ t, exec (.partReset tag) s = .next t ∧ t.highway = s.highway ∧ t.wires = s.wires ∧ t.receiver = .initial ∧
      (∀ l, t.line l =
        { Line.initial with
          appliedFeed := (s.line l).appliedFeed
          profileBank := s.activeBank .profile, toneBank := s.activeBank .tonePlan
          cadenceBank := s.activeBank .cadence, faultBank := s.activeBank .faultPlan
          loop := .initial (s.line l).loop.feedMask
          monitor := .initial (windowStartOf s.stamp)
          lastI := (s.line l).lastI, lastVt := (s.line l).lastVt, lastVr := (s.line l).lastVr
          invalidRun := (s.line l).invalidRun, recoveryDue := (s.line l).recoveryDue }) ∧
      t.engine = { TestEngine.initial with sweepPointer := s.engine.sweepPointer, sweepTimer := s.engine.sweepTimer } ∧
      t.report.alarm = [] ∧ t.report.alarmLost = false ∧ t.report.signal = [] ∧
      t.report.reply = [s.replyRecord 16 tag none .ok []] ∧
      t.report.sending = s.report.sending ∧ t.report.servicePointer = s.report.servicePointer ∧
      (∀ x, t.table x = { s.table x with load := none, retiringTag := none })

/-! ### Refusals -/

/-- A line number above 47 is refused RANGE under line 63 by each of the nine commands that name a line. An argument out of
its range is refused RANGE, and a state that does not take the command, or an entry it needs that is not valid, STATE. A
refused command changes nothing but the receiver and the REPLY queue. -/
def Obligations.LineCommandsRefused : Prop :=
  (∀ (s : State) (tag : Tag) (line b c : Word16), s.highway.sync = .sync → 48 ≤ line.toNat →
    ∀ i n, (i, n) ∈ ([(.lineEnable tag line b, 1), (.lineDisable tag line, 2), (.lineProfile tag line b, 3),
        (.lineConnect tag line, 4), (.linePolarity tag line b, 5), (.ringStart tag line b c, 6), (.ringStop tag line, 7),
        (.testRequest tag line b, 8), (.lineQuery tag line, 9)] : List (Instr × Nat)) →
      exec i s = .next ((idleReceiver s).withReply (s.replyRecord n tag none .range []))) ∧
  (∀ (s : State) (tag : Tag) (line b c : Word16) (l : LineNo), s.highway.sync = .sync → line.toNat = l.val →
    let refused (n : Nat) := Host.Outcome.next ((idleReceiver s).withReply (s.replyRecord n tag (some l) .state []))
    let outOfRange (n : Nat) := Host.Outcome.next ((idleReceiver s).withReply (s.replyRecord n tag (some l) .range []))
    let unusable := s.activeValid .profile b.toNat = false ∨
      (readProfile (s.activeWords .profile b.toNat)).needsTonePlan = true ∧ s.activeValid .tonePlan 0 = false
    (8 ≤ b.toNat → exec (.lineEnable tag line b) s = outOfRange 1 ∧ exec (.lineProfile tag line b) s = outOfRange 3) ∧
    (2 ≤ b.toNat → exec (.linePolarity tag line b) s = outOfRange 5) ∧
    (4 ≤ b.toNat ∨ 256 ≤ c.toNat → exec (.ringStart tag line b c) s = outOfRange 6) ∧
    (3 ≤ b.toNat → exec (.testRequest tag line b) s = outOfRange 8) ∧
    ((s.line l).state ≠ .disabled ∨ unusable → b.toNat < 8 → exec (.lineEnable tag line b) s = refused 1) ∧
    ((s.line l).state = .disabled ∨ unusable → b.toNat < 8 → exec (.lineProfile tag line b) s = refused 3) ∧
    ((s.line l).state ≠ .seized → (s.line l).state ≠ .dialling → exec (.lineConnect tag line) s = refused 4) ∧
    ((s.line l).state = .disabled → b.toNat ≤ 1 → exec (.linePolarity tag line b) s = refused 5) ∧
    ((s.line l).state ≠ .idle ∨ s.activeValid .cadence b.toNat = false → b.toNat < 4 → c.toNat < 256 →
      exec (.ringStart tag line b c) s = refused 6) ∧
    ((s.line l).state = .test → b.toNat ≤ 2 → exec (.testRequest tag line b) s = refused 8))

/-! ### The table store -/

/-- The code of every named value, and how fields are packed into words and read from them. The fields of the entries of every
table, as the words hold them, and their validity: the ranges and relations of each table, with every bit of a packed word
that no field has at 0. -/
def Obligations.EntriesRead : Prop :=
  ([FeedCode.opened, .standby, .forward, .reverse, .ring, .testTip, .testRing].map feedCode = [0, 1, 2, 3, 4, 5, 6] ∧
    [LineState.disabled, .idle, .seized, .dialling, .connected, .lockout, .ringing, .fault, .test].map stateCode =
      [0, 1, 2, 3, 4, 5, 6, 7, 8] ∧
    [Cause.enable, .disable, .seize, .firstDigit, .connect, .lockout, .release, .ring, .answer, .ringEnd, .stopped, .fault,
      .faultCleared, .testEnd].map causeCode = [0, 1, 2, 3, 4, 5, 6, 7, 8, 9, 10, 11, 12, 13] ∧
    (∀ d, symbolCode (.digit d) = d.val) ∧
    [Symbol.star, .hash, .a, .b, .c, .d, .flash, .error].map symbolCode = [10, 11, 12, 13, 14, 15, 16, 17] ∧
    [Method.pulse, .tone, .hook, .none].map methodCode = [0, 1, 2, 3] ∧
    [none, some ErrorCause.badBreak, some .tooManyPulses, some .interrupted].map errorCode = [0, 1, 2, 3] ∧
    [CloseReason.flash, .terminator, .limit, .timeout, .release, .connect, .fault, .disable].map reasonCode =
      [0, 1, 2, 3, 4, 5, 6, 7] ∧
    [Status.ok, .check, .unknown, .length, .range, .state, .busy, .full, .order, .incomplete, .truncated].map statusCode =
      [0, 1, 2, 3, 4, 5, 6, 7, 8, 9, 10] ∧
    [TableId.profile, .tonePlan, .cadence, .faultPlan, .testPlan, .settings].map tableCode = [0, 1, 2, 3, 4, 5] ∧
    [TestKind.foreign, .leak, .loopCheck].map kindCode = [0, 1, 2] ∧ [Origin.commanded, .sweep].map originCode = [0, 1] ∧
    [Verdict.pass, .fail, .aborted, .skipped].map verdictCode = [0, 1, 2, 3] ∧
    [none, some AbortCause.disabled, some .senseLost, some .syncLost, some .noEcho].map abortCode = [0, 1, 2, 3, 4] ∧
    [Severity.advisory, .hazard].map severityCode = [0, 1] ∧
    [FeedGroup.opened, .standby, .loop, .ring, .test].map groupCode = [0, 1, 2, 3, 4] ∧
    [0, 1, 2, 3, 4].map quantityOfCode =
      [some Quantity.tipDc, some .ringDc, some .tipAc, some .ringAc, some .loopI] ∧
    [Polarity.forward, .reverse].map polarityCode = [0, 1] ∧ [Level.noLoop, .loop].map levelCode = [0, 1] ∧
    [ToneState.quiet, .candidate, .on, .gap].map toneStateCode = [0, 1, 2, 3] ∧
    [none, some StepPhase.waitEcho, some .settle, some .measure].map phaseCode = [0, 1, 2, 3] ∧
    [Bank.a, .b].map bankCode = [0, 1] ∧ [Role.active, .shadow, .retiring].map roleCode = [0, 1, 2] ∧
    [SyncState.hunt, .sync].map syncCode = [0, 1] ∧ [false, true].map flagCode = [0, 1]) ∧
  ((∀ fields, pack fields = BitVec.ofNat 16 (fields.map fun f => f.1 * 2 ^ f.2).sum) ∧
    (∀ (w : Word16) (hi lo : Nat), bits w hi lo = w.toNat / 2 ^ lo % 2 ^ (hi + 1 - lo)) ∧
    ∀ (w : Word16) (i : Nat), bitSet w i = decide (w.toNat / 2 ^ i % 2 = 1)) ∧
  ∀ (ws : List Word16) (index : Nat),
    let w (k : Nat) : Word16 := ws.getD (k - 1) 0
    let n (k : Nat) : Nat := (w k).toNat
    let z (k : Nat) : Int := (w k).toInt
    let symbol (code : Nat) : Prop := code ≤ 15 ∨ code = 31
    let p := readProfile ws
    let tone := readTonePlan ws
    let key (i : Nat) : Nat := if i % 2 = 0 then bits (w (18 + i / 2)) 12 8 else bits (w (18 + i / 2)) 4 0
    let e := readClassEntry ws
    let step := readTestStep ws
    let set := readSettings ws
    ([p.onThr, p.offThr, p.debounce, p.feedMask, p.maskMin, p.maskFrac, p.avgN, p.seizeMin, p.brkMin, p.brkMax, p.makeMin,
        p.idtMin, p.idtMult, p.flashMin, p.flashMax, p.releaseMin, p.lockoutT, p.strTimeout, p.strMax, p.rtThr, p.rtWin,
        p.rtMask, p.rtConf] =
      [n 1, n 2, n 3, n 4, n 5, n 6, n 7, n 8, n 9, n 10, n 11, n 12, n 13, n 14, n 15, n 16, n 17, n 18, n 19, n 20, n 21,
        n 22, n 23] ∧
      (p.reportMode = .string ↔ bitSet (w 24) 15 = true) ∧ p.dialMode = bits (w 24) 14 13 ∧
      p.connTone = bitSet (w 24) 12 ∧ p.mute = bitSet (w 24) 11 ∧
      ∀ y, p.terminator = some y ↔ symbolCode y = bits (w 24) 4 0 ∧ bits (w 24) 4 0 ≤ 15) ∧
    (validEntry .profile index ws = true ↔
      (20 ≤ n 1 ∧ n 1 ≤ 600) ∧ (10 ≤ n 2 ∧ n 2 + 10 ≤ n 1) ∧ (1 ≤ n 3 ∧ n 3 ≤ 15 ∧ n 3 < n 9) ∧ n 4 ≤ 50 ∧ n 5 ≤ 20 ∧
      n 6 ≤ 127 ∧ (n 7 = 1 ∨ n 7 = 2 ∨ n 7 = 4 ∨ n 7 = 8) ∧ (10 ≤ n 8 ∧ n 8 ≤ 500) ∧ (10 ≤ n 9 ∧ n 9 ≤ 200) ∧
      (n 9 ≤ n 10 ∧ n 10 ≤ 250) ∧ (5 ≤ n 11 ∧ n 11 ≤ 200) ∧ (50 ≤ n 12 ∧ n 12 ≤ 1000) ∧ n 13 ≤ 255 ∧
      (n 10 + 1 ≤ n 14 ∧ n 14 ≤ 1998) ∧ (n 14 ≤ n 15 ∧ n 15 ≤ 1998) ∧ (n 15 + 1 ≤ n 16 ∧ n 16 ≤ 2000) ∧
      (n 17 = 0 ∨ 1000 ≤ n 17) ∧ (500 ≤ n 18 ∧ n 18 ≤ 20000) ∧ (1 ≤ n 19 ∧ n 19 ≤ 32) ∧ (20 ≤ n 20 ∧ n 20 ≤ 600) ∧
      (10 ≤ n 21 ∧ n 21 ≤ 50) ∧ n 22 ≤ 200 ∧ (1 ≤ n 23 ∧ n 23 ≤ 15) ∧ bits (w 24) 14 13 ≠ 0 ∧
      symbol (bits (w 24) 4 0) ∧ bits (w 24) 10 5 = 0) ∧
    ((∀ k : Fin 8, tone.coefficients.get k = z (k.val + 1)) ∧ tone.eMin = n 10 * 65536 + n 11 ∧
      [tone.n, tone.twf, tone.twr, tone.dom, tone.frac, tone.onBlocks, tone.offBlocks] =
        [n 9, n 12, n 13, n 14, n 15, n 16, n 17] ∧
      ∀ i y, i < 16 → (keyMapEntry ws i = some y ↔ symbolCode y = key i ∧ key i ≤ 15)) ∧
    (validEntry .tonePlan index ws = true ↔
      (∀ k, 1 ≤ k → k ≤ 8 → -32767 ≤ z k) ∧ (80 ≤ n 9 ∧ n 9 ≤ 256) ∧ n 12 ≤ 255 ∧ n 13 ≤ 255 ∧
      (16 ≤ n 14 ∧ n 14 ≤ 255) ∧ n 15 ≤ 16 ∧ (1 ≤ n 16 ∧ n 16 ≤ 8) ∧ (1 ≤ n 17 ∧ n 17 ≤ 8) ∧
      (∀ i, i < 16 → symbol (key i)) ∧
      ∀ k, 18 ≤ k → k ≤ 25 → bits (w k) 15 13 = 0 ∧ bits (w k) 7 5 = 0) ∧
    ((∀ k, 1 ≤ k → cadenceDuration ws k = n k) ∧
      (validEntry .cadence index ws = true ↔ (∀ k, 1 ≤ k → k ≤ 6 → n k ≤ 10000) ∧ 1 ≤ n 1)) ∧
    (readThresholds ws = ⟨z 1, z 2, z 3, n 4, n 5, n 6, n 7, n 8, n 9⟩ ∧
      (validEntry .faultPlan 0 ws = true ↔
        (-1000 ≤ z 1 ∧ z 1 < z 2 ∧ z 2 < z 3 ∧ z 3 ≤ 1000) ∧ (n 4 < n 5 ∧ n 5 < n 6 ∧ n 6 ≤ 1000) ∧
        (n 7 < n 8 ∧ n 8 < n 9 ∧ n 9 ≤ 1000))) ∧
    (e.enabled = bitSet (w 1) 15 ∧
      [e.tdc, e.rdc, e.tac, e.rac, e.ilp, e.group] =
        [⟨bitSet (w 1) 5, bits (w 2) 15 14⟩, ⟨bitSet (w 1) 4, bits (w 2) 13 12⟩, ⟨bitSet (w 1) 3, bits (w 2) 11 10⟩,
          ⟨bitSet (w 1) 2, bits (w 2) 9 8⟩, ⟨bitSet (w 1) 1, bits (w 2) 7 6⟩, ⟨bitSet (w 1) 0, bits (w 2) 2 0⟩] ∧
      e.faultClass = bits (w 3) 15 12 ∧ (e.severity = .hazard ↔ bitSet (w 3) 8 = true) ∧
      e.confirmCount = bits (w 3) 7 4 ∧ e.clearCount = bits (w 3) 3 0) ∧
    (index ≠ 0 → (validEntry .faultPlan index ws = true ↔
      e.group.value ≤ 4 ∧ 1 ≤ e.confirmCount ∧ 1 ≤ e.clearCount ∧ bits (w 1) 14 6 = 0 ∧ bits (w 2) 5 3 = 0 ∧
      bits (w 3) 11 9 = 0 ∧ ∀ k, 4 ≤ k → k ≤ 9 → w k = 0)) ∧
    (step.enabled = bitSet (w 1) 15 ∧ step.settle = n 2 ∧ step.measure = n 3 ∧ step.lower = z 4 ∧ step.upper = z 5 ∧
      (validEntry .testPlan index ws = true →
        feedCode step.feed = bits (w 1) 10 8 ∧ quantityOfCode (bits (w 1) 2 0) = some step.quantity) ∧
      (validEntry .testPlan index ws = true ↔
        (bits (w 1) 10 8 ≤ 6 ∧ bits (w 1) 10 8 ≠ 4) ∧ bits (w 1) 2 0 ≤ 4 ∧ bits (w 1) 14 11 = 0 ∧ bits (w 1) 7 3 = 0 ∧
        n 2 ≤ 500 ∧ (1 ≤ n 3 ∧ n 3 ≤ 1000) ∧ -1000 ≤ z 4 ∧ z 4 ≤ z 5 ∧ z 5 ≤ 1000)) ∧
    (set.sweepPeriod = n 1 ∧ (n 2 ≤ 2 → kindCode set.sweepKind = n 2) ∧ (set.alarmAdvisory = true ↔ n 3 = 1) ∧
      (validEntry .settings index ws = true ↔ n 1 ≤ 3600 ∧ n 2 ≤ 2 ∧ n 3 ≤ 1))

/-- LOAD_OPEN: refused RANGE, STATE or BUSY in that order; taken, it copies the ACTIVE bank into the other bank and opens the
load. -/
def Obligations.LoadOpen : Prop :=
  ∀ (s : State) (tag : Tag) (table first count : Word16), s.highway.sync = .sync →
    let refused (st : Status) := Host.Outcome.next ((idleReceiver s).withReply (s.replyRecord 10 tag none st []))
    (5 < table.toNat → exec (.loadOpen tag table first count) s = refused .range) ∧
    ∀ x : TableId, table.toNat = tableCode x →
      (x.entries ≤ first.toNat ∨ count.toNat = 0 ∨ x.entries < first.toNat + count.toNat →
        exec (.loadOpen tag table first count) s = refused .range) ∧
      (first.toNat < x.entries → 0 < count.toNat → first.toNat + count.toNat ≤ x.entries →
        ((s.table x).load.isSome = true → exec (.loadOpen tag table first count) s = refused .state) ∧
        ((s.table x).load = none → (s.table x).retiringTag.isSome = true →
          exec (.loadOpen tag table first count) s = refused .busy) ∧
        ((s.table x).load = none → (s.table x).retiringTag = none →
          ∃ t, exec (.loadOpen tag table first count) s = .next t ∧
            (t.table x).load = some ⟨first.toNat, count.toNat, 0, 0⟩ ∧ (t.table x).active = (s.table x).active ∧
            (t.table x).retiringTag = none ∧
            (∀ i, t.entry x (s.activeBank x) i = s.entry x (s.activeBank x) i) ∧
            (∀ i, t.entry x (s.activeBank x).other i = s.entry x (s.activeBank x) i) ∧
            (∀ y, y ≠ x → t.table y = s.table y) ∧ t.lines = s.lines ∧ t.engine = s.engine ∧
            t.highway = s.highway ∧ t.receiver = .initial ∧ SameAlarm s t ∧ t.report.signal = s.report.signal ∧
            t.report.reply = s.replyAfter (s.replyRecord 10 tag none .ok [])))

/-- LOAD_BLOCK of the next block of an OPEN load, with a valid entry of the table's length: the entry is written with its
valid mark set in the bank that is not ACTIVE, the accepted count rises and the lapse timer is 0. Otherwise the command is
refused LENGTH, RANGE, STATE or ORDER, in that order, and changes nothing. -/
def Obligations.LoadBlock : Prop :=
  (∀ (s : State) (tag : Tag) (table block : Word16) (entry : List Word16) (x : TableId) (ld : Load),
    s.highway.sync = .sync → table.toNat = tableCode x → (s.table x).load = some ld → entry.length = x.entryLength →
    block.toNat = ld.accepted → ld.accepted < ld.count → ld.first + ld.count ≤ x.entries →
    ((s.table x).bank (s.activeBank x).other).length = x.entries →
    validEntry x (ld.first + block.toNat) entry = true →
    ∃ t, exec (.loadBlock tag table block entry) s = .next t ∧
      (t.table x).load = some { ld with accepted := ld.accepted + 1, lapse := 0 } ∧
      (t.table x).active = (s.table x).active ∧ (t.table x).retiringTag = (s.table x).retiringTag ∧
      t.entry x (s.activeBank x).other (ld.first + block.toNat) = ⟨true, entry⟩ ∧
      (∀ i, i ≠ ld.first + block.toNat → t.entry x (s.activeBank x).other i = s.entry x (s.activeBank x).other i) ∧
      (∀ i, t.entry x (s.activeBank x) i = s.entry x (s.activeBank x) i) ∧
      (∀ y, y ≠ x → t.table y = s.table y) ∧ t.lines = s.lines ∧ t.engine = s.engine ∧ t.highway = s.highway ∧
      SameAlarm s t ∧ t.report.signal = s.report.signal ∧
      t.report.reply = s.replyAfter (s.replyRecord 11 tag none .ok [])) ∧
  (∀ (s : State) (tag : Tag) (table block : Word16) (entry : List Word16), s.highway.sync = .sync →
    let refused (st : Status) := Host.Outcome.next ((idleReceiver s).withReply (s.replyRecord 11 tag none st []))
    (5 < table.toNat → exec (.loadBlock tag table block entry) s = refused .range) ∧
    ∀ x : TableId, table.toNat = tableCode x →
      (entry.length ≠ x.entryLength → exec (.loadBlock tag table block entry) s = refused .length) ∧
      (entry.length = x.entryLength →
        (x.entries ≤ block.toNat → exec (.loadBlock tag table block entry) s = refused .range) ∧
        (∀ ld, (s.table x).load = some ld → block.toNat < x.entries →
          (validEntry x (ld.first + block.toNat) entry = false →
            exec (.loadBlock tag table block entry) s = refused .range) ∧
          (validEntry x (ld.first + block.toNat) entry = true →
            block.toNat ≠ ld.accepted ∨ ld.accepted = ld.count →
            exec (.loadBlock tag table block entry) s = refused .order)) ∧
        ((s.table x).load = none → block.toNat < x.entries →
          (x ≠ .faultPlan → validEntry x block.toNat entry = false →
            exec (.loadBlock tag table block entry) s = refused .range) ∧
          (x = .faultPlan ∨ validEntry x block.toNat entry = true →
            exec (.loadBlock tag table block entry) s = refused .state))))

/-- LOAD_COMMIT of a complete load: the loaded bank is ACTIVE, the former one RETIRING under the tag while it has a user and
SHADOW otherwise, and COMMIT_DONE follows the reply where it became SHADOW at once; a SETTINGS commit that changes
SWEEP_PERIOD returns the sweep timer to 0. Otherwise the command is refused RANGE, STATE, BUSY or INCOMPLETE. -/
def Obligations.LoadCommit : Prop :=
  (∀ (s : State) (tag : Tag) (table : Word16) (x : TableId) (ld : Load),
    s.highway.sync = .sync → table.toNat = tableCode x → (s.table x).load = some ld →
    (s.table x).retiringTag = none → ld.count ≤ ld.accepted →
    let used := 1 ≤ s.users x (s.activeBank x)
    let replied := s.replyAfter (s.replyRecord 12 tag none .ok [])
    ∃ t, exec (.loadCommit tag table) s = .next t ∧
      t.table x = { s.table x with
        load := none, active := (s.activeBank x).other, retiringTag := if used then some tag else none } ∧
      (∀ y, y ≠ x → t.table y = s.table y) ∧ t.lines = s.lines ∧ t.highway = s.highway ∧ SameAlarm s t ∧
      t.report.signal = s.report.signal ∧
      (used → t.report.reply = replied) ∧
      (¬ used → t.report.reply =
        if replied.length < 8 then replied ++ [s.record none (.commitDone x tag)] else replied) ∧
      t.engine = { s.engine with
        sweepTimer := if t.settings.sweepPeriod = s.settings.sweepPeriod then s.engine.sweepTimer else 0 }) ∧
  (∀ (s : State) (tag : Tag) (table : Word16), s.highway.sync = .sync → 5 < table.toNat →
    exec (.loadCommit tag table) s = .next ((idleReceiver s).withReply (s.replyRecord 12 tag none .range []))) ∧
  (∀ (s : State) (tag : Tag) (table : Word16) (x : TableId), s.highway.sync = .sync → table.toNat = tableCode x →
    let refused (st : Status) := Host.Outcome.next ((idleReceiver s).withReply (s.replyRecord 12 tag none st []))
    ((s.table x).load = none → exec (.loadCommit tag table) s = refused .state) ∧
    (∀ ld, (s.table x).load = some ld →
      ((s.table x).retiringTag.isSome = true → exec (.loadCommit tag table) s = refused .busy) ∧
      ((s.table x).retiringTag = none → ld.accepted < ld.count →
        exec (.loadCommit tag table) s = refused .incomplete)))

/-- A load is CLOSED by LOAD_CANCEL with its reply, and by a lapse at 1,000 multiframes with LOAD_LAPSED, in the order in
which they are taken in the multiframe of the lapse (notes/assumptions/33.md), and the banks keep what they hold; LOAD_CANCEL
is refused RANGE for no table and STATE for no OPEN load; a RETIRING bank without a user becomes SHADOW with a COMMIT_DONE
that carries the stored tag. That an event sent where it is not due changes nothing is notes/assumptions/1.md. -/
def Obligations.LoadClosesAndBankReleases : Prop :=
  (∀ (s : State) (x : TableId) (ld : Load), s.highway.sync = .sync → (s.table x).load = some ld →
    (∀ (tag : Tag) (table : Word16), table.toNat = tableCode x →
      exec (.loadCancel tag table) s =
        .next ((setTable x { s.table x with load := none } (idleReceiver s)).withReply
          (s.replyRecord 13 tag none .ok []))) ∧
    (1000 ≤ ld.lapse →
      exec (.loadLapse x) s =
        .next ((setTable x { s.table x with load := none } s).withReply (s.record none (.loadLapsed x ld.accepted)))) ∧
    (ld.lapse < 1000 → exec (.loadLapse x) s = .next s)) ∧
  (∀ (s : State) (x : TableId), s.highway.sync = .sync → (s.table x).load = none → exec (.loadLapse x) s = .next s) ∧
  (∀ (s : State) (tag : Tag) (table : Word16), s.highway.sync = .sync →
    let refused (st : Status) := Host.Outcome.next ((idleReceiver s).withReply (s.replyRecord 13 tag none st []))
    (5 < table.toNat → exec (.loadCancel tag table) s = refused .range) ∧
    (∀ x, table.toNat = tableCode x → (s.table x).load = none → exec (.loadCancel tag table) s = refused .state)) ∧
  (∀ (s : State) (x : TableId) (tag : Tag), s.highway.sync = .sync → (s.table x).retiringTag = some tag →
    (s.users x (s.activeBank x).other = 0 →
      exec (.commitDone x) s =
        .next ((setTable x { s.table x with retiringTag := none } s).withReply (s.record none (.commitDone x tag)))) ∧
    (s.users x (s.activeBank x).other ≠ 0 → exec (.commitDone x) s = .next s))

/-! ### The management receiver -/

/-- The words of a frame that do not complete a message: a message begins with S, grows with V, and otherwise only the gap
count moves; a word with V and without S is ignored in IDLE, whatever its E. A message is truncated when its gap count has
reached 65: it is answered TRUNCATED with its code and tag, and the receiver is IDLE; below 65 nothing happens. (That
GAP_EXPIRY sent on its own is judged so: notes/assumptions/1.md; the slot that the words pass: notes/assumptions/5.md, 22.md.)
-/
def Obligations.ManagementWordAssembles : Prop :=
  (∀ (s : State) (control data : Word16), s.managementArrives →
    let v := bitSet control 15
    let first := bitSet control 14
    let last := bitSet control 13
    let p := s.managementPassed
    let r := s.receiver
    let begun : Receiver := ⟨.assembling, [data], some (tagOf data), 0⟩
    let run := exec (.managementWord control data) s
    (r.state = .idle → ¬ (v = true ∧ first = true) → run = .next p) ∧
    (r.state = .idle → v = true → first = true → last = false → run = .next { p with receiver := begun }) ∧
    (r.state = .assembling → v = true → first = false → last = false → r.buffer.length < 40 →
      run = .next { p with receiver := { r with buffer := r.buffer ++ [data], gap := 0 } }) ∧
    (r.state = .assembling → v = true → first = false → last = false → r.buffer.length = 40 →
      run = .next { p with receiver := { r with state := .discarding, gap := 0 } }) ∧
    (r.state = .discarding → v = true → first = false → last = false →
      run = .next { p with receiver := { r with gap := 0 } }) ∧
    (r.state ≠ .idle → v = true → first = true → last = false →
      run = .next { p.withReply (s.replyRecord (codeOf (r.buffer.headD 0)) (r.tag.getD 0) none .truncated []) with
        receiver := begun }) ∧
    (r.state ≠ .idle → v = false → r.gap + 1 < 65 → run = .next { p with receiver := { r with gap := r.gap + 1 } })) ∧
  (∀ s : State, s.highway.sync = .sync → s.receiver.state ≠ .idle →
    let r := s.receiver
    let truncated (u : State) := Host.Outcome.next ((idleReceiver u).withReply
      (s.replyRecord (codeOf (r.buffer.headD 0)) (r.tag.getD 0) none .truncated []))
    (65 ≤ r.gap → exec .gapExpiry s = truncated s) ∧
    (r.gap < 65 → exec .gapExpiry s = .next s) ∧
    (r.gap = 64 → s.managementArrives → ∀ control data : Word16, bitSet control 15 = false →
      exec (.managementWord control data) s = truncated s.managementPassed))

/-- A message that completes and passes the check word, the code and the length has the effect of its command. That a row of a
command stands for its completed message is notes/assumptions/2.md; the slot that the words of the frame pass is the model's,
notes/assumptions/5.md and 22.md. -/
def Obligations.CompletedMessageIsItsCommand : Prop :=
  ∀ (s : State) (control first a b c check : Word16) (es : List Word16), s.managementArrives →
    s.receiver.state = .assembling → bitSet control 15 = true → bitSet control 14 = false → bitSet control 13 = true →
    let message (args : List Word16) (n : Nat) :=
      s.receiver.buffer = first :: args ∧ codeOf first = n ∧ (first :: args).sum + check = 0
    let run := exec (.managementWord control check) s
    let tag := tagOf first
    let p := s.managementPassed
    (message [a, b] 1 → run = exec (.lineEnable tag a b) p) ∧
    (message [a] 2 → run = exec (.lineDisable tag a) p) ∧
    (message [a, b] 3 → run = exec (.lineProfile tag a b) p) ∧
    (message [a] 4 → run = exec (.lineConnect tag a) p) ∧
    (message [a, b] 5 → run = exec (.linePolarity tag a b) p) ∧
    (message [a, b, c] 6 → run = exec (.ringStart tag a b c) p) ∧
    (message [a] 7 → run = exec (.ringStop tag a) p) ∧
    (message [a, b] 8 → run = exec (.testRequest tag a b) p) ∧
    (message [a] 9 → run = exec (.lineQuery tag a) p) ∧
    (message [a, b, c] 10 → run = exec (.loadOpen tag a b c) p) ∧
    (message (a :: b :: es) 11 → es.length ≤ 36 → run = exec (.loadBlock tag a b es) p) ∧
    (message [a] 12 → run = exec (.loadCommit tag a) p) ∧
    (message [a] 13 → run = exec (.loadCancel tag a) p) ∧
    (message [a, b, c] 14 → run = exec (.entryRead tag a b c) p) ∧
    (message [] 15 → run = exec (.partQuery tag) p) ∧
    (message [] 16 → run = exec (.partReset tag) p)

/-- A message that completes with a wrong check word is answered CHECK; with a code that names no command, UNKNOWN; with a
wrong word count or beyond 40 words, LENGTH, where LOAD_BLOCK's count is judged by the table it names, and RANGE answers one
that names none; and then nothing but the receiver and the REPLY queue changes, beside the slot that the words of the frame
pass, which is the model's (notes/assumptions/5.md, 22.md). A word with S and E completes a message of one word, which fails
the check word or, being 0, names no command; a message under way is answered TRUNCATED before it. -/
def Obligations.BadMessageAnswered : Prop :=
  (∀ (s : State) (control check : Word16), s.managementArrives → s.receiver.state = .assembling →
    bitSet control 15 = true → bitSet control 14 = false → bitSet control 13 = true →
    s.receiver.buffer ≠ [] → s.receiver.buffer.length < 40 →
    let words := s.receiver.buffer ++ [check]
    let code := codeOf (words.headD 0)
    let answered (st : Status) := exec (.managementWord control check) s =
      .next ((idleReceiver s.managementPassed).withReply (s.replyRecord code (tagOf (words.headD 0)) none st []))
    (words.sum ≠ 0 → answered .check) ∧
    (words.sum = 0 → code = 0 ∨ 16 < code → answered .unknown) ∧
    (words.sum = 0 → code = 2 ∨ code = 4 ∨ code = 7 ∨ code = 9 ∨ code = 12 ∨ code = 13 → words.length ≠ 3 →
      answered .length) ∧
    (words.sum = 0 → code = 1 ∨ code = 3 ∨ code = 5 ∨ code = 8 → words.length ≠ 4 → answered .length) ∧
    (words.sum = 0 → code = 6 ∨ code = 10 ∨ code = 14 → words.length ≠ 5 → answered .length) ∧
    (words.sum = 0 → code = 15 ∨ code = 16 → words.length ≠ 2 → answered .length) ∧
    (words.sum = 0 → code = 11 → words.length < 3 → answered .length) ∧
    (words.sum = 0 → code = 11 → 3 ≤ words.length → 5 < (words.getD 1 0).toNat → answered .range) ∧
    (∀ x, words.sum = 0 → code = 11 → 3 ≤ words.length → (words.getD 1 0).toNat = tableCode x →
      words.length ≠ 4 + x.entryLength → answered .length)) ∧
  (∀ (s : State) (control data : Word16), s.managementArrives →
    bitSet control 15 = true → bitSet control 14 = false → bitSet control 13 = true →
    s.receiver.state = .discarding ∨ s.receiver.state = .assembling ∧ s.receiver.buffer.length = 40 →
    exec (.managementWord control data) s =
      .next ((idleReceiver s.managementPassed).withReply
        (s.replyRecord (codeOf (s.receiver.buffer.headD 0)) (s.receiver.tag.getD 0) none .length []))) ∧
  (∀ (s : State) (control data : Word16), s.managementArrives →
    bitSet control 15 = true → bitSet control 14 = true → bitSet control 13 = true →
    let answer := s.replyRecord (codeOf data) (tagOf data) none (if data = 0 then .unknown else .check) []
    let truncated :=
      s.replyRecord (codeOf (s.receiver.buffer.headD 0)) (s.receiver.tag.getD 0) none .truncated []
    (s.receiver.state = .idle → exec (.managementWord control data) s =
      .next ((idleReceiver s.managementPassed).withReply answer)) ∧
    (s.receiver.state ≠ .idle → exec (.managementWord control data) s =
      .next (((idleReceiver s.managementPassed).withReply truncated).withReply answer)))

/-! ### Sync and frames -/

/-- In HUNT an FS pulse becomes or replaces the candidate, and a missing FS at the expected boundary removes it. FS at the
expected boundary gives SYNC with frame 0, miss count 0 and no candidate; the first acquisition keeps the stamp and everything
else. The model's choices in it: the label of a pulse (notes/assumptions/6.md), the instant of the feed code words and the
marker (notes/assumptions/7.md), and the fields of the words in flight (notes/assumptions/22.md). -/
def Obligations.FirstAcquisition : Prop :=
  (∀ (s : State) (pulse : Nat), s.highway.sync = .hunt →
    exec (.fsPulseHunt pulse) s = .next { s with highway := { s.highway with candidate := some pulse } } ∧
    exec .fsAbsentExpectedBoundary s = .next { s with highway := { s.highway with candidate := none } }) ∧
  (∀ s : State, s.highway.sync = .hunt → s.highway.candidate.isSome = true →
    ∃ t, exec .syncAcquire s = .next t ∧ t.highway.sync = .sync ∧ t.highway.frame = some 0 ∧ t.highway.missCount = 0 ∧
      t.highway.candidate = none) ∧
  (∀ s : State, s.highway.sync = .hunt → s.highway.candidate.isSome = true → s.highway.firstAcquisition = true →
    exec .syncAcquire s = .next { s with
      highway := { s.highway with
        sync := .sync, candidate := none, missCount := 0, frame := some 0, firstAcquisition := false }
      wires := ⟨silence, silence, some silence, some silence, feedWordsOf 0 s, true, none, 0, 0⟩ })

/-- A return to SYNC, in order: frame 0 and the stamp one on; SYNC_RESTORED; the end of a test under way, aborted with cause
SYNC_LOST; the receiver and the serialiser afresh, every fault window under way discarded, and every line due its recovery
changes; the ticks of the stamp; and the words of frame 0. Nothing else changes. The model's choices in it: the order of the
stamp's ticks behind the return (notes/assumptions/8.md), the mark of the recovery changes that are due
(notes/assumptions/16.md), the instant of the feed code words (notes/assumptions/7.md), and the fields of the words in flight
(notes/assumptions/22.md). What a rebinding at the examination changes, and the place of a COMMIT_DONE:
notes/assumptions/13.md, 18.md; the engine's fields once FREE: notes/assumptions/23.md; the ticks' lapse timers and sweep
expiry: notes/assumptions/33.md, 35.md; FS at the expected boundary as a row: notes/assumptions/6.md. The block start stamp
that a rebinding of TONE_PLAN removes: notes/assumptions/30.md. -/
def Obligations.ReturnToSync : Prop :=
  ∀ s : State, s.highway.sync = .hunt → s.highway.candidate.isSome = true → s.highway.firstAcquisition = false →
    let entered : State := { s with highway := { s.highway with
      sync := .sync, candidate := none, missCount := 0, frame := some 0, stamp := s.highway.stamp + 1 } }
    ∃ a b c v t, exec .syncAcquire s = .next t ∧
      AlarmOffered none (.syncRestored (s.highway.stampAtLoss.getD 0)) entered a ∧
      a = { entered with report := { s.report with alarm := a.report.alarm, alarmLost := a.report.alarmLost } } ∧
      (∀ r, s.engine.busy = true → s.engine.held = some r → s.testQueueLawful →
        EndsTest r .aborted (some .syncLost) s.engine.results a b) ∧
      (s.engine.busy = false ∨ s.engine.held = none → b = a) ∧
      c = { b with lines := c.lines, receiver := .initial, report := { b.report with sending := none } } ∧
      (∀ l, c.line l =
        { b.line l with monitor := { (b.line l).monitor with discard := true }, recoveryDue := true }) ∧
      Ticks c v ∧
      t = { v with wires := ⟨silence, silence, some silence, some silence, feedWordsOf 0 v, true, none, 0, 0⟩ } ∧
      t.highway = entered.highway ∧
      t.receiver = .initial ∧ t.report.sending = none ∧ t.wires.trunkAudio = some silence ∧ t.wires.lineAudio = some silence ∧
      t.wires.marker = true ∧ t.wires.feedWords = feedWordsOf 0 t ∧
      (∀ l, (t.line l).recoveryDue = true ∧ (t.line l).monitor.discard = true) ∧
      (s.report.alarm.length < 16 →
        s.report.alarm ++ [⟨none, s.highway.stamp + 1, s.report.alarmLost,
          .syncRestored (s.highway.stampAtLoss.getD 0)⟩] <+: t.report.alarm) ∧
      (∀ r, s.engine.busy = true → s.engine.held = some r → s.report.alarm.length < 15 →
        s.report.alarm ++ [⟨none, s.highway.stamp + 1, s.report.alarmLost,
            .syncRestored (s.highway.stampAtLoss.getD 0)⟩,
          ⟨some r.line, s.highway.stamp + 1, false,
            .testResult r.kind r.origin .aborted (some .syncLost) s.engine.results⟩] <+: t.report.alarm) ∧
      (∀ r, s.engine.busy = true → s.engine.held = some r → s.testQueueLawful → (s.line r.line).state = .test →
        s.settings.sweepPeriod = 0 ∨ s.engine.sweepTimer + 1 < s.settings.sweepPeriod * 1000 →
        let c := s.line r.line
        let back : LineState :=
          if c.stateBeforeTest = some .disabled then .disabled
          else if c.stateBeforeTest = some .fault ∨ c.monitor.confirmedSeverity = some .hazard then .fault
          else .idle
        (t.line r.line).steady =
          ({ c with
              state := back, commandedFeed := if back = .idle then .standby else .opened
              stateBeforeTest := none, loop := .initial c.loop.feedMask
              senseLost := if back = .disabled then false else c.senseLost
              monitor := { c.monitor with discard := true }, recoveryDue := true } : Line).steady ∧
        s.signalAfter r.line ⟨some r.line, s.highway.stamp + 1, false, .state back .test .testEnd⟩ <+: t.report.signal)

/-- A counted boundary that is not the fourth miss: the frame number advances, the audio received in the frame before is sent,
with the feed code words and the marker of the frame, and its slots begin; a boundary other than frame 0 changes nothing else.
One of frame 0, with FS or without, makes the lapses of the multiframe that ends, of the loads whose timer has reached 1,000
and that no command of that multiframe has closed or restarted, with their LOAD_LAPSED records; it advances the stamp, the
sweep timer, whose expiry has the effects of SWEEP_EXPIRY, and every OPEN load's lapse timer, which stops at 1,000 (Ticks);
and it changes nothing else. The model's choices in it: the instant of the feed code words (notes/assumptions/7.md), the order
of the stamp's ticks (notes/assumptions/8.md), the fields of the words in flight (notes/assumptions/22.md), a lapse no later
than the end of its multiframe (notes/assumptions/33.md), and a sweep expiry before every other event of its multiframe
(notes/assumptions/35.md). FS, or its absence, as the row's operand: notes/assumptions/6.md. -/
def Obligations.FrameBoundaryCounted : Prop :=
  (∀ (s : State) (fs : Bool) (f : Nat), s.highway.sync = .sync → s.highway.frame = some f →
    fs = true ∨ s.highway.missCount < 3 →
    let next := (f + 1) % 8
    ∃ t, exec (.frameBoundary fs) s = .next t ∧
      t.highway = { s.highway with
        missCount := if fs then 0 else s.highway.missCount + 1, frame := some next
        stamp := if next = 0 then s.highway.stamp + 1 else s.highway.stamp } ∧
      t.wires = ⟨silence, silence, some s.wires.upReceived, some s.wires.downReceived, feedWordsOf next t, decide (next = 0),
        none, 0, 0⟩ ∧
      (next ≠ 0 → t.lines = s.lines ∧ t.engine = s.engine ∧ t.receiver = s.receiver ∧ t.report = s.report ∧
        t.tables = s.tables)) ∧
  (∀ (s : State) (fs : Bool), s.highway.sync = .sync → s.highway.frame = some 7 →
    fs = true ∨ s.highway.missCount < 3 →
    ∃ u v t, LapsesDue s u ∧ exec (.frameBoundary fs) s = .next t ∧
      Ticks { u with highway := { s.highway with
        missCount := if fs then 0 else s.highway.missCount + 1, frame := some 0, stamp := s.highway.stamp + 1 } } v ∧
      t = { v with wires :=
        ⟨silence, silence, some s.wires.upReceived, some s.wires.downReceived, feedWordsOf 0 v, true, none, 0, 0⟩ })

/-- The fourth consecutive miss: HUNT, the stamp kept as the stamp at loss, the record being sent abandoned, nothing driven,
and the RUNNING tone engines HELD, behind the lapses still due in the broken multiframe (the model's choice,
notes/assumptions/33.md); HUNT_ENTRY is that same check at a miss count of 4. That the words received and the slots passed are
0 in HUNT is the model's choice (notes/assumptions/22.md, 27.md). The absence of FS as the row's operand:
notes/assumptions/6.md. -/
def Obligations.FourthMissEntersHunt : Prop :=
  ∀ s : State, s.highway.sync = .sync →
    let hunted (t : State) : Prop := ∃ u, LapsesDue s u ∧
      t.highway = { s.highway with
        sync := .hunt, candidate := none, missCount := 4, frame := none, stampAtLoss := some s.highway.stamp } ∧
      t.wires = .quiet ∧ t.report = { u.report with sending := none } ∧ t.engine = s.engine ∧
      t.receiver = s.receiver ∧ t.tables = u.tables ∧
      (∀ l, t.line l =
        if (s.line l).tone.run = .running then { s.line l with tone := { (s.line l).tone with run := .held } }
        else s.line l)
    (s.highway.missCount = 3 → ∃ t, exec (.frameBoundary false) s = .next t ∧ hunted t) ∧
    (s.highway.missCount = 4 → ∃ t, exec .huntEntry s = .next t ∧ hunted t)

/-! ### Reports -/

/-- In each frame the serialiser acts. While SENDING it sends the next word of its record, with S on the first and E on the
last, after which it is FREE. While FREE it takes the head of the ALARM queue, else of the REPLY queue, else of the SIGNAL
queue, and sends its first word; with all three empty it sends a control word with V clear. It is FREE after power-on reset
and at the entry to HUNT. The words of a record are its kind, alarm-lost flag and line, its stamp, the payload of its kind,
and a check word with which the sum is 0. That a frame has one pair of report words, and the field that holds them, are the
model's: notes/assumptions/5.md and 22.md. -/
def Obligations.SerialiserActs : Prop :=
  (∀ (s : State) (r : Record) (i : Nat), s.highway.sync = .sync → s.wires.report = none →
    s.report.sending = some (r, i) →
    let last := r.words.length ≤ i + 1
    let control := pack [(1, 15), (if i = 0 then 1 else 0, 14), (if last then 1 else 0, 13)]
    exec .reportFrame s = .next { s with
      wires := { s.wires with report := some (control, r.words.getD i 0) }
      report := { s.report with sending := if last then none else some (r, i + 1) } }) ∧
  (∀ s : State, s.highway.sync = .sync → s.wires.report = none → s.report.sending = none →
    let sent (r : Record) : Wires := { s.wires with report := some (pack [(1, 15), (1, 14), (0, 13)], r.words.getD 0 0) }
    (∀ r rest, s.report.alarm = r :: rest → exec .reportFrame s = .next { s with
      wires := sent r, report := { s.report with alarm := rest, sending := some (r, 1) } }) ∧
    (∀ r rest, s.report.alarm = [] → s.report.reply = r :: rest → exec .reportFrame s = .next { s with
      wires := sent r, report := { s.report with reply := rest, sending := some (r, 1) } }) ∧
    (∀ r rest, s.report.alarm = [] → s.report.reply = [] → s.report.signal = r :: rest →
      ∃ t, exec .reportFrame s = .next t ∧ t.wires = sent r ∧ t.report.sending = some (r, 1) ∧ t.report.alarm = [] ∧
        t.report.reply = [] ∧ rest <+: t.report.signal) ∧
    (s.report.alarm = [] → s.report.reply = [] → s.report.signal = [] →
      ∃ control data, bitSet control 15 = false ∧
        exec .reportFrame s = .next { s with wires := { s.wires with report := some (control, data) } })) ∧
  (∀ s : State, s.highway.sync = .sync → s.highway.missCount = 4 →
    ∃ t, exec .huntEntry s = .next t ∧ t.report.sending = none) ∧
  State.reset.report.sending = none ∧
  ∀ r : Record,
    let flag (b : Bool) : Nat := if b = true then 1 else 0
    let head (kind : Nat) : List Word16 :=
      [pack [(kind, 10), (flag r.alarmLost, 9), (r.line.elim 63 (·.val), 0)], r.stamp]
    let entry (e : DigitEntry) : List Word16 :=
      [pack [(symbolCode e.symbol, 11), (methodCode e.method, 9), (errorCode e.error, 7), (e.pulses.getD 0, 0)], e.start,
        BitVec.ofNat 16 (match e.method with
          | .pulse => e.period.getD 0
          | .tone | .hook => e.duration.getD 0
          | .none => 0)]
    let result (x : StepResult) : List Word16 := [pack [(x.step, 13), (flag x.pass, 0)], BitVec.ofInt 16 x.value]
    let body : List Word16 :=
      match r.payload with
      | .reply command tag status results =>
        head 1 ++ [pack [(command.toNat, 8), (tag.toNat, 0)], BitVec.ofNat 16 (statusCode status)] ++ results
      | .loadLapsed table accepted => head 2 ++ [pack [(tableCode table, 12), (accepted, 0)]]
      | .commitDone table tag => head 3 ++ [pack [(tableCode table, 12), (tag.toNat, 0)]]
      | .state new old cause => head 8 ++ [pack [(stateCode new, 12), (stateCode old, 8), (causeCode cause, 0)]]
      | .digit overrun e => head 9 ++ [pack [(flag overrun, 15)]] ++ entry e
      | .digits overrun reason es =>
        head 10 ++ [pack [(flag overrun, 15), (reasonCode reason, 8), (es.length, 0)]] ++ es.flatMap entry
      | .snapshot state before level polarity fill faultClass =>
        head 11 ++ [pack [(stateCode state, 12), ((before.map stateCode).getD 15, 8), (levelCode level, 7),
          (polarityCode polarity, 6), (fill, 0)], BitVec.ofNat 16 faultClass]
      | .faultRaise cls severity previous => head 16 ++ [pack [(cls, 12), (severityCode severity, 11), (previous, 0)]]
      | .faultClear cls severity => head 17 ++ [pack [(cls, 12), (severityCode severity, 11)]]
      | .testResult kind origin verdict cause results =>
        head 18 ++ [pack [(kindCode kind, 14), (originCode origin, 13), (verdictCode verdict, 11), (abortCode cause, 8),
          (results.length, 0)]] ++ results.flatMap result
      | .senseLost => head 19
      | .senseBack => head 20
      | .feedStuck commanded echoed => head 21 ++ [pack [(feedCode commanded, 4), (feedCode echoed, 0)]]
      | .feedOk feed => head 22 ++ [BitVec.ofNat 16 (feedCode feed)]
      | .syncRestored stampAtLoss => head 23 ++ [stampAtLoss]
    ∃ check : Word16, r.words = body ++ [check] ∧ r.words.sum = 0

/-- When a SIGNAL record leaves the queue, the first line with backlog above the service pointer, wrapping through all 48, is
served and the pointer takes its number: it gives its oldest due item with the overrun flag, or a SNAPSHOT, after which its
state-lost flag is cleared. Without backlog nothing is served. After power-on reset the pointer is 47. That a frame has one
pair of report words, and the field that holds them, are the model's: notes/assumptions/5.md and 22.md. -/
def Obligations.DepartureServesBacklog : Prop :=
  (∀ (s : State) (r : Record) (rest : List Record), s.highway.sync = .sync →
    s.wires.report = none → s.report.sending = none →
    s.report.alarm = [] → s.report.reply = [] → s.report.signal = r :: rest →
    let line (k : Nat) : LineNo := Fin.ofNat 48 (s.report.servicePointer.val + k)
    (∀ k, k < 48 → (s.line (line (k + 1))).backlog = true → (∀ j, j < k → (s.line (line (j + 1))).backlog = false) →
      let l := line (k + 1)
      ∃ t, exec .reportFrame s = .next t ∧ t.report.servicePointer = l ∧ t.report.sending = some (r, 1) ∧
        (∀ j, j ≠ l → t.line j = s.line j) ∧
        (∀ item items, (s.line l).due = item :: items →
          t.line l = { s.line l with due := items, overrun := false } ∧
          t.report.signal = rest ++ [itemRecord l (s.line l).overrun item]) ∧
        ((s.line l).due = [] →
          t.line l = { s.line l with stateLost := false } ∧
          t.report.signal = rest ++ [s.record (some l) (.snapshot (s.line l).state (s.line l).stateBeforeTest
            (s.line l).loop.debounced (s.line l).polarity (s.line l).openString.length
            (s.line l).monitor.confirmedClass)])) ∧
    ((∀ l, (s.line l).backlog = false) → exec .reportFrame s = .next { s with
      wires := { s.wires with report := some (pack [(1, 15), (1, 14), (0, 13)], r.words.getD 0 0) }
      report := { s.report with signal := rest, sending := some (r, 1) } })) ∧
  State.reset.report.servicePointer = 47

/-! ### Audio -/

/-- An audio sample is scaled by an arithmetic shift right of 2; a RUNNING engine gives it to the eight recursions and to the
power sum, which holds every block exactly, and the sample count increases by 1; nothing else but the words in flight changes
(AudioPassesThrough says them). A sample that brings the count to N completes the block. A word arrives while its slot of the
frame has not passed: notes/assumptions/5.md and 22.md. A plan that was never loaded has N 0: notes/assumptions/31.md. -/
def Obligations.ToneSampleTaken : Prop :=
  (∀ w : Word16, -8192 ≤ w.toInt / 4 ∧ w.toInt / 4 ≤ 8191 ∧ (w.toInt / 4 * (w.toInt / 4)).toNat ≤ 67108864) ∧
  (∀ (s : State) (l : LineNo) (w : Word16), s.highway.sync = .sync → s.wires.lineSlot ≤ l.val →
    (s.line l).tone.run = .running →
    let plan := readTonePlan (s.toneWords l)
    let tone := (s.line l).tone
    let x := w.toInt / 4
    let taken : Line := { s.line l with tone := { tone with
      bins := Vector.ofFn fun k : Fin 8 =>
        ⟨x + plan.coefficients.get k * (tone.bins.get k).s1 / 16384 - (tone.bins.get k).s2, (tone.bins.get k).s1⟩
      sampleCount := tone.sampleCount + 1, power := tone.power + (x * x).toNat
      blockStart := if tone.sampleCount = 0 then some s.stamp else tone.blockStart } }
    (tone.sampleCount + 1 < plan.n →
      ∃ wires, exec (.audioUpstream l w) s = .next { setLine l taken s with wires := wires }) ∧
    (plan.n ≤ tone.sampleCount + 1 →
      ∃ u wires, exec (.toneBlockComplete l) (setLine l taken s) = .next u ∧
        exec (.audioUpstream l w) s = .next { u with wires := wires }))

/-- An upstream word is kept for the trunk port, replaced by 0 under the mute as the tone state stands after the engine has
used it; a downstream word is kept for the line port unchanged. With the tone engine not RUNNING nothing else changes. A
word arrives while its slot of the frame has not passed (notes/assumptions/5.md, 22.md), and its slot then has. -/
def Obligations.AudioPassesThrough : Prop :=
  (∀ (s : State) (l : LineNo) (w : Word16), s.highway.sync = .sync →
    let muted := ((s.line l).tone.state = .on ∨ (s.line l).tone.state = .gap) ∧ (s.profile l).mute = true
    let sent : Word16 := if muted then 0 else w
    (s.wires.lineSlot ≤ l.val → (s.line l).tone.run ≠ .running →
      exec (.audioUpstream l w) s = .next { s with wires := { s.wires with
        upReceived := s.wires.upReceived.set l.val sent l.isLt, lineSlot := l.val + 1 } }) ∧
    (s.wires.trunkSlot ≤ l.val → exec (.audioDownstream l w) s = .next { s with wires := { s.wires with
      downReceived := s.wires.downReceived.set l.val w l.isLt, trunkSlot := l.val + 1 } })) ∧
  (∀ (s : State) (l : LineNo) (w : Word16), s.highway.sync = .sync → s.wires.lineSlot ≤ l.val →
    ∃ t, exec (.audioUpstream l w) s = .next t ∧
      let muted := ((t.line l).tone.state = .on ∨ (t.line l).tone.state = .gap) ∧ (t.profile l).mute = true
      let sent : Word16 := if muted then 0 else w
      t.wires = { s.wires with
        upReceived := s.wires.upReceived.set l.val sent l.isLt, lineSlot := l.val + 1 })

/-- A word that the sender puts outside its slot of the frame changes nothing: a sense record outside the frame of its line,
or behind a slot that has passed, so that a line has one record in a multiframe; an audio or a management word whose slot has
passed; report words for a frame that has them. A word received passes its slot (notes/assumptions/5.md; the slot fields:
notes/assumptions/22.md). -/
def Obligations.WordsInTheirSlots : Prop :=
  ∀ (s : State) (l : LineNo) (a b c d : Word16) (o : RecordOrder), s.highway.sync = .sync →
    (s.highway.frame ≠ some (l.val / 6) ∨ 48 + l.val % 6 < s.wires.lineSlot →
      exec (.senseRecord l a b c d o) s = .next s) ∧
    (s.highway.frame = some (l.val / 6) → s.wires.lineSlot ≤ 48 + l.val % 6 →
      ∃ t, exec (.senseRecord l a b c d o) s = .next t ∧ t.wires = (s.recordPassed l).wires) ∧
    (l.val < s.wires.lineSlot → exec (.audioUpstream l a) s = .next s) ∧
    (l.val < s.wires.trunkSlot → exec (.audioDownstream l a) s = .next s) ∧
    (48 < s.wires.trunkSlot → exec (.managementWord a b) s = .next s) ∧
    (s.wires.trunkSlot ≤ 48 → ∃ t, exec (.managementWord a b) s = .next t ∧ t.wires = s.managementPassed.wires) ∧
    (s.wires.report ≠ none → exec .reportFrame s = .next s) ∧
    (s.wires.report = none → ∃ t, exec .reportFrame s = .next t ∧ t.wires.report ≠ none)

/-! ### The tone digit engine -/

/-- A completed block drives the tone state: the block is cleared, and QUIET, CANDIDATE, ON and GAP follow the block's result
where no digit ends. That the block's start stamp is then absent is notes/assumptions/30.md. A plan that was never loaded is
read as its words 0: notes/assumptions/31.md. -/
def Obligations.ToneBlockDrivesState : Prop :=
  ∀ (s : State) (l : LineNo), s.highway.sync = .sync → toneBlockDue s l = true →
    let plan := readTonePlan (s.toneWords l)
    let tone := (s.line l).tone
    let cleared : ToneEngine := { tone with bins := clearedBins, sampleCount := 0, power := 0, blockStart := none }
    let quiet : ToneEngine := { cleared with
      state := .quiet, key := none, candidateCount := 0, gapCount := 0, onBlocks := 0, digitStart := none }
    let run (k : Symbol) : ToneEngine := { quiet with
      state := if plan.onBlocks ≤ 1 then .on else .candidate, key := some k, candidateCount := 1
      onBlocks := if plan.onBlocks ≤ 1 then plan.onBlocks else 0, digitStart := tone.blockStart }
    let becomes (tone' : ToneEngine) :=
      exec (.toneBlockComplete l) s = .next (setLine l { s.line l with tone := tone' } s)
    (tone.state = .quiet → blockResult s l = none → becomes cleared) ∧
    (∀ k, tone.state = .quiet → blockResult s l = some k → becomes (run k)) ∧
    (tone.state = .candidate → blockResult s l = none → becomes quiet) ∧
    (∀ k, tone.state = .candidate → blockResult s l = some k → tone.key ≠ some k → becomes (run k)) ∧
    (∀ k, tone.state = .candidate → blockResult s l = some k → tone.key = some k →
      becomes { cleared with
        state := if plan.onBlocks ≤ tone.candidateCount + 1 then .on else .candidate
        candidateCount := tone.candidateCount + 1
        onBlocks := if plan.onBlocks ≤ tone.candidateCount + 1 then plan.onBlocks else 0 }) ∧
    (∀ k, tone.state = .on → blockResult s l = some k → tone.key = some k →
      becomes { cleared with onBlocks := min 65535 (tone.onBlocks + 1) }) ∧
    (tone.state = .on → blockResult s l = none → 2 ≤ plan.offBlocks →
      becomes { cleared with state := .gap, gapCount := 1 }) ∧
    (tone.state = .gap → blockResult s l = none → tone.gapCount + 1 < plan.offBlocks →
      becomes { cleared with gapCount := tone.gapCount + 1 }) ∧
    (∀ k, tone.state = .gap → blockResult s l = some k → tone.key = some k →
      becomes { cleared with state := .on, gapCount := 0, onBlocks := min 65535 (tone.onBlocks + tone.gapCount + 1) })

/-- A tone digit ends in ON or GAP at the last no-tone block of OFF_BLOCKS, or at a block of another key: its entry carries
the key, the start stamp and the duration. The tone state is then QUIET, or the candidate run of the other key begins. That
the block's start stamp is then absent is notes/assumptions/30.md. What a rebinding at the examination changes, and the place
of a COMMIT_DONE: notes/assumptions/13.md, 18.md. The entry mark that the entry sets: notes/assumptions/15.md; that the entry
comes before the tone state is removed: notes/assumptions/19.md; a plan that was never loaded: notes/assumptions/31.md. -/
def Obligations.ToneDigitEnds : Prop :=
  ∀ (s : State) (l : LineNo) (k : Symbol), s.highway.sync = .sync → toneBlockDue s l = true →
    (s.line l).tone.key = some k →
    let plan := readTonePlan (s.toneWords l)
    let tone := (s.line l).tone
    let entry : DigitEntry :=
      ⟨k, .tone, tone.digitStart.getD 0, none, none, some (min 65535 (tone.onBlocks * plan.n / 8)), none⟩
    let cleared := setLine l { s.line l with
      tone := { tone with bins := clearedBins, sampleCount := 0, power := 0, blockStart := none } } s
    let quiet (t : ToneEngine) : ToneEngine :=
      { t with state := .quiet, key := none, candidateCount := 0, gapCount := 0, onBlocks := 0, digitStart := none }
    let ends (after : ToneEngine → ToneEngine) := ∃ m, TakesEntry l entry cleared m ∧
      exec (.toneBlockComplete l) s = .next (setLine l { m.line l with tone := after (m.line l).tone } m)
    (blockResult s l = none →
      tone.state = .on ∧ plan.offBlocks = 1 ∨ tone.state = .gap ∧ plan.offBlocks = tone.gapCount + 1 → ends quiet) ∧
    (∀ k', blockResult s l = some k' → k' ≠ k → tone.state = .on ∨ tone.state = .gap →
      ends fun t => { quiet t with
        state := if plan.onBlocks ≤ 1 then .on else .candidate, key := some k', candidateCount := 1
        onBlocks := if plan.onBlocks ≤ 1 then plan.onBlocks else 0, digitStart := tone.blockStart })

/-- A block that completes while a pulse count is held or a break is present is a no-tone block, whatever its energies. Any
other is a key when the row and column winners pass the least-energy, twist, dominance and talk-off checks, and is then that
of the key map. -/
def Obligations.ToneBlockResult : Prop :=
  (∀ (s : State) (l : LineNo), 1 ≤ (s.line l).pulse.count ∨ (s.line l).loop.brk.isSome = true →
    blockResult s l = none) ∧
  (∀ (s : State) (l : LineNo) (r h : Fin 4), (s.line l).pulse.count = 0 → (s.line l).loop.brk = none →
    let words := s.toneWords l
    let plan := readTonePlan words
    let tone := (s.line l).tone
    let energy (k : Nat) : Int :=
      let a := (tone.bins.get (Fin.ofNat 8 k)).s1 / 256
      let b := (tone.bins.get (Fin.ofNat 8 k)).s2 / 256
      max 0 (min 4294967295 (a * a + b * b - plan.coefficients.get (Fin.ofNat 8 k) * a * b / 16384))
    let low (j : Fin 4) := energy j.val
    let high (j : Fin 4) := energy (4 + j.val)
    let pref : Int := ((plan.n * tone.power / 131072 : Nat) : Int)
    (∀ j, low j ≤ low r) → (∀ j, j < r → low j < low r) → (∀ j, high j ≤ high h) → (∀ j, j < h → high j < high h) →
    blockResult s l =
      if (plan.eMin ≤ low r ∧ plan.eMin ≤ high h) ∧ (plan.twf * low r ≤ 16 * high h ∧ plan.twr * high h ≤ 16 * low r) ∧
          (∀ j, j ≠ r → plan.dom * low j ≤ 16 * low r) ∧ (∀ j, j ≠ h → plan.dom * high j ≤ 16 * high h) ∧
          plan.frac * pref ≤ 16 * (low r + high h) then
        keyMapEntry words (4 * r.val + h.val)
      else none)

/-! ### Sense records -/

/-- A valid sense record, whatever the line's state: the highway interface's fields of the line and its feed-mask count;
SENSE_BACK at the return of sense, FEED_OK at the first agreeing echo of a line whose feed-stuck flag was set, FEED_STUCK at a
mismatch run of 16; and at the return of sense a test on the line is aborted with cause SENSE_LOST behind SENSE_BACK, and its
line returns. That no recovery is due afterwards is said of the model's recovery mark, notes/assumptions/16.md; the slot that
a record passes is notes/assumptions/5.md and 22.md. -/
def Obligations.ValidRecordAccepted : Prop :=
  ∀ (s : State) (l : LineNo) (status i vt vr : Word16) (o : RecordOrder) (echo : FeedCode), s.recordArrives l →
    carriesEcho status (some echo) →
    let c := s.line l
    let run := if echo = c.commandedFeed then 0 else min 16 (c.mismatchRun + 1)
    ∃ t, exec (.senseRecord l status i vt vr o) s = .next t ∧
      (t.line l).appliedFeed = echo ∧ (t.line l).lastI = max (-1000) (min 1000 i.toInt) ∧
      (t.line l).lastVt = max (-1000) (min 1000 vt.toInt) ∧ (t.line l).lastVr = max (-1000) (min 1000 vr.toInt) ∧
      (t.line l).invalidRun = 0 ∧ (t.line l).senseLost = false ∧ (t.line l).recoveryDue = false ∧
      (t.line l).mismatchRun = run ∧
      (t.line l).feedStuck = (if echo = c.commandedFeed then false else c.feedStuck || decide (run = 16)) ∧
      (t.line l).loop.feedMask = (if echo = c.appliedFeed then c.loop.feedMask else (s.profile l).feedMask) - 1 ∧
      (c.state ≠ .test → testHeld s l = false → OnlyLine l (s.recordPassed l) t) ∧
      (c.senseLost = true → AlarmFirst (some l) .senseBack s t) ∧
      (c.senseLost = false → echo = c.commandedFeed → c.feedStuck = true → AlarmFirst (some l) (.feedOk echo) s t) ∧
      (c.senseLost = false → run = 16 → c.feedStuck = false →
        AlarmFirst (some l) (.feedStuck c.commandedFeed echo) s t) ∧
      (∀ r, c.senseLost = true → c.state = .test → s.engine.busy = true → s.engine.held = some r → r.line = l →
        s.testQueueLawful → t.engine.held ≠ some r ∧
          (t.line l).state = (if c.stateBeforeTest = some .disabled then .disabled
            else if c.stateBeforeTest = some .fault ∨ c.monitor.confirmedSeverity = some .hazard then .fault
            else .idle) ∧
          (s.report.alarm.length < 15 → run < 16 → c.feedStuck = false →
            s.report.alarm ++ [⟨some l, s.stamp, s.report.alarmLost, .senseBack⟩,
              ⟨some l, s.stamp, false, .testResult r.kind r.origin .aborted (some .senseLost) s.engine.results⟩] <+:
                t.report.alarm))

/-- An invalid sense record: the last valid values and the applied feed stand, the invalid run counts, and a line that is not
DISABLED becomes sense-lost at 8; the feed-mask count is reduced by a record handed with sense, and a record handed while its
line is sense-lost is used by the fault monitor alone. The slot that a record passes is notes/assumptions/5.md and 22.md. The
place of a COMMIT_DONE at a window's start: notes/assumptions/18.md. -/
def Obligations.InvalidRecordHeld : Prop :=
  (∀ (s : State) (l : LineNo) (status i vt vr : Word16) (o : RecordOrder), s.recordArrives l → carriesEcho status none →
    let c := s.line l
    let run := min 8 (c.invalidRun + 1)
    ∃ t, exec (.senseRecord l status i vt vr o) s = .next t ∧
      (t.line l).appliedFeed = c.appliedFeed ∧ (t.line l).lastI = c.lastI ∧ (t.line l).lastVt = c.lastVt ∧
      (t.line l).lastVr = c.lastVr ∧ (t.line l).mismatchRun = c.mismatchRun ∧ (t.line l).feedStuck = c.feedStuck ∧
      (t.line l).invalidRun = run ∧
      (t.line l).senseLost = (c.senseLost || decide (run = 8 ∧ c.state ≠ .disabled)) ∧
      (t.line l).loop.feedMask = c.loop.feedMask - (if (t.line l).senseLost then 0 else 1) ∧
      (c.state ≠ .test → OnlyLine l (s.recordPassed l) t) ∧
      (c.state ≠ .disabled → run = 8 → c.senseLost = false → AlarmFirst (some l) .senseLost s t)) ∧
  (∀ (s : State) (l : LineNo) (status i vt vr : Word16) (o : RecordOrder), s.recordArrives l → carriesEcho status none →
    (s.line l).senseLost = true →
    ∃ t, exec (.senseRecord l status i vt vr o) s = .next t ∧
      UpToMigration (setLine l { s.line l with
        invalidRun := min 8 ((s.line l).invalidRun + 1), monitor := (t.line l).monitor,
        faultBank := (t.line l).faultBank } (s.recordPassed l)) t ∧
      (t.line l).monitor.discard = true ∧
      (t.line l).monitor.confirmedClass = (s.line l).monitor.confirmedClass)

/-- A record that the line uses, with its check, the two timers, the recovery changes where they are due, the fault monitor's
part with the close of its window, and at the end the examination and the migrations that complete. Where the loop detector
runs, it uses the record step by step and the interdigit check follows; on a DISABLED line and in FAULT no block but the
monitor uses it. A profile applied at the move to LOCKOUT governs the detector on the same record: notes/assumptions/28.md;
what a rebinding of the PROFILE selector changes: notes/assumptions/13.md; the place of a COMMIT_DONE:
notes/assumptions/18.md. The order of blocks and monitor is the command's operand: notes/assumptions/4.md. The entry, recovery
and closed marks are notes/assumptions/15.md, 16.md and 20.md; the slot that a record passes is notes/assumptions/5.md and
22.md. When the dialling timers are compared: notes/assumptions/14.md. The block start stamp that a rebinding of TONE_PLAN
removes: notes/assumptions/30.md. -/
def Obligations.RecordUsedByLine : Prop :=
  ∀ (s : State) (l : LineNo) (status i vt vr : Word16) (o : RecordOrder) (echo : Option FeedCode), s.recordArrives l →
    carriesEcho status echo → (s.line l).usesRecord echo → testHeld s l = false →
    ((s.line l).state = .idle ∨ (s.line l).state = .seized ∨ (s.line l).state = .dialling ∨
        (s.line l).state = .connected ∨ (s.line l).state = .lockout →
      ∃ t, exec (.senseRecord l status i vt vr o) s = .next t ∧
        RecordUsed l o echo i vt vr (fun feedMasked w x =>
          ∃ m, DetectorUses l (w.line l).lastI feedMasked w m ∧ Makes (.digitEnd l) m x) s t) ∧
    ((s.line l).state = .disabled ∨ (s.line l).state = .fault →
      ∃ t, exec (.senseRecord l status i vt vr o) s = .next t ∧ RecordUsed l o echo i vt vr (fun _ w x => x = w) s t)

/-- At the end of a record that a DISABLED line or a line in FAULT uses, the line examines its position, with a migration
under way or none: the pending profile is applied, the PROFILE, TONE_PLAN and CADENCE selectors name the ACTIVE banks, and the
migrations whose last user has moved complete. What an applied profile and a rebinding change beside the selectors is
notes/assumptions/13.md. (Every change of state is examined in the same way: the last part of EntersState.) The place of a
COMMIT_DONE: notes/assumptions/18.md. The entry mark, which the record clears, and the recovery mark, which is clear before
it, are the model's: notes/assumptions/15.md and 16.md; the slot that a record passes is notes/assumptions/5.md and 22.md. The
block start stamp that a rebinding of TONE_PLAN removes: notes/assumptions/30.md. -/
def Obligations.ExaminationAtRest : Prop :=
  ∀ (s : State) (l : LineNo) (status i vt vr : Word16) (o : RecordOrder) (echo : FeedCode), s.recordArrives l →
    carriesEcho status (some echo) → (s.line l).state = .disabled ∨ (s.line l).state = .fault →
    (s.line l).senseLost = false → (s.line l).recoveryDue = false → (s.line l).openString = [] →
    testHeld s l = false → s.stamp.toNat % 64 ≠ 63 →
    ∃ u v t, exec (.senseRecord l status i vt vr o) s = .next t ∧
      u = { setLine l { (s.line l).checked (s.profile l).feedMask (some echo) i vt vr with
          entryMark := false, monitor := (t.line l).monitor, faultBank := (t.line l).faultBank } (s.recordPassed l) with
        report := { s.report with alarm := u.report.alarm, alarmLost := u.report.alarmLost } } ∧
      Examines l u v ∧ UpToMigration v t ∧ (t.line l).pendingProfile = none ∧
      (t.line l).profileIndex = (s.line l).pendingProfile.getD (s.line l).profileIndex ∧
      (t.line l).profileBank = s.activeBank .profile ∧ (t.line l).toneBank = s.activeBank .tonePlan ∧
      (t.line l).cadenceBank = s.activeBank .cadence ∧
      ∀ x tag, (s.table x).retiringTag = some tag → x ≠ .faultPlan → x ≠ .settings →
        (t.table x).retiringTag = if t.users x (s.activeBank x).other = 0 then none else some tag

/-- A line becomes sense-lost at its eighth invalid record: the flag is set, SENSE_LOST is offered, and a RUNNING tone engine
is HELD. FEED_STUCK is raised once, when the mismatch run has reached 16 with the feed-stuck flag clear. That the two events
may be sent on their own is notes/assumptions/1.md. -/
def Obligations.SenseLostAndFeedStuckRaised : Prop :=
  (∀ (s : State) (l : LineNo), s.highway.sync = .sync → (s.line l).state ≠ .disabled → 8 ≤ (s.line l).invalidRun →
    (s.line l).senseLost = false →
    ∃ t, exec (.senseLost l) s = .next t ∧ OnlyLine l s t ∧ AlarmOffered (some l) .senseLost s t ∧
      t.report.reply = s.report.reply ∧ t.report.signal = s.report.signal ∧
      t.line l = { s.line l with
        senseLost := true
        tone := { (s.line l).tone with
          run := if (s.line l).tone.run = .running then .held else (s.line l).tone.run } }) ∧
  (∀ (s : State) (l : LineNo) (echo : FeedCode), s.highway.sync = .sync → echo ≠ (s.line l).commandedFeed →
    16 ≤ (s.line l).mismatchRun →
    ((s.line l).feedStuck = false →
      ∃ t, exec (.feedStuck l echo) s = .next t ∧ OnlyLine l s t ∧
        AlarmOffered (some l) (.feedStuck (s.line l).commandedFeed echo) s t ∧
        t.report.reply = s.report.reply ∧ t.report.signal = s.report.signal ∧
        t.line l = { s.line l with feedStuck := true }) ∧
    ((s.line l).feedStuck = true → exec (.feedStuck l echo) s = .next s))

/-! ### The loop detector -/

/-- An accepted transition: the level changes, backdated to the run's first sample, with the edge mask from there; a NO_LOOP
begins a break where breaks are timed and none is present, and a LOOP is a pending make while a break is present. The masks
end: an edge mask at the first sample not earlier than its expiry, the feed mask and the ring mask at the record on which
their count stands at 1. That an event sent where it is not due changes nothing is notes/assumptions/1.md. -/
def Obligations.DebounceAcceptsAndMasksEnd : Prop :=
  (∀ (s : State) (l : LineNo) (r : DebounceRun), s.highway.sync = .sync → (s.line l).senseLost = false →
      detectorRuns (s.line l) = true → (s.line l).loop.run = some r → 1 ≤ r.count → (s.profile l).debounce ≤ r.count →
      let p := s.profile l
      let d := (s.line l).loop
      let mask := max p.maskMin (p.maskFrac * (s.line l).pulse.tbase / 128)
      let accepted : LoopDetector := { d with
        transition := some r.start, run := none, edgeExpiry := some (r.start + BitVec.ofNat 16 mask) }
      let becomes (d' : LoopDetector) := exec (.debounceAccept l) s = .next (setLine l { s.line l with loop := d' } s)
      (d.accepted = .loop → timesBreaks (s.line l).state = true → d.brk = none →
        becomes { accepted with
          accepted := .noLoop, debounced := .noLoop, makeTimer := 0, pendingMake := false
          brk := some ⟨r.start, r.age, false⟩ }) ∧
      (d.accepted = .loop → timesBreaks (s.line l).state = false ∨ d.brk.isSome = true →
        becomes { accepted with accepted := .noLoop, debounced := .noLoop, makeTimer := 0, pendingMake := false }) ∧
      (d.accepted = .noLoop → d.brk = none →
        becomes { accepted with accepted := .loop, debounced := .loop, makeTimer := r.age }) ∧
      (d.accepted = .noLoop → d.brk.isSome = true →
        becomes { accepted with accepted := .loop, makeTimer := r.age, pendingMake := true })) ∧
  (∀ (s : State) (l : LineNo), s.highway.sync = .sync → (s.line l).senseLost = false →
      let c := s.line l
      let becomes (i : Instr) (c' : Line) := exec i s = .next (setLine l c' s)
      (∀ e : Stamp, detectorRuns c = true → c.loop.edgeExpiry = some e →
        ((e - s.stamp).toNat = 0 ∨ 32767 < (e - s.stamp).toNat →
          becomes (.edgeMaskExpire l) { c with loop := { c.loop with edgeExpiry := none } }) ∧
        (1 ≤ (e - s.stamp).toNat → (e - s.stamp).toNat ≤ 32767 → becomes (.edgeMaskExpire l) c)) ∧
      (c.loop.feedMask = 1 → becomes (.feedMaskEnd l) { c with loop := { c.loop with feedMask := 0 } }) ∧
      (c.state = .ringing → ringOnStep c.ring.step = true → c.ring.armed = true → c.ring.maskCount = 1 →
        becomes (.ringMaskEnd l) { c with ring := { c.ring with maskCount := 0 } }))

/-- A seizure on an IDLE line: SEIZED, with the lockout timer and the pulse history at 0 and the tone engine started under
tone dialling. That the STATE record carries the stamp of the change is the model's choice (notes/assumptions/29.md). What a
rebinding at the examination changes, and the place of a COMMIT_DONE: notes/assumptions/13.md, 18.md. The block start stamp
that a rebinding of TONE_PLAN removes: notes/assumptions/30.md. -/
def Obligations.SeizureMovesLine : Prop :=
  ∀ (s : State) (l : LineNo), s.highway.sync = .sync → (s.line l).senseLost = false → (s.line l).state = .idle →
    (s.line l).loop.debounced = .loop → (s.profile l).seizeMin ≤ (s.line l).loop.makeTimer →
    ∃ t, exec (.seizure l) s = .next t ∧
      MovesLine l
        { s.line l with
          state := .seized, commandedFeed := .forward, lockoutTimer := 0,
          pulse := { count := 0, digitStart := none, lastBreak := none, history := [], tbase := 0 },
          tone :=
            if (s.profile l).toneDialling then { ToneEngine.initial with run := .running } else (s.line l).tone }
        .seize s t ∧
      (t.line l).lockoutTimer = 0

/-- A release: the open string closes first, the line moves to IDLE, the digit in progress is dropped, and the detector is at
NO_LOOP with its debounce run kept. That the STATE record carries the stamp of the change is the model's choice
(notes/assumptions/29.md). What a rebinding at the examination changes, and the place of a COMMIT_DONE:
notes/assumptions/13.md, 18.md. The block start stamp that a rebinding of TONE_PLAN removes: notes/assumptions/30.md. -/
def Obligations.ReleaseMovesLine : Prop :=
  ∀ (s : State) (l : LineNo) (b : Break), s.highway.sync = .sync → (s.line l).senseLost = false →
    (s.line l).loop.brk = some b → timesBreaks (s.line l).state = true →
    (s.profile l).releaseMin ≤ b.timer - (if (s.line l).loop.pendingMake then (s.line l).loop.makeTimer else 0) →
    ∃ m t, ClosesString l .release s m ∧ exec (.release l) s = .next t ∧
      MovesLine l
        { m.line l with
          state := .idle, commandedFeed := .standby, polarity := .forward,
          pulse := { (m.line l).pulse with count := 0, digitStart := none, lastBreak := none }, tone := .initial,
          loop := { (m.line l).loop with
            brk := none, pendingMake := false, accepted := .noLoop, debounced := .noLoop, makeTimer := 0 } }
        .release m t

/-- A make confirmation without an entry: a pulse is counted, and an interrupted break, a break shorter than BRK_MIN, one that
is no flash under tone dialling or in CONNECTED, and every break in LOCKOUT are ignored. With an entry: a FLASH in CONNECTED,
and while dialling a FLASH after the pulse digit it completes, or an ERROR BAD_BREAK that abandons the digit in progress. What
a rebinding at the examination changes, and the place of a COMMIT_DONE: notes/assumptions/13.md, 18.md. The entry mark that an
entry sets: notes/assumptions/15.md; that an entry comes before the count, or the break, is removed: notes/assumptions/19.md;
a spacing of 65,536 ms: notes/assumptions/34.md. The block start stamp that a rebinding of TONE_PLAN removes:
notes/assumptions/30.md. -/
def Obligations.MakeConfirmClassifies : Prop :=
  (∀ (s : State) (l : LineNo) (b : Break) (d : Nat), confirms s l b d →
      let p := s.profile l
      let c := s.line l
      let flash := p.flashMin ≤ d ∧ d ≤ p.flashMax
      let becomes (c' : Line) := exec (.makeConfirm l) s = .next (setLine l c' s)
      (b.interrupted = true → becomes (confirmed c)) ∧
      (c.state = .lockout → becomes (confirmed c)) ∧
      (c.state = .connected → ¬ flash → becomes (confirmed c)) ∧
      (dialling c.state = true → d < p.brkMin → becomes (confirmed c)) ∧
      (dialling c.state = true → ¬ flash → p.pulseDialling = false → becomes (confirmed c)) ∧
      (b.interrupted = false → dialling c.state = true → p.pulseDialling = true → p.brkMin ≤ d → d ≤ p.brkMax →
        d < p.flashMin → becomes (confirmed { c with pulse := countPulse p b.stamp c.pulse }))) ∧
  (∀ (s : State) (l : LineNo) (b : Break) (d : Nat), confirms s l b d → b.interrupted = false →
      let p := s.profile l
      let c := s.line l
      let flash : DigitEntry := ⟨.flash, .hook, b.stamp, none, none, some d, none⟩
      let bad : DigitEntry := ⟨.error, .none, b.stamp, none, none, none, some .badBreak⟩
      let noPulse (c : Line) : Line := { c with pulse := { c.pulse with count := 0, digitStart := none, lastBreak := none } }
      let ends (m : State) := exec (.makeConfirm l) s = .next (setLine l (confirmed (m.line l)) m)
      (c.state = .connected → p.flashMin ≤ d → d ≤ p.flashMax → ∃ m, TakesEntry l flash s m ∧ ends m) ∧
      (dialling c.state = true → p.brkMin ≤ d → p.flashMin ≤ d → d ≤ p.flashMax → c.pulse.count = 0 →
        ∃ m, TakesEntry l flash s m ∧ ends m) ∧
      (dialling c.state = true → p.brkMin ≤ d → p.flashMin ≤ d → d ≤ p.flashMax → 1 ≤ c.pulse.count →
        ∃ n m, TakesEntry l (pulseEntry c.pulse) s n ∧
          TakesEntry l flash (setLine l (noPulse (n.line l)) n) m ∧ ends m) ∧
      (dialling c.state = true → p.pulseDialling = true → p.brkMin ≤ d → p.brkMax < d →
        d < p.flashMin ∨ p.flashMax < d → ∃ m, TakesEntry l bad (setLine l (noPulse c) s) m ∧ ends m))

/-! ### The pulse digit engine and the collector -/

/-- Counting a pulse: the count stops at 11, the first pulse gives the digit's start stamp, and the spacing of two counted
breaks joins the history of at most eight, from which Tbase is computed: the mean of the newest AVG_N periods rounded down, 0
for none, and so between the smallest and the largest period. A spacing of exactly 65,536 ms is stored as the 0 of R44's
modulo (the model's choice, notes/assumptions/34.md). -/
def Obligations.PulseCounted : Prop :=
  (∀ (p : Profile) (stamp : Stamp) (e : PulseEngine), e.history.length ≤ 8 →
    let e' := countPulse p stamp e
    e'.count = min 11 (e.count + 1) ∧ e'.lastBreak = some stamp ∧ e'.history.length ≤ 8 ∧
    e'.digitStart = (if e.count = 0 then some stamp else e.digitStart) ∧
    (e.count = 0 → e'.history = e.history ∧ e'.tbase = e.tbase) ∧
    (∀ last, 1 ≤ e.count → e.lastBreak = some last →
      e'.history = (if e.history.length = 8 then e.history.drop 1 else e.history) ++ [min 4095 (stamp - last).toNat] ∧
      e'.tbase = tbaseOf p.avgN e'.history)) ∧
  (∀ (avgN : Nat) (history : List Nat) (low high : Nat), 1 ≤ avgN →
    tbaseOf avgN [] = 0 ∧
    tbaseOf avgN history = (history.reverse.take avgN).sum / min avgN history.length ∧
    (history ≠ [] → (∀ x ∈ history, low ≤ x ∧ x ≤ high) → low ≤ tbaseOf avgN history ∧ tbaseOf avgN history ≤ high))

/-- A digit end makes the entry of the count: a digit for 1 to 10 pulses, ERROR TOO_MANY_PULSES for 11; the count and its
stamps are then removed, and the history and Tbase stay. What a rebinding at the examination changes, and the place of a
COMMIT_DONE: notes/assumptions/13.md, 18.md. The entry mark that the entry sets: notes/assumptions/15.md; that the entry comes
before the count is removed: notes/assumptions/19.md. The block start stamp that a rebinding of TONE_PLAN removes:
notes/assumptions/30.md. -/
def Obligations.DigitEndMakesEntry : Prop :=
  ∀ (s : State) (l : LineNo), s.highway.sync = .sync → (s.line l).senseLost = false → dialling (s.line l).state = true →
    (s.profile l).pulseDialling = true → 1 ≤ (s.line l).pulse.count → (s.line l).loop.brk = none →
    max (s.profile l).idtMin ((s.profile l).idtMult * (s.line l).pulse.tbase / 32) ≤ (s.line l).loop.makeTimer →
    let e := (s.line l).pulse
    let entry : DigitEntry :=
      if e.count ≤ 10 then
        ⟨.digit (Fin.ofNat 10 e.count), .pulse, e.digitStart.getD 0, some e.count, some e.tbase, none, none⟩
      else ⟨.error, .none, e.digitStart.getD 0, none, none, none, some .tooManyPulses⟩
    ∃ m, TakesEntry l entry s m ∧
      exec (.digitEnd l) s = .next (setLine l { m.line l with
        pulse := { (m.line l).pulse with count := 0, digitStart := none, lastBreak := none } } m)

/-- The two dialling timers, without digit activity: LOCKOUT at LOCKOUT_T on a SEIZED line, or on a DIALLING line with no open
string; and the open string closes at STR_TIMEOUT, with reason LIMIT where it holds STR_MAX entries or more and TIMEOUT
otherwise. The entry mark is notes/assumptions/15.md, and that the timers are compared without digit activity alone is
notes/assumptions/14.md. What a rebinding at the examination changes, and the place of a COMMIT_DONE: notes/assumptions/13.md,
18.md. The block start stamp that a rebinding of TONE_PLAN removes: notes/assumptions/30.md. -/
def Obligations.DiallingTimersExpire : Prop :=
  (∀ (s : State) (l : LineNo), s.highway.sync = .sync → (s.line l).senseLost = false →
    (s.line l).state = .seized ∨ (s.line l).state = .dialling ∧ (s.line l).openString = [] →
    (s.profile l).lockoutT ≠ 0 → (s.profile l).lockoutT ≤ (s.line l).lockoutTimer →
    (s.line l).pulse.count = 0 → (s.line l).loop.brk = none → (s.line l).tone.state = .quiet →
    (s.line l).entryMark = false →
    ∃ t, exec (.lockout l) s = .next t ∧
      MovesLine l
        { s.line l with
          state := .lockout, commandedFeed := .standby,
          pulse := { (s.line l).pulse with count := 0, digitStart := none, lastBreak := none }, tone := .initial }
        .lockout s t) ∧
  (∀ (s : State) (l : LineNo), s.highway.sync = .sync → (s.line l).senseLost = false → (s.line l).openString ≠ [] →
    (s.profile l).strTimeout ≤ (s.line l).stringTimer → (s.line l).pulse.count = 0 → (s.line l).loop.brk = none →
    (s.line l).tone.state = .quiet → (s.line l).entryMark = false →
    let reason : CloseReason := if (s.profile l).strMax ≤ (s.line l).openString.length then .limit else .timeout
    ∃ m, ClosesString l reason s m ∧ exec (.stringTimeout l) s = .next m)

/-! ### Ringing -/

/-- A ring step expires at its duration: the next step, step 1 of a next cycle, or the end of ringing with the last cycle. A
step is the last of its pattern when it is step 6 or the step after it has duration 0. What a rebinding at the examination
changes, and the place of a COMMIT_DONE: notes/assumptions/13.md, 18.md. The block start stamp that a rebinding of TONE_PLAN
removes: notes/assumptions/30.md. -/
def Obligations.RingStepExpires : Prop :=
  ∀ (s : State) (l : LineNo) (n : Nat), s.highway.sync = .sync → (s.line l).senseLost = false →
    (s.line l).state = .ringing → (s.line l).ring.step = some n → 1 ≤ (s.line l).ring.timer →
    ((s.cadenceWords l).getD (n - 1) 0).toNat ≤ (s.line l).ring.timer →
    let c := s.line l
    let last := decide (6 ≤ n ∨ (s.cadenceWords l).getD n 0 = 0)
    let begun (step : Nat) (left : Option Nat) : Line := { c with
      commandedFeed := if step % 2 = 1 then .ring else .standby
      loop := .initial c.loop.feedMask
      ring := { c.ring with
        step := some step, timer := 0, cyclesLeft := left, armed := false, maskCount := 0, window := [], windowSum := 0
        tripRun := 0 } }
    let becomes (c' : Line) := exec (.ringStepExpire l) s = .next (setLine l c' s)
    (last = false → becomes (begun (n + 1) c.ring.cyclesLeft)) ∧
    (last = true → c.ring.cyclesLeft = none → becomes (begun 1 none)) ∧
    (∀ k, last = true → c.ring.cyclesLeft = some k → 2 ≤ k → becomes (begun 1 (some (k - 1)))) ∧
    (last = true → c.ring.cyclesLeft = some 1 →
      ∃ t, exec (.ringStepExpire l) s = .next t ∧
        MovesLine l
          { c with
            state := .idle, commandedFeed := .standby, ring := .initial,
            loop := if n % 2 = 1 then .initial c.loop.feedMask else c.loop } .ringEnd s t)

/-- The trip window holds at most RT_WIN currents, and the trip run counts the records whose mean magnitude reaches RT_THR,
from a full window on. A ring-trip answers the line: CONNECTED under FORWARD, the sequencer stopped, the detector at LOOP from
the trip, and the tone engine started under CONN_TONE; that it keeps the raw bit and the feed-mask count is
notes/assumptions/17.md. A record that a RINGING line uses: arming, mask and measurement in a ring-on step, the detector under
STANDBY in a ring-off step, then the step timer (the order of blocks and monitor, a rebinding, the place of a COMMIT_DONE, and
the marks: notes/assumptions/4.md, 13.md, 15.md, 16.md, 18.md, 20.md; the slot that a record passes: notes/assumptions/5.md,
22.md). When the dialling timers are compared: notes/assumptions/14.md. The block start stamp that a rebinding of TONE_PLAN
removes: notes/assumptions/30.md. -/
def Obligations.RingTripAnswers : Prop :=
  (∀ (p : Profile) (i : Int) (r : RingSequencer), 1 ≤ p.rtWin → r.window.length ≤ p.rtWin → r.windowSum = r.window.sum →
    let r' := measureRing p i r
    r'.window = (if r.window.length = p.rtWin then r.window.drop 1 else r.window) ++ [i] ∧
    r'.window.length ≤ p.rtWin ∧ r'.windowSum = r'.window.sum ∧
    r'.tripRun =
      (if r'.window.length < p.rtWin then 0
       else if (p.rtThr : Int) ≤ (r'.window.sum.tdiv p.rtWin).natAbs then min 15 (r.tripRun + 1) else 0)) ∧
  (∀ (s : State) (l : LineNo), s.highway.sync = .sync → (s.line l).senseLost = false → (s.line l).state = .ringing →
    let c := s.line l
    let answered : Line := { c with
      state := .connected, commandedFeed := .forward, polarity := .forward, ring := .initial
      loop := { c.loop with
        accepted := .loop, debounced := .loop, transition := some s.stamp, run := none, edgeExpiry := none, brk := none
        pendingMake := false, makeTimer := 0 }
      tone := if (s.profile l).connTone then { ToneEngine.initial with run := .running } else c.tone }
    (ringOnStep c.ring.step = true → 1 ≤ c.ring.tripRun → (s.profile l).rtConf ≤ c.ring.tripRun →
      ∃ t, exec (.ringTrip l) s = .next t ∧ MovesLine l answered .answer s t) ∧
    (ringOnStep c.ring.step = false → c.loop.debounced = .loop → (s.profile l).rtConf ≤ c.loop.makeTimer →
      ∃ t, exec (.ringOffTrip l) s = .next t ∧ MovesLine l answered .answer s t)) ∧
  (∀ (s : State) (l : LineNo) (status i vt vr : Word16) (o : RecordOrder) (echo : Option FeedCode), s.recordArrives l →
    carriesEcho status echo → (s.line l).usesRecord echo → testHeld s l = false → (s.line l).state = .ringing →
    ∃ t, exec (.senseRecord l status i vt vr o) s = .next t ∧
      RecordUsed l o echo i vt vr (fun feedMasked w x => SequencerUses l (w.line l).lastI echo.isNone feedMasked w x) s t)

/-! ### The fault monitor -/

/-- A window: each record is gathered, the first one of a window behind its start. The observation is the bands of the five
measurements and the feed group; the first entry in index order that is valid, enabled and meets every field cared for gives
the class, and class 0 stands where none does. The close at the last record, or by its event: a discarded window changes only
the window's closed mark; one that is counted updates both runs and then confirms the class where that is due, as
FAULT_CONFIRM does, or else clears the confirmed class where that is due, as FAULT_CLEAR does; where neither is due nothing
else changes. A window that closes in TEST is discarded, and no class is confirmed or cleared there. (That every record that a
line uses closes its window so is RecordUsedByLine, with RingTripAnswers and SettleEndsAndNoEchoAborts for a line that rings
or is under test.) The closed mark, and the event that closes the window before the line's last record of it, are
notes/assumptions/20.md; what a rebinding at the examination changes is notes/assumptions/13.md. The place of a COMMIT_DONE:
notes/assumptions/18.md. The entry mark, which a record that closes a window clears, and the recovery mark, which is clear
before it, are the model's: notes/assumptions/15.md and 16.md; the slot that a record passes is notes/assumptions/5.md and
22.md. The block start stamp that a rebinding of TONE_PLAN removes: notes/assumptions/30.md. -/
def Obligations.FaultWindowCloses : Prop :=
  (∀ t1 t2 t3 v : Int, t1 < t2 → t2 < t3 →
    (band t1 t2 t3 v = 0 ↔ v < t1) ∧ (band t1 t2 t3 v = 1 ↔ t1 ≤ v ∧ v < t2) ∧
    (band t1 t2 t3 v = 2 ↔ t2 ≤ v ∧ v < t3) ∧ (band t1 t2 t3 v = 3 ↔ t3 ≤ v)) ∧
  (∀ (s : State) (l : LineNo),
    let m := (s.line l).monitor
    let th := readThresholds (s.faultEntry l 0).words
    observation s l =
      ⟨band th.dc1 th.dc2 th.dc3 (m.tipSum / 64), band th.dc1 th.dc2 th.dc3 (m.ringSum / 64),
        band th.ac1 th.ac2 th.ac3 ((m.tipMax.getD 0 - m.tipMin.getD 0) / 2),
        band th.ac1 th.ac2 th.ac3 ((m.ringMax.getD 0 - m.ringMin.getD 0) / 2),
        band th.lp1 th.lp2 th.lp3 (m.loopSum / 64),
        match (s.line l).appliedFeed with
        | .opened => .opened
        | .standby => .standby
        | .forward => .loop
        | .reverse => .loop
        | .ring => .ring
        | .testTip => .test
        | .testRing => .test⟩) ∧
  (∀ (s : State) (l : LineNo),
    let o := observation s l
    let entry (k : Nat) := readClassEntry (s.faultEntry l k).words
    let fits (k : Nat) : Prop := (s.faultEntry l k).valid = true ∧ (entry k).enabled = true ∧
      ((entry k).tdc.care = true → (entry k).tdc.value = o.tdc) ∧
      ((entry k).rdc.care = true → (entry k).rdc.value = o.rdc) ∧
      ((entry k).tac.care = true → (entry k).tac.value = o.tac) ∧
      ((entry k).rac.care = true → (entry k).rac.value = o.rac) ∧
      ((entry k).ilp.care = true → (entry k).ilp.value = o.ilp) ∧
      ((entry k).group.care = true → (entry k).group.value = groupCode o.group)
    (∀ k, 1 ≤ k → k ≤ 16 → fits k → (∀ j, 1 ≤ j → j < k → ¬ fits j) →
      matchingEntry s l = some (entry k) ∧ windowClass s l = (entry k).faultClass) ∧
    ((∀ k, 1 ≤ k → k ≤ 16 → ¬ fits k) → matchingEntry s l = none ∧ windowClass s l = 0)) ∧
  (∀ (s : State) (l : LineNo) (status i vt vr : Word16) (o : RecordOrder) (echo : Option FeedCode), s.recordArrives l →
    carriesEcho status echo → s.stamp.toNat % 64 ≠ 63 →
    let c := s.line l
    let lost := decide (echo = none ∧ (c.senseLost = true ∨ 7 ≤ c.invalidRun ∧ c.state ≠ .disabled))
    ∃ t, exec (.senseRecord l status i vt vr o) s = .next t ∧
      (t.line l).monitor = c.gathers s.stamp echo i vt vr lost ∧
      (t.line l).faultBank = if c.StartsWindow s.stamp then s.activeBank .faultPlan else c.faultBank) ∧
  (∀ (s : State) (l : LineNo) (status i vt vr : Word16) (o : RecordOrder) (echo : FeedCode), s.recordArrives l →
    carriesEcho status (some echo) → s.stamp.toNat % 64 = 63 → (s.line l).state = .disabled →
    (s.line l).senseLost = false → (s.line l).recoveryDue = false → (s.line l).openString = [] →
    testHeld s l = false →
    let c := s.line l
    ∃ a b z t, exec (.senseRecord l status i vt vr o) s = .next t ∧
      a = { setLine l (c.checked (s.profile l).feedMask (some echo) i vt vr) (s.recordPassed l) with
        report := { s.report with alarm := a.report.alarm, alarmLost := a.report.alarmLost } } ∧
      MonitorTakes l c (some echo) i vt vr a b ∧ Examines l (setLine l { b.line l with entryMark := false } b) z ∧
      MigrationsComplete z t) ∧
  (∀ (s : State) (l : LineNo) (status i vt vr : Word16) (o : RecordOrder), s.recordArrives l → carriesEcho status none →
    s.stamp.toNat % 64 = 63 →
    let c := s.line l
    c.senseLost = true ∨ 7 ≤ c.invalidRun ∧ c.state ≠ .disabled →
    ∃ t, exec (.senseRecord l status i vt vr o) s = .next t ∧
      (t.line l).monitor = { c.gathers s.stamp none i vt vr true with closed := true } ∧
      (t.line l).faultBank = if c.StartsWindow s.stamp then s.activeBank .faultPlan else c.faultBank) ∧
  (∀ (s : State) (l : LineNo), windowCounted s l = true ↔
    (s.line l).monitor.closed = true ∧ (s.line l).monitor.discard = false ∧ (s.line l).state ≠ .test ∧
      (s.faultEntry l 0).valid = true) ∧
  (∀ (s : State) (l : LineNo), s.highway.sync = .sync → s.stamp.toNat % 64 = 63 → (s.line l).monitor.closed = false →
    let m := (s.line l).monitor
    let cls := windowClass s l
    let run := if m.candidateClass = some cls then min 15 (m.candidateRun + 1) else 1
    let clear := if m.confirmedClass = 0 then 0 else if cls = m.confirmedClass then 0 else min 15 (m.clearRun + 1)
    let put (m' : FaultMonitor) := setLine l { s.line l with monitor := m' } s
    let close := exec (.faultWindowClose l) s
    let updated := put { m with closed := true, candidateClass := some cls, candidateRun := run, clearRun := clear }
    ((s.line l).state = .test → close = .next (put { m with closed := true, discard := true })) ∧
    ((s.line l).state ≠ .test →
      (m.discard = true ∨ (s.faultEntry l 0).valid = false → close = .next (put { m with closed := true })) ∧
      (m.discard = false → (s.faultEntry l 0).valid = true →
        ((∀ e, matchingEntry s l = some e →
            e.faultClass = 0 ∨ e.faultClass = m.confirmedClass ∨ run < e.confirmCount) →
          (m.confirmedClass = 0 ∨ clear = 0 ∨ clear < m.confirmedClear.getD 0 → close = .next updated) ∧
          close = exec (.faultClear l) updated) ∧
        (∀ e, matchingEntry s l = some e → e.faultClass ≠ 0 → e.faultClass ≠ m.confirmedClass → e.confirmCount ≤ run →
          close = exec (.faultConfirm l) updated)))) ∧
  (∀ (s : State) (l : LineNo), s.highway.sync = .sync → (s.line l).state = .test →
    exec (.faultConfirm l) s = .next s ∧ exec (.faultClear l) s = .next s)

/-- A confirmation: the monitor takes the class, severity and clear count of the matching entry, FAULT_RAISE is offered for a
hazard and where R118 asks it of an advisory class, and then the line enters FAULT or leaves it as the severity changed. What
a rebinding at the examination changes, and the place of a COMMIT_DONE: notes/assumptions/13.md, 18.md. That the window's
closed mark is set (`windowCounted`): notes/assumptions/20.md. The block start stamp that a rebinding of TONE_PLAN removes:
notes/assumptions/30.md. -/
def Obligations.FaultConfirmed : Prop :=
  ∀ (s : State) (l : LineNo) (e : ClassEntry), s.highway.sync = .sync → windowCounted s l = true →
    matchingEntry s l = some e → (s.line l).monitor.candidateClass = some e.faultClass → e.faultClass ≠ 0 →
    e.faultClass ≠ (s.line l).monitor.confirmedClass → e.confirmCount ≤ (s.line l).monitor.candidateRun →
    let c := s.line l
    let offered := e.severity = .hazard ∨ s.settings.alarmAdvisory = true ∨
      c.monitor.confirmedSeverity = some .hazard ∨ c.monitor.reported = some true
    ∃ u t, OnlyLine l s u ∧ u.report.signal = s.report.signal ∧
      u.line l = { c with monitor := { c.monitor with
        confirmedClass := e.faultClass, confirmedSeverity := some e.severity, confirmedClear := some e.clearCount
        reported := some (decide offered), clearRun := 0 } } ∧
      (offered → AlarmOffered (some l) (.faultRaise e.faultClass e.severity c.monitor.confirmedClass) s u) ∧
      (¬ offered → SameAlarm s u) ∧
      exec (.faultConfirm l) s = .next t ∧
      (e.severity = .hazard → c.monitor.confirmedSeverity ≠ some .hazard → workingState c.state = true →
        ∃ m, ClosesString l .fault u m ∧
          MovesLine l
            { m.line l with
              state := .fault, commandedFeed := .opened, polarity := .forward, ring := .initial, tone := .initial,
              loop := .initial (m.line l).loop.feedMask,
              pulse := { (m.line l).pulse with count := 0, digitStart := none, lastBreak := none } } .fault m t) ∧
      (e.severity = .advisory → c.monitor.confirmedSeverity = some .hazard → c.state = .fault →
        MovesLine l { u.line l with state := .idle, commandedFeed := .standby, loop := .initial c.loop.feedMask }
          .faultCleared u t) ∧
      ((e.severity = .hazard ↔ c.monitor.confirmedSeverity = some .hazard) ∨
          workingState c.state = false ∧ c.state ≠ .fault → t = u)

/-- A clearing: FAULT_CLEAR is offered for a class whose raising was reported, the monitor's confirmed fields become absent,
and a line held in FAULT by a hazard returns to IDLE. What a rebinding at the examination changes, and the place of a
COMMIT_DONE: notes/assumptions/13.md, 18.md. That the window's closed mark is set (`windowCounted`): notes/assumptions/20.md.
The block start stamp that a rebinding of TONE_PLAN removes: notes/assumptions/30.md. -/
def Obligations.FaultCleared : Prop :=
  ∀ (s : State) (l : LineNo), s.highway.sync = .sync → windowCounted s l = true →
    faultConfirmEntry s l = none → (s.line l).monitor.confirmedClass ≠ 0 → 1 ≤ (s.line l).monitor.clearRun →
    (s.line l).monitor.confirmedClear.getD 0 ≤ (s.line l).monitor.clearRun →
    let c := s.line l
    ∃ u t, OnlyLine l s u ∧ u.report.signal = s.report.signal ∧
      u.line l = { c with monitor := { c.monitor with
        confirmedClass := 0, confirmedSeverity := none, confirmedClear := none, reported := none, clearRun := 0 } } ∧
      (c.monitor.reported = some true →
        AlarmOffered (some l) (.faultClear c.monitor.confirmedClass (c.monitor.confirmedSeverity.getD .advisory)) s u) ∧
      (c.monitor.reported ≠ some true → SameAlarm s u) ∧
      exec (.faultClear l) s = .next t ∧
      (c.monitor.confirmedSeverity = some .hazard → c.state = .fault →
        MovesLine l { u.line l with state := .idle, commandedFeed := .standby, loop := .initial c.loop.feedMask }
          .faultCleared u t) ∧
      (c.monitor.confirmedSeverity ≠ some .hazard ∨ c.state ≠ .fault → t = u)

/-! ### The test engine -/

/-- A FREE engine takes the head request of an admissible line with a runnable program: step 1 in WAIT_ECHO, the line in TEST
without a STATE record under the first step's feed, and the CADENCE selector bound, which may complete a migration; nothing
else changes. A BUSY engine takes nothing. A head request that cannot be run leaves the queue: a COMMANDED one with a
TEST_RESULT of verdict SKIPPED, one of the sweep without a record, and the engine goes on with the rest of the queue. The
place of a COMMIT_DONE: notes/assumptions/18.md. That a BUSY engine takes nothing where TEST_TAKE is sent on its own is
notes/assumptions/1.md. -/
def Obligations.TestTaken : Prop :=
  (∀ (s : State) (r : Request) (rest : List Request), s.highway.sync = .sync → s.engine.queue = r :: rest →
    let l := r.line
    let c := s.line l
    let bank := s.activeBank .testPlan
    let first := s.entry .testPlan bank (4 * kindCode r.kind)
    let tested : Line := { c with
      state := .test, stateBeforeTest := some c.state, commandedFeed := (readTestStep first.words).feed
      loop := .initial c.loop.feedMask, cadenceBank := s.activeBank .cadence }
    (s.engine.busy = false → c.state = .idle ∨ r.origin = .commanded ∧ (c.state = .disabled ∨ c.state = .fault) →
      first.valid = true → (readTestStep first.words).enabled = true →
      ∃ t, exec .testTake s = .next t ∧
        t.engine = { TestEngine.initial with
          busy := true, queue := rest, held := some r, bank := some bank, step := some 1, phase := some .waitEcho
          sweepPointer := s.engine.sweepPointer, sweepTimer := s.engine.sweepTimer } ∧
        (∀ k, k ≠ l → t.line k = s.line k) ∧ SameAlarm s t ∧ t.report.signal = s.report.signal ∧
        t.line l = tested ∧ MigrationsComplete { setLine l tested s with engine := t.engine } t) ∧
    (s.engine.busy = true → exec .testTake s = .next s)) ∧
  (∀ (s : State) (r : Request), s.highway.sync = .sync → s.engine.queue = [r] → s.engine.busy = false →
    admissible r.origin (s.line r.line).state = false ∨ programRunnable s r.kind = false →
    ∃ t, exec .testTake s = .next t ∧
      t = { s with
        engine := { s.engine with queue := [] }
        report := { s.report with alarm := t.report.alarm, alarmLost := t.report.alarmLost } } ∧
      (r.origin = .commanded → AlarmOffered (some r.line) (.testResult r.kind r.origin .skipped none []) s t) ∧
      (r.origin = .sweep → SameAlarm s t)) ∧
  (∀ (s : State) (r : Request) (rest : List Request), s.highway.sync = .sync → s.engine.queue = r :: rest →
    s.engine.busy = false → admissible r.origin (s.line r.line).state = false ∨ programRunnable s r.kind = false →
    ∃ u, exec .testTake s = exec .testTake u ∧
      u = { s with
        engine := { s.engine with queue := rest }
        report := { s.report with alarm := u.report.alarm, alarmLost := u.report.alarmLost } } ∧
      (r.origin = .commanded → AlarmOffered (some r.line) (.testResult r.kind r.origin .skipped none []) s u) ∧
      (r.origin = .sweep → SameAlarm s u)) ∧
  (∀ (o : Origin) (st : LineState), admissible o st = true ↔ st = .idle ∨ o = .commanded ∧ (st = .disabled ∨ st = .fault)) ∧
  (∀ (s : State) (k : TestKind), programRunnable s k = true ↔
    (s.entry .testPlan (s.activeBank .testPlan) (4 * kindCode k)).valid = true ∧
      (readTestStep (s.entry .testPlan (s.activeBank .testPlan) (4 * kindCode k)).words).enabled = true)

/-- The settle count at 0 moves SETTLE to MEASURE, and nothing else. A step age of 1,000 in WAIT_ECHO aborts the test with
cause NO_ECHO. A record that the line under test uses: the wait for the echo, the settle count, the measurement, and the abort
where the echo departs; at the return of sense the abort with cause SENSE_LOST, behind the line's recovery changes. The order
of blocks and monitor, a rebinding, the place of a COMMIT_DONE, and the marks are notes/assumptions/4.md, 13.md, 15.md, 16.md,
18.md and 20.md; the slot that a record passes is notes/assumptions/5.md and 22.md, the engine's fields once FREE are
notes/assumptions/23.md. When the dialling timers are compared: notes/assumptions/14.md. The block start stamp that a
rebinding of TONE_PLAN removes: notes/assumptions/30.md. -/
def Obligations.SettleEndsAndNoEchoAborts : Prop :=
  (∀ (s : State) (r : Request), s.highway.sync = .sync → s.engine.busy = true → s.engine.held = some r →
    (s.line r.line).senseLost = false → s.engine.phase = some .settle → s.engine.settleCount = 0 →
    exec .testSettleEnd s = .next { s with engine := { s.engine with phase := some .measure } }) ∧
  (∀ (s : State) (r : Request), s.highway.sync = .sync → s.engine.busy = true → s.engine.held = some r →
    (s.line r.line).senseLost = false → s.testQueueLawful → s.engine.phase = some .waitEcho → 1000 ≤ s.engine.stepAge →
    ∃ t, exec .noEcho s = .next t ∧ EndsTest r .aborted (some .noEcho) s.engine.results s t) ∧
  (∀ (s : State) (r : Request) (n : Nat) (status i vt vr : Word16) (o : RecordOrder) (echo : Option FeedCode),
    s.recordArrives r.line → carriesEcho status echo → (s.line r.line).usesRecord echo →
    (s.line r.line).state = .test →
    s.engine.busy = true → s.engine.held = some r → s.engine.step = some n → s.testQueueLawful →
    ∃ t, exec (.senseRecord r.line status i vt vr o) s = .next t ∧
      RecordUsed r.line o echo i vt vr (fun _ w x =>
        ((s.line r.line).senseLost = false →
          EngineUses r n (w.line r.line).lastI (w.line r.line).lastVt (w.line r.line).lastVr echo.isNone w x) ∧
        ((s.line r.line).senseLost = true →
          EndsTest r .aborted (some .senseLost) s.engine.results w x)) s t)

/-- A step ends at its measure time with its value and its pass mark; the next step follows where it can be run, and otherwise
the test ends with PASS exactly when every step passed. What a rebinding at the examination changes, and the place of a
COMMIT_DONE: notes/assumptions/13.md, 18.md; the engine's fields once FREE: notes/assumptions/23.md. The block start stamp
that a rebinding of TONE_PLAN removes: notes/assumptions/30.md. -/
def Obligations.TestStepEnds : Prop :=
  ∀ (s : State) (r : Request) (n : Nat), s.highway.sync = .sync → s.engine.busy = true → s.engine.held = some r →
    (s.line r.line).senseLost = false → s.testQueueLawful → (s.line r.line).state = .test →
    s.engine.phase = some .measure → s.engine.step = some n → 1 ≤ n →
    let e := s.engine
    let entry (k : Nat) := s.entry .testPlan (e.bank.getD .a) (4 * kindCode r.kind + (k - 1))
    let step := readTestStep (entry n).words
    let value : Int :=
      if e.sampleCount = 0 then 0
      else match step.quantity with
        | .tipDc | .ringDc | .loopI => e.sampleSum.tdiv e.sampleCount
        | .tipAc | .ringAc => (e.sampleMax.getD 0 - e.sampleMin.getD 0) / 2
    let results := e.results ++
      [⟨n, value, decide (e.sampleCount ≠ 0 ∧ step.lower ≤ value ∧ value ≤ step.upper)⟩]
    let goesOn := n < 4 ∧ (entry (n + 1)).valid = true ∧ (readTestStep (entry (n + 1)).words).enabled = true
    1 ≤ e.measureTimer → step.measure ≤ e.measureTimer →
    ∃ t, exec .testStepEnd s = .next t ∧
      (goesOn → t.engine = { TestEngine.initial with
          busy := true, queue := e.queue, held := e.held, bank := e.bank, step := some (n + 1), phase := some .waitEcho
          results := results, sweepPointer := e.sweepPointer, sweepTimer := e.sweepTimer } ∧
        OnlyLine r.line s { t with engine := s.engine } ∧ SameAlarm s t ∧ t.report.signal = s.report.signal ∧
        t.line r.line =
          { s.line r.line with commandedFeed := (readTestStep (entry (n + 1)).words).feed }) ∧
      (¬ goesOn → EndsTest r (if ∀ x ∈ results, x.pass = true then .pass else .fail) none results s t)

/-- The sweep timer expires: it returns to 0, the first line in IDLE from the sweep pointer upward, wrapping through all 48,
is chosen, a SWEEP request of the kind in force is offered for it, the pointer becomes the line after it whether the request
is kept or dropped, and a FREE engine takes the head of the queue. Without a line in IDLE no request is offered and the
pointer is unchanged. -/
def Obligations.SweepExpires : Prop :=
  ∀ s : State, s.highway.sync = .sync → s.settings.sweepPeriod ≠ 0 →
    s.settings.sweepPeriod * 1000 ≤ s.engine.sweepTimer →
    let e := s.engine
    let line (k : Nat) : LineNo := Fin.ofNat 48 (e.sweepPointer.val + k)
    (∀ k, k < 48 → (s.line (line k)).state = .idle → (∀ j, j < k → (s.line (line j)).state ≠ .idle) →
      let l := line k
      let dropped := (∃ r ∈ e.queue, r.line = l) ∨ (∃ r, e.held = some r ∧ r.line = l) ∨ 8 ≤ e.queue.length
      (∀ queue, (dropped → queue = e.queue) → (¬ dropped → queue = e.queue ++ [⟨l, s.settings.sweepKind, .sweep⟩]) →
        let offered := { s with engine := { e with
          sweepTimer := 0, sweepPointer := Fin.ofNat 48 (l.val + 1), queue := queue } }
        exec .sweepExpiry s = exec .testTake offered ∧
          ((∃ t, exec .sweepExpiry s = .next t) ∧ (e.busy = true → exec .sweepExpiry s = .next offered)))) ∧
    ((∀ l, (s.line l).state ≠ .idle) →
      exec .sweepExpiry s = .next { s with engine := { e with sweepTimer := 0 } })

/-! ### Invariants -/

/-- No step makes a report queue hold more than 16, 8 and 96 records, or a digit buffer more than 32 entries. -/
def Obligations.CapacitiesKept : Prop :=
  ∀ s t : State, s.queuesBounded → s.buffersBounded → step s = .next t → t.queuesBounded ∧ t.buffersBounded

/-- Every step keeps the test engine's laws: a line is in TEST exactly while the BUSY engine holds its request, and the
request queue holds at most 8 requests, never two for one line and never one for the line under test. -/
def Obligations.TestEngineLawful : Prop :=
  ∀ s t : State, s.testLawful → s.testQueueLawful → step s = .next t → t.testLawful ∧ t.testQueueLawful

/-- Every step keeps each line lawful: outside TEST the commanded feed is that of the line's state, the sequencer runs exactly
in RINGING, a DISABLED line is not sense-lost, and a state before test is stored exactly in TEST. -/
def Obligations.LinesLawful : Prop :=
  ∀ s t : State, s.testLawful → s.testQueueLawful → s.linesLawful → step s = .next t → t.linesLawful

/-- Every step keeps the table store lawful: every bank as long as its table, an OPEN load within its table with at most its
count accepted and never beside a RETIRING bank, and a bank RETIRING only while it has a user. So a bank is released exactly
when its user count is 0: by a command of a lawful device a RETIRING bank either stays RETIRING under its tag or, having no
user any more, becomes SHADOW with a COMMIT_DONE of that tag offered, but for PART_RESET and power-on reset, which free it
without one. (A PART_RESET that a message completes has passed the slot of its words: notes/assumptions/5.md, 22.md.) -/
def Obligations.TablesLawful : Prop :=
  (∀ s t : State, s.tablesLawful → step s = .next t → t.tablesLawful) ∧
  (∀ (c : Instr) (s t : State) (x : TableId) (tag : Tag), s.tablesLawful → exec c s = .next t →
    (s.table x).retiringTag = some tag →
    (t.table x).retiringTag = some tag ∧ t.activeBank x = s.activeBank x ∧ 1 ≤ t.users x (s.activeBank x).other ∨
    (t.table x).retiringTag = none ∧ t.activeBank x = s.activeBank x ∧ t.users x (s.activeBank x).other = 0 ∧
      (t.record none (.commitDone x tag) ∈ t.report.reply ∨ 8 ≤ t.report.reply.length) ∨
    (∃ tag' wires, exec (.partReset tag') { s with wires := wires } = .next t) ∨ exec .powerOnReset s = .next t)

/-- Every step keeps the frame number present exactly in SYNC, and no record being sent in HUNT. -/
def Obligations.SyncLawful : Prop := ∀ s t : State, s.syncLawful → step s = .next t → t.syncLawful

/-- The state after power-on reset satisfies the invariants. -/
def Obligations.ResetIsLawful : Prop :=
  State.reset.queuesBounded ∧ State.reset.buffersBounded ∧ State.reset.testLawful ∧ State.reset.testQueueLawful ∧
    State.reset.linesLawful ∧ State.reset.syncLawful ∧ State.reset.tablesLawful
end

