-- ==== Sys2Proof/Laws/State.lean ====
section
/-! SUPPORT. One lemma per field per update of the state, and of a line's context in the vector of lines; none needs a record
update to be unfolded again. -/

namespace Sys2Proof.Machine

/-! ### Lines -/

@[simp] theorem line_setLine_self (l : LineNo) (c : Line) (s : State) : (setLine l c s).line l = c := by
  simp [State.line, setLine, Vector.get_eq_getElem]

theorem line_setLine_of_ne {l k : LineNo} (h : k ≠ l) (c : Line) (s : State) : (setLine l c s).line k = s.line k := by
  have : l.val ≠ k.val := fun e => h (Fin.ext e.symm)
  simp [State.line, setLine, Vector.get_eq_getElem, this]

@[simp] theorem line_modLine_self (l : LineNo) (f : Line → Line) (s : State) :
    (modLine l f s).line l = f (s.line l) := by
  simp [modLine]

theorem line_modLine_of_ne {l k : LineNo} (h : k ≠ l) (f : Line → Line) (s : State) :
    (modLine l f s).line k = s.line k := by
  simp [modLine, line_setLine_of_ne h]

theorem line_modLine (l k : LineNo) (f : Line → Line) (s : State) :
    (modLine l f s).line k = if k = l then f (s.line k) else s.line k := by
  by_cases h : k = l
  · subst h; simp
  · simp [line_modLine_of_ne h, h]

@[simp] theorem line_mapLines (f : Line → Line) (s : State) (k : LineNo) : (mapLines f s).line k = f (s.line k) := by
  simp [mapLines, State.line, Vector.get_eq_getElem]

/-- Two states with the same lines agree on every line, and conversely. -/
theorem lines_eq_iff (s t : State) : s.lines = t.lines ↔ ∀ l, s.line l = t.line l := by
  constructor
  · intro h l; simp [State.line, h]
  · intro h
    apply Vector.ext
    intro i hi
    exact h ⟨i, hi⟩

theorem setLine_setLine (l : LineNo) (c d : Line) (s : State) : setLine l c (setLine l d s) = setLine l c s := by
  have h : (s.lines.set l.val d l.isLt).set l.val c l.isLt = s.lines.set l.val c l.isLt := by
    apply Vector.ext
    intro i hi
    by_cases h : l.val = i
    · subst h; simp
    · simp [h]
  cases s
  simp_all [setLine]

theorem modLine_setLine (l : LineNo) (f) (d : Line) (s : State) : modLine l f (setLine l d s) = setLine l (f d) s := by
  rw [modLine, setLine_setLine, line_setLine_self]

@[simp] theorem pending_modLine (l f) (s : State) : (modLine l f s).pending = s.pending := rfl
@[simp] theorem highway_modLine (l f) (s : State) : (modLine l f s).highway = s.highway := rfl
@[simp] theorem wires_modLine (l f) (s : State) : (modLine l f s).wires = s.wires := rfl
@[simp] theorem engine_modLine (l f) (s : State) : (modLine l f s).engine = s.engine := rfl
@[simp] theorem receiver_modLine (l f) (s : State) : (modLine l f s).receiver = s.receiver := rfl
@[simp] theorem report_modLine (l f) (s : State) : (modLine l f s).report = s.report := rfl
@[simp] theorem tables_modLine (l f) (s : State) : (modLine l f s).tables = s.tables := rfl

@[simp] theorem pending_mapLines (f) (s : State) : (mapLines f s).pending = s.pending := by simp only [mapLines]
@[simp] theorem highway_mapLines (f) (s : State) : (mapLines f s).highway = s.highway := by simp only [mapLines]
@[simp] theorem wires_mapLines (f) (s : State) : (mapLines f s).wires = s.wires := by simp only [mapLines]
@[simp] theorem engine_mapLines (f) (s : State) : (mapLines f s).engine = s.engine := by simp only [mapLines]
@[simp] theorem receiver_mapLines (f) (s : State) : (mapLines f s).receiver = s.receiver := by simp only [mapLines]
@[simp] theorem report_mapLines (f) (s : State) : (mapLines f s).report = s.report := by simp only [mapLines]
@[simp] theorem tables_mapLines (f) (s : State) : (mapLines f s).tables = s.tables := by simp only [mapLines]

/-! ### The other parts of the state -/

@[simp] theorem line_modEngine (f) (s : State) (l : LineNo) : (modEngine f s).line l = s.line l := rfl
@[simp] theorem lines_modEngine (f) (s : State) : (modEngine f s).lines = s.lines := rfl
@[simp] theorem pending_modEngine (f) (s : State) : (modEngine f s).pending = s.pending := rfl
@[simp] theorem highway_modEngine (f) (s : State) : (modEngine f s).highway = s.highway := rfl
@[simp] theorem wires_modEngine (f) (s : State) : (modEngine f s).wires = s.wires := rfl
@[simp] theorem engine_modEngine (f) (s : State) : (modEngine f s).engine = f s.engine := rfl
@[simp] theorem receiver_modEngine (f) (s : State) : (modEngine f s).receiver = s.receiver := rfl
@[simp] theorem report_modEngine (f) (s : State) : (modEngine f s).report = s.report := rfl
@[simp] theorem tables_modEngine (f) (s : State) : (modEngine f s).tables = s.tables := rfl

@[simp] theorem line_modHighway (f) (s : State) (l : LineNo) : (modHighway f s).line l = s.line l := rfl
@[simp] theorem lines_modHighway (f) (s : State) : (modHighway f s).lines = s.lines := rfl
@[simp] theorem pending_modHighway (f) (s : State) : (modHighway f s).pending = s.pending := rfl
@[simp] theorem highway_modHighway (f) (s : State) : (modHighway f s).highway = f s.highway := rfl
@[simp] theorem wires_modHighway (f) (s : State) : (modHighway f s).wires = s.wires := rfl
@[simp] theorem engine_modHighway (f) (s : State) : (modHighway f s).engine = s.engine := rfl
@[simp] theorem receiver_modHighway (f) (s : State) : (modHighway f s).receiver = s.receiver := rfl
@[simp] theorem report_modHighway (f) (s : State) : (modHighway f s).report = s.report := rfl
@[simp] theorem tables_modHighway (f) (s : State) : (modHighway f s).tables = s.tables := rfl

@[simp] theorem line_setReceiver (r) (s : State) (l : LineNo) : (setReceiver r s).line l = s.line l := rfl
@[simp] theorem lines_setReceiver (r) (s : State) : (setReceiver r s).lines = s.lines := rfl
@[simp] theorem pending_setReceiver (r) (s : State) : (setReceiver r s).pending = s.pending := rfl
@[simp] theorem highway_setReceiver (r) (s : State) : (setReceiver r s).highway = s.highway := rfl
@[simp] theorem wires_setReceiver (r) (s : State) : (setReceiver r s).wires = s.wires := rfl
@[simp] theorem engine_setReceiver (r) (s : State) : (setReceiver r s).engine = s.engine := rfl
@[simp] theorem receiver_setReceiver (r) (s : State) : (setReceiver r s).receiver = r := rfl
@[simp] theorem report_setReceiver (r) (s : State) : (setReceiver r s).report = s.report := rfl
@[simp] theorem tables_setReceiver (r) (s : State) : (setReceiver r s).tables = s.tables := rfl

@[simp] theorem line_idleReceiver (s : State) (l : LineNo) : (idleReceiver s).line l = s.line l := rfl
@[simp] theorem lines_idleReceiver (s : State) : (idleReceiver s).lines = s.lines := rfl
@[simp] theorem pending_idleReceiver (s : State) : (idleReceiver s).pending = s.pending := rfl
@[simp] theorem highway_idleReceiver (s : State) : (idleReceiver s).highway = s.highway := rfl
@[simp] theorem wires_idleReceiver (s : State) : (idleReceiver s).wires = s.wires := rfl
@[simp] theorem engine_idleReceiver (s : State) : (idleReceiver s).engine = s.engine := rfl
@[simp] theorem receiver_idleReceiver (s : State) : (idleReceiver s).receiver = .initial := rfl
@[simp] theorem report_idleReceiver (s : State) : (idleReceiver s).report = s.report := rfl
@[simp] theorem tables_idleReceiver (s : State) : (idleReceiver s).tables = s.tables := rfl

@[simp] theorem line_setTable (t tb) (s : State) (l : LineNo) : (setTable t tb s).line l = s.line l := rfl
@[simp] theorem lines_setTable (t tb) (s : State) : (setTable t tb s).lines = s.lines := rfl
@[simp] theorem pending_setTable (t tb) (s : State) : (setTable t tb s).pending = s.pending := rfl
@[simp] theorem highway_setTable (t tb) (s : State) : (setTable t tb s).highway = s.highway := rfl
@[simp] theorem wires_setTable (t tb) (s : State) : (setTable t tb s).wires = s.wires := rfl
@[simp] theorem engine_setTable (t tb) (s : State) : (setTable t tb s).engine = s.engine := rfl
@[simp] theorem receiver_setTable (t tb) (s : State) : (setTable t tb s).receiver = s.receiver := rfl
@[simp] theorem report_setTable (t tb) (s : State) : (setTable t tb s).report = s.report := rfl

@[simp] theorem store_get_set_self (ts : TableStore) (t : TableId) (tb : Table) : (ts.set t tb).get t = tb := by
  cases t <;> rfl

theorem store_get_set_of_ne {t u : TableId} (h : u ≠ t) (ts : TableStore) (tb : Table) :
    (ts.set t tb).get u = ts.get u := by
  cases t <;> cases u <;> first | rfl | exact absurd rfl h

@[simp] theorem table_setTable_self (t : TableId) (tb : Table) (s : State) : (setTable t tb s).table t = tb :=
  store_get_set_self ..

theorem table_setTable_of_ne {t u : TableId} (h : u ≠ t) (tb : Table) (s : State) :
    (setTable t tb s).table u = s.table u :=
  store_get_set_of_ne h ..

@[simp] theorem line_putReport (c d) (s : State) (l : LineNo) : (putReport c d s).line l = s.line l := rfl
@[simp] theorem report_putReport (c d) (s : State) : (putReport c d s).report = s.report := rfl
@[simp] theorem engine_putReport (c d) (s : State) : (putReport c d s).engine = s.engine := rfl
@[simp] theorem highway_putReport (c d) (s : State) : (putReport c d s).highway = s.highway := rfl
@[simp] theorem tables_putReport (c d) (s : State) : (putReport c d s).tables = s.tables := rfl

@[simp] theorem line_setSending (x) (s : State) (l : LineNo) : (setSending x s).line l = s.line l := rfl
@[simp] theorem engine_setSending (x) (s : State) : (setSending x s).engine = s.engine := rfl
@[simp] theorem highway_setSending (x) (s : State) : (setSending x s).highway = s.highway := rfl
@[simp] theorem tables_setSending (x) (s : State) : (setSending x s).tables = s.tables := rfl
@[simp] theorem alarm_setSending (x) (s : State) : (setSending x s).report.alarm = s.report.alarm := rfl
@[simp] theorem reply_setSending (x) (s : State) : (setSending x s).report.reply = s.report.reply := rfl
@[simp] theorem signal_setSending (x) (s : State) : (setSending x s).report.signal = s.report.signal := rfl
@[simp] theorem sending_setSending (x) (s : State) : (setSending x s).report.sending = x := rfl

@[simp] theorem pending_withPending (s : State) (q) : (s.withPending q).pending = q := rfl
@[simp] theorem line_withPending (s : State) (q) (l : LineNo) : (s.withPending q).line l = s.line l := rfl
@[simp] theorem highway_withPending (s : State) (q) : (s.withPending q).highway = s.highway := rfl
@[simp] theorem wires_withPending (s : State) (q) : (s.withPending q).wires = s.wires := rfl
@[simp] theorem engine_withPending (s : State) (q) : (s.withPending q).engine = s.engine := rfl
@[simp] theorem receiver_withPending (s : State) (q) : (s.withPending q).receiver = s.receiver := rfl
@[simp] theorem report_withPending (s : State) (q) : (s.withPending q).report = s.report := rfl
@[simp] theorem tables_withPending (s : State) (q) : (s.withPending q).tables = s.tables := rfl

/-! ### PART_RESET and replies -/

@[simp] theorem line_resetPart (s : State) (l : LineNo) : (resetPart s).line l = Line.partReset s (s.line l) := by
  have h : (resetPart s).lines = (mapLines (Line.partReset s) s).lines := by simp only [resetPart]
  have h' := line_mapLines (Line.partReset s) s l
  simp only [State.line, h] at h' ⊢
  exact h'
@[simp] theorem pending_resetPart (s : State) : (resetPart s).pending = s.pending := by simp only [resetPart, pending_mapLines]
@[simp] theorem highway_resetPart (s : State) : (resetPart s).highway = s.highway := by simp only [resetPart, highway_mapLines]
@[simp] theorem wires_resetPart (s : State) : (resetPart s).wires = s.wires := by simp only [resetPart, wires_mapLines]
@[simp] theorem receiver_resetPart (s : State) : (resetPart s).receiver = s.receiver := by simp only [resetPart, receiver_mapLines]
@[simp] theorem engine_resetPart (s : State) : (resetPart s).engine = s.engine.partReset := by simp only [resetPart]
@[simp] theorem report_resetPart (s : State) : (resetPart s).report = s.report.partReset := by simp only [resetPart]
@[simp] theorem tables_resetPart (s : State) : (resetPart s).tables = s.tables.partReset := by simp only [resetPart]

@[simp] theorem table_resetPart (s : State) (x : TableId) : (resetPart s).table x = (s.table x).partReset := by
  simp only [State.table, tables_resetPart]
  cases x <;> rfl

@[simp] theorem line_withReply (r) (s : State) (l : LineNo) : (s.withReply r).line l = s.line l := rfl
@[simp] theorem lines_withReply (r) (s : State) : (s.withReply r).lines = s.lines := rfl
@[simp] theorem pending_withReply (r) (s : State) : (s.withReply r).pending = s.pending := rfl
@[simp] theorem highway_withReply (r) (s : State) : (s.withReply r).highway = s.highway := rfl
@[simp] theorem wires_withReply (r) (s : State) : (s.withReply r).wires = s.wires := rfl
@[simp] theorem engine_withReply (r) (s : State) : (s.withReply r).engine = s.engine := rfl
@[simp] theorem receiver_withReply (r) (s : State) : (s.withReply r).receiver = s.receiver := rfl
@[simp] theorem tables_withReply (r) (s : State) : (s.withReply r).tables = s.tables := rfl
@[simp] theorem reply_withReply (r) (s : State) : (s.withReply r).report.reply = s.replyAfter r := rfl
@[simp] theorem alarm_withReply (r) (s : State) : (s.withReply r).report.alarm = s.report.alarm := rfl
@[simp] theorem alarmLost_withReply (r) (s : State) : (s.withReply r).report.alarmLost = s.report.alarmLost := rfl
@[simp] theorem signal_withReply (r) (s : State) : (s.withReply r).report.signal = s.report.signal := rfl
@[simp] theorem sending_withReply (r) (s : State) : (s.withReply r).report.sending = s.report.sending := rfl
@[simp] theorem servicePointer_withReply (r) (s : State) :
    (s.withReply r).report.servicePointer = s.report.servicePointer := rfl

end Sys2Proof.Machine
end

