-- ==== Sys2Proof/Laws/Frames.lean ====
section
/-! SUPPORT. The frame of every operation on one line: it changes that line alone (`OnlyLine`), and of that line the operations that
examine or report leave the `steady` part. -/

namespace Sys2Proof.Machine

theorem SameTables.refl (s : State) : SameTables s s := fun _ => ⟨rfl, rfl, rfl, rfl, .inl rfl⟩

theorem SameTables.trans {s t u : State} (h : SameTables s t) (g : SameTables t u) : SameTables s u := fun x =>
  ⟨(g x).1.trans (h x).1, (g x).2.1.trans (h x).2.1, (g x).2.2.1.trans (h x).2.2.1,
   (g x).2.2.2.1.trans (h x).2.2.2.1, by
    rcases (g x).2.2.2.2 with e | e
    · rw [e]; exact (h x).2.2.2.2
    · exact .inr e⟩

theorem SameTables.of_eq {s t : State} (h : t.tables = s.tables) : SameTables s t := fun x => by
  simp [State.table, h]

theorem SameTables.activeBank {s t : State} (h : SameTables s t) (x : TableId) : t.activeBank x = s.activeBank x :=
  (h x).2.2.1

theorem SameTables.entry {s t : State} (h : SameTables s t) (x : TableId) (bank : Bank) (i : Nat) :
    t.entry x bank i = s.entry x bank i := by
  cases bank <;> simp [State.entry, Table.bank, (h x).1, (h x).2.1]

/-! ### The REPLY queue -/

theorem Migrated.of_eq {s t : State} (hr : t.report.reply = s.report.reply)
    (ht : ∀ x, (t.table x).retiringTag = (s.table x).retiringTag) : Migrated s t :=
  ⟨[], by simp [hr], List.nodup_nil, by simp, fun x tag h h' => by rw [ht, h] at h'; cases h'⟩

theorem Migrated.refl (s : State) : Migrated s s := .of_eq rfl fun _ => rfl

/-- The same REPLY queue and the same tables. -/
theorem Migrated.of_tables {s t : State} (hr : t.report.reply = s.report.reply) (ht : t.tables = s.tables) : Migrated s t :=
  .of_eq hr fun x => by simp [State.table, ht]

theorem Migrated.trans {s t u : State} (h : Migrated s t) (g : Migrated t u) (hs : t.stamp = s.stamp)
    (ht : SameTables s t) (gt : SameTables t u) : Migrated s u := by
  obtain ⟨a, ha, na, ma, ca⟩ := h
  obtain ⟨b, hb, nb, mb, cb⟩ := g
  have hrec : ∀ p, t.record none p = s.record none p := fun p => by unfold State.record; rw [hs]
  have hnone : ∀ x, (t.table x).retiringTag = none → (u.table x).retiringTag = none := fun x hx => by
    rcases (gt x).2.2.2.2 with e | e
    · rw [e, hx]
    · exact e
  have hsome : ∀ x tag, (t.table x).retiringTag = some tag → (s.table x).retiringTag = some tag := fun x tag hx => by
    rcases (ht x).2.2.2.2 with e | e
    · rw [← e, hx]
    · rw [e] at hx; cases hx
  refine ⟨a ++ b, by rw [hb, ha, List.append_assoc], ?_, ?_, ?_⟩
  · rw [List.nodup_append]
    refine ⟨na, nb, ?_⟩
    rintro r hra r' hrb rfl
    obtain ⟨x, tag, h1, h2, h3⟩ := ma r hra
    obtain ⟨y, tag', g1, g2, g3⟩ := mb r hrb
    rw [hrec, h3] at g3
    simp only [State.record, Record.mk.injEq, Payload.commitDone.injEq, true_and] at g3
    obtain ⟨rfl, rfl⟩ := g3
    rw [h2] at g1
    cases g1
  · intro r hr
    rcases List.mem_append.mp hr with hr | hr
    · obtain ⟨x, tag, h1, h2, h3⟩ := ma r hr
      exact ⟨x, tag, h1, hnone x h2, h3⟩
    · obtain ⟨x, tag, h1, h2, h3⟩ := mb r hr
      exact ⟨x, tag, hsome x tag h1, h2, by rw [h3, hrec]⟩
  · intro x tag h1 h2
    cases h3 : (t.table x).retiringTag with
    | none =>
      rcases ca x tag h1 h3 with h | h
      · exact .inl (List.mem_append_left _ h)
      · exact .inr (h.trans (by rw [hb]; simp))
    | some tag' =>
      have := hsome x tag' h3
      rw [h1] at this
      cases this
      rcases cb x tag h3 h2 with h | h
      · exact .inl (List.mem_append_right _ (by rw [← hrec]; exact h))
      · exact .inr h

/-- The queue keeps what it held. -/
theorem Migrated.reply {s t : State} (h : Migrated s t) : s.report.reply <+: t.report.reply := by
  obtain ⟨a, ha, _⟩ := h
  exact ⟨a, ha.symm⟩

/-- Where no bank is RETIRING the queue is the same. -/
theorem Migrated.reply_eq {s t : State} (h : Migrated s t) (hn : ∀ x, (s.table x).retiringTag = none) :
    t.report.reply = s.report.reply := by
  obtain ⟨a, ha, _, ma, _⟩ := h
  cases a with
  | nil => simpa using ha
  | cons r rest =>
    obtain ⟨x, tag, h1, _⟩ := ma r List.mem_cons_self
    rw [hn] at h1
    cases h1

theorem OnlyLine.refl (l : LineNo) (s : State) : OnlyLine l s s :=
  ⟨fun _ _ => rfl, rfl, rfl, rfl, rfl, rfl, rfl, rfl, List.prefix_rfl, List.prefix_rfl, .refl s, .refl s⟩

theorem OnlyLine.trans {l : LineNo} {s t u : State} (h : OnlyLine l s t) (g : OnlyLine l t u) : OnlyLine l s u :=
  ⟨fun k hk => (g.lines k hk).trans (h.lines k hk), g.pending.trans h.pending, g.highway.trans h.highway,
   g.wires.trans h.wires, g.engine.trans h.engine, g.receiver.trans h.receiver, g.sending.trans h.sending,
   g.servicePointer.trans h.servicePointer, h.alarm.trans g.alarm, h.signal.trans g.signal, h.tables.trans g.tables,
   h.migrated.trans g.migrated (by simp [State.stamp, h.highway]) h.tables g.tables⟩

theorem OnlyLine.reply {l : LineNo} {s t : State} (h : OnlyLine l s t) : s.report.reply <+: t.report.reply := h.migrated.reply

theorem OnlyLine.stamp {l : LineNo} {s t : State} (h : OnlyLine l s t) : t.stamp = s.stamp := by
  simp [State.stamp, h.highway]

/-! ### Offers -/

theorem onlyLine_modLine (l : LineNo) (f : Line → Line) (s : State) : OnlyLine l s (modLine l f s) :=
  ⟨fun _ hk => line_modLine_of_ne hk f s, rfl, rfl, rfl, rfl, rfl, rfl, rfl, List.prefix_rfl, List.prefix_rfl,
   .of_eq rfl, .of_tables rfl rfl⟩

@[simp] theorem line_pushSignal (r : Record) (s : State) (k : LineNo) : (pushSignal r s).line k = s.line k := rfl

theorem onlyLine_pushSignal (l : LineNo) (r : Record) (s : State) : OnlyLine l s (pushSignal r s) :=
  ⟨fun _ _ => rfl, rfl, rfl, rfl, rfl, rfl, rfl, rfl, List.prefix_rfl, List.prefix_append _ _, .of_eq rfl,
   .of_tables rfl rfl⟩

@[simp] theorem line_offerAlarm (o p) (s : State) (k : LineNo) : (offerAlarm o p s).line k = s.line k := by
  unfold offerAlarm; split <;> rfl

theorem onlyLine_offerAlarm (l : LineNo) (o p) (s : State) : OnlyLine l s (offerAlarm o p s) := by
  unfold offerAlarm
  split
  · exact ⟨fun _ _ => rfl, rfl, rfl, rfl, rfl, rfl, rfl, rfl, List.prefix_append _ _, List.prefix_rfl, .of_eq rfl,
      .of_tables rfl rfl⟩
  · exact ⟨fun _ _ => rfl, rfl, rfl, rfl, rfl, rfl, rfl, rfl, List.prefix_rfl, List.prefix_rfl, .of_eq rfl,
      .of_tables rfl rfl⟩

@[simp] theorem line_offerReply (o p) (s : State) (k : LineNo) : (offerReply o p s).line k = s.line k := by
  unfold offerReply; split <;> rfl

@[simp] theorem lines_offerReply (o p) (s : State) : (offerReply o p s).lines = s.lines := by
  unfold offerReply; split <;> rfl

theorem onlyLine_offerState (l : LineNo) (new old cause) (s : State) : OnlyLine l s (offerState l new old cause s) := by
  unfold offerState
  split
  · exact onlyLine_pushSignal ..
  · exact onlyLine_modLine ..

/-- Offering a STATE record changes nothing of the line but its state-lost flag. -/
theorem line_offerState (l : LineNo) (new old cause) (s : State) :
    (offerState l new old cause s).line l =
      { s.line l with stateLost := (s.line l).stateLost || !s.signalKeeps l } := by
  unfold offerState
  split
  · rename_i h; simp [h]
  · rename_i h; simp [h]

theorem steady_offerState (l : LineNo) (new old cause) (s : State) :
    ((offerState l new old cause s).line l).steady = (s.line l).steady := by
  rw [line_offerState]; rfl

theorem onlyLine_keepItem (l : LineNo) (item) (s : State) : OnlyLine l s (keepItem l item s) :=
  (onlyLine_modLine l _ s).trans (onlyLine_pushSignal l _ _)

theorem onlyLine_offerItem (l : LineNo) (item) (s : State) : OnlyLine l s (offerItem l item s) := by
  unfold offerItem
  split
  · exact onlyLine_keepItem ..
  · exact onlyLine_modLine ..

/-- Offering an item either clears the overrun flag with the record kept, or leaves the item due. -/
theorem line_offerItem (l : LineNo) (item) (s : State) :
    (offerItem l item s).line l =
      if s.signalKeeps l then { s.line l with overrun := false }
      else { s.line l with due := (s.line l).due ++ [item] } := by
  unfold offerItem keepItem
  split <;> simp

theorem steady_offerItem (l : LineNo) (item) (s : State) :
    ((offerItem l item s).line l).steady = (s.line l).steady := by
  rw [line_offerItem]; split <;> rfl

theorem onlyLine_closeString (l : LineNo) (reason) (s : State) : OnlyLine l s (closeString l reason s) := by
  unfold closeString
  dsimp only
  split
  · exact .refl l s
  · exact (onlyLine_modLine l _ s).trans (onlyLine_offerItem l _ _)

theorem closeString_of_empty {l : LineNo} {s : State} (h : (s.line l).openString = []) (reason) :
    closeString l reason s = s := by
  simp [closeString, h]

theorem steady_closeString (l : LineNo) (reason) (s : State) :
    ((closeString l reason s).line l).steady = (s.line l).steady := by
  unfold closeString
  dsimp only
  split
  · rfl
  · rw [steady_offerItem, line_modLine_self]; rfl

/-- A close empties the open string; if one was open, both dialling timers are 0. -/
theorem openString_closeString (l : LineNo) (reason) (s : State) :
    ((closeString l reason s).line l).openString = [] := by
  unfold closeString
  dsimp only
  split
  · rename_i h; simpa using h
  · rw [line_offerItem]; split <;> simp

/-- A close changes of the line only the open string, the due items, the overrun flag and the two timers. -/
theorem line_closeString (l : LineNo) (reason) (s : State) :
    (closeString l reason s).line l =
      { s.line l with
        openString := [], due := ((closeString l reason s).line l).due,
        overrun := ((closeString l reason s).line l).overrun,
        stringTimer := if (s.line l).openString = [] then (s.line l).stringTimer else 0,
        lockoutTimer := if (s.line l).openString = [] then (s.line l).lockoutTimer else 0 } := by
  unfold closeString
  dsimp only
  split
  · rename_i h
    have h' : (s.line l).openString = [] := by simpa using h
    simp only [h', if_true]
    rw [← h']
  · rename_i h
    have h' : ¬ (s.line l).openString = [] := by simpa using h
    simp only [h', if_false]
    rw [line_offerItem]; split <;> simp

/-! ### Release of banks -/

@[simp] theorem line_releaseBank (t) (s : State) (k : LineNo) : (releaseBank t s).line k = s.line k := by
  unfold releaseBank
  split
  · rfl
  · split <;> simp

@[simp] theorem lines_releaseBank (t) (s : State) : (releaseBank t s).lines = s.lines := by
  unfold releaseBank
  split
  · rfl
  · split <;> simp

theorem sameTables_setTable {t : TableId} {tb : Table} {s : State} (ha : tb.bankA = (s.table t).bankA)
    (hb : tb.bankB = (s.table t).bankB) (hc : tb.active = (s.table t).active) (hd : tb.load = (s.table t).load)
    (he : tb.retiringTag = none) : SameTables s (setTable t tb s) := fun x => by
  by_cases h : x = t
  · subst h; simp [ha, hb, hc, hd, he]
  · simp [table_setTable_of_ne h]

/-- A release touches the tag of its own table alone, and the REPLY queue (R168). -/
theorem releaseBank_eq (x : TableId) (s : State) :
    releaseBank x s = s ∨
      ∃ tag, (s.table x).retiringTag = some tag ∧ s.users x (s.activeBank x).other = 0 ∧
        releaseBank x s = offerReply none (.commitDone x tag) (setTable x { s.table x with retiringTag := none } s) := by
  unfold releaseBank
  split
  · exact .inl rfl
  · rename_i tag h
    split
    · rename_i hu; exact .inr ⟨tag, h, hu, rfl⟩
    · exact .inl rfl

theorem migrated_releaseBank (x) (s : State) : Migrated s (releaseBank x s) := by
  rcases releaseBank_eq x s with h | ⟨tag, ht, _, h⟩
  · rw [h]; exact .refl s
  · rw [h]
    have hn : ∀ y tag', (s.table y).retiringTag = some tag' →
        ((setTable x { s.table x with retiringTag := none } s).table y).retiringTag = none → y = x := fun y tag' h1 h2 => by
      by_contra hy
      rw [table_setTable_of_ne hy, h1] at h2
      cases h2
    unfold offerReply
    split
    · refine ⟨[_], rfl, List.nodup_singleton _, ?_, ?_⟩
      · intro r hr
        refine ⟨x, tag, ht, ?_, List.mem_singleton.mp hr⟩
        exact congrArg Table.retiringTag (table_setTable_self x _ s)
      · intro y tag' h1 h2
        have := hn y tag' h1 h2
        subst this
        rw [ht] at h1
        cases h1
        exact .inl (List.mem_singleton.mpr rfl)
    · rename_i hf
      exact ⟨[], by simp, List.nodup_nil, by simp, fun y tag' _ _ => .inr (not_lt.mp hf)⟩

theorem onlyLine_releaseBank (l : LineNo) (t) (s : State) : OnlyLine l s (releaseBank t s) := by
  have hm := migrated_releaseBank t s
  rcases releaseBank_eq t s with h | ⟨tag, _, _, h⟩
  · rw [h]; exact .refl l s
  · rw [h] at hm ⊢
    have ht := sameTables_setTable (t := t) (tb := { s.table t with retiringTag := none }) (s := s) rfl rfl rfl rfl rfl
    unfold offerReply at hm ⊢
    split
    · rename_i hc
      rw [if_pos hc] at hm
      exact ⟨fun _ _ => rfl, rfl, rfl, rfl, rfl, rfl, rfl, rfl, List.prefix_rfl, List.prefix_rfl, ht, hm⟩
    · rename_i hc
      rw [if_neg hc] at hm
      exact ⟨fun _ _ => rfl, rfl, rfl, rfl, rfl, rfl, rfl, rfl, List.prefix_rfl, List.prefix_rfl, ht, hm⟩

@[simp] theorem line_releaseBanks (s : State) (k : LineNo) : (releaseBanks s).line k = s.line k := by
  simp [releaseBanks, userTables]

@[simp] theorem lines_releaseBanks (s : State) : (releaseBanks s).lines = s.lines := by
  simp [releaseBanks, userTables]

theorem onlyLine_releaseBanks (l : LineNo) (s : State) : OnlyLine l s (releaseBanks s) := by
  simp only [releaseBanks, userTables, List.foldl]
  exact ((((onlyLine_releaseBank l _ _).trans (onlyLine_releaseBank l _ _)).trans (onlyLine_releaseBank l _ _)).trans
    (onlyLine_releaseBank l _ _)).trans (onlyLine_releaseBank l _ _)

/-! ### Profiles and examinations -/

theorem steady_switchTone (s old new) (c : Line) : (switchTone s old new c).steady = c.steady := by
  unfold switchTone
  split
  · rfl
  · split <;> rfl

theorem steady_switchPulse (old new) (c : Line) : (switchPulse old new c).steady = c.steady := by
  unfold switchPulse
  dsimp only
  split <;> split <;> rfl

theorem onlyLine_adoptProfile (l : LineNo) (i) (s : State) : OnlyLine l s (adoptProfile l i s) := by
  unfold adoptProfile
  dsimp only
  split
  · exact ((onlyLine_modLine l _ s).trans (onlyLine_modLine l _ _)).trans (onlyLine_closeString l _ _)
  · exact (onlyLine_modLine l _ s).trans (onlyLine_modLine l _ _)

theorem steady_adoptProfile (l : LineNo) (i) (s : State) :
    ((adoptProfile l i s).line l).steady = (s.line l).steady := by
  unfold adoptProfile
  dsimp only
  split
  · rw [steady_closeString, line_modLine_self, steady_switchPulse, steady_switchTone, line_modLine_self]; rfl
  · rw [line_modLine_self, steady_switchPulse, steady_switchTone, line_modLine_self]; rfl

theorem onlyLine_applyPending (l : LineNo) (s : State) : OnlyLine l s (applyPending l s) := by
  unfold applyPending
  split
  · exact .refl l s
  · exact (onlyLine_modLine l _ s).trans (onlyLine_adoptProfile l _ _)

theorem steady_applyPending (l : LineNo) (s : State) : ((applyPending l s).line l).steady = (s.line l).steady := by
  unfold applyPending
  split
  · rfl
  · rw [steady_adoptProfile, line_modLine_self]; rfl

theorem onlyLine_bindProfile (l : LineNo) (s : State) : OnlyLine l s (bindProfile l s) := by
  unfold bindProfile
  split
  · exact .refl l s
  · exact onlyLine_adoptProfile ..

theorem steady_bindProfile (l : LineNo) (s : State) : ((bindProfile l s).line l).steady = (s.line l).steady := by
  unfold bindProfile
  split
  · rfl
  · exact steady_adoptProfile ..

theorem onlyLine_bindTonePlan (l : LineNo) (s : State) : OnlyLine l s (bindTonePlan l s) := by
  unfold bindTonePlan
  split
  · exact .refl l s
  · exact onlyLine_modLine ..

theorem steady_bindTonePlan (l : LineNo) (s : State) : ((bindTonePlan l s).line l).steady = (s.line l).steady := by
  unfold bindTonePlan
  split
  · rfl
  · rw [line_modLine_self]; rfl

theorem onlyLine_bindCadence (l : LineNo) (s : State) : OnlyLine l s (bindCadence l s) := by
  unfold bindCadence
  split
  · exact .refl l s
  · exact onlyLine_modLine ..

theorem steady_bindCadence (l : LineNo) (s : State) : ((bindCadence l s).line l).steady = (s.line l).steady := by
  unfold bindCadence
  split
  · rfl
  · rw [line_modLine_self]; rfl

theorem onlyLine_examine (l : LineNo) (s : State) : OnlyLine l s (examine l s) := by
  unfold examine
  split
  · exact (((onlyLine_applyPending l s).trans (onlyLine_bindProfile l _)).trans (onlyLine_bindTonePlan l _)).trans
      (onlyLine_bindCadence l _)
  · exact onlyLine_bindCadence ..

/-- An examination leaves the steady part of the line. -/
theorem steady_examine (l : LineNo) (s : State) : ((examine l s).line l).steady = (s.line l).steady := by
  unfold examine
  split
  · rw [steady_bindCadence, steady_bindTonePlan, steady_bindProfile, steady_applyPending]
  · exact steady_bindCadence ..

/-! ### Entering a state -/

theorem onlyLine_refreshFeed (l : LineNo) (s : State) : OnlyLine l s (refreshFeed l s) := onlyLine_modLine ..

theorem onlyLine_changeState (l : LineNo) (new f) (s : State) : OnlyLine l s (changeState l new f s) :=
  (onlyLine_modLine l _ s).trans (onlyLine_refreshFeed l _)

theorem onlyLine_enter (l : LineNo) (new cause f) (s : State) : OnlyLine l s (enter l new cause f s) :=
  ((onlyLine_changeState l new f s).trans (onlyLine_offerState l _ _ _ _)).trans (onlyLine_examine l _)

/-- The line as a change of state leaves it, outside TEST: its state, and the feed of that state. -/
theorem line_changeState (l : LineNo) (new f) (s : State) :
    (changeState l new f s).line l =
      { f (s.line l) with
        state := new
        commandedFeed :=
          (modLine l (fun c => { f c with state := new }) s).feedFor { f (s.line l) with state := new } } := by
  simp [changeState, refreshFeed]

/-- The steady part of a line that enters a state. -/
theorem steady_enter (l : LineNo) (new cause f) (s : State) :
    ((enter l new cause f s).line l).steady =
      ({ f (s.line l) with
        state := new
        commandedFeed :=
          (modLine l (fun c => { f c with state := new }) s).feedFor { f (s.line l) with state := new } } : Line).steady := by
  unfold enter
  rw [steady_examine, steady_offerState, line_changeState]

/-! ### The events that are a change of state -/

theorem onlyLine_move (l : LineNo) (new cause f) (s : State) : OnlyLine l s (move l new cause f s) :=
  (onlyLine_enter l new cause f s).trans (onlyLine_releaseBanks l _)

@[simp] theorem line_move (l : LineNo) (new cause f) (s : State) (k : LineNo) :
    (move l new cause f s).line k = (enter l new cause f s).line k := line_releaseBanks ..

theorem onlyLine_enterSeized (l : LineNo) (s : State) : OnlyLine l s (enterSeized l s) := onlyLine_move ..
theorem onlyLine_enterLockout (l : LineNo) (s : State) : OnlyLine l s (enterLockout l s) := onlyLine_move ..
theorem onlyLine_enterReleased (l : LineNo) (s : State) : OnlyLine l s (enterReleased l s) :=
  (onlyLine_closeString l _ s).trans (onlyLine_move ..)
theorem onlyLine_enterFault (l : LineNo) (s : State) : OnlyLine l s (enterFault l s) :=
  (onlyLine_closeString l _ s).trans (onlyLine_move ..)
theorem onlyLine_leaveFault (l : LineNo) (s : State) : OnlyLine l s (leaveFault l s) := onlyLine_move ..
theorem onlyLine_endRinging (l : LineNo) (cause) (s : State) : OnlyLine l s (endRinging l cause s) := onlyLine_enter ..
theorem onlyLine_enterAnswered (l : LineNo) (s : State) : OnlyLine l s (enterAnswered l s) := onlyLine_move ..

/-! ### The collector -/

theorem onlyLine_placeEntry (l : LineNo) (e) (s : State) : OnlyLine l s (placeEntry l e s) := by
  unfold placeEntry
  dsimp only
  split
  · exact onlyLine_modLine ..
  · split
    · split
      · exact (onlyLine_modLine l _ s).trans (onlyLine_closeString l _ _)
      · exact onlyLine_modLine ..
    · exact onlyLine_offerItem ..

theorem steady_placeEntry (l : LineNo) (e) (s : State) : ((placeEntry l e s).line l).steady = (s.line l).steady := by
  unfold placeEntry
  dsimp only
  split
  · rw [line_modLine_self]; rfl
  · split
    · split
      · rw [steady_closeString, line_modLine_self]; rfl
      · rw [line_modLine_self]; rfl
    · exact steady_offerItem ..

theorem onlyLine_takeEntry (l : LineNo) (e) (s : State) : OnlyLine l s (takeEntry l e s) := by
  unfold takeEntry
  dsimp only
  split
  · exact ((onlyLine_modLine l _ s).trans (onlyLine_placeEntry l _ _)).trans (onlyLine_move ..)
  · exact (onlyLine_modLine l _ s).trans (onlyLine_placeEntry l _ _)

theorem onlyLine_lockoutIfDue (l : LineNo) (s : State) : OnlyLine l s (lockoutIfDue l s) := by
  unfold lockoutIfDue
  split
  · exact onlyLine_enterLockout ..
  · exact .refl l s

theorem onlyLine_advanceLockout (l : LineNo) (s : State) : OnlyLine l s (advanceLockout l s) := by
  unfold advanceLockout
  dsimp only
  split
  · exact (onlyLine_modLine l _ s).trans (onlyLine_lockoutIfDue l _)
  · exact .refl l s

theorem onlyLine_compareString (l : LineNo) (limit) (s : State) : OnlyLine l s (compareString l limit s) := by
  unfold compareString
  split
  · exact onlyLine_closeString ..
  · split
    · exact onlyLine_closeString ..
    · exact .refl l s

theorem onlyLine_stringTimeoutIfDue (l : LineNo) (s : State) : OnlyLine l s (stringTimeoutIfDue l s) :=
  onlyLine_compareString ..

theorem onlyLine_advanceString (l : LineNo) (s : State) : OnlyLine l s (advanceString l s) := by
  unfold advanceString
  dsimp only
  split
  · exact .refl l s
  · split
    · exact onlyLine_compareString ..
    · exact (onlyLine_modLine l _ s).trans (onlyLine_compareString l _ _)

/-! ### Detector, engines and sequencer -/

theorem onlyLine_endPulseDigit (l : LineNo) (s : State) : OnlyLine l s (endPulseDigit l s) := by
  unfold endPulseDigit
  split
  · exact (onlyLine_takeEntry l _ s).trans (onlyLine_modLine l _ _)
  · exact .refl l s

theorem onlyLine_digitEndIfDue (l : LineNo) (s : State) : OnlyLine l s (digitEndIfDue l s) := by
  unfold digitEndIfDue
  split
  · exact onlyLine_endPulseDigit ..
  · exact .refl l s

theorem onlyLine_recoverPulse (l : LineNo) (s : State) : OnlyLine l s (recoverPulse l s) := by
  unfold recoverPulse
  dsimp only
  split
  · exact (onlyLine_takeEntry l _ s).trans (onlyLine_modLine l _ _)
  · exact .refl l s

theorem onlyLine_acceptIfDue (l : LineNo) (s : State) : OnlyLine l s (acceptIfDue l s) := by
  unfold acceptIfDue
  dsimp only
  split
  · split
    · exact onlyLine_modLine ..
    · exact .refl l s
  · exact .refl l s

theorem onlyLine_releaseIfDue (l : LineNo) (s : State) : OnlyLine l s (releaseIfDue l s) := by
  unfold releaseIfDue
  split
  · exact onlyLine_enterReleased ..
  · exact .refl l s

theorem onlyLine_classifyBreak (l : LineNo) (b d) (s : State) : OnlyLine l s (classifyBreak l b d s) := by
  unfold classifyBreak
  dsimp only
  split
  · exact .refl l s
  split
  · split
    · exact onlyLine_takeEntry ..
    · exact .refl l s
  split
  · split
    · exact .refl l s
    split
    · exact (onlyLine_endPulseDigit l s).trans (onlyLine_takeEntry l _ _)
    split
    · exact .refl l s
    split
    · exact onlyLine_modLine ..
    · exact (onlyLine_modLine l _ s).trans (onlyLine_takeEntry l _ _)
  · exact .refl l s

theorem onlyLine_makeConfirmIfDue (l : LineNo) (s : State) : OnlyLine l s (makeConfirmIfDue l s) := by
  unfold makeConfirmIfDue
  split
  · split
    · exact (onlyLine_classifyBreak l _ _ s).trans (onlyLine_modLine l _ _)
    · exact .refl l s
  · exact .refl l s

theorem onlyLine_seizureIfDue (l : LineNo) (s : State) : OnlyLine l s (seizureIfDue l s) := by
  unfold seizureIfDue
  split
  · exact onlyLine_enterSeized ..
  · exact .refl l s

theorem onlyLine_useDetector (l : LineNo) (i m) (s : State) : OnlyLine l s (useDetector l i m s) := by
  unfold useDetector
  dsimp only
  split
  · exact (((((onlyLine_modLine l _ s).trans (onlyLine_acceptIfDue l _)).trans (onlyLine_releaseIfDue l _)).trans
      (onlyLine_makeConfirmIfDue l _)).trans (onlyLine_seizureIfDue l _))
  · exact ((((onlyLine_modLine l _ s).trans (onlyLine_releaseIfDue l _)).trans
      (onlyLine_makeConfirmIfDue l _)).trans (onlyLine_seizureIfDue l _))

theorem onlyLine_endToneDigit (l : LineNo) (p) (s : State) : OnlyLine l s (endToneDigit l p s) :=
  (onlyLine_takeEntry l _ s).trans (onlyLine_modLine l _ _)

theorem onlyLine_beginRun (l : LineNo) (p k st) (s : State) : OnlyLine l s (beginRun l p k st s) := onlyLine_modLine ..

theorem onlyLine_automaton (l : LineNo) (p r st) (s : State) : OnlyLine l s (automaton l p r st s) := by
  unfold automaton
  dsimp only
  repeat' split
  all_goals with_reducible first
    | exact OnlyLine.refl l s
    | exact onlyLine_modLine ..
    | exact onlyLine_beginRun ..
    | exact onlyLine_endToneDigit ..
    | exact (onlyLine_endToneDigit l _ s).trans (onlyLine_beginRun l _ _ _ _)

theorem onlyLine_toneBlockIfDue (l : LineNo) (s : State) : OnlyLine l s (toneBlockIfDue l s) := by
  unfold toneBlockIfDue
  split
  · exact (onlyLine_modLine l _ s).trans (onlyLine_automaton l _ _ _ _)
  · exact .refl l s

theorem onlyLine_toneSample (l : LineNo) (w) (s : State) : OnlyLine l s (toneSample l w s) := by
  unfold toneSample
  split
  · exact (onlyLine_modLine l _ s).trans (onlyLine_toneBlockIfDue l _)
  · exact .refl l s

theorem onlyLine_recoverTone (l : LineNo) (s : State) : OnlyLine l s (recoverTone l s) := by
  unfold recoverTone
  dsimp only
  split
  · split
    · exact (onlyLine_modLine l _ s).trans (onlyLine_modLine l _ _)
    · exact ((onlyLine_modLine l _ s).trans (onlyLine_takeEntry l _ _)).trans (onlyLine_modLine l _ _)
  · exact .refl l s

theorem onlyLine_beginRingStep (l : LineNo) (n) (s : State) : OnlyLine l s (beginRingStep l n s) :=
  (onlyLine_modLine l _ s).trans (onlyLine_refreshFeed l _)

theorem onlyLine_startRinging (l : LineNo) (a b) (s : State) : OnlyLine l s (startRinging l a b s) := onlyLine_enter ..

theorem onlyLine_ringStepExpireIfDue (l : LineNo) (s : State) : OnlyLine l s (ringStepExpireIfDue l s) := by
  unfold ringStepExpireIfDue
  dsimp only
  repeat' split
  all_goals with_reducible first
    | exact OnlyLine.refl l s
    | exact onlyLine_beginRingStep ..
    | exact (onlyLine_endRinging l _ s).trans (onlyLine_releaseBanks l _)
    | exact (onlyLine_modLine l _ s).trans (onlyLine_beginRingStep l _ _)

theorem onlyLine_advanceRingTimer (l : LineNo) (s : State) : OnlyLine l s (advanceRingTimer l s) :=
  (onlyLine_modLine l _ s).trans (onlyLine_ringStepExpireIfDue l _)

theorem onlyLine_ringTripIfDue (l : LineNo) (s : State) : OnlyLine l s (ringTripIfDue l s) := by
  unfold ringTripIfDue
  split
  · exact onlyLine_enterAnswered ..
  · exact .refl l s

theorem onlyLine_ringOffTripIfDue (l : LineNo) (s : State) : OnlyLine l s (ringOffTripIfDue l s) := by
  unfold ringOffTripIfDue
  split
  · exact onlyLine_enterAnswered ..
  · exact .refl l s

theorem onlyLine_ringOnRecord (l : LineNo) (i h) (s : State) : OnlyLine l s (ringOnRecord l i h s) := by
  unfold ringOnRecord
  dsimp only
  repeat' split
  · exact onlyLine_modLine ..
  · exact (onlyLine_modLine l _ s).trans (onlyLine_modLine l _ _)
  · exact onlyLine_modLine ..
  · exact ((onlyLine_modLine l _ s).trans (onlyLine_modLine l _ _)).trans (onlyLine_ringTripIfDue l _)

theorem onlyLine_ringOffRecord (l : LineNo) (i m) (s : State) : OnlyLine l s (ringOffRecord l i m s) := by
  unfold ringOffRecord
  split
  · exact (onlyLine_useDetector l _ _ s).trans (onlyLine_ringOffTripIfDue l _)
  · exact .refl l s

theorem onlyLine_ringRecord (l : LineNo) (i h m) (s : State) : OnlyLine l s (ringRecord l i h m s) := by
  have base : OnlyLine l s
      (if ringOnStep (s.line l).ring.step then ringOnRecord l i h s else ringOffRecord l i m s) := by
    split
    · exact onlyLine_ringOnRecord ..
    · exact onlyLine_ringOffRecord ..
  unfold ringRecord
  dsimp only
  generalize (if ringOnStep (s.line l).ring.step then ringOnRecord l i h s else ringOffRecord l i m s) = t at base ⊢
  split
  · exact base.trans (onlyLine_advanceRingTimer l _)
  · exact base

theorem onlyLine_ringMaskEndIfDue (l : LineNo) (s : State) : OnlyLine l s (ringMaskEndIfDue l s) := by
  unfold ringMaskEndIfDue
  dsimp only
  split
  · exact onlyLine_modLine ..
  · exact .refl l s

/-! ### The fault monitor -/

theorem onlyLine_bindFaultPlan (l : LineNo) (s : State) : OnlyLine l s (bindFaultPlan l s) :=
  (onlyLine_modLine l _ s).trans (onlyLine_releaseBank l _ _)

theorem onlyLine_startWindowIfDue (l : LineNo) (s : State) : OnlyLine l s (startWindowIfDue l s) := by
  unfold startWindowIfDue
  split
  · exact (onlyLine_bindFaultPlan l s).trans (onlyLine_modLine l _ _)
  · exact .refl l s

theorem onlyLine_reportHazard (l : LineNo) (a b) (s : State) : OnlyLine l s (reportHazard l a b s) := by
  unfold reportHazard
  repeat' split
  · exact onlyLine_enterFault ..
  · exact onlyLine_leaveFault ..
  · exact .refl l s

theorem onlyLine_confirmFault (l : LineNo) (e) (s : State) : OnlyLine l s (confirmFault l e s) := by
  unfold confirmFault
  dsimp only
  split
  · exact ((onlyLine_modLine l _ s).trans (onlyLine_offerAlarm l _ _ _)).trans (onlyLine_reportHazard l _ _ _)
  · exact (onlyLine_modLine l _ s).trans (onlyLine_reportHazard l _ _ _)

theorem onlyLine_faultConfirmIfDue (l : LineNo) (s : State) : OnlyLine l s (faultConfirmIfDue l s) := by
  unfold faultConfirmIfDue
  split
  · exact onlyLine_confirmFault ..
  · exact .refl l s

theorem onlyLine_faultClearIfDue (l : LineNo) (s : State) : OnlyLine l s (faultClearIfDue l s) := by
  unfold faultClearIfDue
  dsimp only
  repeat' split
  · exact ((onlyLine_offerAlarm l _ _ s).trans (onlyLine_modLine l _ _)).trans (onlyLine_reportHazard l _ _ _)
  · exact (onlyLine_modLine l _ s).trans (onlyLine_reportHazard l _ _ _)
  · exact .refl l s

theorem onlyLine_windowCloseIfDue (l : LineNo) (s : State) : OnlyLine l s (windowCloseIfDue l s) := by
  unfold windowCloseIfDue
  dsimp only
  repeat' split
  · exact ((onlyLine_modLine l _ s).trans (onlyLine_modLine l _ _)).trans (onlyLine_confirmFault l _ _)
  · exact ((onlyLine_modLine l _ s).trans (onlyLine_modLine l _ _)).trans (onlyLine_faultClearIfDue l _)
  · exact onlyLine_modLine ..
  · exact .refl l s

theorem onlyLine_monitorRecord (l : LineNo) (h) (s : State) : OnlyLine l s (monitorRecord l h s) :=
  ((onlyLine_startWindowIfDue l s).trans (onlyLine_modLine l _ _)).trans (onlyLine_windowCloseIfDue l _)

end Sys2Proof.Machine
end

