-- ==== Sys2Proof/Laws/Exact.lean ====
section
/-! SUPPORT. What the shared operations do, exactly: a change of state of a settled line, the closing of a string, the placing and
taking of an entry, the release of banks, the offers. The predicates are those of Safety.lean. -/

namespace Sys2Proof.Machine

theorem SameAlarm.refl (s : State) : SameAlarm s s := ⟨rfl, rfl⟩

theorem SameAlarm.trans {s t u : State} (h : SameAlarm s t) (g : SameAlarm t u) : SameAlarm s u :=
  ⟨g.1.trans h.1, g.2.trans h.2⟩

theorem sameAlarm_modLine (l f) (s : State) : SameAlarm s (modLine l f s) := ⟨rfl, rfl⟩

theorem sameAlarm_offerState (l new old cause) (s : State) : SameAlarm s (offerState l new old cause s) := by
  unfold offerState
  split <;> exact ⟨rfl, rfl⟩

theorem sameAlarm_offerReply (o p) (s : State) : SameAlarm s (offerReply o p s) := by
  unfold offerReply
  split <;> exact ⟨rfl, rfl⟩

theorem sameAlarm_offerItem (l item) (s : State) : SameAlarm s (offerItem l item s) := by
  unfold offerItem keepItem
  split <;> exact ⟨rfl, rfl⟩

theorem sameAlarm_closeString (l r) (s : State) : SameAlarm s (closeString l r s) := by
  unfold closeString
  dsimp only
  split
  · exact .refl s
  · exact (sameAlarm_modLine l _ s).trans (sameAlarm_offerItem l _ _)

theorem sameAlarm_adoptProfile (l i) (s : State) : SameAlarm s (adoptProfile l i s) := by
  unfold adoptProfile
  dsimp only
  split
  · exact ((sameAlarm_modLine l _ s).trans (sameAlarm_modLine l _ _)).trans (sameAlarm_closeString l _ _)
  · exact (sameAlarm_modLine l _ s).trans (sameAlarm_modLine l _ _)

theorem sameAlarm_examine (l) (s : State) : SameAlarm s (examine l s) := by
  unfold examine
  have h1 : ∀ s, SameAlarm s (applyPending l s) := by
    intro s; unfold applyPending; split
    · exact .refl s
    · exact (sameAlarm_modLine l _ s).trans (sameAlarm_adoptProfile l _ _)
  have h2 : ∀ s, SameAlarm s (bindProfile l s) := by
    intro s; unfold bindProfile; split
    · exact .refl s
    · exact sameAlarm_adoptProfile ..
  have h3 : ∀ s, SameAlarm s (bindTonePlan l s) := by
    intro s; unfold bindTonePlan; split
    · exact .refl s
    · exact sameAlarm_modLine ..
  have h4 : ∀ s, SameAlarm s (bindCadence l s) := by
    intro s; unfold bindCadence; split
    · exact .refl s
    · exact sameAlarm_modLine ..
  split
  · exact (((h1 s).trans (h2 _)).trans (h3 _)).trans (h4 _)
  · exact h4 _

theorem sameAlarm_enter (l new cause f) (s : State) : SameAlarm s (enter l new cause f s) :=
  (((sameAlarm_modLine l _ s).trans (sameAlarm_modLine l _ _)).trans (sameAlarm_offerState l _ _ _ _)).trans
    (sameAlarm_examine l _)

/-! ### What leaves the table store and the REPLY queue alone -/

/-- The tables and the REPLY queue are the same. -/
def SameStore (s t : State) : Prop := t.tables = s.tables ∧ t.report.reply = s.report.reply

theorem SameStore.refl (s : State) : SameStore s s := ⟨rfl, rfl⟩

theorem SameStore.trans {s t u : State} (h : SameStore s t) (g : SameStore t u) : SameStore s u :=
  ⟨g.1.trans h.1, g.2.trans h.2⟩

theorem sameStore_modLine (l f) (s : State) : SameStore s (modLine l f s) := ⟨rfl, rfl⟩

theorem sameStore_offerState (l new old cause) (s : State) : SameStore s (offerState l new old cause s) := by
  unfold offerState
  split <;> exact ⟨rfl, rfl⟩

theorem sameStore_offerItem (l item) (s : State) : SameStore s (offerItem l item s) := by
  unfold offerItem keepItem
  split <;> exact ⟨rfl, rfl⟩

theorem sameStore_closeString (l r) (s : State) : SameStore s (closeString l r s) := by
  unfold closeString
  dsimp only
  split
  · exact .refl s
  · exact (sameStore_modLine l _ s).trans (sameStore_offerItem l _ _)

theorem sameStore_adoptProfile (l i) (s : State) : SameStore s (adoptProfile l i s) := by
  unfold adoptProfile
  dsimp only
  split
  · exact ((sameStore_modLine l _ s).trans (sameStore_modLine l _ _)).trans (sameStore_closeString l _ _)
  · exact (sameStore_modLine l _ s).trans (sameStore_modLine l _ _)

theorem sameStore_examine (l) (s : State) : SameStore s (examine l s) := by
  unfold examine
  have h1 : ∀ s, SameStore s (applyPending l s) := by
    intro s; unfold applyPending; split
    · exact .refl s
    · exact (sameStore_modLine l _ s).trans (sameStore_adoptProfile l _ _)
  have h2 : ∀ s, SameStore s (bindProfile l s) := by
    intro s; unfold bindProfile; split
    · exact .refl s
    · exact sameStore_adoptProfile ..
  have h3 : ∀ s, SameStore s (bindTonePlan l s) := by
    intro s; unfold bindTonePlan; split
    · exact .refl s
    · exact sameStore_modLine ..
  have h4 : ∀ s, SameStore s (bindCadence l s) := by
    intro s; unfold bindCadence; split
    · exact .refl s
    · exact sameStore_modLine ..
  split
  · exact (((h1 s).trans (h2 _)).trans (h3 _)).trans (h4 _)
  · exact h4 _

theorem sameStore_enter (l new cause f) (s : State) : SameStore s (enter l new cause f s) :=
  (((sameStore_modLine l _ s).trans (sameStore_modLine l _ _)).trans (sameStore_offerState l _ _ _ _)).trans
    (sameStore_examine l _)

/-! ### Settled lines -/

theorem setLine_line (l : LineNo) (s : State) : setLine l (s.line l) s = s := by
  have h : s.lines.set l.val (s.lines.get l) l.isLt = s.lines := by
    apply Vector.ext
    intro i hi
    by_cases h : l.val = i
    · subst h; simp [Vector.get_eq_getElem]
    · simp [h]
  cases s
  simp_all [setLine, State.line]

theorem modLine_of_eq {l : LineNo} {f : Line → Line} {s : State} (h : f (s.line l) = s.line l) : modLine l f s = s := by
  rw [modLine, h, setLine_line]

/-- An examination of a settled line changes nothing (R19). -/
theorem examine_of_settled {s : State} {l : LineNo} (h : s.Settled l) : examine l s = s := by
  have hp : applyPending l s = s := by unfold applyPending; rw [h.pending]
  have hb : bindProfile l s = s := by unfold bindProfile; rw [if_pos h.profile]
  have ht : bindTonePlan l s = s := by unfold bindTonePlan; rw [if_pos h.tonePlan]
  have hc : bindCadence l s = s := by
    unfold bindCadence
    split
    · rfl
    · refine modLine_of_eq ?_
      rw [← h.cadence]
  unfold examine
  rw [hp, hb, ht, ite_self, hc]

/-- The STATE record's offer, seen from the queue. -/
theorem signal_offerState (l : LineNo) (new old cause) (s : State) :
    (offerState l new old cause s).report.signal = s.signalAfter l (s.record (some l) (.state new old cause)) := by
  unfold offerState State.signalAfter
  split <;> rfl

theorem settled_of_line {s t : State} {l : LineNo} (ht : t.tables = s.tables)
    (h1 : (t.line l).pendingProfile = (s.line l).pendingProfile)
    (h2 : (t.line l).profileBank = (s.line l).profileBank) (h3 : (t.line l).toneBank = (s.line l).toneBank)
    (h4 : (t.line l).cadenceBank = (s.line l).cadenceBank) (h : s.Settled l) : t.Settled l := by
  have ha : ∀ x, t.activeBank x = s.activeBank x := fun x => by simp [State.activeBank, State.table, ht]
  exact ⟨by rw [h1]; exact h.pending, by rw [h2, ha]; exact h.profile, by rw [h3, ha]; exact h.tonePlan,
    by rw [h4, ha]; exact h.cadence⟩

/-- A change of state keeps a line settled if the changes of its blocks leave the pending profile and the selectors. -/
theorem settled_changeState {l : LineNo} {new : LineState} {f : Line → Line} {s : State}
    (h1 : (f (s.line l)).pendingProfile = (s.line l).pendingProfile)
    (h2 : (f (s.line l)).profileBank = (s.line l).profileBank) (h3 : (f (s.line l)).toneBank = (s.line l).toneBank)
    (h4 : (f (s.line l)).cadenceBank = (s.line l).cadenceBank) (h : s.Settled l) :
    (changeState l new f s).Settled l := by
  refine settled_of_line (s := s) rfl ?_ ?_ ?_ ?_ h
  all_goals rw [line_changeState]; assumption

theorem signalKeeps_changeState (l : LineNo) (new f) (s : State)
    (hd : (f (s.line l)).due = (s.line l).due) (hl : (f (s.line l)).stateLost = (s.line l).stateLost) :
    (changeState l new f s).signalKeeps l = s.signalKeeps l := by
  have : ((changeState l new f s).line l).backlog = (s.line l).backlog := by
    rw [line_changeState]
    simp [Line.backlog, hd, hl]
  simp only [State.signalKeeps, this]
  rfl

theorem signalAfter_changeState (l : LineNo) (new f r) (s : State)
    (hd : (f (s.line l)).due = (s.line l).due) (hl : (f (s.line l)).stateLost = (s.line l).stateLost) :
    (changeState l new f s).signalAfter l r = s.signalAfter l r := by
  unfold State.signalAfter
  rw [signalKeeps_changeState l new f s hd hl]
  rfl

/-- The users of a bank depend on the lines and on the bank that the test engine holds (R160). -/
theorem users_congr {s t : State} (hl : t.lines = s.lines) (he : t.engine = s.engine) (x bank) :
    t.users x bank = s.users x bank := by
  unfold State.users; rw [hl, he]

theorem UpToMigration.refl (s : State) : UpToMigration s s :=
  ⟨rfl, rfl, rfl, rfl, rfl, rfl, rfl, rfl, .refl s, rfl, .refl s, .refl s, fun x tag h h' => by rw [h] at h'; cases h'⟩

theorem UpToMigration.trans {s t u : State} (h : UpToMigration s t) (g : UpToMigration t u) : UpToMigration s u := by
  refine ⟨g.lines.trans h.lines, g.pending.trans h.pending, g.highway.trans h.highway, g.wires.trans h.wires,
    g.engine.trans h.engine, g.receiver.trans h.receiver, g.sending.trans h.sending,
    g.servicePointer.trans h.servicePointer, h.alarm.trans g.alarm, g.signal.trans h.signal, h.tables.trans g.tables,
    h.migrated.trans g.migrated (by simp [State.stamp, h.highway]) h.tables g.tables, fun x tag h1 h2 => ?_⟩
  cases h3 : (t.table x).retiringTag with
  | none => exact h.released x tag h1 h3
  | some tag' =>
    have := g.released x tag' h3 h2
    rwa [h.tables.activeBank, users_congr h.lines h.engine] at this

theorem UpToMigration.reply {s t : State} (h : UpToMigration s t) : s.report.reply <+: t.report.reply := h.migrated.reply

theorem signalKeeps_modLine {l : LineNo} {f : Line → Line} {s : State} (hd : (f (s.line l)).due = (s.line l).due)
    (hl : (f (s.line l)).stateLost = (s.line l).stateLost) : (modLine l f s).signalKeeps l = s.signalKeeps l := by
  simp only [State.signalKeeps, line_modLine_self, Line.backlog, hd, hl]
  rfl

theorem tables_closeString (l : LineNo) (reason) (s : State) : (closeString l reason s).tables = s.tables := by
  unfold closeString offerItem keepItem
  dsimp only
  split
  · rfl
  · split <;> rfl

theorem reply_offerItem (l : LineNo) (item) (s : State) : (offerItem l item s).report.reply = s.report.reply := by
  unfold offerItem keepItem
  split <;> rfl

/-- What closing the open string does. -/
theorem closesString_closeString (l : LineNo) (reason) (s : State) :
    ClosesString l reason s (closeString l reason s) := by
  refine ⟨onlyLine_closeString .., sameAlarm_closeString .., ?_, ?_, ?_, ?_⟩
  · unfold closeString
    dsimp only
    split
    · rfl
    · exact reply_offerItem ..
  · exact fun h => closeString_of_empty h reason
  · intro h hk
    have he : (s.line l).openString.isEmpty = false := by simpa using h
    have hk' : (modLine l (fun c => { c with openString := [], stringTimer := 0, lockoutTimer := 0 }) s).signalKeeps l =
        true := by rw [signalKeeps_modLine rfl rfl, hk]
    unfold closeString
    dsimp only
    rw [he]
    simp only [offerItem, hk', if_true, keepItem, Bool.false_eq_true, if_false]
    refine ⟨by simp, ?_⟩
    simp only [pushSignal, report_modLine, line_modLine_self, itemRecord]
    rfl
  · intro h hk
    have he : (s.line l).openString.isEmpty = false := by simpa using h
    have hk' : (modLine l (fun c => { c with openString := [], stringTimer := 0, lockoutTimer := 0 }) s).signalKeeps l =
        false := by rw [signalKeeps_modLine rfl rfl, hk]
    unfold closeString
    dsimp only
    rw [he]
    simp only [offerItem, hk', Bool.false_eq_true, if_false]
    exact ⟨by simp, rfl⟩

/-! ### Examinations -/

theorem restPoint_iff (c : Line) : c.atRest = true ↔ c.RestPoint := by
  unfold Line.atRest Line.RestPoint
  cases c.state <;> simp [and_assoc]

/-- A line's context as a profile of the ACTIVE bank is adopted, before a string closes (R20). -/
theorem adoptProfile_eq (l : LineNo) (index : Nat) (d : Line) (s : State) :
    adoptProfile l index (setLine l d s) =
      let old := s.profileFor d
      let d' := { d with profileIndex := index, profileBank := s.activeBank .profile }
      let new := s.profileFor d'
      let t := setLine l (switchPulse old new (switchTone s old new d')) s
      if old.reportMode = .string ∧ new.reportMode = .each then closeString l .timeout t else t := by
  unfold adoptProfile
  dsimp only [modLine]
  simp only [setLine_setLine, line_setLine_self, State.profile, Bool.and_eq_true, decide_eq_true_eq]
  rfl

theorem reprofiled_eq (l : LineNo) (s : State) :
    let c := s.line l
    let d := { c with pendingProfile := none, profileIndex := c.pendingProfile.getD c.profileIndex,
                      profileBank := s.activeBank .profile }
    switchPulse (s.profile l) (s.nextProfile l) (switchTone s (s.profile l) (s.nextProfile l) d) = s.reprofiled l := by
  unfold State.reprofiled switchPulse switchTone startTone Line.stopTone Line.discardPulse
  dsimp only
  generalize s.line l = c
  generalize s.profile l = old
  generalize s.nextProfile l = new
  simp only [Bool.and_eq_true, Bool.not_eq_true', Bool.or_eq_true, decide_eq_true_eq]
  split_ifs <;> rfl

/-- The profile of a line that is at its ACTIVE bank with no profile pending is adopted already. -/
theorem reprofiled_of_settled {l : LineNo} {s : State} (h1 : (s.line l).pendingProfile = none)
    (h2 : (s.line l).profileBank = s.activeBank .profile) :
    s.nextProfile l = s.profile l ∧ s.reprofiled l = s.line l := by
  have hn : s.nextProfile l = s.profile l := by
    simp only [State.nextProfile, h1, Option.getD_none, ← h2, State.profile, State.profileFor]
  refine ⟨hn, ?_⟩
  unfold State.reprofiled
  simp only [hn, h1, Option.getD_none, ← h2, if_true]
  rw [if_neg (by simp), if_neg (by simp), if_neg (by simp), ← h1]

/-- Applying the pending profile and binding the PROFILE selector, in one (R19 steps 1 and 2). -/
theorem bindProfile_applyPending (l : LineNo) (s : State) :
    bindProfile l (applyPending l s) =
      if (s.profile l).reportMode = .string ∧ (s.nextProfile l).reportMode = .each then
        closeString l .timeout (setLine l (s.reprofiled l) s)
      else setLine l (s.reprofiled l) s := by
  cases hp : (s.line l).pendingProfile with
  | none =>
    have ha : applyPending l s = s := by unfold applyPending; rw [hp]
    rw [ha]
    unfold bindProfile
    split
    · rename_i hb
      obtain ⟨h1, h2⟩ := reprofiled_of_settled hp hb
      rw [h1, h2, setLine_line, if_neg (by rintro ⟨h, h'⟩; rw [h] at h'; cases h')]
    · have h := adoptProfile_eq l (s.line l).profileIndex (s.line l) s
      have hr := reprofiled_eq l s
      rw [setLine_line] at h
      dsimp only at hr
      rw [hp] at hr
      simp only [State.profile, State.nextProfile, hp, Option.getD_none] at hr ⊢
      rw [h, ← hr, ← hp]
      rfl
  | some index =>
    have ha : applyPending l s = if (s.profile l).reportMode = .string ∧ (s.nextProfile l).reportMode = .each then
        closeString l .timeout (setLine l (s.reprofiled l) s) else setLine l (s.reprofiled l) s := by
      have hr := reprofiled_eq l s
      dsimp only at hr
      rw [hp] at hr
      unfold applyPending
      rw [hp]
      dsimp only
      rw [modLine, adoptProfile_eq]
      simp only [State.profile, State.nextProfile, hp, Option.getD_some] at hr ⊢
      rw [← hr]
      rfl
    rw [ha]
    have hb : (s.reprofiled l).profileBank = s.activeBank .profile := rfl
    unfold bindProfile
    rw [if_pos ?_]
    split
    · rw [line_closeString, line_setLine_self]
      have ht := (onlyLine_closeString l .timeout (setLine l (s.reprofiled l) s)).tables.activeBank .profile
      exact hb.trans ht.symm
    · rw [line_setLine_self]; exact hb

theorem reprofiled_state (l : LineNo) (s : State) : (s.reprofiled l).state = (s.line l).state := rfl

/-- What an examination does. -/
theorem examines_examine (l : LineNo) (s : State) : Examines l s (examine l s) := by
  have hc : ∀ m : State, bindCadence l m = setLine l { m.line l with
      cadenceBank := if (m.line l).state = .ringing then (m.line l).cadenceBank else m.activeBank .cadence } m := by
    intro m
    unfold bindCadence
    split
    · exact (setLine_line l m).symm
    · rfl
  constructor
  · intro h
    unfold examine
    rw [if_neg (by rwa [restPoint_iff]), hc]
  · intro h
    have hat : (s.line l).atRest = true := (restPoint_iff _).mpr h
    have hring : (s.line l).state ≠ .ringing := by
      intro hr; rw [Line.atRest, hr] at hat; simp at hat
    refine ⟨bindProfile l (applyPending l s), ?_, ?_⟩
    · rw [bindProfile_applyPending]
      split
      · exact closesString_closeString ..
      · rfl
    · unfold examine
      rw [if_pos hat, hc]
      have hb := bindProfile_applyPending l s
      generalize bindProfile l (applyPending l s) = m at hb ⊢
      have hm : (m.line l).state = (s.line l).state ∧ (m.line l).toneBank = (s.line l).toneBank ∧
          ∀ x, m.activeBank x = s.activeBank x := by
        rw [hb]
        split
        · rw [line_closeString, line_setLine_self]
          exact ⟨rfl, rfl, fun x => (onlyLine_closeString l _ _).tables.activeBank x⟩
        · rw [line_setLine_self]
          exact ⟨rfl, rfl, fun x => rfl⟩
      obtain ⟨h1, h2, h3⟩ := hm
      unfold bindTonePlan
      rw [h2, h3]
      split
      · rename_i ht
        rw [if_neg (by rw [h1]; exact hring), h3, if_neg (by simp [ht]), ← ht, ← h2]
      · rename_i ht
        rw [modLine, setLine_setLine, line_setLine_self]
        dsimp only
        rw [if_neg (by rw [h1]; exact hring)]
        have : ∀ c, (setLine l c m).activeBank .cadence = m.activeBank .cadence := fun _ => rfl
        simp only [ht, ne_eq, not_false_eq_true, true_and, h3, this]
        rfl

/-! ### Migrations -/

theorem upToMigration_releaseBank (x) (s : State) : UpToMigration s (releaseBank x s) := by
  have ho := onlyLine_releaseBank 0 x s
  have hm := migrated_releaseBank x s
  have hl := lines_releaseBank x s
  rcases releaseBank_eq x s with h | ⟨tag, ht, hu, h⟩
  · rw [h]; exact .refl s
  · refine ⟨hl, ho.pending, ho.highway, ho.wires, ho.engine, ho.receiver, ho.sending, ho.servicePointer, ?_, ?_, ho.tables, hm,
      fun y tag' h1 h2 => ?_⟩
    · rw [h]; exact sameAlarm_offerReply ..
    · rw [h]; unfold offerReply; split <;> rfl
    · by_cases hy : y = x
      · rw [hy]; exact hu
      · have : ((releaseBank x s).table y).retiringTag = (s.table y).retiringTag := by
          rw [h]; unfold offerReply; split <;> exact congrArg Table.retiringTag (table_setTable_of_ne hy _ s)
        rw [this, h1] at h2
        cases h2

theorem upToMigration_releaseBanks (s : State) : UpToMigration s (releaseBanks s) := by
  simp only [releaseBanks, userTables, List.foldl]
  exact ((((upToMigration_releaseBank _ _).trans (upToMigration_releaseBank _ _)).trans
    (upToMigration_releaseBank _ _)).trans (upToMigration_releaseBank _ _)).trans (upToMigration_releaseBank _ _)

/-- Completed migrations change only one line, vacuously. -/
theorem UpToMigration.onlyLine {s t : State} (h : UpToMigration s t) (l : LineNo) : OnlyLine l s t :=
  ⟨fun k _ => (lines_eq_iff _ _).mp h.lines k, h.pending, h.highway, h.wires, h.engine, h.receiver, h.sending,
   h.servicePointer, by rw [h.alarm.1], by rw [h.signal], h.tables, h.migrated⟩

/-- In SYNC the event COMMIT_DONE is the release of the table's bank (R168). -/
theorem exec_commitDone {s : State} (h : s.highway.sync = .sync) (x : TableId) :
    exec (.commitDone x) s = .next (releaseBank x s) := by
  simp only [exec, execCommitDone, inSync, h, if_true]

/-- In SYNC the release of banks is the COMMIT_DONE events of the five tables (R168). -/
theorem migrationsComplete_releaseBanks {s : State} (h : s.highway.sync = .sync) : MigrationsComplete s (releaseBanks s) := by
  have key : ∀ (x : TableId) (u : State), u.highway.sync = .sync →
      exec (.commitDone x) u = .next (releaseBank x u) ∧ (releaseBank x u).highway.sync = .sync := fun x u hu =>
    ⟨exec_commitDone hu x, by rw [(upToMigration_releaseBank x u).highway]; exact hu⟩
  obtain ⟨a1, a2⟩ := key .profile s h
  obtain ⟨b1, b2⟩ := key .tonePlan _ a2
  obtain ⟨c1, c2⟩ := key .cadence _ b2
  obtain ⟨d1, d2⟩ := key .faultPlan _ c2
  exact ⟨_, _, _, _, a1, b1, c1, d1, (key .testPlan _ d2).1⟩

/-- In SYNC the migrations complete as the release of banks, and in no other way. -/
theorem MigrationsComplete.eq {s t : State} (h : s.highway.sync = .sync) (m : MigrationsComplete s t) : t = releaseBanks s := by
  obtain ⟨a, b, c, d, h1, h2, h3, h4, h5⟩ := m
  obtain ⟨a', b', c', d', g1, g2, g3, g4, g5⟩ := migrationsComplete_releaseBanks h
  rw [h1] at g1; cases g1
  rw [h2] at g2; cases g2
  rw [h3] at g3; cases g3
  rw [h4] at g4; cases g4
  rw [h5] at g5; exact Host.Outcome.next.inj g5

/-! ### Entering a state -/

/-- What entering a state does, if the changes `f` of its blocks leave its due items, its state-lost flag and the fields
that make it settled, and `after` is `f`'s result with the new state and its feed. -/
theorem entersState_enter {l : LineNo} {new : LineState} {cause : Cause} {f : Line → Line} {s : State} {after : Line}
    (ha : after = { f (s.line l) with state := new, commandedFeed := after.commandedFeed })
    (hf : (modLine l (fun c => { f c with state := new }) s).feedFor { f (s.line l) with state := new } =
      after.commandedFeed)
    (hd : (f (s.line l)).due = (s.line l).due) (hl : (f (s.line l)).stateLost = (s.line l).stateLost)
    (hs : s.Settled l → (changeState l new f s).Settled l) :
    EntersState l after cause s (enter l new cause f s) := by
  have hline : (changeState l new f s).line l = after := by rw [line_changeState, hf, ← ha]
  have hstate : after.state = new := by rw [ha]
  have hsig : (offerState l new (s.line l).state cause (changeState l new f s)).report.signal =
      s.signalAfter l (s.record (some l) (.state after.state (s.line l).state cause)) := by
    rw [signal_offerState, signalAfter_changeState l new f _ s hd hl, hstate]
    rfl
  refine ⟨onlyLine_enter l new cause f s, sameAlarm_enter l new cause f s,
    (sameStore_enter l new cause f s).1, (sameStore_enter l new cause f s).2, ?_, ?_, fun h => ?_, ?_⟩
  · rw [steady_enter, hf, ← ha]
  · rw [← hsig]
    exact (onlyLine_examine l _).signal
  · have hset : (offerState l new (s.line l).state cause (changeState l new f s)).Settled l := by
      refine settled_of_line ?_ ?_ ?_ ?_ ?_ (hs h)
      · unfold offerState; split <;> rfl
      all_goals rw [line_offerState]
    have he : enter l new cause f s = offerState l new (s.line l).state cause (changeState l new f s) := by
      unfold enter; exact examine_of_settled hset
    rw [he]
    refine ⟨?_, hsig⟩
    rw [line_offerState, hline, signalKeeps_changeState l new f s hd hl]
  · refine ⟨offerState l new (s.line l).state cause (changeState l new f s), ?_, ?_, hsig, examines_examine l _⟩
    · have hs : changeState l new f s = setLine l after s := by
        rw [← hline]
        unfold changeState refreshFeed modLine
        simp only [setLine_setLine, line_setLine_self]
      rw [hs]
      unfold offerState
      split
      · have hu : ∀ r, (pushSignal r (setLine l after s)).line l = after := fun r => line_setLine_self ..
        rw [hu]
        rfl
      · rw [modLine, setLine_setLine]
        have hu : ∀ c, setLine l c s =
            { setLine l ((setLine l c s).line l) s with report := { s.report with signal := s.report.signal } } :=
          fun c => by rw [line_setLine_self]; rfl
        exact hu _
    · rw [line_offerState, hline, signalKeeps_changeState l new f s hd hl]

/-- An event's move, from what entering the state does. -/
theorem EntersState.moves {l : LineNo} {after : Line} {cause : Cause} {s n : State} (h : EntersState l after cause s n)
    (hs : s.highway.sync = .sync) : MovesLine l after cause s (releaseBanks n) :=
  ⟨n, h, migrationsComplete_releaseBanks (by rw [h.frame.highway]; exact hs)⟩

/-- What an event's move does to the line. -/
theorem MovesLine.steady {l : LineNo} {after : Line} {cause : Cause} {s t : State} (hs : s.highway.sync = .sync)
    (h : MovesLine l after cause s t) : (t.line l).steady = after.steady := by
  obtain ⟨n, h1, h2⟩ := h
  rw [h2.eq (by rw [h1.frame.highway]; exact hs), line_releaseBanks]
  exact h1.steady

/-! ### Strings and entries -/

/-- The offer of an item that is one of the line's own. -/
theorem offerItem_spec (l : LineNo) (item : DueItem) (s : State) :
    if s.signalKeeps l then
      (offerItem l item s).line l = { s.line l with overrun := false } ∧
        (offerItem l item s).report.signal = s.report.signal ++ [itemRecord l (s.line l).overrun item]
    else
      (offerItem l item s).line l = { s.line l with due := (s.line l).due ++ [item] } ∧
        (offerItem l item s).report.signal = s.report.signal := by
  split
  · rename_i h
    refine ⟨by rw [line_offerItem, if_pos h], ?_⟩
    simp only [offerItem, h, if_true, keepItem, pushSignal, report_modLine]
  · rename_i h
    refine ⟨by rw [line_offerItem, if_neg h], ?_⟩
    simp only [offerItem, h, if_false, report_modLine, Bool.false_eq_true]

/-- A line's state and profile after an entry is made are those before. -/
theorem profile_entryMade (l : LineNo) (s : State) : (modLine l Line.entryMade s).profile l = s.profile l := by
  simp only [State.profile, State.profileFor, line_modLine_self]
  rfl

theorem sameAlarm_placeEntry (l : LineNo) (e) (s : State) : SameAlarm s (placeEntry l e s) := by
  unfold placeEntry
  dsimp only
  split
  · exact sameAlarm_modLine ..
  · split
    · split
      · exact (sameAlarm_modLine l _ s).trans (sameAlarm_closeString l _ _)
      · exact sameAlarm_modLine ..
    · exact sameAlarm_offerItem ..

theorem fill_entryMade (c : Line) : c.entryMade.fill = c.fill := rfl

/-- What placing an entry does. -/
theorem placesEntry_placeEntry (l : LineNo) (e : DigitEntry) (s : State) :
    PlacesEntry l e s (placeEntry l e (modLine l Line.entryMade s)) := by
  have hp := profile_entryMade l s
  have hk : (modLine l Line.entryMade s).signalKeeps l = s.signalKeeps l := signalKeeps_modLine rfl rfl
  have hl : (modLine l Line.entryMade s).line l = (s.line l).entryMade := line_modLine_self ..
  refine ⟨(onlyLine_modLine l _ s).trans (onlyLine_placeEntry l e _),
    (sameAlarm_modLine l _ s).trans (sameAlarm_placeEntry l e _), ?_, ?_, ?_, ?_⟩
  · intro h
    have h' : bufferCapacity ≤ ((modLine l Line.entryMade s).line l).fill := by rw [hl]; exact h
    unfold placeEntry
    dsimp only
    rw [if_pos h']
    refine ⟨?_, rfl⟩
    rw [line_modLine_self, hl]
  · intro h hr hc
    have h' : ¬ bufferCapacity ≤ ((modLine l Line.entryMade s).line l).fill := by rw [hl]; exact not_le.mpr h
    unfold placeEntry
    dsimp only
    rw [if_neg h', hp, if_pos (by rw [hl]; exact hr), line_modLine_self, hl]
    simp only [List.length_append, List.length_singleton]
    rw [show (s.line l).entryMade.openString.length = (s.line l).openString.length from rfl, hc]
    dsimp only
    refine ⟨?_, rfl⟩
    rw [line_modLine_self, hl]
    rfl
  · intro reason h hr hc
    have h' : ¬ bufferCapacity ≤ ((modLine l Line.entryMade s).line l).fill := by rw [hl]; exact not_le.mpr h
    unfold placeEntry
    dsimp only
    rw [if_neg h', hp, if_pos (show stringRoute (s.profile l) ((modLine l Line.entryMade s).line l).state = true by rw [hl]; exact hr), line_modLine_self, hl]
    simp only [List.length_append, List.length_singleton]
    rw [show (s.line l).entryMade.openString.length = (s.line l).openString.length from rfl, hc]
    dsimp only
    generalize hm : modLine l (fun c => { c with openString := c.openString ++ [e] }) (modLine l Line.entryMade s) = m
    have hml : m.line l = { (s.line l).entryMade with openString := (s.line l).openString ++ [e] } := by
      rw [← hm, line_modLine_self, hl]; rfl
    have hmk : m.signalKeeps l = s.signalKeeps l := by
      rw [← hm, signalKeeps_modLine rfl rfl, hk]
    have hms : m.report.signal = s.report.signal := by rw [← hm]; rfl
    have hmt : m.stamp = s.stamp := by rw [← hm]; rfl
    have hne : (m.line l).openString ≠ [] := by rw [hml]; simp
    have hcl := closesString_closeString l reason m
    split
    · rename_i hks
      obtain ⟨a, b⟩ := hcl.kept hne (by rw [hmk, hks])
      refine ⟨by rw [a, hml]; rfl, ?_⟩
      rw [b, hms, hml]
      simp only [State.record, hmt]
      rfl
    · rename_i hks
      obtain ⟨a, b⟩ := hcl.waits hne (by rw [hmk]; simpa using hks)
      refine ⟨by rw [a, hml, hmt]; rfl, by rw [b, hms]⟩
  · intro h hr
    have h' : ¬ bufferCapacity ≤ ((modLine l Line.entryMade s).line l).fill := by rw [hl]; exact not_le.mpr h
    unfold placeEntry
    dsimp only
    rw [if_neg h', hp,
      if_neg (show ¬ stringRoute (s.profile l) ((modLine l Line.entryMade s).line l).state = true by
        rw [hl]; exact fun x => absurd (hr.symm.trans x) (by decide))]
    have ho := offerItem_spec l (.single (modLine l Line.entryMade s).stamp e) (modLine l Line.entryMade s)
    rw [hk, hl] at ho
    exact ho

/-- What taking an entry does. -/
theorem takesEntry_takeEntry {s : State} (hs : s.highway.sync = .sync) (l : LineNo) (e : DigitEntry) :
    TakesEntry l e s (takeEntry l e s) := by
  refine ⟨placeEntry l e (modLine l Line.entryMade s), placesEntry_placeEntry l e s, ?_⟩
  have hst : ((placeEntry l e (modLine l Line.entryMade s)).line l).state = (s.line l).state := by
    have h := congrArg Line.state (steady_placeEntry l e (modLine l Line.entryMade s))
    rw [line_modLine_self] at h
    exact h
  have ht : takeEntry l e s =
      if ((placeEntry l e (modLine l Line.entryMade s)).line l).state = .seized then
        move l .dialling .firstDigit id (placeEntry l e (modLine l Line.entryMade s))
      else placeEntry l e (modLine l Line.entryMade s) := rfl
  rw [ht, hst]
  split
  · have hp := (placesEntry_placeEntry l e s).frame.highway
    generalize placeEntry l e (modLine l Line.entryMade s) = m at hp ⊢
    exact (entersState_enter rfl rfl rfl rfl (settled_changeState rfl rfl rfl rfl)).moves (by rw [hp]; exact hs)
  · rfl

/-! ### Replies -/

/-- A reply offered is the reply appended, if the queue has room. -/
theorem replyStatus_eq (code tag line status) (s : State) :
    replyStatus code tag line status s = s.withReply (s.replyRecord code tag line status []) := by
  unfold replyStatus replyWith offerReply State.withReply State.replyAfter State.replyRecord
  split <;> rfl

theorem replyWith_eq (code tag line status result) (s : State) :
    replyWith code tag line status result s = s.withReply (s.replyRecord code tag line status result) := by
  unfold replyWith offerReply State.withReply State.replyAfter State.replyRecord
  split <;> rfl

theorem offerReply_eq (line p) (s : State) : offerReply line p s = s.withReply (s.record line p) := by
  unfold offerReply State.withReply State.replyAfter
  split <;> rfl

/-- A full REPLY queue keeps nothing. -/
theorem reply_full_releaseBank (t) {s : State} (h : replyCapacity ≤ s.report.reply.length) :
    (releaseBank t s).report.reply = s.report.reply := by
  unfold releaseBank
  split
  · rfl
  · split
    · unfold offerReply
      rw [if_neg (by simpa using h)]
      rfl
    · rfl

theorem reply_full_releaseBanks {s : State} (h : replyCapacity ≤ s.report.reply.length) :
    (releaseBanks s).report.reply = s.report.reply := by
  simp only [releaseBanks, userTables, List.foldl]
  have step : ∀ (t : TableId) (u : State), u.report.reply = s.report.reply →
      (releaseBank t u).report.reply = s.report.reply := fun t u hu => by
    rw [reply_full_releaseBank t (by rw [hu]; exact h), hu]
  exact step _ _ (step _ _ (step _ _ (step _ _ (step _ _ rfl))))

/-- The line a command names. -/
theorem lineOfWord_eq {w : Word16} {l : LineNo} (h : w.toNat = l.val) : lineOfWord w = some l := by
  unfold lineOfWord
  rw [dif_pos (by rw [h]; exact l.isLt)]
  congr 1
  exact Fin.ext h

/-- A command that passes its checks: its effect, its reply, and the completed migrations. -/
theorem lineCommand_ok {code tag line checks effect} {s : State} {l : LineNo} (hl : line.toNat = l.val)
    (hc : firstFailure (checks l) = none) :
    lineCommand code tag line checks effect s = releaseBanks (replyStatus code tag (some l) .ok (effect l s)) := by
  simp [lineCommand, lineOfWord_eq hl, hc]

/-- A command that fails a check is answered and changes nothing else. -/
theorem lineCommand_refused {code tag line checks effect} {s : State} {l : LineNo} {status} (hl : line.toNat = l.val)
    (hc : firstFailure (checks l) = some status) :
    lineCommand code tag line checks effect s = s.withReply (s.replyRecord code tag (some l) status []) := by
  simp [lineCommand, lineOfWord_eq hl, hc, replyStatus_eq]

end Sys2Proof.Machine
end

