-- ==== Sys2Proof/Laws/LineSteps.lean ====
section
/-! SUPPORT. What every operation of a line's blocks keeps: the sense values, the lawfulness of the line, the bound of its digit
buffer, its being in TEST or not, and the bounds of the report queues. One lemma per operation. -/

namespace Sys2Proof.Machine

/-- A line without the fields that neither `Line.Lawful`, nor the digit buffer, nor the sense values depend on. -/
def Line.outer (c : Line) : Line :=
  { Line.initial with
    state := c.state, polarity := c.polarity, commandedFeed := c.commandedFeed, appliedFeed := c.appliedFeed,
    stateBeforeTest := c.stateBeforeTest, senseLost := c.senseLost, lastI := c.lastI, lastVt := c.lastVt,
    lastVr := c.lastVr, invalidRun := c.invalidRun, recoveryDue := c.recoveryDue, due := c.due, openString := c.openString,
    ring := { RingSequencer.initial with running := c.ring.running, step := c.ring.step } }

/-- The sense values of a line, its sense-lost flag and its recovery mark: what the highway interface alone changes outside the
ends of a test and LINE_DISABLE (R143, R144). -/
structure Line.SameSense (a b : Line) : Prop where
  i : b.lastI = a.lastI
  vt : b.lastVt = a.lastVt
  vr : b.lastVr = a.lastVr
  run : b.invalidRun = a.invalidRun
  feed : b.appliedFeed = a.appliedFeed
  lost : b.senseLost = a.senseLost
  recovery : b.recoveryDue = a.recoveryDue

/-- One step of a line's blocks, from `s` to `t`. -/
structure LineStep (l : LineNo) (s t : State) : Prop extends OnlyLine l s t where
  sense : (s.line l).SameSense (t.line l)
  lawful : (s.line l).Lawful → (t.line l).Lawful
  fill : (s.line l).fill ≤ bufferCapacity → (t.line l).fill ≤ bufferCapacity
  test : (t.line l).state = .test ↔ (s.line l).state = .test
  queues : s.queuesBounded → t.queuesBounded

theorem LineStep.refl (l : LineNo) (s : State) : LineStep l s s :=
  ⟨.refl l s, ⟨rfl, rfl, rfl, rfl, rfl, rfl, rfl⟩, id, id, Iff.rfl, id⟩

theorem LineStep.trans {l : LineNo} {s t u : State} (h : LineStep l s t) (g : LineStep l t u) : LineStep l s u :=
  ⟨h.toOnlyLine.trans g.toOnlyLine,
   ⟨g.sense.i.trans h.sense.i, g.sense.vt.trans h.sense.vt, g.sense.vr.trans h.sense.vr, g.sense.run.trans h.sense.run,
    g.sense.feed.trans h.sense.feed, g.sense.lost.trans h.sense.lost, g.sense.recovery.trans h.sense.recovery⟩,
   fun x => g.lawful (h.lawful x), fun x => g.fill (h.fill x), g.test.trans h.test, fun x => g.queues (h.queues x)⟩

/-! ### What depends on `outer` alone -/

theorem Line.state_of_outer {a b : Line} (h : b.outer = a.outer) : b.state = a.state := (congrArg Line.state h :)

theorem Line.lawful_of_outer {a b : Line} (h : b.outer = a.outer) (ha : a.Lawful) : b.Lawful := by
  have h1 : b.state = a.state := (congrArg Line.state h :)
  have h2 : b.polarity = a.polarity := (congrArg Line.polarity h :)
  have h3 : b.commandedFeed = a.commandedFeed := (congrArg Line.commandedFeed h :)
  have h4 : b.stateBeforeTest = a.stateBeforeTest := (congrArg Line.stateBeforeTest h :)
  have h5 : b.senseLost = a.senseLost := (congrArg Line.senseLost h :)
  have h6 : b.ring.running = a.ring.running := (congrArg (fun c => c.ring.running) h :)
  have h7 : b.ring.step = a.ring.step := (congrArg (fun c => c.ring.step) h :)
  obtain ⟨f, r, s, t⟩ := ha
  refine ⟨fun x hx => ?_, by rw [h6, h1]; exact r, by rw [h1, h5]; exact s, by rw [h4, h1]; exact t⟩
  rw [h3]
  apply f
  rw [← hx]
  simp only [Line.feedByState, h1, h2, h7]

theorem Line.fill_congr {a b : Line} (h : b.due = a.due) (h' : b.openString = a.openString) : b.fill = a.fill := by
  simp only [Line.fill, h, h']

theorem Line.fill_of_outer {a b : Line} (h : b.outer = a.outer) : b.fill = a.fill := by
  have h1 : b.due = a.due := (congrArg Line.due h :)
  have h2 : b.openString = a.openString := (congrArg Line.openString h :)
  simp only [Line.fill, h1, h2]

theorem Line.sense_of_outer {a b : Line} (h : b.outer = a.outer) : a.SameSense b :=
  ⟨(congrArg Line.lastI h :), (congrArg Line.lastVt h :), (congrArg Line.lastVr h :), (congrArg Line.invalidRun h :),
   (congrArg Line.appliedFeed h :), (congrArg Line.senseLost h :), (congrArg Line.recoveryDue h :)⟩

/-- A change of a line that leaves its outer part is a step. -/
theorem lineStep_modLine {l : LineNo} {f : Line → Line} {s : State} (h : ∀ c, (f c).outer = c.outer) :
    LineStep l s (modLine l f s) := by
  have h' : ((modLine l f s).line l).outer = (s.line l).outer := by rw [line_modLine_self]; exact h _
  exact ⟨onlyLine_modLine l f s, Line.sense_of_outer h', Line.lawful_of_outer h',
    fun x => by rw [Line.fill_of_outer h']; exact x, by rw [Line.state_of_outer h'], id⟩

/-! ### Queues -/

theorem queuesBounded_of_report {s t : State} (h : t.report.alarm = s.report.alarm) (h' : t.report.reply = s.report.reply)
    (h'' : t.report.signal = s.report.signal) (hs : s.queuesBounded) : t.queuesBounded := by
  simpa [State.queuesBounded, h, h', h''] using hs

theorem queuesBounded_pushSignal {r : Record} {s : State} (h : s.report.signal.length < signalCapacity)
    (hs : s.queuesBounded) : (pushSignal r s).queuesBounded := by
  obtain ⟨h1, h2, h3⟩ := hs
  refine ⟨h1, h2, ?_⟩
  simp [pushSignal]; omega

theorem queuesBounded_offerAlarm (o p) {s : State} (hs : s.queuesBounded) : (offerAlarm o p s).queuesBounded := by
  obtain ⟨h1, h2, h3⟩ := hs
  unfold offerAlarm
  split
  · refine ⟨?_, h2, h3⟩
    simp; omega
  · exact ⟨h1, h2, h3⟩

theorem queuesBounded_offerReply (o p) {s : State} (hs : s.queuesBounded) : (offerReply o p s).queuesBounded := by
  obtain ⟨h1, h2, h3⟩ := hs
  unfold offerReply
  split
  · refine ⟨h1, ?_, h3⟩
    simp; omega
  · exact ⟨h1, h2, h3⟩

theorem room_of_keeps {s : State} {l : LineNo} (h : s.signalKeeps l = true) :
    s.report.signal.length < signalCapacity := by
  simp [State.signalKeeps] at h; exact h.1

theorem queuesBounded_releaseBank (t) {s : State} (hs : s.queuesBounded) : (releaseBank t s).queuesBounded := by
  unfold releaseBank
  split
  · exact hs
  · split
    · exact queuesBounded_offerReply _ _ (queuesBounded_of_report rfl rfl rfl hs)
    · exact hs

theorem queuesBounded_releaseBanks {s : State} (hs : s.queuesBounded) : (releaseBanks s).queuesBounded := by
  simp only [releaseBanks, userTables, List.foldl]
  exact queuesBounded_releaseBank _ (queuesBounded_releaseBank _ (queuesBounded_releaseBank _
    (queuesBounded_releaseBank _ (queuesBounded_releaseBank _ hs))))

/-! ### Offers -/

/-- A step that leaves the line's outer part, given its frame and its effect on the queues. -/
theorem LineStep.of_outer {l : LineNo} {s t : State} (h : OnlyLine l s t) (ho : (t.line l).outer = (s.line l).outer)
    (hq : s.queuesBounded → t.queuesBounded) : LineStep l s t :=
  ⟨h, Line.sense_of_outer ho, Line.lawful_of_outer ho, fun x => by rw [Line.fill_of_outer ho]; exact x,
   by rw [Line.state_of_outer ho], hq⟩

theorem lineStep_offerAlarm (l : LineNo) (o p) (s : State) : LineStep l s (offerAlarm o p s) :=
  .of_outer (onlyLine_offerAlarm l o p s) (by simp) (queuesBounded_offerAlarm o p)

theorem lineStep_releaseBanks (l : LineNo) (s : State) : LineStep l s (releaseBanks s) :=
  .of_outer (onlyLine_releaseBanks l s) (by simp) queuesBounded_releaseBanks

theorem lineStep_releaseBank (l : LineNo) (x) (s : State) : LineStep l s (releaseBank x s) :=
  .of_outer (onlyLine_releaseBank l x s) (by simp) (queuesBounded_releaseBank x)

theorem lineStep_offerState (l : LineNo) (new old cause) (s : State) : LineStep l s (offerState l new old cause s) := by
  refine .of_outer (onlyLine_offerState ..) ?_ ?_
  · rw [line_offerState]; rfl
  · intro hs
    unfold offerState
    split
    · rename_i h; exact queuesBounded_pushSignal (room_of_keeps h) hs
    · exact queuesBounded_of_report rfl rfl rfl hs

theorem queuesBounded_offerItem (l : LineNo) (item) {s : State} (hs : s.queuesBounded) :
    (offerItem l item s).queuesBounded := by
  unfold offerItem keepItem
  split
  · rename_i h
    exact queuesBounded_pushSignal (r := _) (s := modLine l _ s) (room_of_keeps h : s.report.signal.length < _)
      (queuesBounded_of_report rfl rfl rfl hs)
  · exact queuesBounded_of_report rfl rfl rfl hs

/-- The entries an item holds. -/
def DueItem.size : DueItem → Nat
  | .string _ _ es => es.length
  | .single _ _ => 1

theorem Line.fill_eq (c : Line) : c.fill = (c.due.map DueItem.size).sum + c.openString.length := by
  unfold Line.fill
  congr 2

theorem fill_offerItem (l : LineNo) (item) (s : State) :
    ((offerItem l item s).line l).fill ≤ (s.line l).fill + item.size := by
  rw [line_offerItem]
  split
  · simp only [Line.fill_eq]; omega
  · simp only [Line.fill_eq]
    simp; omega

theorem lineStep_closeString (l : LineNo) (reason) (s : State) : LineStep l s (closeString l reason s) := by
  have hl := line_closeString l reason s
  refine ⟨onlyLine_closeString .., ?_, ?_, ?_, ?_, ?_⟩
  · rw [hl]; exact ⟨rfl, rfl, rfl, rfl, rfl, rfl, rfl⟩
  · intro ⟨a, b, c, d⟩
    rw [hl]
    exact ⟨a, b, c, d⟩
  · unfold closeString
    dsimp only
    split
    · exact id
    · intro h
      refine le_trans (fill_offerItem l _ _) ?_
      simp only [line_modLine_self, DueItem.size, Line.fill_eq] at h ⊢
      simpa using h
  · rw [hl]
  · intro hs
    unfold closeString
    dsimp only
    split
    · exact hs
    · exact queuesBounded_offerItem _ _ (queuesBounded_of_report rfl rfl rfl hs)

/-! ### Profiles and examinations -/

theorem outer_switchTone (s old new) (c : Line) : (switchTone s old new c).outer = c.outer := by
  unfold switchTone
  split
  · rfl
  · split <;> rfl

theorem outer_switchPulse (old new) (c : Line) : (switchPulse old new c).outer = c.outer := by
  unfold switchPulse
  dsimp only
  split <;> split <;> rfl

theorem outer_switch (s old new) (c : Line) : (switchPulse old new (switchTone s old new c)).outer = c.outer :=
  (outer_switchPulse ..).trans (outer_switchTone ..)

theorem lineStep_adoptProfile (l : LineNo) (i) (s : State) : LineStep l s (adoptProfile l i s) := by
  unfold adoptProfile
  dsimp only
  generalize ht : modLine l _ s = t
  have h1 : LineStep l s t := by rw [← ht]; exact lineStep_modLine (by intro _; rfl)
  generalize t.profile l = new
  have h2 : LineStep l s (modLine l (fun c => switchPulse (s.profile l) new (switchTone t (s.profile l) new c)) t) :=
    h1.trans (lineStep_modLine fun _ => outer_switch ..)
  split
  · exact h2.trans (lineStep_closeString l _ _)
  · exact h2

theorem lineStep_applyPending (l : LineNo) (s : State) : LineStep l s (applyPending l s) := by
  unfold applyPending
  split
  · exact .refl l s
  · exact (lineStep_modLine (by intro _; rfl)).trans (lineStep_adoptProfile l _ _)

theorem lineStep_bindProfile (l : LineNo) (s : State) : LineStep l s (bindProfile l s) := by
  unfold bindProfile
  split
  · exact .refl l s
  · exact lineStep_adoptProfile ..

theorem lineStep_bindTonePlan (l : LineNo) (s : State) : LineStep l s (bindTonePlan l s) := by
  unfold bindTonePlan
  split
  · exact .refl l s
  · exact lineStep_modLine (by intro _; rfl)

theorem lineStep_bindCadence (l : LineNo) (s : State) : LineStep l s (bindCadence l s) := by
  unfold bindCadence
  split
  · exact .refl l s
  · exact lineStep_modLine (by intro _; rfl)

/-- An examination is a step. -/
theorem lineStep_examine (l : LineNo) (s : State) : LineStep l s (examine l s) := by
  unfold examine
  split
  · exact (((lineStep_applyPending l s).trans (lineStep_bindProfile l _)).trans (lineStep_bindTonePlan l _)).trans
      (lineStep_bindCadence l _)
  · exact lineStep_bindCadence ..

/-! ### Entering a state -/

/-- Outside TEST the feed of a line is that of its own state. -/
theorem feedFor_of_feedByState {s : State} {c : Line} {f : FeedCode} (h : c.feedByState = some f) : s.feedFor c = f := by
  unfold Line.feedByState at h
  unfold State.feedFor
  split at h <;> simp_all

theorem lawful_refreshed {s : State} {c : Line}
    (hr : c.ring.running = true ↔ c.state = .ringing) (hs : c.state = .disabled → c.senseLost = false)
    (hb : c.stateBeforeTest.isSome = true ↔ c.state = .test) :
    ({ c with commandedFeed := s.feedFor c } : Line).Lawful :=
  ⟨fun _ hf => feedFor_of_feedByState hf, hr, hs, hb⟩

/-- A change of state other than into or out of TEST is a step, if the changes `f` of the blocks keep the sense values, do
not fill the buffer, and leave the sequencer, the sense-lost flag and the stored state as the new state wants them. -/
theorem lineStep_changeState {l : LineNo} {new : LineState} {f : Line → Line} {s : State}
    (hsense : (s.line l).SameSense (f (s.line l))) (hfill : (f (s.line l)).fill ≤ (s.line l).fill)
    (hring : (f (s.line l)).ring.running = true ↔ new = .ringing)
    (hlost : (s.line l).Lawful → new = .disabled → (f (s.line l)).senseLost = false)
    (hbefore : (s.line l).Lawful → ((f (s.line l)).stateBeforeTest.isSome = true ↔ new = .test))
    (htest : new = .test ↔ (s.line l).state = .test) : LineStep l s (changeState l new f s) := by
  have hl := line_changeState l new f s
  refine ⟨onlyLine_changeState .., ?_, ?_, ?_, ?_, queuesBounded_of_report rfl rfl rfl⟩
  · rw [hl]; exact ⟨hsense.i, hsense.vt, hsense.vr, hsense.run, hsense.feed, hsense.lost, hsense.recovery⟩
  · intro h
    rw [hl]
    exact lawful_refreshed (c := { f (s.line l) with state := new }) hring (hlost h) (hbefore h)
  · rw [hl]; exact fun h => le_trans (le_of_eq rfl) (le_trans hfill h)
  · rw [hl]; exact htest

theorem lineStep_enter {l : LineNo} {new : LineState} {cause} {f : Line → Line} {s : State}
    (hsense : (s.line l).SameSense (f (s.line l))) (hfill : (f (s.line l)).fill ≤ (s.line l).fill)
    (hring : (f (s.line l)).ring.running = true ↔ new = .ringing)
    (hlost : (s.line l).Lawful → new = .disabled → (f (s.line l)).senseLost = false)
    (hbefore : (s.line l).Lawful → ((f (s.line l)).stateBeforeTest.isSome = true ↔ new = .test))
    (htest : new = .test ↔ (s.line l).state = .test) : LineStep l s (enter l new cause f s) :=
  ((lineStep_changeState hsense hfill hring hlost hbefore htest).trans (lineStep_offerState l _ _ _ _)).trans
    (lineStep_examine l _)

/-! ### The events that are a change of state -/

/-- Closing the open string first: what it keeps of the line. -/
theorem state_closeString (l : LineNo) (reason) (s : State) :
    ((closeString l reason s).line l).state = (s.line l).state := by
  rw [line_closeString]

theorem running_closeString (l : LineNo) (reason) (s : State) :
    ((closeString l reason s).line l).ring = (s.line l).ring := by
  rw [line_closeString]

theorem SameSense.rfl {c : Line} : c.SameSense c := ⟨by rfl, by rfl, by rfl, by rfl, by rfl, by rfl, by rfl⟩

/-- A change of state of a line that is in a given state, with the lawfulness of the line before it as a premise of every
condition on the blocks. -/
theorem lineStep_enter_from {l : LineNo} {old new : LineState} {cause} {f : Line → Line} {s : State}
    (hold : (s.line l).state = old) (hsense : (s.line l).SameSense (f (s.line l)))
    (hfill : (f (s.line l)).fill ≤ (s.line l).fill)
    (hring : (f (s.line l)).ring.running = (s.line l).ring.running ∧ old ≠ .ringing ∧ new ≠ .ringing ∨
      ((f (s.line l)).ring.running = true ↔ new = .ringing))
    (hlost : new = .disabled → (f (s.line l)).senseLost = false)
    (hbefore : (f (s.line l)).stateBeforeTest = (s.line l).stateBeforeTest)
    (htest : new ≠ .test ∧ old ≠ .test) : LineStep l s (enter l new cause f s) := by
  have hc : LineStep l s (changeState l new f s) := by
    have hl := line_changeState l new f s
    refine ⟨onlyLine_changeState .., ?_, ?_, ?_, ?_, queuesBounded_of_report rfl rfl rfl⟩
    · rw [hl]; exact ⟨hsense.i, hsense.vt, hsense.vr, hsense.run, hsense.feed, hsense.lost, hsense.recovery⟩
    · intro h
      rw [hl]
      refine lawful_refreshed (c := { f (s.line l) with state := new }) ?_ hlost ?_
      · rcases hring with ⟨h1, h2, h3⟩ | h1
        · show (f (s.line l)).ring.running = true ↔ new = .ringing
          rw [h1, h.ring, hold]
          exact ⟨fun x => absurd x h2, fun x => absurd x h3⟩
        · exact h1
      · show (f (s.line l)).stateBeforeTest.isSome = true ↔ new = .test
        rw [hbefore, h.before, hold]
        exact ⟨fun x => absurd x htest.2, fun x => absurd x htest.1⟩
    · rw [hl]; exact fun h => le_trans hfill h
    · rw [hl]
      show new = .test ↔ (s.line l).state = .test
      rw [hold]
      exact ⟨fun x => absurd x htest.1, fun x => absurd x htest.2⟩
  exact (hc.trans (lineStep_offerState l _ _ _ _)).trans (lineStep_examine l _)

/-- An event's move is a step if the entry into the state is one. -/
theorem LineStep.released {l : LineNo} {s t : State} (h : LineStep l s t) : LineStep l s (releaseBanks t) :=
  h.trans (lineStep_releaseBanks l t)

theorem lineStep_move {l : LineNo} {new : LineState} {cause} {f : Line → Line} {s u : State}
    (h : LineStep l s (enter l new cause f u)) : LineStep l s (move l new cause f u) := h.released

theorem lineStep_enterSeized {l : LineNo} {s : State} (h : (s.line l).state = .idle) :
    LineStep l s (enterSeized l s) := by
  unfold enterSeized
  refine lineStep_move ?_
  refine lineStep_enter_from h ?_ ?_ (.inl ⟨?_, by decide, by decide⟩) (fun x => absurd x (by decide)) ?_ ⟨by decide, by decide⟩
  all_goals dsimp only; split
  all_goals first | rfl | exact ⟨rfl, rfl, rfl, rfl, rfl, rfl, rfl⟩

theorem lineStep_enterLockout {l : LineNo} {s : State} (h : dialling (s.line l).state = true) :
    LineStep l s (enterLockout l s) := by
  unfold enterLockout
  have h1 : (s.line l).state ≠ .ringing := by intro e; rw [e] at h; exact absurd h (by decide)
  have h2 : (s.line l).state ≠ .test := by intro e; rw [e] at h; exact absurd h (by decide)
  exact lineStep_move (lineStep_enter_from rfl ⟨rfl, rfl, rfl, rfl, rfl, rfl, rfl⟩ (le_of_eq (Line.fill_congr rfl rfl))
    (.inl ⟨rfl, h1, by decide⟩) (fun x => absurd x (by decide)) rfl ⟨by decide, h2⟩)

theorem lineStep_enterReleased {l : LineNo} {s : State} (h : timesBreaks (s.line l).state = true) :
    LineStep l s (enterReleased l s) := by
  unfold enterReleased
  have hc := lineStep_closeString l .release s
  rw [← state_closeString l .release] at h
  refine hc.trans ?_
  clear hc
  generalize closeString l .release s = s at *
  have h1 : (s.line l).state ≠ .ringing := by intro e; rw [e] at h; exact absurd h (by decide)
  have h2 : (s.line l).state ≠ .test := by intro e; rw [e] at h; exact absurd h (by decide)
  exact lineStep_move (lineStep_enter_from rfl ⟨rfl, rfl, rfl, rfl, rfl, rfl, rfl⟩ (le_of_eq (Line.fill_congr rfl rfl))
    (.inl ⟨rfl, h1, by decide⟩) (fun x => absurd x (by decide)) rfl ⟨by decide, h2⟩)

/-- The changes of a line's blocks at a confirmed hazard. -/
def Line.hazardChanges (c : Line) : Line := { c.dropDigits.stopRing with polarity := .forward }

theorem sense_hazardChanges (c : Line) : c.SameSense c.hazardChanges := by cases c; exact ⟨rfl, rfl, rfl, rfl, rfl, rfl, rfl⟩
theorem fill_hazardChanges (c : Line) : c.hazardChanges.fill = c.fill :=
  Line.fill_congr (a := c) (b := c.hazardChanges) (by rfl) (by rfl)
theorem running_hazardChanges (c : Line) : c.hazardChanges.ring.running = false := rfl
theorem before_hazardChanges (c : Line) : c.hazardChanges.stateBeforeTest = c.stateBeforeTest := rfl

theorem lineStep_enterFault {l : LineNo} {s : State} (h : workingState (s.line l).state = true) :
    LineStep l s (enterFault l s) := by
  have hc := lineStep_closeString l .fault s
  rw [← state_closeString l .fault] at h
  have h2 : ((closeString l .fault s).line l).state ≠ .test := by intro e; rw [e] at h; exact absurd h (by decide)
  have he : LineStep l (closeString l .fault s) (enter l .fault .fault Line.hazardChanges (closeString l .fault s)) :=
    lineStep_enter_from rfl (sense_hazardChanges _) (le_of_eq (fill_hazardChanges _))
      (.inr ⟨fun x => absurd ((running_hazardChanges _).symm.trans x) (by decide), fun x => absurd x (by decide)⟩)
      (fun x => absurd x (by decide)) (before_hazardChanges _) ⟨by decide, h2⟩
  exact lineStep_move (hc.trans he)

theorem lineStep_leaveFault {l : LineNo} {s : State} (h : (s.line l).state = .fault) : LineStep l s (leaveFault l s) := by
  unfold leaveFault
  exact lineStep_move (lineStep_enter_from h ⟨rfl, rfl, rfl, rfl, rfl, rfl, rfl⟩ (le_of_eq (Line.fill_congr rfl rfl))
    (.inl ⟨rfl, by decide, by decide⟩) (fun x => absurd x (by decide)) rfl ⟨by decide, by decide⟩)

theorem lineStep_endRinging {l : LineNo} {cause} {s : State} (h : (s.line l).state = .ringing) :
    LineStep l s (endRinging l cause s) := by
  unfold endRinging
  refine lineStep_enter_from h ?_ ?_ (.inr ⟨?_, fun x => absurd x (by decide)⟩)
    (fun x => absurd x (by decide)) ?_ ⟨by decide, by decide⟩
  all_goals split
  all_goals first
    | rfl | exact ⟨rfl, rfl, rfl, rfl, rfl, rfl, rfl⟩ | exact le_refl _ | exact fun x => absurd x (by simp [Line.stopRing, RingSequencer.initial])

theorem lineStep_enterAnswered {l : LineNo} {s : State} (h : (s.line l).state = .ringing) :
    LineStep l s (enterAnswered l s) := by
  unfold enterAnswered
  refine lineStep_move ?_
  refine lineStep_enter_from h ?_ ?_ (.inr ⟨?_, fun x => absurd x (by decide)⟩)
    (fun x => absurd x (by decide)) ?_ ⟨by decide, by decide⟩
  all_goals dsimp only; split
  all_goals first
    | rfl | exact ⟨rfl, rfl, rfl, rfl, rfl, rfl, rfl⟩ | exact le_refl _
    | exact fun x => absurd x (by simp [Line.stopRing, RingSequencer.initial, startTone])

/-! ### The collector -/

theorem lineStep_placeEntry (l : LineNo) (e) (s : State) : LineStep l s (placeEntry l e s) := by
  have hroom : ∀ {c : Line}, ¬ bufferCapacity ≤ c.fill → c.fill + 1 ≤ bufferCapacity := by intros; omega
  unfold placeEntry
  dsimp only
  split
  · exact lineStep_modLine (by intro _; rfl)
  · rename_i hfull
    have hmod : LineStep l s (modLine l (fun c => { c with openString := c.openString ++ [e] }) s) := by
      refine ⟨onlyLine_modLine .., ?_, ?_, ?_, ?_, queuesBounded_of_report rfl rfl rfl⟩
      · rw [line_modLine_self]; exact ⟨rfl, rfl, rfl, rfl, rfl, rfl, rfl⟩
      · intro ⟨a, b, c, d⟩; rw [line_modLine_self]; exact ⟨a, b, c, d⟩
      · intro _
        rw [line_modLine_self]
        refine le_trans (le_of_eq ?_) (hroom hfull)
        simp only [Line.fill_eq, List.length_append, List.length_singleton]
        omega
      · rw [line_modLine_self]
    split
    · split
      · exact hmod.trans (lineStep_closeString l _ _)
      · exact hmod
    · refine ⟨onlyLine_offerItem .., ?_, ?_, ?_, ?_, queuesBounded_offerItem _ _⟩
      · rw [line_offerItem]; split <;> exact ⟨rfl, rfl, rfl, rfl, rfl, rfl, rfl⟩
      · intro ⟨a, b, c, d⟩
        rw [line_offerItem]; split <;> exact ⟨a, b, c, d⟩
      · intro _
        exact le_trans (fill_offerItem l _ s) (hroom hfull)
      · rw [line_offerItem]; split <;> rfl

theorem lineStep_takeEntry (l : LineNo) (e) (s : State) : LineStep l s (takeEntry l e s) := by
  unfold takeEntry
  dsimp only
  generalize hs' : placeEntry l e _ = s'
  have h1 : LineStep l s s' := by
    rw [← hs']
    exact (lineStep_modLine (by intro _; rfl)).trans (lineStep_placeEntry l _ _)
  split
  · rename_i h
    exact h1.trans (lineStep_move (lineStep_enter_from h ⟨rfl, rfl, rfl, rfl, rfl, rfl, rfl⟩ (le_of_eq (Line.fill_congr rfl rfl))
      (.inl ⟨rfl, by decide, by decide⟩) (fun x => absurd x (by decide)) rfl ⟨by decide, by decide⟩))
  · exact h1

theorem lineStep_lockoutIfDue (l : LineNo) (s : State) : LineStep l s (lockoutIfDue l s) := by
  unfold lockoutIfDue
  split
  · rename_i h
    refine lineStep_enterLockout ?_
    simp [lockoutDue] at h
    simp [dialling]
    rcases h.2 with h | h
    · exact .inl h
    · exact .inr h.1
  · exact .refl l s

theorem lineStep_advanceLockout (l : LineNo) (s : State) : LineStep l s (advanceLockout l s) := by
  unfold advanceLockout
  dsimp only
  split
  · exact (lineStep_modLine (by intro _; rfl)).trans (lineStep_lockoutIfDue l _)
  · exact .refl l s

theorem lineStep_compareString (l : LineNo) (limit) (s : State) : LineStep l s (compareString l limit s) := by
  unfold compareString
  split
  · exact lineStep_closeString ..
  · split
    · exact lineStep_closeString ..
    · exact .refl l s

theorem lineStep_stringTimeoutIfDue (l : LineNo) (s : State) : LineStep l s (stringTimeoutIfDue l s) :=
  lineStep_compareString ..

theorem lineStep_advanceString (l : LineNo) (s : State) : LineStep l s (advanceString l s) := by
  unfold advanceString
  dsimp only
  split
  · exact .refl l s
  · split
    · exact lineStep_compareString ..
    · exact (lineStep_modLine (by intro _; rfl)).trans (lineStep_compareString l _ _)

/-! ### Detector, engines and sequencer -/

theorem lineStep_endPulseDigit (l : LineNo) (s : State) : LineStep l s (endPulseDigit l s) := by
  unfold endPulseDigit
  split
  · exact (lineStep_takeEntry l _ s).trans (lineStep_modLine (by intro _; rfl))
  · exact .refl l s

theorem lineStep_digitEndIfDue (l : LineNo) (s : State) : LineStep l s (digitEndIfDue l s) := by
  unfold digitEndIfDue
  split
  · exact lineStep_endPulseDigit ..
  · exact .refl l s

theorem lineStep_recoverPulse (l : LineNo) (s : State) : LineStep l s (recoverPulse l s) := by
  unfold recoverPulse
  dsimp only
  split
  · exact (lineStep_takeEntry l _ s).trans (lineStep_modLine (by intro _; rfl))
  · exact .refl l s

theorem lineStep_acceptIfDue (l : LineNo) (s : State) : LineStep l s (acceptIfDue l s) := by
  unfold acceptIfDue
  dsimp only
  split
  · split
    · exact lineStep_modLine (by intro _; rfl)
    · exact .refl l s
  · exact .refl l s

theorem lineStep_releaseIfDue (l : LineNo) (s : State) : LineStep l s (releaseIfDue l s) := by
  unfold releaseIfDue
  split
  · rename_i h
    refine lineStep_enterReleased ?_
    unfold releaseDue at h
    dsimp only at h
    split at h
    · exact (Bool.and_eq_true_iff.mp h).1
    · cases h
  · exact .refl l s

theorem lineStep_classifyBreak (l : LineNo) (b d) (s : State) : LineStep l s (classifyBreak l b d s) := by
  unfold classifyBreak
  dsimp only
  split
  · exact .refl l s
  split
  · split
    · exact lineStep_takeEntry ..
    · exact .refl l s
  split
  · split
    · exact .refl l s
    split
    · exact (lineStep_endPulseDigit l s).trans (lineStep_takeEntry l _ _)
    split
    · exact .refl l s
    split
    · exact lineStep_modLine (by intro _; rfl)
    · exact (lineStep_modLine (by intro _; rfl)).trans (lineStep_takeEntry l _ _)
  · exact .refl l s

theorem lineStep_makeConfirmIfDue (l : LineNo) (s : State) : LineStep l s (makeConfirmIfDue l s) := by
  unfold makeConfirmIfDue
  split
  · split
    · exact (lineStep_classifyBreak l _ _ s).trans (lineStep_modLine (by intro _; rfl))
    · exact .refl l s
  · exact .refl l s

theorem lineStep_seizureIfDue (l : LineNo) (s : State) : LineStep l s (seizureIfDue l s) := by
  unfold seizureIfDue
  split
  · rename_i h
    refine lineStep_enterSeized ?_
    simp [seizureDue] at h
    exact h.1.1
  · exact .refl l s

theorem lineStep_useDetector (l : LineNo) (i m) (s : State) : LineStep l s (useDetector l i m s) := by
  unfold useDetector
  dsimp only
  generalize hs' : modLine l _ s = s'
  have h1 : LineStep l s s' := by rw [← hs']; exact lineStep_modLine (by intro _; rfl)
  split
  · exact (((h1.trans (lineStep_acceptIfDue l _)).trans (lineStep_releaseIfDue l _)).trans
      (lineStep_makeConfirmIfDue l _)).trans (lineStep_seizureIfDue l _)
  · exact ((h1.trans (lineStep_releaseIfDue l _)).trans (lineStep_makeConfirmIfDue l _)).trans
      (lineStep_seizureIfDue l _)

theorem lineStep_endToneDigit (l : LineNo) (p) (s : State) : LineStep l s (endToneDigit l p s) :=
  (lineStep_takeEntry l _ s).trans (lineStep_modLine (by intro _; rfl))

theorem lineStep_beginRun (l : LineNo) (p k st) (s : State) : LineStep l s (beginRun l p k st s) := lineStep_modLine (by intro _; rfl)

theorem lineStep_automaton (l : LineNo) (p r st) (s : State) : LineStep l s (automaton l p r st s) := by
  have put : ∀ t', LineStep l s (modLine l (fun c => { c with tone := t' }) s) := fun _ => lineStep_modLine (by intro _; rfl)
  unfold automaton
  dsimp only
  repeat' split
  all_goals with_reducible first
    | exact LineStep.refl l s
    | exact put _
    | exact lineStep_beginRun ..
    | exact lineStep_endToneDigit ..
    | exact (lineStep_endToneDigit l _ s).trans (lineStep_beginRun l _ _ _ _)

theorem lineStep_toneBlockIfDue (l : LineNo) (s : State) : LineStep l s (toneBlockIfDue l s) := by
  unfold toneBlockIfDue
  split
  · exact LineStep.trans (lineStep_modLine (by intro _; rfl)) (lineStep_automaton l _ _ _ _)
  · exact .refl l s

theorem lineStep_toneSample (l : LineNo) (w) (s : State) : LineStep l s (toneSample l w s) := by
  unfold toneSample
  split
  · exact LineStep.trans (lineStep_modLine (by intro _; rfl)) (lineStep_toneBlockIfDue l _)
  · exact .refl l s

theorem lineStep_recoverTone (l : LineNo) (s : State) : LineStep l s (recoverTone l s) := by
  unfold recoverTone
  dsimp only
  split
  · split
    · exact LineStep.trans (lineStep_modLine (by intro _; rfl)) (lineStep_modLine fun _ => rfl)
    · exact (LineStep.trans (lineStep_modLine (by intro _; rfl)) (lineStep_takeEntry l _ _)).trans (lineStep_modLine fun _ => rfl)
  · exact .refl l s

/-- The line at the beginning of a ring step. -/
theorem line_beginRingStep (l : LineNo) (n) (s : State) :
    (beginRingStep l n s).line l =
      { (s.line l).restartDetector with
        ring := { (s.line l).ring.clearTrip with step := some n, timer := 0 }
        commandedFeed := (modLine l (fun c =>
          { c.restartDetector with ring := { c.ring.clearTrip with step := some n, timer := 0 } }) s).feedFor
            { (s.line l).restartDetector with ring := { (s.line l).ring.clearTrip with step := some n, timer := 0 } } } := by
  simp [beginRingStep, refreshFeed]

theorem lineStep_beginRingStep (l : LineNo) (n) (s : State) : LineStep l s (beginRingStep l n s) := by
  have hl := line_beginRingStep l n s
  refine ⟨onlyLine_beginRingStep .., ?_, ?_, ?_, ?_, queuesBounded_of_report rfl rfl rfl⟩
  · rw [hl]; exact ⟨rfl, rfl, rfl, rfl, rfl, rfl, rfl⟩
  · intro h
    rw [hl]
    exact lawful_refreshed (c := { (s.line l).restartDetector with
      ring := { (s.line l).ring.clearTrip with step := some n, timer := 0 } }) h.ring h.sense h.before
  · rw [hl]; exact id
  · rw [hl]; exact Iff.rfl

theorem lineStep_ringStepExpireIfDue (l : LineNo) (s : State) : LineStep l s (ringStepExpireIfDue l s) := by
  unfold ringStepExpireIfDue
  dsimp only
  split
  · exact .refl l s
  · rename_i hdue
    have hr : (s.line l).state = .ringing := by
      simp [ringStepDue] at hdue
      exact hdue.1.1
    split
    · split
      · exact lineStep_beginRingStep ..
      · split
        · exact (lineStep_endRinging hr).released
        · exact LineStep.trans (lineStep_modLine (by intro _; rfl)) (lineStep_beginRingStep l _ _)
    · exact lineStep_beginRingStep ..

theorem lineStep_advanceRingTimer (l : LineNo) (s : State) : LineStep l s (advanceRingTimer l s) :=
  LineStep.trans (lineStep_modLine (by intro _; rfl)) (lineStep_ringStepExpireIfDue l _)

theorem lineStep_ringTripIfDue (l : LineNo) (s : State) : LineStep l s (ringTripIfDue l s) := by
  unfold ringTripIfDue
  split
  · rename_i h
    refine lineStep_enterAnswered ?_
    simp [ringTripDue] at h
    exact h.1.1.1
  · exact .refl l s

theorem lineStep_ringOffTripIfDue (l : LineNo) (s : State) : LineStep l s (ringOffTripIfDue l s) := by
  unfold ringOffTripIfDue
  split
  · rename_i h
    refine lineStep_enterAnswered ?_
    simp [ringOffTripDue] at h
    exact h.1.1.1
  · exact .refl l s

theorem outer_armRing (p a) (c : Line) : ({ c with ring := armRing p a c.ring } : Line).outer = c.outer := by
  unfold armRing
  split <;> split <;> rfl

theorem lineStep_ringOnRecord (l : LineNo) (i h) (s : State) : LineStep l s (ringOnRecord l i h s) := by
  unfold ringOnRecord
  dsimp only
  generalize hs' : modLine l _ s = s'
  have h1 : LineStep l s s' := by rw [← hs']; exact lineStep_modLine fun _ => outer_armRing ..
  split
  · exact h1
  · split
    · exact h1.trans (lineStep_modLine (by intro _; rfl))
    · split
      · exact h1
      · exact (h1.trans (lineStep_modLine (by intro _; rfl))).trans (lineStep_ringTripIfDue l _)

theorem lineStep_ringOffRecord (l : LineNo) (i m) (s : State) : LineStep l s (ringOffRecord l i m s) := by
  unfold ringOffRecord
  split
  · exact (lineStep_useDetector l _ _ s).trans (lineStep_ringOffTripIfDue l _)
  · exact .refl l s

theorem lineStep_ringRecord (l : LineNo) (i h m) (s : State) : LineStep l s (ringRecord l i h m s) := by
  have base : LineStep l s
      (if ringOnStep (s.line l).ring.step then ringOnRecord l i h s else ringOffRecord l i m s) := by
    split
    · exact lineStep_ringOnRecord ..
    · exact lineStep_ringOffRecord ..
  unfold ringRecord
  dsimp only
  generalize (if ringOnStep (s.line l).ring.step then ringOnRecord l i h s else ringOffRecord l i m s) = t at base ⊢
  split
  · exact base.trans (lineStep_advanceRingTimer l _)
  · exact base

theorem lineStep_ringMaskEndIfDue (l : LineNo) (s : State) : LineStep l s (ringMaskEndIfDue l s) := by
  unfold ringMaskEndIfDue
  dsimp only
  split
  · exact lineStep_modLine (by intro _; rfl)
  · exact .refl l s

theorem outer_recoverRing (c : Line) : c.recoverRing.outer = c.outer := by
  unfold Line.recoverRing
  split <;> rfl

theorem lineStep_recoverLine (l : LineNo) (s : State) : LineStep l s (recoverLine l s) := by
  unfold recoverLine
  refine (LineStep.trans (lineStep_modLine fun c => ?_) (lineStep_recoverPulse l _)).trans (lineStep_recoverTone l _)
  exact outer_recoverRing c

/-! ### The fault monitor -/

theorem lineStep_bindFaultPlan (l : LineNo) (s : State) : LineStep l s (bindFaultPlan l s) :=
  LineStep.trans (lineStep_modLine (by intro _; rfl)) (lineStep_releaseBank l _ _)

theorem lineStep_startWindowIfDue (l : LineNo) (s : State) : LineStep l s (startWindowIfDue l s) := by
  unfold startWindowIfDue
  split
  · exact (lineStep_bindFaultPlan l s).trans (lineStep_modLine (by intro _; rfl))
  · exact .refl l s

theorem lineStep_reportHazard (l : LineNo) (a b) (s : State) : LineStep l s (reportHazard l a b s) := by
  unfold reportHazard
  split
  · rename_i h
    simp only [Bool.and_eq_true] at h
    exact lineStep_enterFault h.2
  · split
    · rename_i h
      refine lineStep_leaveFault ?_
      simp at h
      exact h.2
    · exact .refl l s

theorem lineStep_confirmFault (l : LineNo) (e) (s : State) : LineStep l s (confirmFault l e s) := by
  unfold confirmFault
  dsimp only
  split
  · exact (LineStep.trans (lineStep_modLine (by intro _; rfl)) (lineStep_offerAlarm l _ _ _)).trans (lineStep_reportHazard l _ _ _)
  · exact LineStep.trans (lineStep_modLine (by intro _; rfl)) (lineStep_reportHazard l _ _ _)

theorem lineStep_faultConfirmIfDue (l : LineNo) (s : State) : LineStep l s (faultConfirmIfDue l s) := by
  unfold faultConfirmIfDue
  split
  · exact lineStep_confirmFault ..
  · exact .refl l s

theorem lineStep_faultClearIfDue (l : LineNo) (s : State) : LineStep l s (faultClearIfDue l s) := by
  unfold faultClearIfDue
  dsimp only
  split
  · split
    · exact ((lineStep_offerAlarm l _ _ s).trans (lineStep_modLine (by intro _; rfl))).trans (lineStep_reportHazard l _ _ _)
    · exact LineStep.trans (lineStep_modLine (by intro _; rfl)) (lineStep_reportHazard l _ _ _)
  · exact .refl l s

theorem lineStep_windowCloseIfDue (l : LineNo) (s : State) : LineStep l s (windowCloseIfDue l s) := by
  unfold windowCloseIfDue
  dsimp only
  split
  · generalize hs' : modLine l _ s = s'
    have h1 : LineStep l s s' := by rw [← hs']; exact lineStep_modLine (by intro _; rfl)
    split
    · generalize hs'' : modLine l _ s' = s''
      have h2 : LineStep l s s'' := by rw [← hs'']; exact h1.trans (lineStep_modLine (by intro _; rfl))
      split
      · exact h2.trans (lineStep_confirmFault l _ _)
      · exact h2.trans (lineStep_faultClearIfDue l _)
    · exact h1
  · exact .refl l s

theorem lineStep_monitorRecord (l : LineNo) (h) (s : State) : LineStep l s (monitorRecord l h s) :=
  ((lineStep_startWindowIfDue l s).trans (lineStep_modLine (by intro _; rfl))).trans (lineStep_windowCloseIfDue l _)

end Sys2Proof.Machine
end

