-- ==== Sys2Proof/Laws/DeviceSteps.lean ====
section
/-! SUPPORT. What the operations over the whole device can do: the test engine's taking of requests, the replies of guarded
commands, the serialiser's words, and the entry to HUNT. -/

namespace Sys2Proof.Machine

/-! ### The test engine -/

/-- What the taking of requests leaves alone: everything but the lines it starts tests on, the engine's own test, records
that join the ALARM queue, and migrations that complete. -/
structure EngineStep (s t : State) : Prop where
  pending : t.pending = s.pending
  highway : t.highway = s.highway
  wires : t.wires = s.wires
  receiver : t.receiver = s.receiver
  tables : SameTables s t
  migrated : Migrated s t
  sending : t.report.sending = s.report.sending
  servicePointer : t.report.servicePointer = s.report.servicePointer
  signal : t.report.signal = s.report.signal
  alarm : s.report.alarm <+: t.report.alarm
  sweepPointer : t.engine.sweepPointer = s.engine.sweepPointer
  sweepTimer : t.engine.sweepTimer = s.engine.sweepTimer
  bounded : s.queuesBounded → t.queuesBounded

theorem EngineStep.refl (s : State) : EngineStep s s :=
  ⟨rfl, rfl, rfl, rfl, .refl s, .refl s, rfl, rfl, rfl, List.prefix_rfl, rfl, rfl, id⟩

theorem EngineStep.trans {s t u : State} (h : EngineStep s t) (g : EngineStep t u) : EngineStep s u :=
  ⟨g.pending.trans h.pending, g.highway.trans h.highway, g.wires.trans h.wires, g.receiver.trans h.receiver,
    h.tables.trans g.tables, h.migrated.trans g.migrated (by simp [State.stamp, h.highway]) h.tables g.tables,
    g.sending.trans h.sending, g.servicePointer.trans h.servicePointer, g.signal.trans h.signal, h.alarm.trans g.alarm, g.sweepPointer.trans h.sweepPointer, g.sweepTimer.trans h.sweepTimer,
    fun b => g.bounded (h.bounded b)⟩

theorem engineStep_modEngine {f : TestEngine → TestEngine} {s : State}
    (hp : (f s.engine).sweepPointer = s.engine.sweepPointer) (ht : (f s.engine).sweepTimer = s.engine.sweepTimer) :
    EngineStep s (modEngine f s) :=
  ⟨rfl, rfl, rfl, rfl, .of_eq rfl, .of_tables rfl rfl, rfl, rfl, rfl, List.prefix_rfl, hp, ht, id⟩

theorem engineStep_modLine (l : LineNo) (f : Line → Line) (s : State) : EngineStep s (modLine l f s) :=
  ⟨rfl, rfl, rfl, rfl, .of_eq rfl, .of_tables rfl rfl, rfl, rfl, rfl, List.prefix_rfl, rfl, rfl, id⟩

theorem engineStep_releaseBanks (s : State) : EngineStep s (releaseBanks s) := by
  have h := upToMigration_releaseBanks s
  exact ⟨h.pending, h.highway, h.wires, h.receiver, h.tables, h.migrated, h.sending, h.servicePointer, h.signal,
    by rw [h.alarm.1], by rw [h.engine], by rw [h.engine], queuesBounded_releaseBanks⟩

theorem engineStep_offerAlarm (o p) (s : State) : EngineStep s (offerAlarm o p s) := by
  refine ⟨?_, ?_, ?_, ?_, .of_eq ?_, .of_tables ?_ ?_, ?_, ?_, ?_, ?_, ?_, ?_, queuesBounded_offerAlarm o p⟩ <;>
    (unfold offerAlarm; split) <;> first | rfl | exact List.prefix_append ..

theorem engineStep_changeState (l : LineNo) (new f) (s : State) : EngineStep s (changeState l new f s) := by
  unfold changeState refreshFeed
  exact EngineStep.trans (engineStep_modLine ..) (engineStep_modLine ..)

theorem engineStep_skipRequest (r : Request) (s : State) : EngineStep s (skipRequest r s) := by
  unfold skipRequest; split
  · exact engineStep_offerAlarm ..
  · exact .refl s

/-- A line in TEST is not at a rest point: its examination binds the CADENCE selector alone (R19). -/
theorem examine_of_test {l : LineNo} {s : State} (h : (s.line l).state = .test) :
    examine l s = modLine l (fun c => { c with cadenceBank := s.activeBank .cadence }) s := by
  unfold examine bindCadence Line.atRest; simp [h]

/-- A test starts: the engine is BUSY with the request at step 1 of the ACTIVE bank, and the line is in TEST under the feed of
that step (R18, R129, R130). -/
theorem engineStep_startTest (r : Request) (s : State) : EngineStep s (startTest r s) := by
  unfold startTest
  dsimp only
  refine EngineStep.trans ?_ (engineStep_releaseBanks _)
  rw [examine_of_test (by simp [changeState, refreshFeed])]
  refine EngineStep.trans ?_ (engineStep_modLine ..)
  refine EngineStep.trans ?_ (engineStep_changeState ..)
  exact engineStep_modEngine rfl rfl

theorem engineStep_takeFrom (q : List Request) (s : State) : EngineStep s (takeFrom q s) := by
  induction q generalizing s with
  | nil => exact engineStep_modEngine rfl rfl
  | cons r rest ih =>
    unfold takeFrom; split
    · exact (engineStep_modEngine rfl rfl).trans (engineStep_startTest ..)
    · exact (engineStep_skipRequest r s).trans (ih _)

/-- A BUSY engine takes nothing (R124). -/
theorem takeRequests_busy {s : State} (h : s.engine.busy = true) : takeRequests s = s := by
  unfold takeRequests; rw [if_pos h]

theorem engineStep_takeRequests (s : State) : EngineStep s (takeRequests s) := by
  unfold takeRequests; split
  · exact .refl s
  · exact engineStep_takeFrom ..

theorem line_startTest_of_ne {l : LineNo} {r : Request} (h : l ≠ r.line) (s : State) :
    (startTest r s).line l = s.line l := by
  unfold startTest
  dsimp only
  rw [line_releaseBanks, (onlyLine_examine r.line _).lines l h, (onlyLine_changeState r.line _ _ _).lines l h]
  rfl

theorem held_startTest (r : Request) (s : State) : (startTest r s).engine.held = some r := by
  unfold startTest
  dsimp only
  rw [(upToMigration_releaseBanks _).engine, (onlyLine_examine r.line _).engine, (onlyLine_changeState r.line _ _ _).engine]
  rfl

/-- The taking of requests leaves a line that no request names, and holds a request of the queue or what it held (R129). -/
theorem takeFrom_of_not_queued {l : LineNo} (q : List Request) (s : State) (h : ∀ r ∈ q, l ≠ r.line) :
    (takeFrom q s).line l = s.line l ∧
      ((takeFrom q s).engine.held = s.engine.held ∨ ∃ r ∈ q, (takeFrom q s).engine.held = some r) := by
  induction q generalizing s with
  | nil => exact ⟨rfl, .inl rfl⟩
  | cons r rest ih =>
    unfold takeFrom
    split
    · refine ⟨?_, .inr ⟨r, List.mem_cons_self, held_startTest ..⟩⟩
      rw [line_startTest_of_ne (h r List.mem_cons_self)]
      rfl
    · have hs : (skipRequest r s).line l = s.line l ∧ (skipRequest r s).engine = s.engine := by
        unfold skipRequest; split
        · exact ⟨line_offerAlarm .., (onlyLine_offerAlarm l _ _ s).engine⟩
        · exact ⟨rfl, rfl⟩
      obtain ⟨h1, h2⟩ := ih (skipRequest r s) (fun x hx => h x (List.mem_cons_of_mem _ hx))
      refine ⟨h1.trans hs.1, ?_⟩
      rcases h2 with h2 | ⟨x, hx, h2⟩
      · exact .inl (by rw [h2, hs.2])
      · exact .inr ⟨x, List.mem_cons_of_mem _ hx, h2⟩

/-- A full ALARM queue stays as it is, with the alarm-lost flag set (R157). -/
theorem takeFrom_alarm_full (q : List Request) (s : State) (h : alarmCapacity ≤ s.report.alarm.length)
    (hl : s.report.alarmLost = true) : (takeFrom q s).report.alarmLost = true := by
  induction q generalizing s with
  | nil => exact hl
  | cons r rest ih =>
    unfold takeFrom
    split
    · unfold startTest
      dsimp only
      rw [(upToMigration_releaseBanks _).alarm.2, (sameAlarm_examine _ _).2]
      exact hl
    · have hs : (skipRequest r s).report.alarm = s.report.alarm ∧ (skipRequest r s).report.alarmLost = true := by
        unfold skipRequest; split
        · unfold offerAlarm; rw [if_neg (not_lt.mpr h)]; exact ⟨rfl, rfl⟩
        · exact ⟨rfl, hl⟩
      exact ih _ (by rw [hs.1]; exact h) hs.2

/-- What an offer to the ALARM queue does (R157). -/
theorem alarmOffered_offerAlarm (o p) (s : State) : AlarmOffered o p s (offerAlarm o p s) ∧
    offerAlarm o p s = { s with report := { s.report with
      alarm := (offerAlarm o p s).report.alarm, alarmLost := (offerAlarm o p s).report.alarmLost } } := by
  unfold AlarmOffered offerAlarm
  split
  · exact ⟨⟨rfl, rfl⟩, rfl⟩
  · exact ⟨⟨rfl, rfl⟩, rfl⟩

theorem returnState_eq (c : Line) : returnState (c.stateBeforeTest.getD .idle) c.monitor.hazard = c.returnsTo := by
  unfold FaultMonitor.hazard Line.returnsTo
  cases c.stateBeforeTest with
  | none => simp [returnState]
  | some st => cases st <;> simp [returnState]

theorem returnsTo_cases (c : Line) : c.returnsTo = .disabled ∨ c.returnsTo = .fault ∨ c.returnsTo = .idle := by
  unfold Line.returnsTo
  split
  · exact .inl rfl
  · split
    · exact .inr (.inl rfl)
    · exact .inr (.inr rfl)

/-- The line's return from TEST (R18, R133 step 2). -/
theorem movesLine_returnLine {s : State} (hs : s.highway.sync = .sync) (l : LineNo) :
    MovesLine l (s.line l).returned .testEnd s (returnLine l s) := by
  unfold returnLine
  simp only [returnState_eq]
  refine EntersState.moves (entersState_enter rfl ?_ rfl rfl (settled_changeState rfl rfl rfl rfl)) hs
  have h := returnsTo_cases (s.line l)
  generalize hb : (s.line l).returnsTo = back at h
  unfold Line.returned
  rw [hb]
  rcases h with h | h | h <;> subst h <;> rfl

/-- The engine is freed (R133 steps 3 and 4). -/
theorem freesEngine_freeEngine {s : State} (hs : s.highway.sync = .sync) : FreesEngine s (freeEngine s) := by
  refine ⟨releaseBanks (modEngine (·.freed) s), migrationsComplete_releaseBanks hs, ?_⟩
  have : (releaseBanks (modEngine (·.freed) s)).highway.sync = .sync := by
    rw [(upToMigration_releaseBanks _).highway]; exact hs
  simp only [exec, execTestTake, inSync, this, if_true]
  rfl

/-- The end of a test (R18, R133, R134). -/
theorem endsTest_finishTest {r : Request} {s : State} (verdict : Verdict) (cause : Option AbortCause)
    (hs : s.highway.sync = .sync) (hr : s.engine.held = some r) (hq : s.testQueueLawful) :
    EndsTest r verdict cause s.engine.results s (finishTest r.line verdict cause s) := by
  have hq' := hq.2.2 r hr
  have hrep : reportTest verdict cause s = offerAlarm (some r.line) (testResult r verdict cause s.engine.results) s := by
    unfold reportTest; rw [hr]
  obtain ⟨ha, hu⟩ := alarmOffered_offerAlarm (some r.line) (testResult r verdict cause s.engine.results) s
  unfold finishTest
  rw [hrep]
  generalize offerAlarm (some r.line) (testResult r verdict cause s.engine.results) s = u at ha hu
  have hus : u.highway = s.highway := by rw [hu]
  have hul : u.line r.line = s.line r.line := by rw [hu]; rfl
  have hm := movesLine_returnLine (s := u) (by rw [hus]; exact hs) r.line
  rw [hul] at hm
  generalize returnLine r.line u = v at hm
  obtain ⟨n, hn, hv⟩ := id hm
  have hv' := hv.eq (by rw [hn.frame.highway, hus]; exact hs)
  have hvn : UpToMigration n v := by rw [hv']; exact upToMigration_releaseBanks n
  have hvs : v.highway.sync = .sync := by rw [hvn.highway, hn.frame.highway, hus]; exact hs
  have hve : v.engine = s.engine := by rw [hvn.engine, hn.frame.engine, hu]
  let x := releaseBanks (modEngine (·.freed) v)
  have hxm : UpToMigration (modEngine (·.freed) v) x := upToMigration_releaseBanks _
  have hxe : x.engine = s.engine.freed := by
    rw [hxm.engine]
    show v.engine.freed = _
    rw [hve]
  have hxl : x.line r.line = v.line r.line := (lines_eq_iff _ _).mp hxm.lines r.line
  have ht : freeEngine v = takeFrom s.engine.queue x := by
    show takeRequests x = _
    unfold takeRequests
    rw [hxe]
    rfl
  have hnq : ∀ r' ∈ s.engine.queue, r.line ≠ r'.line := by
    intro r' hr' he
    have : queuedFor r.line s.engine.queue = true := by
      unfold queuedFor; rw [List.any_eq_true]; exact ⟨r', hr', by simp [he]⟩
    rw [hq'] at this
    cases this
  have hst := engineStep_takeFrom s.engine.queue x
  obtain ⟨hl1, hl2⟩ := takeFrom_of_not_queued s.engine.queue x hnq
  have hxa : x.report.alarm = u.report.alarm ∧ x.report.alarmLost = u.report.alarmLost :=
    (hn.alarm.trans hvn.alarm).trans hxm.alarm
  have hfree := freesEngine_freeEngine hvs
  rw [ht] at hfree ⊢
  refine ⟨⟨u, v, ha, hu, hm, hfree⟩, ?_, ?_, ?_, ?_⟩
  · unfold AlarmFirst
    unfold AlarmOffered at ha
    split at ha
    · rename_i hlt
      rw [if_pos hlt]
      show s.report.alarm ++ [⟨some r.line, s.stamp, s.report.alarmLost, testResult r verdict cause s.engine.results⟩] <+: _
      rw [← ha.1, ← hxa.1]
      exact hst.alarm
    · rename_i hlt
      rw [if_neg hlt]
      refine ⟨?_, ?_⟩
      · rw [← ha.1, ← hxa.1]; exact hst.alarm
      · exact takeFrom_alarm_full _ _ (by rw [hxa.1, ha.1]; exact not_lt.mp hlt) (by rw [hxa.2]; exact ha.2)
  · rcases hl2 with hl2 | ⟨r', hr', hl2⟩
    · rw [hl2, hxe]; intro h; cases h
    · rw [hl2]
      intro h
      have h' : r' = r := Option.some.inj h
      exact hnq r' hr' (by rw [h'])
  · rw [hl1, hxl]
    exact MovesLine.steady (by rw [hus]; exact hs) hm
  · rw [hst.signal, hxm.signal]
    show _ <+: v.report.signal
    have hrec : u.signalAfter r.line (u.record (some r.line) (.state (s.line r.line).returnsTo (u.line r.line).state .testEnd)) =
        s.signalAfter r.line (s.record (some r.line) (.state (s.line r.line).returnsTo (s.line r.line).state .testEnd)) := by
      rw [hu]; rfl
    rw [← hrec, hvn.signal]
    exact hn.record

/-! ### Guarded commands -/

/-- A command that passes every check has its effect, then its reply OK (R151). -/
theorem guarded_ok {code tag line checks effect} {s : State} (h : firstFailure checks = none) :
    guarded code tag line checks effect s = replyStatus code tag line .ok (effect s) := by
  unfold guarded; rw [h]

/-- A command that fails a check is answered with the status of the first that fails, and changes nothing (R151). -/
theorem guarded_refused {code tag line checks effect status} {s : State} (h : firstFailure checks = some status) :
    guarded code tag line checks effect s = s.withReply (s.replyRecord code tag line status []) := by
  unfold guarded; rw [h]; exact replyStatus_eq ..

/-! ### Words and frames -/

/-- A sent word changes the report word of the frame and the serialiser, and nothing else (R156). -/
theorem sendWord_eq (r : Record) (i : Nat) (s : State) :
    sendWord r i s = { s with
      wires := { s.wires with
        report := some (writeControl ⟨true, i = 0, r.words.length ≤ i + 1⟩, r.words.getD i 0) }
      report := { s.report with sending := if r.words.length ≤ i + 1 then none else some (r, i + 1) } } := by
  simp [sendWord, putReport, setSending]

/-- The words received and sent when a frame begins (R141, R142, R145). -/
theorem beginFrameWords_eq (f : Nat) (s : State) :
    beginFrameWords f true s = { s with wires :=
      ⟨silence, silence, some s.wires.upReceived, some s.wires.downReceived, frameFeedWords f s, f = 0, none, 0, 0⟩ } := rfl

/-! ### Slots -/

/-- A sense record that can arrive is the line's record, its slot passed (R141, R143). -/
theorem exec_senseRecord_of_arrives {s : State} {l : LineNo} (h : s.recordArrives l) (status i vt vr : Word16)
    (o : RecordOrder) : exec (.senseRecord l status i vt vr o) s = .next (senseRecord l status i vt vr o (s.recordPassed l)) := by
  obtain ⟨h1, h2, h3⟩ := h
  have h4 : 48 + l.val % 6 + 1 = 49 + l.val % 6 := by omega
  simp only [exec, execSenseRecord, inSync, h1, onSenseSlot, h2, onLineSlot, h3, if_true, h4]
  rfl

/-- A sense record outside its slot changes nothing (R141). -/
theorem exec_senseRecord_of_not_arrives {s : State} {l : LineNo} (h : ¬ s.recordArrives l) (status i vt vr : Word16)
    (o : RecordOrder) : exec (.senseRecord l status i vt vr o) s = .next s := by
  simp only [exec, execSenseRecord, inSync, onSenseSlot, onLineSlot]
  split
  · split
    · split
      · exact absurd ⟨‹_›, ‹_›, ‹_›⟩ h
      · rfl
    · rfl
  · rfl

/-- Management words that can arrive are the receiver's, their slot passed (R141, R149). -/
theorem exec_managementWord_of_arrives {s : State} (h : s.managementArrives) (control data : Word16) :
    exec (.managementWord control data) s = .next (managementWord control data s.managementPassed) := by
  obtain ⟨h1, h2⟩ := h
  simp only [exec, execManagementWord, inSync, h1, onManagementSlot, onTrunkSlot, h2, if_true]
  rfl

/-! ### Lapses -/

/-- A lapse of a load changes the table store and the REPLY queue, and nothing else (R166). -/
theorem loadLapseIfDue_eq (x : TableId) (s : State) :
    ∃ ts rs, loadLapseIfDue x s = { s with tables := ts, report := { s.report with reply := rs } } := by
  unfold loadLapseIfDue
  split
  · split
    · unfold offerReply
      split <;> exact ⟨_, _, rfl⟩
    · exact ⟨s.tables, s.report.reply, rfl⟩
  · exact ⟨s.tables, s.report.reply, rfl⟩

/-- The lapses still due change the table store and the REPLY queue, and nothing else (R166). -/
theorem dueLapses_eq (s : State) :
    ∃ ts rs, dueLapses s = { s with tables := ts, report := { s.report with reply := rs } } := by
  have h : ∀ (xs : List TableId) (u : State), ∃ ts rs,
      xs.foldl (fun s x => loadLapseIfDue x s) u = { u with tables := ts, report := { u.report with reply := rs } } := by
    intro xs
    induction xs with
    | nil => exact fun u => ⟨u.tables, u.report.reply, rfl⟩
    | cons x xs ih =>
      intro u
      obtain ⟨ts, rs, h1⟩ := loadLapseIfDue_eq x u
      obtain ⟨ts', rs', h2⟩ := ih (loadLapseIfDue x u)
      exact ⟨ts', rs', by rw [List.foldl_cons, h2, h1]⟩
  exact h allTables s

/-- In SYNC the lapses still due are the LOAD_LAPSE events of the six tables (R166). -/
theorem lapsesDue_dueLapses {s : State} (h : s.highway.sync = .sync) : LapsesDue s (dueLapses s) := by
  have key : ∀ (x : TableId) (u : State), u.highway = s.highway →
      exec (.loadLapse x) u = .next (loadLapseIfDue x u) ∧ (loadLapseIfDue x u).highway = s.highway := by
    intro x u hu
    refine ⟨?_, ?_⟩
    · simp only [exec, execLoadLapse, inSync, hu, h, if_true]
    · obtain ⟨ts, rs, e⟩ := loadLapseIfDue_eq x u
      rw [e]; exact hu
  obtain ⟨a1, a2⟩ := key .profile s rfl
  obtain ⟨b1, b2⟩ := key .tonePlan _ a2
  obtain ⟨c1, c2⟩ := key .cadence _ b2
  obtain ⟨d1, d2⟩ := key .faultPlan _ c2
  obtain ⟨e1, e2⟩ := key .testPlan _ d2
  exact ⟨_, _, _, _, _, a1, b1, c1, d1, e1, (key .settings _ e2).1⟩

/-- At the entry to HUNT each line keeps everything but a RUNNING tone engine, which is HELD (R61, R138). -/
theorem line_enterHunt (l : LineNo) (s : State) : (enterHunt s).line l = (s.line l).holdTone := by
  obtain ⟨ts, rs, h⟩ := dueLapses_eq s
  unfold enterHunt
  rw [h]
  simp [setSending, mapLines, State.line, modHighway, Vector.get_eq_getElem]

/-- The entry to HUNT keeps the engine and the receiver, and of the tables and the three queues what the lapses due leave
(R138, R166). -/
theorem enterHunt_keeps (s : State) :
    (enterHunt s).engine = s.engine ∧ (enterHunt s).receiver = s.receiver ∧ (enterHunt s).tables = (dueLapses s).tables ∧
      (enterHunt s).pending = s.pending ∧ (enterHunt s).report = { (dueLapses s).report with sending := none } := by
  obtain ⟨ts, rs, h⟩ := dueLapses_eq s
  unfold enterHunt
  rw [h]
  exact ⟨rfl, rfl, rfl, rfl, rfl⟩

end Sys2Proof.Machine
end

