-- ==== Sys2Proof/Laws/Records.lean ====
section
/-! SUPPORT. What the blocks of a line do with a sense record that the line uses: the timers, the recovery changes, the detector,
the sequencer and the test engine, each in the relation of Safety.lean that statements name. -/

namespace Sys2Proof.Machine

/-! ### Lines that use records -/

/-- Records of the line are used: the device is in SYNC and the line has its sense (R37). -/
structure UsesRecords (l : LineNo) (s : State) : Prop where
  sync : s.highway.sync = .sync
  sense : (s.line l).senseLost = false

/-- A line uses records after a step of its blocks too. -/
theorem UsesRecords.step {l : LineNo} {s t : State} (h : UsesRecords l s) (g : LineStep l s t) : UsesRecords l t :=
  ⟨by rw [g.highway]; exact h.sync, by rw [g.sense.lost]; exact h.sense⟩

theorem UsesRecords.setLine {l : LineNo} {s : State} (h : UsesRecords l s) {c : Line}
    (hc : c.senseLost = (s.line l).senseLost) : UsesRecords l (setLine l c s) :=
  ⟨h.sync, by rw [line_setLine_self, hc]; exact h.sense⟩

/-- An event of a record, on a line that uses records, does its work. -/
theorem whileUsed_of_uses {l : LineNo} {s : State} (h : UsesRecords l s) (f : State → State) :
    whileUsed l f s = f s := by
  unfold whileUsed
  rw [h.sync, h.sense]
  rfl

theorem Makes.of_eq {i : Instr} {s t t' : State} (h : Makes i s t) (e : t = t') : Makes i s t' := e ▸ h

/-- What an event of a record makes on a line that uses records. -/
theorem Makes.of_uses {i : Instr} {l : LineNo} {s : State} {f : State → State} (h : UsesRecords l s)
    (hf : OnlyLine l s (f s)) (hi : exec i s = .next (whileUsed l f s)) : Makes i s (f s) :=
  ⟨hi.trans (congrArg _ (whileUsed_of_uses h f)), hf.tables, hf.migrated⟩

theorem makes_lockout {l : LineNo} {s : State} (h : UsesRecords l s) : Makes (.lockout l) s (lockoutIfDue l s) :=
  .of_uses h (onlyLine_lockoutIfDue ..) rfl

theorem makes_stringTimeout {l : LineNo} {s : State} (h : UsesRecords l s) : Makes (.stringTimeout l) s (stringTimeoutIfDue l s) :=
  .of_uses h (onlyLine_stringTimeoutIfDue ..) rfl

theorem makes_debounceAccept {l : LineNo} {s : State} (h : UsesRecords l s) : Makes (.debounceAccept l) s (acceptIfDue l s) :=
  .of_uses h (onlyLine_acceptIfDue ..) rfl

theorem makes_release {l : LineNo} {s : State} (h : UsesRecords l s) : Makes (.release l) s (releaseIfDue l s) :=
  .of_uses h (onlyLine_releaseIfDue ..) rfl

theorem makes_makeConfirm {l : LineNo} {s : State} (h : UsesRecords l s) : Makes (.makeConfirm l) s (makeConfirmIfDue l s) :=
  .of_uses h (onlyLine_makeConfirmIfDue ..) rfl

theorem makes_seizure {l : LineNo} {s : State} (h : UsesRecords l s) : Makes (.seizure l) s (seizureIfDue l s) :=
  .of_uses h (onlyLine_seizureIfDue ..) rfl

theorem makes_digitEnd {l : LineNo} {s : State} (h : UsesRecords l s) : Makes (.digitEnd l) s (digitEndIfDue l s) :=
  .of_uses h (onlyLine_digitEndIfDue ..) rfl

theorem makes_ringTrip {l : LineNo} {s : State} (h : UsesRecords l s) : Makes (.ringTrip l) s (ringTripIfDue l s) :=
  .of_uses h (onlyLine_ringTripIfDue ..) rfl

theorem makes_ringOffTrip {l : LineNo} {s : State} (h : UsesRecords l s) : Makes (.ringOffTrip l) s (ringOffTripIfDue l s) :=
  .of_uses h (onlyLine_ringOffTripIfDue ..) rfl

theorem makes_ringStepExpire {l : LineNo} {s : State} (h : UsesRecords l s) : Makes (.ringStepExpire l) s (ringStepExpireIfDue l s) :=
  .of_uses h (onlyLine_ringStepExpireIfDue ..) rfl

/-! ### The timers -/

theorem timersHeld_iff (c : Line) : c.timersHeld = true ↔ c.TimersStand := by
  simp [Line.timersHeld, Line.digitInProgress, Line.TimersStand, or_assoc]

/-- The advance of both timers at a record (R12, R83, R85). -/
theorem timersTake_advance {l : LineNo} {s : State} (h : UsesRecords l s) :
    TimersTake l s (advanceString l (advanceLockout l s)) := by
  have hm := h.step (lineStep_advanceLockout l s)
  refine ⟨advanceLockout l s, ?_, ?_, ?_, ?_⟩
  · unfold advanceLockout dialling
    simp only [Bool.and_eq_true, Bool.or_eq_true, decide_eq_true_eq, Bool.not_eq_true', ← timersHeld_iff,
      Bool.not_eq_true]
    split
    · exact makes_lockout (h.setLine rfl)
    · rfl
  · intro he
    unfold advanceString
    simp [he]
  · intro he hlen
    unfold advanceString
    have he' : ((advanceLockout l s).line l).openString.isEmpty = false := by simpa using he
    simp only [he', Bool.false_eq_true, if_false]
    generalize advanceLockout l s = m at *
    have key : ∀ a : State, a.profile l = m.profile l → (a.line l).openString = (m.line l).openString →
        ClosesString l .limit a (compareString l true a) := by
      intro a hp ho
      unfold compareString
      rw [hp, ho, if_pos (by simpa using hlen)]
      exact closesString_closeString ..
    simp only [← timersHeld_iff]
    split
    · exact key m rfl rfl
    · exact key _ (by simp only [State.profile, State.profileFor, line_setLine_self]; rfl) (by rw [line_setLine_self])
  · intro he hlen
    unfold advanceString
    have he' : ((advanceLockout l s).line l).openString.isEmpty = false := by simpa using he
    simp only [he', Bool.false_eq_true, if_false]
    generalize advanceLockout l s = m at *
    have key : ∀ a : State, UsesRecords l a → a.profile l = m.profile l →
        (a.line l).openString = (m.line l).openString →
        Makes (.stringTimeout l) a (compareString l true a) := by
      intro a ha hp ho
      refine (makes_stringTimeout ha).of_eq ?_
      unfold stringTimeoutIfDue compareString
      rw [hp, ho]
      have hn : decide ((m.profile l).strMax ≤ (m.line l).openString.length) = false := by simpa using hlen
      simp only [hn, Bool.and_false]
    simp only [← timersHeld_iff]
    split
    · exact key m hm rfl rfl
    · exact key _ (hm.setLine rfl) (by simp only [State.profile, State.profileFor, line_setLine_self]; rfl)
        (by rw [line_setLine_self])

/-! ### Recovery -/

theorem interrupted_eq (x : Option Stamp) : errorEntry .interrupted (x.getD 0) = interruptedEntry x := rfl

/-- The recovery changes of a line's blocks (R38, R54, R62, R105). -/
theorem recovers_recoverLine {l : LineNo} {s : State} (h : UsesRecords l s) : Recovers l s (recoverLine l s) := by
  have hr : modLine l (fun c => { c.recoverRing with loop := c.loop.recover }) s = setLine l { s.line l with
      loop := { (s.line l).loop with
        run := none, edgeExpiry := none
        brk := (s.line l).loop.brk.map fun b => { b with interrupted := true } }
      ring :=
        if (s.line l).state = .ringing ∧ ringOnStep (s.line l).ring.step = true then
          { (s.line l).ring with window := [], windowSum := 0, tripRun := 0, armed := false, maskCount := 0 }
        else (s.line l).ring } s := by
    unfold modLine Line.recoverRing
    congr 1
    by_cases h1 : (s.line l).state = .ringing <;> by_cases h2 : ringOnStep (s.line l).ring.step = true <;>
      simp [h1, h2, RingSequencer.clearTrip, LoopDetector.recover]
  refine ⟨recoverPulse l (modLine l (fun c => { c.recoverRing with loop := c.loop.recover }) s), ?_, ?_⟩
  · rw [hr]
    unfold recoverPulse dialling
    simp only [line_setLine_self, Bool.and_eq_true, Bool.or_eq_true, decide_eq_true_eq, Option.isSome_map]
    split
    · refine ⟨_, ?_, rfl⟩
      rw [interrupted_eq]
      have hmap : ∀ b : Option Break,
          Option.map (fun x => x.stamp) (b.map fun b => { b with interrupted := true }) = b.map (·.stamp) := by
        intro b; cases b <;> rfl
      rw [hmap]
      refine takesEntry_takeEntry ?_ ..
      exact h.sync
    · rfl
  · unfold recoverLine
    have hm : UsesRecords l (recoverPulse l (modLine l (fun c => { c.recoverRing with loop := c.loop.recover }) s)) := by
      refine h.step (LineStep.trans (lineStep_modLine fun c => ?_) (lineStep_recoverPulse l _))
      exact outer_recoverRing c
    generalize recoverPulse l _ = m at hm ⊢
    unfold recoverTone
    simp only [modLine, ToneEngine.quieten, ToneEngine.abandonBlock, interrupted_eq]
    split
    · split
      · exact ⟨_, rfl, rfl⟩
      · refine ⟨_, takesEntry_takeEntry ?_ .., rfl⟩
        exact hm.sync
    · rfl

/-! ### The loop detector -/

theorem edgeMasked_iff (d : LoopDetector) (now : Stamp) : edgeMasked d now = true ↔ d.Masked now := by
  unfold edgeMasked LoopDetector.Masked
  cases d.edgeExpiry with
  | none => simp
  | some e =>
    have he : earlier now e = true ↔ 1 ≤ (e - now).toNat ∧ (e - now).toNat ≤ 32767 := by
      unfold earlier stampDistance
      dsimp only
      rw [Bool.and_eq_true, decide_eq_true_iff, decide_eq_true_iff]
    simpa using he

theorem rawBit_eq (p : Profile) (raw : Bool) (i : Int) :
    rawBit p raw i = if (p.onThr : Int) ≤ |i| then true else if |i| ≤ p.offThr then false else raw := by
  rw [← Int.natCast_natAbs]
  rfl

/-- The detector's work on one sample up to acceptance (R24 to R28). -/
theorem sampled_sampleDetector (p : Profile) (now : Stamp) (i : Int) (feedMasked : Bool) (d : LoopDetector) :
    d.Sampled p now i (feedMasked = true) (sampleDetector p now i feedMasked d) := by
  have hraw := rawBit_eq p d.raw i
  have hlevel : ∀ raw : Bool, levelOf raw = d.accepted ↔ (raw = true ↔ d.accepted = .loop) := by
    intro raw
    unfold levelOf
    cases raw <;> cases d.accepted <;> simp
  generalize hr : rawBit p d.raw i = raw at hraw
  have hm : edgeMasked (({ d with raw := raw } : LoopDetector).advanceTimers) now = edgeMasked d now := rfl
  unfold LoopDetector.Sampled
  simp only [← hraw, ← edgeMasked_iff, Bool.not_eq_true]
  unfold sampleDetector
  simp only [hr]
  by_cases he : edgeMasked d now = true
  · have hx : expireEdge now (({ d with raw := raw } : LoopDetector).advanceTimers) =
        (({ d with raw := raw } : LoopDetector).advanceTimers) := by unfold expireEdge; rw [hm, if_pos he]
    simp only [hx, hm, he, Bool.or_true, if_true, Bool.true_eq_false, false_implies, implies_true, and_true]
    exact ⟨rfl, fun _ => rfl, trivial, fun _ => rfl⟩
  · have he' : edgeMasked d now = false := by simpa using he
    have hx : expireEdge now (({ d with raw := raw } : LoopDetector).advanceTimers) =
        { (({ d with raw := raw } : LoopDetector).advanceTimers) with edgeExpiry := none } := by
      unfold expireEdge; rw [hm, if_neg he]
    have hn : ∀ d' : LoopDetector, edgeMasked { d' with edgeExpiry := none } now = false := fun _ => rfl
    simp only [hx, hn, he', Bool.or_false]
    cases feedMasked
    · simp only [Bool.false_eq_true, if_false, false_implies, true_implies, or_self, true_and]
      unfold extendRun
      have hl : levelOf ({ (({ d with raw := raw } : LoopDetector).advanceTimers) with edgeExpiry := none }).raw =
          ({ (({ d with raw := raw } : LoopDetector).advanceTimers) with edgeExpiry := none }).accepted ↔
            (raw = true ↔ d.accepted = .loop) := hlevel raw
      by_cases ha : (raw = true ↔ d.accepted = .loop)
      · rw [if_pos (hl.mpr ha)]
        exact ⟨rfl, rfl, fun _ => rfl, fun h => absurd ha h⟩
      · rw [if_neg (fun h => ha (hl.mp h))]
        simp only [LoopDetector.advanceTimers]
        cases d.run <;> simp [ha, advance, timerStop]
    · simp only [if_true, true_implies, Bool.true_eq_false, false_implies, implies_true, and_true, true_or]
      exact ⟨rfl, fun h => absurd h (by simp), trivial, rfl⟩

/-- What the detector does with a record it uses (R23). -/
theorem detectorUses_useDetector {l : LineNo} {s : State} (h : UsesRecords l s) (i : Int) (feedMasked : Bool) :
    DetectorUses l i (feedMasked = true) s (useDetector l i feedMasked s) := by
  let d := sampleDetector (s.profile l) s.stamp i feedMasked (s.line l).loop
  let sampled := setLine l { s.line l with loop := d } s
  let a := if !feedMasked && !edgeMasked (s.line l).loop s.stamp then acceptIfDue l sampled else sampled
  have hsampled : UsesRecords l sampled := h.setLine rfl
  have haif : a = if !feedMasked && !edgeMasked (s.line l).loop s.stamp then acceptIfDue l sampled else sampled := rfl
  have ha : UsesRecords l a := by
    rw [haif]
    split
    · exact hsampled.step (lineStep_acceptIfDue ..)
    · exact hsampled
  have hb := ha.step (lineStep_releaseIfDue l a)
  have he := hb.step (lineStep_makeConfirmIfDue l _)
  refine ⟨d, a, releaseIfDue l a, makeConfirmIfDue l (releaseIfDue l a), sampled_sampleDetector .., ?_, ?_,
    makes_release ha, makes_makeConfirm hb, makes_seizure he⟩
  · rw [← edgeMasked_iff]
    intro hm
    rw [haif, if_neg]
    rcases hm with hm | hm <;> simp [hm]
  · rw [← edgeMasked_iff]
    intro h1 h2
    rw [haif, if_pos (by simp [h1, h2])]
    exact makes_debounceAccept hsampled

/-! ### The ring sequencer -/

/-- What the sequencer does with a record of a RINGING line (R95, R98 to R102). -/
theorem sequencerUses_ringRecord {l : LineNo} {s : State} (h : UsesRecords l s) (i : Int) (held feedMasked : Bool) :
    SequencerUses l i held (feedMasked = true) s (ringRecord l i held feedMasked s) := by
  let m :=
    if ringOnStep (s.line l).ring.step = true then ringOnRecord l i held s else ringOffRecord l i feedMasked s
  have hm : UsesRecords l m := by
    show UsesRecords l (if ringOnStep (s.line l).ring.step = true then ringOnRecord l i held s else
      ringOffRecord l i feedMasked s)
    split
    · exact h.step (lineStep_ringOnRecord ..)
    · exact h.step (lineStep_ringOffRecord ..)
  refine ⟨m, ?_, ?_, ?_, ?_⟩
  · intro hon
    have hmo : m = ringOnRecord l i held s := if_pos hon
    rw [hmo]
    unfold ringOnRecord armRing
    simp only [modLine, setLine_setLine, line_setLine_self, RingSequencer.clearTrip, RingSequencer.reduceMask]
    generalize ha : (if (s.line l).appliedFeed = .ring then
        if (s.line l).ring.armed = true then (s.line l).ring
        else { (s.line l).ring with armed := true, maskCount := (s.profile l).rtMask }
      else if (s.line l).ring.armed = true then
        { (s.line l).ring with window := [], windowSum := 0, tripRun := 0, armed := false, maskCount := 0 }
      else (s.line l).ring) = armed
    refine ⟨?_, ?_, ?_, ?_⟩
    · intro h1; simp [h1]
    · intro h1 h2; simp [h1, h2]
    · intro h1 h2 h3; simp [h1, h2, h3]
    · intro h1 h2 h3
      refine (makes_ringTrip (h.setLine ?_)).of_eq ?_
      · rfl
      · simp [h1, h2, h3]
  · intro hoff
    have hmo : m = ringOffRecord l i feedMasked s := if_neg (by simp [hoff])
    rw [hmo]
    unfold ringOffRecord
    refine ⟨fun hs => if_neg hs, fun hs => ⟨useDetector l i feedMasked s, detectorUses_useDetector h .., ?_⟩⟩
    rw [if_pos hs]
    exact makes_ringOffTrip (h.step (lineStep_useDetector ..))
  · intro hst
    exact if_neg hst
  · intro hst
    refine (makes_ringStepExpire (hm.setLine ?_)).of_eq ?_
    · rfl
    · exact (if_pos hst).symm

/-! ### The test engine -/

/-- What a part of the engine's work on a record leaves alone: the tables but for migrations, the REPLY queue but for their
records, and the highway interface. -/
def KeepsStore (s t : State) : Prop := SameTables s t ∧ Migrated s t ∧ t.highway = s.highway

theorem KeepsStore.refl (s : State) : KeepsStore s s := ⟨.refl s, .refl s, rfl⟩

theorem KeepsStore.trans {s t u : State} (h : KeepsStore s t) (g : KeepsStore t u) : KeepsStore s u :=
  ⟨h.1.trans g.1, h.2.1.trans g.2.1 (by simp [State.stamp, h.2.2]) h.1 g.1, g.2.2.trans h.2.2⟩

theorem OnlyLine.keepsStore {l : LineNo} {s t : State} (h : OnlyLine l s t) : KeepsStore s t := ⟨h.tables, h.migrated, h.highway⟩

theorem keepsStore_modEngine (f) (s : State) : KeepsStore s (modEngine f s) := ⟨.of_eq rfl, .of_tables rfl rfl, rfl⟩

/-- The end of a test (R133, R134). -/
theorem keepsStore_finishTest (l : LineNo) (v c) (s : State) : KeepsStore s (finishTest l v c s) := by
  unfold finishTest freeEngine
  have h1 : OnlyLine l s (reportTest v c s) := by
    unfold reportTest
    split
    · exact onlyLine_offerAlarm l _ _ s
    · exact .refl l s
  have h2 : OnlyLine l s (returnLine l (reportTest v c s)) := h1.trans (onlyLine_move l ..)
  have h3 := (upToMigration_releaseBanks (modEngine (·.freed) (returnLine l (reportTest v c s)))).onlyLine l
  have h4 := engineStep_takeRequests (releaseBanks (modEngine (·.freed) (returnLine l (reportTest v c s))))
  exact ((h2.keepsStore.trans (keepsStore_modEngine ..)).trans h3.keepsStore).trans ⟨h4.tables, h4.migrated, h4.highway⟩

/-- An event of the test engine on its held line, which uses records, does its work. -/
theorem onHeldLine_of_uses {r : Request} {s : State} (h : UsesRecords r.line s) (hr : s.engine.held = some r)
    (f : LineNo → State → State) : onHeldLine f s = f r.line s := by
  unfold onHeldLine
  rw [hr]
  exact whileUsed_of_uses h (f r.line)

theorem keepsStore_testStepEndIfDue (l : LineNo) (s : State) : KeepsStore s (testStepEndIfDue l s) := by
  unfold testStepEndIfDue
  dsimp only
  split
  · split
    · exact ⟨.of_eq rfl, .of_tables rfl rfl, rfl⟩
    · exact (keepsStore_modEngine ..).trans (keepsStore_finishTest l _ _ _)
  · exact .refl s

theorem keepsStore_noEchoIfDue (l : LineNo) (s : State) : KeepsStore s (noEchoIfDue l s) := by
  unfold noEchoIfDue
  split
  · exact keepsStore_finishTest l _ _ s
  · exact .refl s

theorem makes_testStepEnd {r : Request} {s : State} (h : UsesRecords r.line s) (hr : s.engine.held = some r) :
    Makes .testStepEnd s (testStepEndIfDue r.line s) :=
  ⟨congrArg _ (onHeldLine_of_uses h hr testStepEndIfDue), (keepsStore_testStepEndIfDue ..).1,
    (keepsStore_testStepEndIfDue ..).2.1⟩

theorem makes_noEcho {r : Request} {s : State} (h : UsesRecords r.line s) (hr : s.engine.held = some r) :
    Makes .noEcho s (noEchoIfDue r.line s) :=
  ⟨congrArg _ (onHeldLine_of_uses h hr noEchoIfDue), (keepsStore_noEchoIfDue ..).1, (keepsStore_noEchoIfDue ..).2.1⟩

/-- What the test engine does with a record of the line under test (R130, R131, R134). -/
theorem engineUses_testRecord {r : Request} {s : State} {n : Nat} (h : UsesRecords r.line s) (hb : s.engine.busy = true)
    (hr : s.engine.held = some r) (hn : s.engine.step = some n) (hq : s.testQueueLawful) (e : Handed) :
    EngineUses r n e.i e.vt e.vr e.held s (testRecord r.line e s) := by
  have hstep : ∀ e' : TestEngine, e'.held = some r → e'.step = some n → e'.bank = s.engine.bank →
      ({ s with engine := e' } : State).currentStep =
        readTestStep (s.entry .testPlan (s.engine.bank.getD .a) (4 * kindCode r.kind + (n - 1))).words := by
    intro e' h1 h2 h3
    simp only [State.currentStep, State.testStepAt, h1, h2, h3]
    rfl
  have hs0 := hstep s.engine hr hn rfl
  change s.currentStep = _ at hs0
  have huse : ∀ e' : TestEngine, UsesRecords r.line ({ s with engine := e' } : State) :=
    fun e' => ⟨h.sync, h.sense⟩
  have hmeasure : ∀ e' : TestEngine, e'.held = some r → e'.step = some n → e'.bank = s.engine.bank →
      Makes .testStepEnd { s with engine :=
        let sample : Int :=
          match s.currentStep.quantity with
          | .tipDc | .tipAc => e.vt
          | .ringDc | .ringAc => e.vr
          | .loopI => e.i
        if e.held = true then { e' with phase := some .measure, measureTimer := e'.measureTimer + 1 }
        else { e' with
          phase := some .measure, measureTimer := e'.measureTimer + 1, sampleCount := e'.sampleCount + 1
          sampleSum := e'.sampleSum + sample
          sampleMax := some (e'.sampleMax.elim sample (max sample))
          sampleMin := some (e'.sampleMin.elim sample (min sample)) } }
        (measureStep r.line e { s with engine := { e' with phase := some .measure } }) := by
    intro e' h1 h2 h3
    refine (makes_testStepEnd (huse _) ?_).of_eq ?_
    · dsimp only; split <;> exact h1
    · unfold measureStep
      have hc := hstep { e' with phase := some .measure } h1 h2 h3
      rw [← hs0] at hc
      simp only [hc]
      congr 2
  unfold EngineUses
  simp only [← hs0]
  refine ⟨?_, ?_, ?_, ?_, ?_, ?_, ?_⟩
  · intro hp hne
    refine (makes_noEcho (huse _) ?_).of_eq ?_
    · exact hr
    · have ht : testRecord r.line e s = noEchoIfDue r.line (modEngine (fun e => { e with stepAge := e.stepAge + 1 }) s) := by
        unfold testRecord
        simp only [hp, hne, if_false]
      rw [ht]
      rfl
  · intro hp he hs
    unfold testRecord
    simp only [hp, he, if_true]
    unfold settleStep testSettleEndDue inPhase modEngine
    simp only [hb, Bool.true_and, decide_true]
    rw [if_neg (by simp; omega)]
  · intro hp he hs
    refine (hmeasure { s.engine with settleCount := 0 } hr hn rfl).of_eq ?_
    unfold testRecord
    simp only [hp, he, if_true]
    unfold settleStep testSettleEndIfDue testSettleEndDue inPhase modEngine
    simp only [hb, hs, Bool.true_and, decide_true, if_true]
  · intro hp he hs
    have ht : testRecord r.line e s = settleStep r.line e s := by
      unfold testRecord
      simp only [hp, he, if_true]
    rw [ht]
    unfold settleStep testSettleEndDue
    rw [if_neg (by simp; omega)]
    rfl
  · intro hp he hs
    refine (hmeasure s.engine hr hn rfl).of_eq ?_
    unfold testRecord
    simp only [hp, he, if_true]
    unfold settleStep testSettleEndIfDue testSettleEndDue inPhase modEngine
    simp only [hb, hs, hp, Bool.true_and, decide_true, if_true]
  · intro hp he
    refine (hmeasure s.engine hr hn rfl).of_eq ?_
    have ht : testRecord r.line e s = measureStep r.line e s := by
      unfold testRecord
      simp only [hp, he, if_true]
    have hs : ({ s with engine := { s.engine with phase := some .measure } } : State) = s := by rw [← hp]
    rw [ht, hs]
  · intro hp hne
    have ht : testRecord r.line e s = abortTest r.line .noEcho s := by
      unfold testRecord
      rcases hp with hp | hp <;> simp only [hp, hne, if_false]
    rw [ht]
    exact endsTest_finishTest _ _ h.sync hr hq

/-! ### The check of a record -/

/-- The state with the ALARM queue and its flag replaced. -/
def withAlarm (a : List Record) (b : Bool) (s : State) : State :=
  { s with report := { s.report with alarm := a, alarmLost := b } }

theorem setLine_withAlarm (l c a b) (s : State) : setLine l c (withAlarm a b s) = withAlarm a b (setLine l c s) := rfl

theorem offerAlarm_eq (o p) (s : State) : ∃ a b, offerAlarm o p s = withAlarm a b s := by
  unfold offerAlarm; split
  · exact ⟨_, _, rfl⟩
  · exact ⟨s.report.alarm, _, rfl⟩

/-- The FEED_STUCK check (R146). -/
theorem feedStuckIfDue_eq (l : LineNo) (f : FeedCode) (s : State) (d : Line) :
    ∃ a b, feedStuckIfDue l f (setLine l d s) = withAlarm a b (setLine l { d with
      feedStuck := d.feedStuck || (f != d.commandedFeed && decide (16 ≤ d.mismatchRun)) } s) := by
  have hd : feedStuckDue (setLine l d s) l f =
      ((f != d.commandedFeed && decide (16 ≤ d.mismatchRun)) && !d.feedStuck) := by
    simp only [feedStuckDue, line_setLine_self, stuckLimit]
  unfold feedStuckIfDue
  rw [hd]
  simp only [line_setLine_self, modLine_setLine]
  generalize (f != d.commandedFeed && decide (16 ≤ d.mismatchRun)) = due
  have heq : ∀ b, b = d.feedStuck → ({ d with feedStuck := b } : Line) = d := fun b h => by rw [h]
  split
  · rename_i h
    obtain ⟨a, b, h2⟩ := offerAlarm_eq (some l) (.feedStuck d.commandedFeed f) (setLine l { d with feedStuck := true } s)
    have : (d.feedStuck || due) = true := by revert h; cases due <;> cases d.feedStuck <;> simp
    exact ⟨a, b, by rw [this]; exact h2⟩
  · rename_i h
    have : (d.feedStuck || due) = d.feedStuck := by revert h; cases due <;> cases d.feedStuck <;> simp
    exact ⟨s.report.alarm, s.report.alarmLost, by rw [heq _ this]; rfl⟩

/-- The comparison of a valid record's echo (R146). -/
theorem compareEcho_eq (l : LineNo) (f : FeedCode) (s : State) (d : Line) :
    let run := if f = d.commandedFeed then 0 else min 16 (d.mismatchRun + 1)
    ∃ a b, compareEcho l f (setLine l d s) = withAlarm a b (setLine l { d with
      mismatchRun := run
      feedStuck := if f = d.commandedFeed then false else d.feedStuck || decide (run = 16) } s) := by
  unfold compareEcho
  simp only [line_setLine_self, modLine_setLine]
  split
  · split
    · obtain ⟨a, b, h2⟩ := offerAlarm_eq (some l) (.feedOk f) (setLine l { d with mismatchRun := 0, feedStuck := false } s)
      exact ⟨a, b, h2⟩
    · exact ⟨s.report.alarm, s.report.alarmLost, rfl⟩
  · rename_i h
    obtain ⟨a, b, h2⟩ := feedStuckIfDue_eq l f s { d with mismatchRun := advance stuckLimit d.mismatchRun }
    refine ⟨a, b, ?_⟩
    rw [h2]
    have : (decide (16 ≤ advance stuckLimit d.mismatchRun)) = decide (min 16 (d.mismatchRun + 1) = 16) := by
      simp only [advance, stuckLimit]; congr 1; exact propext ⟨fun h => by omega, fun h => by omega⟩
    have h3 : (f != d.commandedFeed) = true := by simpa using h
    simp only [this, h3, Bool.true_and]
    rfl

/-- The return of sense at a valid record (R144). -/
theorem senseBack_eq (l : LineNo) (s : State) :
    ∃ a b, (if (s.line l).senseLost = true then
        offerAlarm (some l) .senseBack (modLine l (fun c => { c with senseLost := false }) s) else s) =
      withAlarm a b (setLine l { s.line l with senseLost := false } s) := by
  split
  · obtain ⟨a, b, h⟩ := offerAlarm_eq (some l) .senseBack (modLine l (fun c => { c with senseLost := false }) s)
    exact ⟨a, b, h⟩
  · rename_i h
    have h' : (s.line l).senseLost = false := by simpa using h
    have : ({ s.line l with senseLost := false } : Line) = s.line l := by rw [← h']
    exact ⟨s.report.alarm, s.report.alarmLost, by rw [this, setLine_line]; rfl⟩

/-- The record as it is handed (R143, R110). -/
def Line.handedRecord (c : Line) (echo : Option FeedCode) (i vt vr : Word16) : Handed :=
  match echo with
  | some f => ⟨clamped i, clamped vt, clamped vr, false, f != c.appliedFeed, false, c.state = .test⟩
  | none => ⟨c.lastI, c.lastVt, c.lastVr, true, false, false, c.state = .test⟩

/-- A record that the line uses is checked, compared and applied, and handed with the feed-mask count that it meets
(R25, R143, R146). -/
structure Checked (l : LineNo) (echo : Option FeedCode) (i vt vr : Word16) (p m : State) : Prop where
  count : (m.line l).loop.feedMask = (p.line l).maskCount (p.profile l).feedMask echo
  reduced : ∃ a b, modLine l (fun c => { c with loop := c.loop.reduceMask }) m =
    withAlarm a b (setLine l ((p.line l).checked (p.profile l).feedMask echo i vt vr) p)

/-- The handing of a valid record (R143, R144, R146). -/
theorem validRecord_eq (l : LineNo) (f : FeedCode) (i vt vr : Word16) (o) (p : State) :
    ∃ m, Checked l (some f) i vt vr p m ∧
      validRecord l f (clampSense i) (clampSense vt) (clampSense vr) o p =
        handRecord l ((p.line l).handedRecord (some f) i vt vr) (p.line l).senseLost o m := by
  obtain ⟨a0, b0, hb⟩ := senseBack_eq l p
  generalize hc : p.line l = c at hb
  let d : Line :=
    { c with senseLost := false, lastI := clamped i, lastVt := clamped vt, lastVr := clamped vr, invalidRun := 0 }
  obtain ⟨a, b, h⟩ := compareEcho_eq l f (withAlarm a0 b0 p) d
  have hprof : (setLine l d (withAlarm a0 b0 p)).profile l = p.profile l := by
    simp only [State.profile, line_setLine_self, hc]; rfl
  let run := if f = c.commandedFeed then 0 else min 16 (c.mismatchRun + 1)
  refine ⟨setLine l { d with
      appliedFeed := f, mismatchRun := run
      feedStuck := if f = c.commandedFeed then false else c.feedStuck || decide (run = 16)
      loop := { c.loop with feedMask := c.maskCount (p.profile l).feedMask (some f) } } (withAlarm a b p), ⟨?_, ?_⟩, ?_⟩
  · rw [line_setLine_self, hc]
  · refine ⟨a, b, ?_⟩
    rw [modLine_setLine, hc]
    rfl
  · unfold validRecord
    simp only [hc]
    rw [hb]
    have e1 : modLine l (fun c => { c with
          lastI := clampSense i, lastVt := clampSense vt, lastVr := clampSense vr, invalidRun := 0 })
        (withAlarm a0 b0 (setLine l { c with senseLost := false } p)) = setLine l d (withAlarm a0 b0 p) := by
      rw [← setLine_withAlarm, modLine_setLine]; rfl
    rw [e1]
    simp only [line_setLine_self]
    rw [h, hprof, ← setLine_withAlarm, modLine_setLine]
    have hl : (applyEcho (p.profile l).feedMask f c).loop =
        { c.loop with feedMask := c.maskCount (p.profile l).feedMask (some f) } := by
      unfold applyEcho Line.maskCount
      by_cases h : f = c.appliedFeed <;> simp [h]
    simp only [line_setLine_self]
    rw [← hl]
    rfl

/-- The handing of an invalid record that leaves the line with its sense (R143, R144). -/
theorem invalidRecord_eq (l : LineNo) (i vt vr : Word16) (o) (p : State) (hu : (p.line l).usesRecord none) :
    ∃ m, Checked l none i vt vr p m ∧
      invalidRecord l o p = handRecord l ((p.line l).handedRecord none i vt vr) (p.line l).senseLost o m := by
  generalize hc : p.line l = c at hu
  obtain ⟨hs, hr⟩ : c.senseLost = false ∧ (c.state = .disabled ∨ c.invalidRun < 7) := by
    rcases hu with hu | hu
    · cases hu
    · exact hu
  refine ⟨setLine l { c with invalidRun := advance lossLimit c.invalidRun } p, ⟨?_, ?_⟩, ?_⟩
  · rw [line_setLine_self, hc]
    simp [Line.maskCount]
  · refine ⟨p.report.alarm, p.report.alarmLost, ?_⟩
    rw [modLine_setLine, hc]
    simp only [Line.checked, Line.maskCount, LoopDetector.reduceMask]
    simp
    rfl
  · unfold invalidRecord
    have hm : modLine l (fun c => { c with invalidRun := advance lossLimit c.invalidRun }) p =
        setLine l { c with invalidRun := advance lossLimit c.invalidRun } p := by rw [modLine, hc]
    have hn : senseLostIfDue l (setLine l { c with invalidRun := advance lossLimit c.invalidRun } p) =
        setLine l { c with invalidRun := advance lossLimit c.invalidRun } p := by
      unfold senseLostIfDue senseLostDue
      simp only [line_setLine_self]
      rw [if_neg]
      rcases hr with hr | hr
      · simp [hr]
      · simp [advance, lossLimit]; omega
    rw [hm, hn]
    simp only [line_setLine_self, hs]
    simp only [Line.handedRecord]

/-- The echo of a status word. -/
theorem validEcho_of_carries {status : Word16} {echo : Option FeedCode} (h : carriesEcho status echo) :
    validEcho status = echo := by
  unfold validEcho
  cases echo with
  | none =>
    rcases h with h | h
    · simp [h]
    · have : feedOfCode 7 = none := rfl
      rw [h, this, ite_self]
  | some f =>
    obtain ⟨h1, h2⟩ := h
    rw [h1, h2]
    cases f <;> rfl

/-- A record that the line uses, as it is handed (R143). -/
theorem senseRecord_of_uses {l : LineNo} {status : Word16} {echo : Option FeedCode} (i vt vr : Word16) (o) {p : State}
    (hc : carriesEcho status echo) (hu : (p.line l).usesRecord echo) :
    ∃ m, Checked l echo i vt vr p m ∧
      senseRecord l status i vt vr o p = handRecord l ((p.line l).handedRecord echo i vt vr) (p.line l).senseLost o m := by
  unfold senseRecord
  rw [validEcho_of_carries hc]
  cases echo with
  | none => exact invalidRecord_eq l i vt vr o p hu
  | some f => exact validRecord_eq l f i vt vr o p

/-! ### The fault monitor -/

/-- What the monitor gathers, in the relation that statements name. -/
theorem gathers_eq (c : Line) (stamp : Stamp) (echo : Option FeedCode) (i vt vr : Word16) :
    c.gathers stamp echo i vt vr false =
      (if startsWindow stamp c.monitor = true then c.monitor.startWindow stamp else c.monitor).accumulate
        (c.handedRecord echo i vt vr) := by
  have hs : startsWindow stamp c.monitor = true ↔ c.StartsWindow stamp := by
    unfold startsWindow Line.StartsWindow windowLength stampDistance
    rw [Bool.or_eq_true, decide_eq_true_iff, decide_eq_true_iff]
  unfold Line.gathers
  simp only [hs]
  cases echo with
  | none =>
    split <;> rfl
  | some f =>
    split <;> rfl

theorem startsWindow_iff (c : Line) (stamp : Stamp) : startsWindow stamp c.monitor = true ↔ c.StartsWindow stamp := by
  unfold startsWindow Line.StartsWindow windowLength stampDistance
  rw [Bool.or_eq_true, decide_eq_true_iff, decide_eq_true_iff]

/-- A record gathered, behind the binding of the selector where a window begins (R109 steps 1 to 3). -/
theorem gatherRecord_eq (l : LineNo) (h : Handed) (s : State) :
    let g := if startsWindow s.stamp (s.line l).monitor = true then bindFaultPlan l s else s
    modLine l (fun c => { c with monitor := c.monitor.accumulate h }) (startWindowIfDue l s) = setLine l { g.line l with
      monitor :=
        (if startsWindow s.stamp (s.line l).monitor = true then (s.line l).monitor.startWindow s.stamp
          else (s.line l).monitor).accumulate h } g := by
  have hb : ((bindFaultPlan l s).line l).monitor = (s.line l).monitor := by
    unfold bindFaultPlan; rw [line_releaseBank, line_modLine_self]
  unfold startWindowIfDue
  by_cases hd : startsWindow s.stamp (s.line l).monitor = true
  · simp only [hd, if_true, modLine, setLine_setLine, line_setLine_self, hb]
  · simp only [hd, modLine]
    rfl

/-- What the fault monitor does with a record that its line uses (R109, R110). -/
theorem monitorTakes_monitorRecord {s : State} (hs : s.highway.sync = .sync) (l : LineNo) (c : Line) (echo : Option FeedCode)
    (i vt vr : Word16) : MonitorTakes l c echo i vt vr s (monitorRecord l (c.handedRecord echo i vt vr) s) := by
  have hg := gatherRecord_eq l (c.handedRecord echo i vt vr) s
  have ht := gathers_eq { c with monitor := (s.line l).monitor } s.stamp echo i vt vr
  have hw := startsWindow_iff { c with monitor := (s.line l).monitor } s.stamp
  have hh : ({ c with monitor := (s.line l).monitor } : Line).handedRecord echo i vt vr = c.handedRecord echo i vt vr := by
    cases echo <;> rfl
  rw [hh] at ht
  dsimp only at hg
  generalize hgd : (if startsWindow s.stamp (s.line l).monitor = true then bindFaultPlan l s else s) = g at hg
  have hgh : g.highway = s.highway := by
    rw [← hgd]
    split
    · exact (onlyLine_bindFaultPlan l s).highway
    · rfl
  refine ⟨g, ?_, ?_, ?_⟩
  · intro h
    rw [← hgd, if_pos (hw.mpr h)]
    refine exec_commitDone ?_ .faultPlan
    exact hs
  · intro h
    rw [← hgd, if_neg (fun x => h (hw.mp x))]
  · unfold monitorRecord
    dsimp only
    rw [ht, hg]
    generalize hgs : setLine l _ g = gathered
    have hgh' : gathered.highway = s.highway := by rw [← hgs]; exact hgh
    split
    · refine ⟨?_, (onlyLine_windowCloseIfDue ..).tables, (onlyLine_windowCloseIfDue ..).migrated⟩
      simp only [exec, execFaultWindowClose, inSync, hgh', hs, if_true]
    · rename_i h63
      unfold windowCloseIfDue windowCloseDue
      rw [if_neg]
      unfold State.stamp at h63 ⊢
      rw [hgh']
      simp [windowLength, h63]

/-! ### States at a record -/

theorem state_move (l : LineNo) (new cause f) (s : State) : ((move l new cause f s).line l).state = new := by
  rw [line_move]
  exact congrArg Line.state (steady_enter l new cause f s)

theorem state_advanceLockout (l : LineNo) (s : State) :
    ((advanceLockout l s).line l).state = (s.line l).state ∨
      dialling (s.line l).state = true ∧ ((advanceLockout l s).line l).state = .lockout := by
  unfold advanceLockout
  dsimp only
  split
  · rename_i h
    simp only [Bool.and_eq_true] at h
    unfold lockoutIfDue
    split
    · exact .inr ⟨h.1, state_move ..⟩
    · rw [line_modLine_self]; exact .inl rfl
  · exact .inl rfl

theorem state_advanceString (l : LineNo) (s : State) : ((advanceString l s).line l).state = (s.line l).state := by
  have hc : ∀ (b : Bool) (u : State), ((compareString l b u).line l).state = (u.line l).state := by
    intro b u
    unfold compareString
    split
    · exact state_closeString ..
    · split
      · exact state_closeString ..
      · rfl
  unfold advanceString
  dsimp only
  split
  · rfl
  · rw [hc]
    split
    · rfl
    · rw [line_modLine_self]

/-- The state stays, or a SEIZED line is DIALLING. -/
def MayDial (l : LineNo) (s t : State) : Prop :=
  (t.line l).state = (s.line l).state ∨ (s.line l).state = .seized ∧ (t.line l).state = .dialling

theorem mayDial_takeEntry (l : LineNo) (e) (s : State) : MayDial l s (takeEntry l e s) := by
  have hst : ((placeEntry l e (modLine l Line.entryMade s)).line l).state = (s.line l).state := by
    have h := congrArg Line.state (steady_placeEntry l e (modLine l Line.entryMade s))
    rw [line_modLine_self] at h
    exact h
  have ht : takeEntry l e s =
      if ((placeEntry l e (modLine l Line.entryMade s)).line l).state = .seized then
        move l .dialling .firstDigit id (placeEntry l e (modLine l Line.entryMade s))
      else placeEntry l e (modLine l Line.entryMade s) := rfl
  rw [ht, hst]
  split
  · rename_i h
    exact .inr ⟨h, state_move ..⟩
  · exact .inl hst

theorem state_modLine {l : LineNo} {f : Line → Line} (hf : ∀ c, (f c).state = c.state) (s : State) :
    ((modLine l f s).line l).state = (s.line l).state := by rw [line_modLine_self]; exact hf _

theorem MayDial.trans {l : LineNo} {s t u : State} (h : MayDial l s t) (g : MayDial l t u) : MayDial l s u := by
  rcases h with h | ⟨h1, h2⟩
  · rcases g with g | ⟨g1, g2⟩
    · exact .inl (g.trans h)
    · exact .inr ⟨h.symm.trans g1, g2⟩
  · rcases g with g | ⟨g1, _⟩
    · exact .inr ⟨h1, g.trans h2⟩
    · rw [h2] at g1; cases g1

theorem mayDial_modLine {l : LineNo} {f : Line → Line} (hf : ∀ c, (f c).state = c.state) (s : State) :
    MayDial l s (modLine l f s) := .inl (state_modLine hf s)

theorem mayDial_recoverPulse (l : LineNo) (s : State) : MayDial l s (recoverPulse l s) := by
  unfold recoverPulse
  dsimp only
  split
  · refine MayDial.trans ?_ (mayDial_modLine (by intro c; rfl) _)
    exact mayDial_takeEntry ..
  · exact .inl rfl

theorem mayDial_recoverTone (l : LineNo) (s : State) : MayDial l s (recoverTone l s) := by
  unfold recoverTone
  dsimp only
  split
  · refine MayDial.trans ?_ (mayDial_modLine (by intro c; rfl) _)
    split
    · exact mayDial_modLine (by intro c; rfl) _
    · exact MayDial.trans (mayDial_modLine (by intro c; rfl) _) (mayDial_takeEntry l _ _)
  · exact .inl rfl

theorem mayDial_recoverLine (l : LineNo) (s : State) : MayDial l s (recoverLine l s) := by
  unfold recoverLine
  refine MayDial.trans ?_ ((mayDial_recoverPulse l _).trans (mayDial_recoverTone l _))
  refine .inl ?_
  rw [line_modLine_self]
  exact Line.state_of_outer (outer_recoverRing _)

theorem highway_settleStep (l : LineNo) (e : Handed) (s : State) : (settleStep l e s).highway = s.highway := by
  unfold settleStep testSettleEndIfDue measureStep
  split
  · split <;> exact (keepsStore_testStepEndIfDue l _).2.2
  · rfl

/-- The blocks' work on a record keeps the highway interface. -/
theorem highway_blocksRecord (l : LineNo) (e : Handed) (b : Bool) (s : State) :
    (blocksRecord l e b s).highway = s.highway := by
  unfold blocksRecord
  split
  · split
    · unfold testRecord
      dsimp only
      split
      · split
        · exact highway_settleStep ..
        · exact (keepsStore_noEchoIfDue l _).2.2
      · split
        · exact highway_settleStep ..
        · exact (keepsStore_finishTest l .aborted (some .noEcho) _).2.2
      · split
        · exact (keepsStore_testStepEndIfDue l _).2.2
        · exact (keepsStore_finishTest l .aborted (some .noEcho) _).2.2
      · rfl
    · rfl
  · exact (onlyLine_ringRecord ..).highway
  iterate 5 exact ((onlyLine_useDetector ..).trans (onlyLine_digitEndIfDue ..)).highway
  · rfl
  · rfl

/-- The states that the timers and the recovery lead to. -/
def Follows (a b : LineState) : Prop := b = a ∨ dialling a = true ∧ b = .lockout ∨ a = .seized ∧ b = .dialling

/-- What a line does with a record that it uses, from the checked record on: `B` is what its blocks do with the record, and `M`
what its fault monitor does. -/
theorem recordUsed_handRecord {l : LineNo} {h : Handed} {n : Nat} {back : Bool} {o : RecordOrder} {m u : State}
    (hl : h.lost = false) (hcount : (m.line l).loop.feedMask = n)
    (hred : modLine l (fun c => { c with loop := c.loop.reduceMask }) m = u) (hu : UsesRecords l u)
    {B M : State → State → Prop}
    (hB : ∀ w, UsesRecords l w → w.engine = u.engine → Follows (u.line l).state (w.line l).state →
      ((u.line l).state = .test ↔ (w.line l).state = .test) → (u.line l).SameSense (w.line l) →
      B w (if back && testHeld u l then abortTest l .senseLost w else blocksRecord l h (1 ≤ n) w))
    (hM : ∀ y : State, y.highway.sync = .sync → M y (monitorRecord l h y)) :
    let uses (a b : State) : Prop := ∃ w,
      (back = true ∨ (u.line l).recoveryDue = true → Recovers l a w) ∧
      (back = false → (u.line l).recoveryDue = false → w = a) ∧ B w b
    ∃ v x y z, TimersTake l u v ∧
      (o = .blocksFirst → uses v x ∧ M x y) ∧
      (o = .monitorFirst → M v x ∧
        ((x.line l).state = (v.line l).state → uses x y) ∧ ((x.line l).state ≠ (v.line l).state → y = x)) ∧
      Examines l (setLine l { y.line l with entryMark := false, recoveryDue := false } y) z ∧
      MigrationsComplete z (handRecord l h back o m) := by
  intro uses
  have gv : LineStep l u (advanceString l (advanceLockout l u)) :=
    (lineStep_advanceLockout l u).trans (lineStep_advanceString l _)
  have ht := timersTake_advance hu
  have hf : Follows (u.line l).state ((advanceString l (advanceLockout l u)).line l).state ∧
      (((advanceString l (advanceLockout l u)).line l).state = (u.line l).state ∨
        ((advanceString l (advanceLockout l u)).line l).state = .lockout) := by
    rw [state_advanceString]
    rcases state_advanceLockout l u with h | ⟨h1, h2⟩
    · exact ⟨.inl h, .inl h⟩
    · exact ⟨.inr (.inl ⟨h1, h2⟩), .inr h2⟩
  have hx : handRecord l h back o m = releaseBanks (examine l (modLine l
      (fun c => { c with entryMark := false, recoveryDue := false })
      (useRecord l h (1 ≤ n) back o (advanceString l (advanceLockout l u))))) := by
    unfold handRecord
    rw [hl, hcount, hred]
    rfl
  rw [hx]
  clear hx
  generalize advanceString l (advanceLockout l u) = v at gv ht hf
  have uv := hu.step gv
  have core : ∀ v' : State, LineStep l v v' → (v'.line l).state = (v.line l).state →
      uses v' (useBlocks l h (1 ≤ n) back v') ∧ (useBlocks l h (1 ≤ n) back v').highway = v'.highway := by
    intro v' g hst
    have hrec : (v'.line l).recoveryDue = (u.line l).recoveryDue := (gv.trans g).sense.recovery
    have hfol : ∀ w, MayDial l v' w → Follows (u.line l).state (w.line l).state := by
      intro w h2
      rcases h2 with h2 | ⟨h2, h3⟩
      · rw [h2, hst]; exact hf.1
      · rw [hst] at h2
        rcases hf.2 with h4 | h4
        · exact .inr (.inr ⟨by rw [← h4, h2], h3⟩)
        · rw [h4] at h2; cases h2
    obtain ⟨w, hw, gw, dw, r1, r2⟩ : ∃ w, (if back || (v'.line l).recoveryDue then recoverLine l v' else v') = w ∧
        LineStep l v' w ∧ MayDial l v' w ∧
        (back = true ∨ (u.line l).recoveryDue = true → Recovers l v' w) ∧
        (back = false → (u.line l).recoveryDue = false → w = v') := by
      refine ⟨_, rfl, ?_, ?_, ?_, ?_⟩
      · split
        · exact lineStep_recoverLine l _
        · exact .refl _ _
      · split
        · exact mayDial_recoverLine l _
        · exact .inl rfl
      · intro hh
        rw [if_pos (by rw [hrec]; simpa using hh)]
        exact recovers_recoverLine (hu.step (gv.trans g))
      · intro h1 h2
        rw [if_neg (by rw [hrec, h1, h2]; simp)]
    have G := (gv.trans g).trans gw
    have hb : useBlocks l h (1 ≤ n) back v' =
        if back && testHeld u l then abortTest l .senseLost w else blocksRecord l h (1 ≤ n) w := by
      unfold useBlocks
      dsimp only
      have : testHeld w l = testHeld u l := by unfold testHeld; rw [G.engine]
      rw [hw, this]
    rw [hb]
    refine ⟨⟨w, r1, r2, hB w (hu.step G) G.engine (hfol w dw) G.test.symm G.sense⟩, ?_⟩
    split
    · exact ((keepsStore_finishTest l .aborted (some .senseLost) w).2.2).trans gw.highway
    · exact (highway_blocksRecord ..).trans gw.highway
  have fin : ∀ y : State, y.highway.sync = .sync →
      ∃ z, Examines l (setLine l { y.line l with entryMark := false, recoveryDue := false } y) z ∧ MigrationsComplete z
        (releaseBanks (examine l (modLine l (fun c => { c with entryMark := false, recoveryDue := false }) y))) :=
    fun y hy => ⟨_, examines_examine .., migrationsComplete_releaseBanks (by rw [(onlyLine_examine l _).highway]; exact hy)⟩
  cases o with
  | blocksFirst =>
    obtain ⟨h1, h2⟩ := core v (.refl _ _) rfl
    obtain ⟨z, h3, h4⟩ := fin (useRecord l h (1 ≤ n) back .blocksFirst v)
      (by show (monitorRecord l h _).highway.sync = .sync
          rw [(onlyLine_monitorRecord ..).highway, h2]; exact uv.sync)
    exact ⟨v, _, _, z, ht, fun _ => ⟨h1, hM _ (by rw [h2]; exact uv.sync)⟩, (fun e => by cases e), h3, h4⟩
  | monitorFirst =>
    have hmv : (monitorRecord l h v).highway = v.highway := (onlyLine_monitorRecord ..).highway
    obtain ⟨z, h3, h4⟩ := fin (useRecord l h (1 ≤ n) back .monitorFirst v) (by
      unfold useRecord
      dsimp only
      split
      · rename_i he
        rw [(core _ (lineStep_monitorRecord ..) he).2, hmv]; exact uv.sync
      · rw [hmv]; exact uv.sync)
    refine ⟨v, monitorRecord l h v, _, z, ht, (fun e => by cases e), fun _ => ⟨hM _ uv.sync, ?_, ?_⟩, h3, h4⟩
    · intro he
      have : useRecord l h (1 ≤ n) back .monitorFirst v = useBlocks l h (1 ≤ n) back (monitorRecord l h v) := if_pos he
      rw [this]
      exact (core _ (lineStep_monitorRecord ..) he).1
    · intro he
      exact if_neg he

/-- What SENSE_RECORD does with a record that the line uses, given what the line's blocks do with it. -/
theorem recordUsed_senseRecord {l : LineNo} {status i vt vr : Word16} {o : RecordOrder} {echo : Option FeedCode} {s : State}
    (ha : s.recordArrives l) (hc : carriesEcho status echo) (hu : (s.line l).usesRecord echo)
    (B : Prop → State → State → Prop)
    (hB : ∀ w, UsesRecords l w → w.engine = s.engine → Follows (s.line l).state (w.line l).state →
      ((s.line l).state = .test ↔ (w.line l).state = .test) →
      (w.line l).lastI = ((s.line l).handedRecord echo i vt vr).i →
      (w.line l).lastVt = ((s.line l).handedRecord echo i vt vr).vt →
      (w.line l).lastVr = ((s.line l).handedRecord echo i vt vr).vr →
      B (1 ≤ (s.line l).maskCount (s.profile l).feedMask echo) w
        (if (s.line l).senseLost && testHeld s l then abortTest l .senseLost w
          else blocksRecord l ((s.line l).handedRecord echo i vt vr)
            (1 ≤ (s.line l).maskCount (s.profile l).feedMask echo) w)) :
    ∃ t, exec (.senseRecord l status i vt vr o) s = .next t ∧ RecordUsed l o echo i vt vr B s t := by
  obtain ⟨m, hm, he⟩ := senseRecord_of_uses i vt vr o (p := s.recordPassed l) hc hu
  obtain ⟨a, b, hr⟩ : ∃ a b, modLine l (fun c => { c with loop := c.loop.reduceMask }) m =
      withAlarm a b (setLine l ((s.line l).checked (s.profile l).feedMask echo i vt vr) (s.recordPassed l)) := hm.reduced
  have hlost : ((s.line l).checked (s.profile l).feedMask echo i vt vr).senseLost = false := by
    unfold Line.checked
    cases echo with
    | none => exact (hu.resolve_left (by simp)).1
    | some f => rfl
  have hU : UsesRecords l (withAlarm a b
      (setLine l ((s.line l).checked (s.profile l).feedMask echo i vt vr) (s.recordPassed l))) := by
    refine ⟨ha.1, ?_⟩
    show ((setLine l _ _).line l).senseLost = false
    rw [line_setLine_self, hlost]
  have hline : (withAlarm a b (setLine l ((s.line l).checked (s.profile l).feedMask echo i vt vr) (s.recordPassed l))).line l =
      (s.line l).checked (s.profile l).feedMask echo i vt vr := line_setLine_self ..
  have hrec : ((s.line l).checked (s.profile l).feedMask echo i vt vr).recoveryDue = (s.line l).recoveryDue := by
    unfold Line.checked; cases echo <;> rfl
  have hst : ((s.line l).checked (s.profile l).feedMask echo i vt vr).state = (s.line l).state := by
    unfold Line.checked; cases echo <;> rfl
  have hI : ((s.line l).checked (s.profile l).feedMask echo i vt vr).lastI = ((s.line l).handedRecord echo i vt vr).i ∧
      ((s.line l).checked (s.profile l).feedMask echo i vt vr).lastVt = ((s.line l).handedRecord echo i vt vr).vt ∧
      ((s.line l).checked (s.profile l).feedMask echo i vt vr).lastVr = ((s.line l).handedRecord echo i vt vr).vr := by
    unfold Line.checked; cases echo <;> exact ⟨rfl, rfl, rfl⟩
  obtain ⟨v, x, y, z, e1, e2, e3, e4, e5⟩ := recordUsed_handRecord (o := o)
    (h := (s.line l).handedRecord echo i vt vr) (n := (s.line l).maskCount (s.profile l).feedMask echo)
    (back := (s.line l).senseLost)
    (B := B (1 ≤ (s.line l).maskCount (s.profile l).feedMask echo)) (M := MonitorTakes l (s.line l) echo i vt vr)
    (by cases echo <;> rfl) hm.count hr hU
    (fun w h1 h2 h3 h4 h5 => by
      rw [hline, hst] at h3 h4
      rw [hline] at h5
      exact hB w h1 h2 h3 h4 (h5.i.trans hI.1) (h5.vt.trans hI.2.1) (h5.vr.trans hI.2.2))
    (fun y hy => monitorTakes_monitorRecord hy l (s.line l) echo i vt vr)
  rw [hline, hrec] at e2 e3
  refine ⟨_, (exec_senseRecord_of_arrives ha ..).trans (congrArg _ he), _, v, x, y, z, ?_, e1, e2, e3, e4, e5⟩
  rfl

end Sys2Proof.Machine
end

