-- ==== Sys2Proof/WellFormed.lean ====
section
/-! DEFINITION. The one relation between a command's operands that its type does not carry: a management message holds at
most 40 words (R149), so the entry words of a LOAD_BLOCK are at most 36. -/

namespace Sys2Proof

/-- The most entry words that fit a LOAD_BLOCK message beside its first word, its two arguments and its check word (R149, R172). -/
def maxEntryWords : Nat := 36

/-- A command that a sender can send. Every operand but the entry of LOAD_BLOCK is in range by its type. -/
def Instr.wellFormed : Instr → Bool
  | .loadBlock _ _ _ entry => entry.length ≤ maxEntryWords
  | .powerOnReset | .lineEnable .. | .lineDisable .. | .lineConnect .. | .linePolarity .. | .lineProfile ..
  | .ringStart .. | .ringStop .. | .testRequest .. | .lineQuery .. | .partQuery .. | .partReset .. | .loadOpen ..
  | .loadCommit .. | .loadCancel .. | .entryRead .. | .managementWord .. | .gapExpiry | .fsPulseHunt .. | .syncAcquire
  | .frameBoundary .. | .huntEntry | .senseRecord .. | .senseLost .. | .feedStuck .. | .audioUpstream ..
  | .audioDownstream .. | .reportFrame | .debounceAccept .. | .edgeMaskExpire .. | .feedMaskEnd .. | .seizure ..
  | .release .. | .makeConfirm .. | .digitEnd .. | .lockout .. | .stringTimeout .. | .toneBlockComplete ..
  | .ringStepExpire .. | .ringMaskEnd .. | .ringTrip .. | .ringOffTrip .. | .faultWindowClose .. | .faultConfirm ..
  | .faultClear .. | .testTake | .testSettleEnd | .testStepEnd | .noEcho | .sweepExpiry | .loadLapse ..
  | .commitDone .. | .fsAbsentExpectedBoundary => true

end Sys2Proof
end

