-- ==== Sys2Proof/Tests/Slice0.lean ====
section
/-! SUPPORT. Tests: the form check, one-step tests of the meanings on small states, and for each statement with hypotheses a
state and operands that meet them (the theorems `witness_<Name>`, one part for each clause). -/

namespace Sys2Proof.Tests

open Sys2Proof Sys2Proof.Machine

-- The theorems of this file are checked one after another: side by side they take more threads than a small machine has.
set_option Elab.async false

/-! ### Small states -/

/-- The words of an entry. -/
def words (ns : List Nat) : List Word16 := ns.map (BitVec.ofNat 16)

/-- A PROFILE entry: STRING, BOTH, CONN_TONE, MUTE, terminator #. -/
def profileWords : List Nat :=
  [100, 60, 3, 10, 5, 8, 4, 50, 40, 80, 20, 120, 64, 200, 600, 800, 10000, 4000, 16, 100, 10, 20, 3, 0xF80B]

/-- A TONE_PLAN entry: N 80, ON_BLOCKS 2, OFF_BLOCKS as given. -/
def toneWords (offBlocks : Nat) : List Nat :=
  [27000, 26000, 25000, 24000, 20000, 18000, 16000, 14000, 80, 0, 100, 16, 16, 32, 4, 2, offBlocks] ++
    [0x0102, 0x030C, 0x0405, 0x060D, 0x0708, 0x090E, 0x0A00, 0x0B0F]

/-- The state with a valid entry in bank A of a table. -/
def place (x : TableId) (i : Nat) (ns : List Nat) (s : State) : State :=
  setTable x { s.table x with bankA := (s.table x).bankA.set i ⟨true, words ns⟩ } s

/-- A device in SYNC at stamp 100 with one entry in the places that the tests use: a cadence of 400 on, 200 off, 400 on and
2,000 off, an entry of hazard class 3 that matches every window, a LEAK program of two steps, and a sweep period of 1 s. -/
def ready : State :=
  place .profile 0 profileWords (place .tonePlan 0 (toneWords 2) (place .cadence 1 [400, 200, 400, 2000, 0, 0]
    (place .faultPlan 0 [65296, 65416, 40, 20, 80, 200, 50, 150, 600]
      (place .faultPlan 1 [0x8000, 0, 0x3124, 0, 0, 0, 0, 0, 0]
        (place .testPlan 4 [0x8500, 50, 100, 100, 200] (place .testPlan 5 [0x8601, 50, 100, 100, 200]
          (place .settings 0 [1, 1, 0]
            { State.reset with highway := ⟨.sync, none, 0, some 0, 100, none, false⟩ })))))))

/-- `ready` with the context of line 5 changed. -/
def on (f : Line → Line) : State := modLine 5 f ready

/-- `ready` in HUNT. -/
def hunting : State := { ready with highway := { ready.highway with sync := .hunt, frame := none, candidate := some 1 } }

/-- `ready` with its test engine changed, and line 5 in TEST under it. -/
def testing (f : TestEngine → TestEngine) : State :=
  modEngine (fun e => f { e with busy := true, held := some ⟨5, .leak, .commanded⟩, bank := some .a, step := some 1 })
    (on fun c => { c with state := .test, stateBeforeTest := some .idle, commandedFeed := .testTip })

/-- `ready` with line 5 seized off-hook, then changed. -/
def seized (f : Line → Line) : State :=
  on fun c => f { c with
    state := .seized, commandedFeed := .forward
    loop := { c.loop with raw := true, accepted := .loop, debounced := .loop, makeTimer := 300 } }

/-- `ready` with line 5 in a state and a confirmed break of an open length. -/
def broken (st : LineState) (interrupted : Bool) (d : Nat) : State :=
  seized fun c => { c with
    state := st
    loop := { c.loop with brk := some ⟨40, d + 20, interrupted⟩, pendingMake := true, makeTimer := 20, debounced := .noLoop } }

/-- `ready` with line 5 ringing at a step, its sequencer then changed. -/
def ringing (step : Nat) (f : RingSequencer → RingSequencer) : State :=
  on fun c => { c with
    state := .ringing, commandedFeed := if step % 2 = 1 then .ring else .standby
    ring := f { c.ring with running := true, cadence := some 1, step := some step } }

/-- Bins with energy in the first row bin and the first column bin. -/
def loudBins : Vector Bin 8 :=
  Vector.ofFn fun k : Fin 8 => if k.val = 0 ∨ k.val = 4 then ⟨256000, 0⟩ else ⟨0, 0⟩

/-- `ready` with a full block of line 5's tone engine, loud or silent, which is then changed. -/
def block (loud : Bool) (offBlocks : Nat) (f : ToneEngine → ToneEngine) : State :=
  place .tonePlan 0 (toneWords offBlocks) (seized fun c => { c with
    tone := f { c.tone with
      run := .running, sampleCount := 80, blockStart := some 90, bins := if loud then loudBins else clearedBins } })

/-- `ready` at the last multiframe of a window, with line 5's monitor changed. -/
def window (f : FaultMonitor → FaultMonitor) : State :=
  let s := on fun c => { c with state := .idle, commandedFeed := .standby, monitor := f { c.monitor with discard := false } }
  { s with highway := { s.highway with stamp := 127 } }

/-- `ready` with an OPEN load of PROFILE. -/
def loading (ld : Load) (retiring : Option Tag) : State :=
  setTable .profile { ready.table .profile with load := some ld, retiringTag := retiring } ready

/-- `ready` with its receiver at the given values. -/
def receiving (st : ReceiverState) (buffer : List Word16) (gap : Nat) : State :=
  { ready with receiver := ⟨st, buffer, some 5, gap⟩ }

/-- `ready` with its report unit changed. -/
def reporting (f : ReportUnit → ReportUnit) : State := { ready with report := f ready.report }

/-- A record of line 3. -/
def aRecord : Record := ⟨some 3, 90, false, .state .idle .disabled .enable⟩

/-! ### The form check -/

theorem test_short_entry_wellFormed : (Instr.loadBlock 1 0 0 (List.replicate 36 0)).wellFormed = true := by decide

theorem test_long_entry_refused : (Instr.loadBlock 1 0 0 (List.replicate 37 0)).wellFormed = false := by decide

/-! ### One-step tests -/

/-- The state a command leads to; a command that led to no state would leave it. -/
def after (i : Instr) (s : State) : State :=
  match exec i s with
  | .next t => t
  | .fault _ => s
  | .refused _ => s

theorem test_entries_valid :
    validEntry .profile 0 (words profileWords) = true ∧ validEntry .tonePlan 0 (words (toneWords 2)) = true ∧
      validEntry .cadence 1 (words [400, 200, 400, 2000, 0, 0]) = true ∧
      validEntry .faultPlan 0 (words [65296, 65416, 40, 20, 80, 200, 50, 150, 600]) = true ∧
      validEntry .faultPlan 1 (words [0x8000, 0, 0x3124, 0, 0, 0, 0, 0, 0]) = true ∧
      validEntry .testPlan 4 (words [0x8500, 50, 100, 100, 200]) = true ∧
      validEntry .settings 0 (words [1, 1, 0]) = true := by decide +kernel

theorem test_lineEnable :
    ((after (.lineEnable 9 5 0) ready).line 5).state = .idle ∧
      ((after (.lineEnable 9 5 0) ready).line 5).commandedFeed = .standby ∧
      (after (.lineEnable 9 5 0) ready).report.signal = [⟨some 5, 100, false, .state .idle .disabled .enable⟩] := by
  decide +kernel

theorem test_lineEnable_invalid_profile :
    (after (.lineEnable 9 5 1) ready).report.reply = [⟨some 5, 100, false, .reply 1 9 .state []⟩] := by decide +kernel

/-- The worked example of section 12.3: LINE_CONNECT of line 17 with tag 5 and its reply. -/
theorem test_message_words :
    checkWord (words [1029, 17]) = 64490 ∧ codeOf 1029 = 4 ∧ tagOf 1029 = 5 ∧
      (⟨some 17, 21000, false, .reply 4 5 .ok []⟩ : Record).words.length = 5 := by decide +kernel

theorem test_managementWord_completes :
    ((after (.managementWord 0xA000 (-(1029 + 5))) (setReceiver ⟨.assembling, [1029, 5], some 5, 3⟩ (seized id))).line 5).state =
      .connected := by decide +kernel

theorem test_frameBoundary_stamp :
    (after (.frameBoundary true) { ready with highway := { ready.highway with frame := some 7 } }).highway.stamp = 101 ∧
      (after (.frameBoundary true) ready).highway.stamp = 100 := by decide +kernel

theorem test_syncAcquire_first :
    (after .syncAcquire (after (.fsPulseHunt 1) State.reset)).highway = ⟨.sync, none, 0, some 0, 0, none, false⟩ := by
  decide +kernel

theorem test_huntEntry :
    (after .huntEntry { ready with highway := { ready.highway with missCount := 4 } }).highway =
      ⟨.hunt, none, 4, none, 100, some 100, false⟩ := by decide +kernel

theorem test_senseRecord_clamps :
    ((after (.senseRecord 5 0x8001 2000 0xF000 10 .blocksFirst) ready).line 5).lastI = 1000 ∧
      ((after (.senseRecord 5 0x8001 2000 0xF000 10 .blocksFirst) ready).line 5).lastVt = -1000 := by decide +kernel

theorem test_senseRecord_begins_run :
    ((after (.senseRecord 5 0x8001 200 0 0 .monitorFirst)
      (on fun c => { c with state := .idle, commandedFeed := .standby, appliedFeed := .standby })).line 5).loop.run =
        some ⟨1, 100, 0⟩ := by decide +kernel

theorem test_seizure :
    ((after (.seizure 5) (on fun c => { c with
      state := .idle, commandedFeed := .standby, loop := { c.loop with debounced := .loop, makeTimer := 50 } })).line 5).state =
        .seized := by decide +kernel

theorem test_release :
    ((after (.release 5) (seized fun c => { c with loop := { c.loop with brk := some ⟨40, 800, false⟩ } })).line 5).state =
      .idle := by decide +kernel

theorem test_makeConfirm_counts_at_60 :
    ((after (.makeConfirm 5) (broken .seized false 60)).line 5).pulse = ⟨1, some 40, some 40, [], 0⟩ := by decide +kernel

theorem test_makeConfirm_bad_break_at_81 :
    ((after (.makeConfirm 5) (broken .seized false 81)).line 5).openString =
      [⟨.error, .none, 40, none, none, none, some .badBreak⟩] := by decide +kernel

theorem test_digitEnd :
    ((after (.digitEnd 5) (seized fun c => { c with pulse := ⟨10, some 20, some 90, [100], 100⟩ })).line 5).openString =
      [⟨.digit 0, .pulse, 20, some 10, some 100, none, none⟩] := by decide +kernel

/-- A string that holds STR_MAX entries closes with LIMIT when its timer runs out. -/
theorem test_stringTimeout_limit :
    ∀ p ∈ ([(15, .timeout), (16, .limit)] : List (Nat × CloseReason)),
      (after (.stringTimeout 5) (seized fun c => { c with
        openString := List.replicate p.1 (errorEntry .badBreak 80), stringTimer := 4000 })).report.signal =
          [⟨some 5, 100, false, .digits false p.2 (List.replicate p.1 (errorEntry .badBreak 80))⟩] := by decide +kernel

/-- A record outside the frame of its line changes nothing. -/
theorem test_senseRecord_out_of_frame :
    after (.senseRecord 6 0x8001 200 0 0 .blocksFirst) ready = ready := by decide +kernel

theorem test_toneBlockComplete :
    ((after (.toneBlockComplete 5) (block true 2 id)).line 5).tone =
      { ToneEngine.initial with
        run := .running, state := .candidate, key := some (.digit 1), candidateCount := 1, digitStart := some 90 } := by
  decide +kernel

theorem test_ringStart :
    ((after (.ringStart 9 5 1 2) (on fun c => { c with state := .idle })).line 5).ring =
      { RingSequencer.initial with running := true, cadence := some 1, step := some 1, cyclesLeft := some 2 } := by
  decide +kernel

theorem test_ringStepExpire :
    ((after (.ringStepExpire 5) (ringing 1 fun r => { r with timer := 400 })).line 5).commandedFeed = .standby := by
  decide +kernel

theorem test_faultWindowClose :
    ((after (.faultWindowClose 5) (window fun m => { m with candidateClass := some 3, candidateRun := 1 })).line 5).state =
      .fault := by decide +kernel

theorem test_no_confirmation_in_test :
    let s := modLine 5 (fun c => { c with state := .test }) (window fun m => { m with candidateClass := some 3, candidateRun := 1 })
    ((after (.faultConfirm 5) (after (.faultWindowClose 5) s)).line 5).monitor.confirmedClass = 0 ∧
      ((after (.faultWindowClose 5) s).line 5).monitor.discard = true := by decide +kernel

/-- A window's first record moves the FAULT_PLAN selector before the examination moves PROFILE's (R19, R109). -/
theorem test_commitDone_order :
    let s := on fun c => { c with profileBank := .b, faultBank := .b }
    let s := setTable .profile { s.table .profile with retiringTag := some 7 }
      (setTable .faultPlan { s.table .faultPlan with retiringTag := some 9 } s)
    (after (.senseRecord 5 0x8000 0 0 0 .blocksFirst) { s with highway := { s.highway with stamp := 128 } }).report.reply.map
      (·.payload) = [.commitDone .faultPlan 9, .commitDone .profile 7] := by decide +kernel

theorem test_testStepEnd :
    (after .testStepEnd (testing fun e => { e with
      phase := some .measure, measureTimer := 100, sampleCount := 2, sampleSum := 301 })).engine.results =
        [⟨1, 150, true⟩] := by decide +kernel

theorem test_testRequest :
    (after (.testRequest 9 5 1) (on fun c => { c with state := .idle })).engine.held = some ⟨5, .leak, .commanded⟩ := by
  decide +kernel

theorem test_reportFrame :
    (after .reportFrame (reporting fun r => { r with alarm := [⟨some 3, 90, true, .senseLost⟩] })).wires.report =
      some (0xC000, BitVec.ofNat 16 (19 * 1024 + 512 + 3)) := by decide +kernel

theorem test_audioUpstream_muted :
    (after (.audioUpstream 5 77) (seized fun c => { c with tone := { c.tone with state := .on } })).wires.upReceived.get 5 =
      0 := by decide +kernel

theorem test_loadBlock_then_commit :
    ((after (.loadCommit 9 0) (after (.loadBlock 9 0 0 (words profileWords)) (after (.loadOpen 9 0 2 1) ready))).table
      .profile).active = .b := by decide +kernel

theorem test_partReset_keeps_stamp :
    (after (.partReset 9) (seized id)).highway.stamp = 100 ∧ ((after (.partReset 9) (seized id)).line 5).state =
      .disabled := by decide +kernel

theorem testing_queueLawful (f : TestEngine → TestEngine) (hq : (f { ready.engine with
      busy := true, held := some ⟨5, .leak, .commanded⟩, bank := some .a, step := some 1 }).queue = []) :
    (testing f).testQueueLawful := by
  have hq' : (testing f).engine.queue = [] := hq
  unfold State.testQueueLawful
  rw [hq']
  exact ⟨Nat.zero_le _, List.nodup_nil, fun _ _ => rfl⟩

/-! ### Witnesses: commands -/

theorem witness_StepRunsFrontCommand : (ready.withPending [.partQuery 1]).pending = .partQuery 1 :: [] := rfl

theorem ready_gapExpiry : exec .gapExpiry ready = .next ready :=
  congrArg Host.Outcome.next (by decide +kernel : inSync gapExpiryIfDue ready = ready)

theorem witness_QueueOfCommands : ready.pending = [] ∧ exec .gapExpiry ready = .next ready :=
  ⟨by decide +kernel, ready_gapExpiry⟩

theorem witness_HuntHandlesNothing : hunting.highway.sync = .hunt := rfl

theorem witness_LineEnableTaken :
    ready.highway.sync = .sync ∧ (5 : Word16).toNat = (5 : LineNo).val ∧ (ready.line 5).state = .disabled ∧
      (0 : Word16).toNat < 8 ∧ ready.activeValid .profile 0 = true ∧
      ((readProfile (ready.activeWords .profile 0)).needsTonePlan = true → ready.activeValid .tonePlan 0 = true) := by
  decide +kernel

theorem witness_LineDisableTaken :
    ((seized id).highway.sync = .sync ∧ (5 : Word16).toNat = (5 : LineNo).val ∧ ((seized id).line 5).state ≠ .disabled ∧
      testHeld (seized id) 5 = false ∧ (ready.line 5).state = .disabled) ∧
    (let s := testing id
     (s.highway.sync = .sync ∧ (s.line 5).state = .test ∧ s.engine.busy = true ∧
       s.engine.held = some ⟨5, .leak, .commanded⟩ ∧ (s.line 5).openString = []) ∧ s.testQueueLawful) :=
  ⟨by decide +kernel, by decide +kernel, testing_queueLawful _ rfl⟩

theorem witness_LineConnectPolarityProfileTaken :
    ((seized id).highway.sync = .sync ∧ (5 : Word16).toNat = (5 : LineNo).val ∧ ((seized id).line 5).state = .seized ∧
      ((broken .dialling false 60).line 5).state = .dialling) ∧
    (let s := seized id
     (1 : Word16).toNat = polarityCode .reverse ∧ (0 : Word16).toNat = polarityCode .forward ∧
      (s.line 5).state ≠ .disabled ∧ (0 : Word16).toNat < 8 ∧ s.activeValid .profile 0 = true ∧
      ((readProfile (s.activeWords .profile 0)).needsTonePlan = true → s.activeValid .tonePlan 0 = true)) := by
  decide +kernel

theorem witness_RingStartTaken :
    let s := on fun c => { c with state := .idle }
    s.highway.sync = .sync ∧ (5 : Word16).toNat = (5 : LineNo).val ∧ (s.line 5).state = .idle ∧ (1 : Word16).toNat < 4 ∧
      (255 : Word16).toNat < 256 ∧ s.activeValid .cadence 1 = true := by decide +kernel

theorem witness_RingStop :
    (ringing 1 id).highway.sync = .sync ∧ (5 : Word16).toNat = (5 : LineNo).val ∧ ((ringing 1 id).line 5).state = .ringing ∧
      ((seized id).line 5).state ≠ .ringing := by decide +kernel

/-- `testing` with a queue that holds a COMMANDED request of line 6, a SWEEP request of line 7, and `n` more. -/
def queued (n : Nat) : State :=
  testing fun e => { e with queue :=
    [⟨6, .foreign, .commanded⟩, ⟨7, .leak, .sweep⟩] ++ (List.range n).map fun k => ⟨Fin.ofNat 48 (k + 10), .leak, .sweep⟩ }

theorem witness_TestRequestTaken :
    ((queued 0).highway.sync = .sync ∧ (1 : Word16).toNat = kindCode .leak ∧ ((queued 0).line 6).state ≠ .test ∧
      (queued 0).engine.busy = true ∧ (∃ r ∈ (queued 0).engine.queue, r.line = 6 ∧ r.origin = .commanded)) ∧
    ((∃ r ∈ (queued 6).engine.queue, r.line = 7) ∧ ¬ (∃ r ∈ (queued 6).engine.queue, r.line = 7 ∧ r.origin = .commanded)) ∧
    ((queued 5).engine.queue.length < 8 ∧ ¬ (∃ r ∈ (queued 5).engine.queue, r.line = 8)) ∧
    (8 ≤ (queued 6).engine.queue.length ∧ ¬ (∃ r ∈ (queued 6).engine.queue, r.line = 8)) ∧
    (let s := on fun c => { c with state := .idle }
     (s.line 5).state = .idle ∧ s.engine.busy = false ∧ s.engine.queue = [] ∧ programRunnable s .leak = true) ∧
    ((ready.line 5).state = .disabled ∧ ready.engine.busy = false ∧ ready.engine.queue = [] ∧
      programRunnable ready .leak = true ∧ programRunnable ready .foreign = false ∧
      ((seized id).line 5).state = .seized ∧ (seized id).engine.queue = []) := by
  decide +kernel

theorem witness_QueriesChangeNothing :
    ready.highway.sync = .sync ∧ (47 : Word16).toNat = (47 : LineNo).val ∧ (3 : Word16).toNat = tableCode .faultPlan ∧
      (1 : Word16).toNat ≤ 1 ∧ (16 : Word16).toNat < TableId.entries .faultPlan ∧ 5 < (6 : Word16).toNat ∧
      1 < (2 : Word16).toNat ∧ TableId.entries .faultPlan ≤ (17 : Word16).toNat := by decide +kernel

theorem witness_PartResetResets : ready.highway.sync = .sync := rfl

theorem witness_LineCommandsRefused :
    (ready.highway.sync = .sync ∧ 48 ≤ (48 : Word16).toNat ∧ (5 : Word16).toNat = (5 : LineNo).val) ∧
    (((seized id).line 5).state ≠ .disabled ∧ (7 : Word16).toNat < 8) ∧ (ready.line 5).state = .disabled ∧
    ((ready.line 5).state ≠ .seized ∧ (ready.line 5).state ≠ .dialling) ∧ (1 : Word16).toNat ≤ 1 ∧
    ((seized id).line 5).state ≠ .idle ∧ (3 : Word16).toNat < 4 ∧ (255 : Word16).toNat < 256 ∧
    ((testing id).line 5).state = .test ∧ (2 : Word16).toNat ≤ 2 ∧
    (8 ≤ (8 : Word16).toNat ∧ 2 ≤ (2 : Word16).toNat ∧ 4 ≤ (4 : Word16).toNat ∧ 256 ≤ (256 : Word16).toNat ∧
      3 ≤ (3 : Word16).toNat) ∧
    ready.activeValid .profile 7 = false ∧ ready.activeValid .cadence 3 = false := by decide +kernel

/-! ### Witnesses: entries -/

/-- An entry with one word replaced; words count from 1. -/
def patched (ns : List Nat) (k n : Nat) : List Word16 := words (ns.set (k - 1) n)

theorem witness_EntriesRead :
    (∀ w ∈ ([0xF800, 0xF809, 0xF80F, 0xF81F] : List Nat), validEntry .profile 0 (patched profileWords 24 w) = true) ∧
    (∀ p ∈ ([(1, 70), (1, 600), (2, 10), (2, 90), (3, 15), (8, 500), (9, 10), (10, 199), (14, 81), (15, 799),
        (16, 2000), (17, 0), (17, 1000), (19, 1), (19, 32), (23, 15)] : List (Nat × Nat)),
      validEntry .profile 0 (patched profileWords p.1 p.2) = true) ∧
    (∀ p ∈ ([(1, 69), (1, 601), (2, 9), (2, 91), (3, 0), (3, 16), (7, 3), (10, 39), (10, 200), (14, 80), (15, 800),
        (16, 600), (16, 2001), (17, 999), (19, 0), (19, 33), (23, 16), (24, 0x980B), (24, 0xF810), (24, 0xF82B)] :
        List (Nat × Nat)), validEntry .profile 0 (patched profileWords p.1 p.2) = false) ∧
    (∀ p ∈ ([(1, 0x8001), (9, 256), (14, 255), (15, 0), (18, 0x1F1F)] : List (Nat × Nat)),
      validEntry .tonePlan 0 (patched (toneWords 2) p.1 p.2) = true) ∧
    (∀ p ∈ ([(1, 0x8000), (9, 79), (14, 15), (15, 17), (18, 0x1001), (18, 0x2101)] : List (Nat × Nat)),
      validEntry .tonePlan 0 (patched (toneWords 2) p.1 p.2) = false) ∧
    (validEntry .cadence 0 (words [1, 10000, 0, 0, 0, 0]) = true ∧ validEntry .cadence 0 (words [0, 1, 1, 1, 1, 1]) = false) ∧
    (validEntry .faultPlan 16 (words [0x803F, 0xFFC4, 0xF1FF, 0, 0, 0, 0, 0, 0]) = true ∧
      validEntry .faultPlan 16 (words [0x803F, 0xFFC5, 0xF1FF, 0, 0, 0, 0, 0, 0]) = false ∧
      validEntry .faultPlan 16 (words [0x803F, 0xFFC4, 0xF10F, 0, 0, 0, 0, 0, 0]) = false ∧
      validEntry .faultPlan 16 (words [0x803F, 0xFFC4, 0xF1FF, 0, 0, 0, 0, 0, 1]) = false) ∧
    (validEntry .testPlan 11 (words [0x8604, 500, 1000, 64536, 1000]) = true ∧
      validEntry .testPlan 11 (words [0x8404, 500, 1000, 64536, 1000]) = false ∧
      validEntry .testPlan 11 (words [0x8605, 500, 1000, 64536, 1000]) = false ∧
      validEntry .testPlan 11 (words [0x8604, 501, 1000, 64536, 1000]) = false) ∧
    (validEntry .settings 0 (words [3600, 2, 1]) = true ∧ validEntry .settings 0 (words [3601, 2, 1]) = false) := by
  decide +kernel

/-! ### Witnesses: the table store -/

theorem witness_LoadOpen :
    (ready.highway.sync = .sync ∧ 5 < (6 : Word16).toNat ∧ (0 : Word16).toNat = tableCode .profile) ∧
    (TableId.entries .profile ≤ (8 : Word16).toNat ∧ (0 : Word16).toNat = 0 ∧
      TableId.entries .profile < (7 : Word16).toNat + (2 : Word16).toNat) ∧
    ((7 : Word16).toNat < TableId.entries .profile ∧ 0 < (1 : Word16).toNat ∧
      (7 : Word16).toNat + (1 : Word16).toNat ≤ TableId.entries .profile) ∧
    ((loading ⟨0, 2, 1, 5⟩ none).table .profile).load.isSome = true ∧
    (let s := setTable .profile { ready.table .profile with retiringTag := some 4 } ready
     (s.table .profile).load = none ∧ (s.table .profile).retiringTag.isSome = true) ∧
    (ready.table .profile).load = none ∧ (ready.table .profile).retiringTag = none := by decide +kernel

theorem witness_LoadBlock :
    let s := loading ⟨6, 2, 1, 999⟩ none
    (s.highway.sync = .sync ∧ (0 : Word16).toNat = tableCode .profile ∧ (s.table .profile).load = some ⟨6, 2, 1, 999⟩ ∧
      (words profileWords).length = TableId.entryLength .profile ∧ (1 : Word16).toNat = 1 ∧ 1 < 2 ∧
      6 + 2 ≤ TableId.entries .profile ∧
      ((s.table .profile).bank (s.activeBank .profile).other).length = TableId.entries .profile ∧
      validEntry .profile (6 + (1 : Word16).toNat) (words profileWords) = true) ∧
    (5 < (6 : Word16).toNat ∧ ([] : List Word16).length ≠ TableId.entryLength .profile ∧
      TableId.entries .profile ≤ (8 : Word16).toNat) ∧
    (List.replicate 24 (0 : Word16)).length = TableId.entryLength .profile ∧
    validEntry .profile (6 + (1 : Word16).toNat) (List.replicate 24 0) = false ∧ (0 : Word16).toNat ≠ 1 ∧
    ((loading ⟨6, 2, 2, 0⟩ none).table .profile).load = some ⟨6, 2, 2, 0⟩ ∧
    ((ready.table .profile).load = none ∧ (ready.table .faultPlan).load = none ∧
      validEntry .profile (7 : Word16).toNat (List.replicate 24 0) = false ∧
      validEntry .profile (7 : Word16).toNat (words profileWords) = true) := by
  decide +kernel

theorem witness_LoadCommit :
    let s := loading ⟨0, 2, 2, 5⟩ none
    (s.highway.sync = .sync ∧ (0 : Word16).toNat = tableCode .profile ∧ (s.table .profile).load = some ⟨0, 2, 2, 5⟩ ∧
      (s.table .profile).retiringTag = none ∧ 2 ≤ 2 ∧ 1 ≤ s.users .profile (s.activeBank .profile)) ∧
    (let s' := setTable .settings { ready.table .settings with load := some ⟨0, 1, 1, 0⟩ } ready
     (s'.table .settings).load = some ⟨0, 1, 1, 0⟩ ∧ ¬ 1 ≤ s'.users .settings (s'.activeBank .settings)) ∧
    (ready.table .profile).load = none ∧ ((loading ⟨0, 2, 2, 5⟩ (some 4)).table .profile).retiringTag.isSome = true ∧
    ((loading ⟨0, 2, 1, 5⟩ none).table .profile).load = some ⟨0, 2, 1, 5⟩ ∧ 5 < (6 : Word16).toNat := by decide +kernel

theorem witness_LoadClosesAndBankReleases :
    let s := loading ⟨0, 2, 1, 1000⟩ (some 4)
    (s.highway.sync = .sync ∧ (s.table .profile).load = some ⟨0, 2, 1, 1000⟩ ∧ (0 : Word16).toNat = tableCode .profile) ∧
    1000 ≤ 1000 ∧ ((loading ⟨0, 2, 1, 999⟩ none).table .profile).load = some ⟨0, 2, 1, 999⟩ ∧
    ((s.table .profile).retiringTag = some 4 ∧ s.users .profile (s.activeBank .profile).other = 0) ∧
    (let s' := modLine 5 (fun c => { c with profileBank := .b }) s
     (s'.table .profile).retiringTag = some 4 ∧ s'.users .profile (s'.activeBank .profile).other ≠ 0) ∧
    (5 < (6 : Word16).toNat ∧ (5 : Word16).toNat = tableCode .settings ∧ (ready.table .settings).load = none) := by
  decide +kernel

/-- In the multiframe in which its lapse timer reaches 1,000 a load is OPEN until the lapse or a command is taken (R166). -/
theorem test_lapse_and_command :
    (let s := loading ⟨0, 2, 1, 999⟩ none
     let s := after (.frameBoundary true) { s with highway := { s.highway with frame := some 7 } }
     s.stamp = 101 ∧ (s.table .profile).load = some ⟨0, 2, 1, 1000⟩ ∧ s.report.reply = []) ∧
    (let s := loading ⟨0, 2, 1, 1000⟩ none
     ((after (.loadBlock 1 0 1 (words profileWords)) s).table .profile).load = some ⟨0, 2, 2, 0⟩ ∧
      (after (.loadBlock 1 0 1 (words profileWords)) (after (.loadLapse .profile) s)).report.reply =
        [s.record none (.loadLapsed .profile 1), s.replyRecord 11 1 none .state []]) ∧
    (let s := loading ⟨0, 2, 2, 1000⟩ none
     (after (.loadCommit 1 0) s).activeBank .profile = .b ∧
      (after (.loadCommit 1 0) (after (.loadLapse .profile) s)).activeBank .profile = .a) := by decide +kernel

/-- A load that neither the lapse nor a command has met lapses at the end of its multiframe (R166, notes/assumptions/33.md). -/
theorem test_lapse_at_the_end :
    let s := loading ⟨0, 2, 1, 1000⟩ none
    let lapsed := s.record none (.loadLapsed .profile 1)
    (let t := after (.frameBoundary true) { s with highway := { s.highway with frame := some 7 } }
     (t.table .profile).load = none ∧ t.report.reply = [lapsed]) ∧
    (let t := after (.frameBoundary true) { s with highway := { s.highway with frame := some 6 } }
     (t.table .profile).load = some ⟨0, 2, 1, 1000⟩ ∧ t.report.reply = []) ∧
    (let t := after (.frameBoundary false) { s with highway := { s.highway with frame := some 2, missCount := 3 } }
     t.highway.sync = .hunt ∧ (t.table .profile).load = none ∧ t.report.reply = [lapsed]) := by decide +kernel

/-! ### Witnesses: the receiver -/

theorem witness_ManagementWordAssembles :
    (ready.managementArrives ∧ bitSet (0xC000 : Word16) 13 = false ∧ bitSet (0xC000 : Word16) 15 = true ∧
      bitSet (0xC000 : Word16) 14 = true ∧ bitSet (0x8000 : Word16) 14 = false ∧ bitSet (0 : Word16) 15 = false) ∧
    (ready.receiver.state = .idle ∧ bitSet (0xA000 : Word16) 13 = true ∧ bitSet (0xA000 : Word16) 14 = false) ∧
    ((receiving .assembling (List.replicate 39 1) 64).receiver.buffer.length < 40 ∧
      (receiving .assembling (List.replicate 40 1) 0).receiver.buffer.length = 40) ∧
    ((receiving .discarding [1029] 0).receiver.state = .discarding ∧
      (receiving .discarding [1029] 63).receiver.gap + 1 < 65) ∧
    ((receiving .assembling [1029] 65).highway.sync = .sync ∧ (receiving .assembling [1029] 65).receiver.state ≠ .idle ∧
      65 ≤ (receiving .assembling [1029] 65).receiver.gap ∧ (receiving .discarding [1029] 64).receiver.gap < 65) ∧
    ((receiving .discarding [1029] 64).receiver.gap = 64 ∧ (receiving .discarding [1029] 64).managementArrives) := by
  unfold State.managementArrives; decide +kernel

/-- A message without its check word: the first word for a code and the argument words. -/
def message (code : Nat) (args : List Word16) : List Word16 := BitVec.ofNat 16 (code * 256 + 5) :: args

theorem witness_CompletedMessageIsItsCommand :
    (bitSet (0xA000 : Word16) 15 = true ∧ bitSet (0xA000 : Word16) 14 = false ∧ bitSet (0xA000 : Word16) 13 = true) ∧
    ∀ n : Fin 16, ∀ args ∈ ([[], [5], [5, 1], [5, 1, 2]] ++ [5 :: 1 :: List.replicate 36 7] : List (List Word16)),
      let s := receiving .assembling (message (n + 1) args) 0
      s.managementArrives ∧ s.receiver.state = .assembling ∧ codeOf (s.receiver.buffer.headD 0) = n + 1 ∧
        s.receiver.buffer.sum + checkWord s.receiver.buffer = 0 := by
  unfold State.managementArrives; decide +kernel

theorem witness_BadMessageAnswered :
    (let s := receiving .assembling (message 4 [17]) 0
     s.managementArrives ∧ s.receiver.state = .assembling ∧ s.receiver.buffer ≠ [] ∧ s.receiver.buffer.length < 40 ∧
      (s.receiver.buffer ++ [0]).sum ≠ 0) ∧
    (∀ n ∈ ([0, 17, 2, 4, 7, 9, 12, 13, 1, 3, 5, 8, 6, 10, 14, 15, 16] : List Nat),
      let ws := message n [1, 2, 3, 4] ++ [checkWord (message n [1, 2, 3, 4])]
      ws.sum = 0 ∧ codeOf (ws.headD 0) = n ∧ ws.length = 6) ∧
    (∀ args ∈ ([[], [6], [3, 1], 3 :: 1 :: List.replicate 9 0, 3 :: 1 :: List.replicate 24 0] : List (List Word16)),
      let ws := message 11 args ++ [checkWord (message 11 args)]
      ws.sum = 0 ∧ codeOf (ws.headD 0) = 11 ∧ (ws.length < 3 ↔ args = []) ∧ (5 < (ws.getD 1 0).toNat ↔ args = [] ∨ args = [6]) ∧
        (args.headD 0 = 3 → (ws.getD 1 0).toNat = tableCode .faultPlan ∧
          (ws.length ≠ 4 + TableId.entryLength .faultPlan ↔ args.length ≠ 11))) ∧
    (receiving .discarding [1029] 0).receiver.state = .discarding ∧
    (receiving .assembling (List.replicate 40 1) 0).receiver.buffer.length = 40 ∧
    (bitSet (0xE000 : Word16) 15 = true ∧ bitSet (0xE000 : Word16) 14 = true ∧ bitSet (0xE000 : Word16) 13 = true ∧
      ready.managementArrives ∧ ready.receiver.state = .idle) := by
  unfold State.managementArrives; decide +kernel

/-! ### Witnesses: frames and reports -/

theorem witness_FirstAcquisition :
    hunting.highway.sync = .hunt ∧ State.reset.highway.sync = .hunt ∧
      (after (.fsPulseHunt 1) State.reset).highway.candidate.isSome = true ∧
      (after (.fsPulseHunt 1) State.reset).highway.firstAcquisition = true := by decide +kernel

theorem witness_ReturnToSync :
    (hunting.highway.sync = .hunt ∧ hunting.highway.candidate.isSome = true ∧ hunting.highway.firstAcquisition = false ∧
      hunting.report.alarm.length < 15) ∧
    (let s := { testing id with highway := hunting.highway }
     (s.engine.busy = true ∧ s.engine.held = some ⟨5, .leak, .commanded⟩ ∧ (s.line 5).state = .test ∧
       s.engine.sweepTimer + 1 < s.settings.sweepPeriod * 1000) ∧ s.testQueueLawful) :=
  ⟨by decide +kernel, by decide +kernel, testing_queueLawful id rfl⟩

theorem witness_FrameBoundaryCounted :
    (ready.highway.sync = .sync ∧ ready.highway.frame = some 0 ∧ ready.highway.missCount < 3 ∧ (0 + 1) % 8 ≠ 0) ∧
    (∀ lapse ∈ ([0, 998, 999, 1000] : List Nat),
      let s := { loading ⟨0, 2, 1, lapse⟩ none with highway := { ready.highway with frame := some 7, missCount := 2 } }
      s.highway.sync = .sync ∧ s.highway.frame = some 7 ∧ s.highway.missCount < 3 ∧
        (s.table .profile).load = some ⟨0, 2, 1, lapse⟩ ∧ (s.table .cadence).load = none ∧
        ((after (.loadLapse .profile) s).table .profile).load = if lapse = 1000 then none else some ⟨0, 2, 1, lapse⟩) ∧
    (∀ timer ∈ ([998, 999] : List Nat),
      let s := modEngine (fun e => { e with sweepTimer := timer }) ready
      s.settings.sweepPeriod * 1000 = 1000 ∧ (1000 ≤ s.engine.sweepTimer + 1 ↔ timer = 999)) := by
  decide +kernel

theorem witness_FourthMissEntersHunt :
    ∀ n ∈ ([3, 4] : List Nat),
      let s := { loading ⟨0, 2, 1, 1000⟩ none with highway := { ready.highway with missCount := n } }
      s.highway.sync = .sync ∧ s.highway.missCount = n := by decide +kernel

theorem witness_SerialiserActs :
    (ready.highway.sync = .sync ∧ ready.wires.report = none ∧ ready.report.sending = none ∧
      ready.report.alarm = [] ∧ ready.report.reply = [] ∧ ready.report.signal = []) ∧
    (reporting fun r => { r with alarm := [aRecord] }).report.alarm = aRecord :: [] ∧
    (reporting fun r => { r with reply := [aRecord] }).report.reply = aRecord :: [] ∧
    ((reporting fun r => { r with signal := [aRecord] }).report.signal = aRecord :: [] ∧
      ∀ l, ((reporting fun r => { r with signal := [aRecord] }).line l).backlog = false) ∧
    (let s := reporting fun r => { r with sending := some (aRecord, 3) }
     s.highway.sync = .sync ∧ s.report.sending = some (aRecord, 3) ∧ aRecord.words.length ≤ 3 + 1 ∧
      ¬ aRecord.words.length ≤ 2 + 1) ∧
    ({ ready with highway := { ready.highway with missCount := 4 } } : State).highway.missCount = 4 := by decide +kernel

theorem witness_DepartureServesBacklog :
    (let s := { (on fun c => { c with stateLost := true }) with report := { ready.report with signal := [aRecord] } }
     let line (k : Nat) : LineNo := Fin.ofNat 48 (s.report.servicePointer.val + k)
     s.report.signal = aRecord :: [] ∧ line (5 + 1) = 5 ∧ 5 < 48 ∧ (s.line (line (5 + 1))).backlog = true ∧
      (∀ j, j < 5 → (s.line (line (j + 1))).backlog = false) ∧ (s.line (line (5 + 1))).due = []) ∧
    (let s := on fun c => { c with due := [.single 90 (errorEntry .badBreak 80)] }
     (s.line 5).backlog = true ∧ (s.line 5).due = .single 90 (errorEntry .badBreak 80) :: []) ∧
    (let s := reporting fun r => { r with signal := [aRecord] }
     s.highway.sync = .sync ∧ s.wires.report = none ∧ s.report.sending = none ∧ s.report.alarm = [] ∧
      s.report.reply = [] ∧ s.report.signal = aRecord :: [] ∧ ∀ l, (s.line l).backlog = false) := by decide +kernel

/-! ### Witnesses: audio and tone digits -/

theorem witness_ToneSampleTaken :
    (let s := block false 2 fun t => { t with sampleCount := 78 }
     s.highway.sync = .sync ∧ s.wires.lineSlot ≤ (5 : LineNo).val ∧ (s.line 5).tone.run = .running ∧
      (s.line 5).tone.sampleCount + 1 < (readTonePlan (s.toneWords 5)).n) ∧
    (let s := block false 2 fun t => { t with sampleCount := 79 }
     s.highway.sync = .sync ∧ s.wires.lineSlot ≤ (5 : LineNo).val ∧ (s.line 5).tone.run = .running ∧
      (readTonePlan (s.toneWords 5)).n ≤ (s.line 5).tone.sampleCount + 1) := by decide +kernel

/-- `ready` with the slots of a line-side and a trunk-side frame passed up to a slot. -/
def slotted (n : Nat) : State := { ready with wires := { ready.wires with lineSlot := n, trunkSlot := n } }

theorem witness_AudioPassesThrough :
    (seized id).highway.sync = .sync ∧ ((seized id).line 5).tone.run ≠ .running ∧
      (slotted 5).wires.lineSlot ≤ (5 : LineNo).val ∧ (slotted 5).wires.trunkSlot ≤ (5 : LineNo).val := by decide +kernel

theorem witness_WordsInTheirSlots :
    ((slotted 53).highway.sync = .sync ∧ (slotted 53).highway.frame = some ((5 : LineNo).val / 6) ∧
      (slotted 53).wires.lineSlot ≤ 48 + (5 : LineNo).val % 6) ∧
    (48 + (5 : LineNo).val % 6 < (slotted 54).wires.lineSlot ∧ (slotted 53).highway.frame ≠ some ((6 : LineNo).val / 6)) ∧
    ((5 : LineNo).val < (slotted 6).wires.lineSlot ∧ (5 : LineNo).val < (slotted 6).wires.trunkSlot) ∧
    (48 < (slotted 49).wires.trunkSlot ∧ (slotted 48).wires.trunkSlot ≤ 48) ∧
    (ready.wires.report = none ∧ (Wires.mk silence silence none none [] false (some (0, 0)) 0 0).report ≠ none) := by
  decide +kernel

/-- `block` with a key in the tone state. -/
def keyed (loud : Bool) (offBlocks : Nat) (st : ToneState) (k : Symbol) (gap : Nat) : State :=
  block loud offBlocks fun t => { t with state := st, key := some k, candidateCount := 1, gapCount := gap, onBlocks := 2 }

theorem witness_ToneBlockDrivesState :
    (let s := block false 2 id
     s.highway.sync = .sync ∧ toneBlockDue s 5 = true ∧ (s.line 5).tone.state = .quiet ∧ blockResult s 5 = none) ∧
    (let s := block true 2 id
     toneBlockDue s 5 = true ∧ (s.line 5).tone.state = .quiet ∧ blockResult s 5 = some (.digit 1)) ∧
    (let s := keyed false 2 .candidate (.digit 1) 0
     toneBlockDue s 5 = true ∧ (s.line 5).tone.state = .candidate ∧ blockResult s 5 = none) ∧
    (let s := keyed true 2 .candidate (.digit 2) 0
     toneBlockDue s 5 = true ∧ blockResult s 5 = some (.digit 1) ∧ (s.line 5).tone.key ≠ some (.digit 1)) ∧
    (let s := keyed true 2 .candidate (.digit 1) 0
     toneBlockDue s 5 = true ∧ blockResult s 5 = some (.digit 1) ∧ (s.line 5).tone.key = some (.digit 1)) ∧
    (let s := keyed true 2 .on (.digit 1) 0
     toneBlockDue s 5 = true ∧ (s.line 5).tone.state = .on ∧ blockResult s 5 = some (.digit 1)) ∧
    (let s := keyed false 2 .on (.digit 1) 0
     toneBlockDue s 5 = true ∧ blockResult s 5 = none ∧ 2 ≤ (readTonePlan (s.toneWords 5)).offBlocks) ∧
    (let s := keyed false 3 .gap (.digit 1) 1
     toneBlockDue s 5 = true ∧ blockResult s 5 = none ∧ 1 + 1 < (readTonePlan (s.toneWords 5)).offBlocks) ∧
    (let s := keyed true 3 .gap (.digit 1) 2
     toneBlockDue s 5 = true ∧ (s.line 5).tone.state = .gap ∧ blockResult s 5 = some (.digit 1)) := by decide +kernel

theorem witness_ToneDigitEnds :
    (let s := keyed false 1 .on (.digit 1) 0
     s.highway.sync = .sync ∧ toneBlockDue s 5 = true ∧ (s.line 5).tone.key = some (.digit 1) ∧ blockResult s 5 = none ∧
      (s.line 5).tone.state = .on ∧ (readTonePlan (s.toneWords 5)).offBlocks = 1) ∧
    (let s := keyed false 2 .gap (.digit 1) 1
     toneBlockDue s 5 = true ∧ (s.line 5).tone.key = some (.digit 1) ∧ blockResult s 5 = none ∧
      (s.line 5).tone.state = .gap ∧ (readTonePlan (s.toneWords 5)).offBlocks = 1 + 1) ∧
    (∀ st ∈ ([.on, .gap] : List ToneState),
      let s := keyed true 3 st (.digit 2) 1
      toneBlockDue s 5 = true ∧ (s.line 5).tone.key = some (.digit 2) ∧ blockResult s 5 = some (.digit 1) ∧
        (s.line 5).tone.state = st) := by decide +kernel

theorem witness_ToneBlockResult :
    1 ≤ ((seized fun c => { c with pulse := { c.pulse with count := 1 } }).line 5).pulse.count ∧
    ((broken .seized false 60).line 5).loop.brk.isSome = true ∧
    (let s := block true 2 id
     let plan := readTonePlan (s.toneWords 5)
     let tone := (s.line 5).tone
     let energy (k : Nat) : Int :=
       let a := (tone.bins.get (Fin.ofNat 8 k)).s1 / 256
       let b := (tone.bins.get (Fin.ofNat 8 k)).s2 / 256
       max 0 (min 4294967295 (a * a + b * b - plan.coefficients.get (Fin.ofNat 8 k) * a * b / 16384))
     (s.line 5).pulse.count = 0 ∧ (s.line 5).loop.brk = none ∧ (∀ j : Fin 4, energy j.val ≤ energy 0) ∧
      (∀ j : Fin 4, energy (4 + j.val) ≤ energy (4 + 0)) ∧ ∀ j : Fin 4, ¬ j < 0) := by decide +kernel

/-! ### Witnesses: sense records and the detector -/

theorem witness_ValidRecordAccepted :
    ((seized id).recordArrives 5 ∧ carriesEcho 0x8002 (some .forward) ∧ ((seized id).line 5).state ≠ .test ∧
      testHeld (seized id) 5 = false) ∧
    (let s := seized fun c => { c with senseLost := true, mismatchRun := 15 }
     (s.line 5).senseLost = true ∧ FeedCode.standby ≠ (s.line 5).commandedFeed ∧ min 16 ((s.line 5).mismatchRun + 1) = 16) ∧
    (let s := seized fun c => { c with feedStuck := true }
     (s.line 5).senseLost = false ∧ FeedCode.forward = (s.line 5).commandedFeed ∧ (s.line 5).feedStuck = true) ∧
    (let s := modLine 5 (fun c => { c with senseLost := true }) (testing id)
     (s.recordArrives 5 ∧ (s.line 5).senseLost = true ∧ (s.line 5).state = .test ∧ s.engine.busy = true ∧
       s.engine.held = some ⟨5, .leak, .commanded⟩ ∧ s.report.alarm.length < 15 ∧ (s.line 5).feedStuck = false) ∧
     s.testQueueLawful) := by
  unfold State.recordArrives carriesEcho
  exact ⟨by decide +kernel, by decide +kernel, by decide +kernel, by decide +kernel, testing_queueLawful id rfl⟩

theorem witness_InvalidRecordHeld :
    let s := seized fun c => { c with invalidRun := 7 }
    let lost := seized fun c => { c with invalidRun := 8, senseLost := true }
    (s.recordArrives 5 ∧ carriesEcho 0x0002 none ∧ carriesEcho 0x8007 none ∧ (s.line 5).state ≠ .test) ∧
    ((s.line 5).state ≠ .disabled ∧ min 8 ((s.line 5).invalidRun + 1) = 8 ∧ (s.line 5).senseLost = false) ∧
    (lost.recordArrives 5 ∧ (lost.line 5).senseLost = true) := by
  unfold State.recordArrives carriesEcho; decide +kernel

/-- What a record that line 5 uses asks of the state. -/
def Usable (s : State) (status : Word16) (echo : Option FeedCode) : Prop :=
  s.recordArrives 5 ∧ carriesEcho status echo ∧ (s.line 5).usesRecord echo

/-- A state in the multiframe of a stamp, with a RETIRING bank of PROFILE. -/
def retiringAt (stamp : Stamp) (s : State) : State :=
  setTable .profile { s.table .profile with retiringTag := some 4 } { s with highway := { s.highway with stamp := stamp } }

theorem usable_of {s : State} {status : Word16} {echo : Option FeedCode} (hh : s.highway = ready.highway)
    (hw : s.wires = ready.wires) (he : carriesEcho status echo) (hu : (s.line 5).usesRecord echo) :
    Usable s status echo ∧ ∀ stamp, Usable (retiringAt stamp s) status echo := by
  have hslot : s.wires.lineSlot ≤ 48 + (5 : LineNo).val % 6 := by rw [hw]; decide +kernel
  have hsync : s.highway.sync = .sync ∧ s.highway.frame = some ((5 : LineNo).val / 6) := by rw [hh]; exact ⟨rfl, rfl⟩
  exact ⟨⟨⟨hsync.1, hsync.2, hslot⟩, he, hu⟩, fun _ => ⟨⟨hsync.1, hsync.2, hslot⟩, he, hu⟩⟩

theorem witness_RecordUsedByLine :
    ∀ st ∈ ([.idle, .seized, .dialling, .connected, .lockout, .disabled, .fault] : List LineState),
      let s := seized fun c => { c with state := st }
      let s' := seized fun c => { c with state := st, invalidRun := 6 }
      (Usable s 0x8002 (some .forward) ∧ Usable (retiringAt 127 s) 0x8002 (some .forward)) ∧
        (Usable s' 0 none ∧ Usable (retiringAt 127 s') 0 none) ∧
        testHeld s 5 = false ∧ testHeld (retiringAt 127 s) 5 = false ∧ (s.line 5).state = st ∧
        ((retiringAt 127 s).line 5).state = st := by
  intro st h s s'
  have h1 := usable_of (s := s) (status := 0x8002) (echo := some .forward) rfl rfl (by unfold carriesEcho; decide) (.inl rfl)
  have h2 := usable_of (s := s') (status := 0) (echo := none) rfl rfl (by unfold carriesEcho; decide)
    (.inr ⟨rfl, .inr (show 6 < 7 by decide)⟩)
  exact ⟨⟨h1.1, h1.2 127⟩, ⟨h2.1, h2.2 127⟩, rfl, rfl, rfl, rfl⟩

theorem witness_ExaminationAtRest :
    ∀ st ∈ ([.disabled, .fault] : List LineState),
      let s := setTable .profile { ready.table .profile with retiringTag := some 4 }
        (on fun c => { c with state := st, pendingProfile := some 0, profileBank := .b })
      s.recordArrives 5 ∧ carriesEcho 0x8000 (some .opened) ∧ (s.line 5).state = st ∧ (s.line 5).senseLost = false ∧
        (s.line 5).recoveryDue = false ∧ (s.line 5).openString = [] ∧ testHeld s 5 = false ∧ s.stamp.toNat % 64 ≠ 63 ∧
        (s.table .profile).retiringTag = some 4 := by
  unfold State.recordArrives carriesEcho; decide +kernel

theorem witness_SenseLostAndFeedStuckRaised :
    (let s := seized fun c => { c with invalidRun := 8 }
     s.highway.sync = .sync ∧ (s.line 5).state ≠ .disabled ∧ 8 ≤ (s.line 5).invalidRun ∧ (s.line 5).senseLost = false) ∧
    (let s := seized fun c => { c with mismatchRun := 16 }
     FeedCode.standby ≠ (s.line 5).commandedFeed ∧ 16 ≤ (s.line 5).mismatchRun ∧ (s.line 5).feedStuck = false) ∧
    (let s := seized fun c => { c with mismatchRun := 16, feedStuck := true }
     FeedCode.standby ≠ (s.line 5).commandedFeed ∧ 16 ≤ (s.line 5).mismatchRun ∧ (s.line 5).feedStuck = true) := by
  decide +kernel

/-- A line in a state with a debounce run of the length of DEBOUNCE. -/
def bouncing (st : LineState) (level : Level) (brk : Option Break) : State :=
  seized fun c => { c with state := st, loop := { c.loop with accepted := level, run := some ⟨3, 98, 2⟩, brk := brk } }

theorem witness_DebounceAcceptsAndMasksEnd :
    ((∀ st ∈ ([.seized, .idle] : List LineState), ∀ level ∈ ([.loop, .noLoop] : List Level),
      ∀ brk ∈ ([none, some ⟨40, 60, false⟩] : List (Option Break)),
      let s := bouncing st level brk
      s.highway.sync = .sync ∧ (s.line 5).senseLost = false ∧ detectorRuns (s.line 5) = true ∧
        (s.line 5).loop.run = some ⟨3, 98, 2⟩ ∧ 1 ≤ 3 ∧ (s.profile 5).debounce ≤ 3 ∧ (s.line 5).loop.accepted = level ∧
        (s.line 5).loop.brk = brk) ∧
    timesBreaks .seized = true ∧ timesBreaks .idle = false) ∧
    (let s := seized fun c => { c with loop := { c.loop with edgeExpiry := some 100, feedMask := 1 } }
     s.highway.sync = .sync ∧ (s.line 5).senseLost = false ∧ detectorRuns (s.line 5) = true ∧
      (s.line 5).loop.edgeExpiry = some 100 ∧ ((100 : Stamp) - s.stamp).toNat = 0 ∧ (s.line 5).loop.feedMask = 1) ∧
    (32767 < ((99 : Stamp) - ready.stamp).toNat ∧ 32767 < ((32868 : Stamp) - ready.stamp).toNat) ∧
    (1 ≤ ((101 : Stamp) - ready.stamp).toNat ∧ ((32867 : Stamp) - ready.stamp).toNat ≤ 32767) ∧
    (let s := ringing 3 fun r => { r with armed := true, maskCount := 1 }
     (s.line 5).state = .ringing ∧ ringOnStep (s.line 5).ring.step = true ∧ (s.line 5).ring.armed = true ∧
      (s.line 5).ring.maskCount = 1) := by decide +kernel

theorem witness_SeizureMovesLine :
    let s := on fun c => { c with state := .idle, loop := { c.loop with debounced := .loop, makeTimer := 50 } }
    s.highway.sync = .sync ∧ (s.line 5).senseLost = false ∧ (s.line 5).state = .idle ∧ (s.line 5).loop.debounced = .loop ∧
      (s.profile 5).seizeMin ≤ (s.line 5).loop.makeTimer := by decide +kernel

theorem witness_ReleaseMovesLine :
    let s := broken .connected false 800
    s.highway.sync = .sync ∧ (s.line 5).senseLost = false ∧ (s.line 5).loop.brk = some ⟨40, 820, false⟩ ∧
      timesBreaks (s.line 5).state = true ∧
      (s.profile 5).releaseMin ≤
        (820 : Nat) - (if (s.line 5).loop.pendingMake then (s.line 5).loop.makeTimer else 0) := by decide +kernel

/-- The same line under a profile of tone dialling alone. -/
def toneOnly (s : State) : State := place .profile 0 (profileWords.take 23 ++ [0x400B]) s

theorem witness_MakeConfirmClassifies :
    (∀ st ∈ ([.seized, .dialling, .connected, .lockout] : List LineState), ∀ interrupted ∈ ([true, false] : List Bool),
      ∀ d ∈ ([0, 39, 40, 80, 199, 200, 600, 601] : List Nat),
      let s := broken st interrupted d
      s.highway.sync = .sync ∧ (s.line 5).senseLost = false ∧ timesBreaks (s.line 5).state = true ∧
        (s.line 5).loop.brk = some ⟨40, d + 20, interrupted⟩ ∧ (s.line 5).loop.pendingMake = true ∧
        (s.profile 5).makeMin ≤ (s.line 5).loop.makeTimer ∧ d = d + 20 - (s.line 5).loop.makeTimer) ∧
    (let p := (broken .seized false 80).profile 5
     p.brkMin = 40 ∧ p.brkMax = 80 ∧ p.flashMin = 200 ∧ p.flashMax = 600 ∧ p.pulseDialling = true) ∧
    ((toneOnly (broken .seized false 80)).profile 5).pulseDialling = false ∧
    (∀ st ∈ ([.dialling, .connected] : List LineState), ∀ d ∈ ([81, 199, 200, 600, 601] : List Nat),
      let s := broken st false d
      s.highway.sync = .sync ∧ (s.line 5).senseLost = false ∧ (s.line 5).loop.brk = some ⟨40, d + 20, false⟩ ∧
        d = d + 20 - (s.line 5).loop.makeTimer ∧ (s.line 5).pulse.count = 0) ∧
    (let s := modLine 5 (fun c => { c with pulse := ⟨11, some 10, some 30, [], 0⟩ }) (broken .dialling false 200)
     dialling (s.line 5).state = true ∧ (s.profile 5).brkMin ≤ 200 ∧ (s.profile 5).flashMin ≤ 200 ∧
      1 ≤ (s.line 5).pulse.count) := by decide +kernel

/-! ### Witnesses: digits and timers -/

theorem witness_PulseCounted :
    (List.replicate 8 100).length ≤ 8 ∧ (1 ≤ 1 ∧ (⟨1, some 9, some 9, [], 0⟩ : PulseEngine).lastBreak = some 9) ∧
      (⟨0, none, none, [], 0⟩ : PulseEngine).count = 0 ∧ ([100] : List Nat) ≠ [] ∧
      ∀ x ∈ ([100] : List Nat), 100 ≤ x ∧ x ≤ 100 := by decide +kernel

theorem witness_DigitEndMakesEntry :
    ∀ n ∈ ([1, 10, 11] : List Nat),
      let s := seized fun c => { c with pulse := ⟨n, some 10, some 30, [60], 60⟩ }
      s.highway.sync = .sync ∧ (s.line 5).senseLost = false ∧ dialling (s.line 5).state = true ∧
        (s.profile 5).pulseDialling = true ∧ 1 ≤ (s.line 5).pulse.count ∧ (s.line 5).loop.brk = none ∧
        max (s.profile 5).idtMin ((s.profile 5).idtMult * (s.line 5).pulse.tbase / 32) ≤ (s.line 5).loop.makeTimer := by
  decide +kernel

theorem witness_DiallingTimersExpire :
    (∀ st ∈ ([.seized, .dialling] : List LineState),
      let s := seized fun c => { c with state := st, lockoutTimer := 10000 }
      s.highway.sync = .sync ∧ (s.line 5).senseLost = false ∧ (s.line 5).state = st ∧ (s.line 5).openString = [] ∧
        (s.profile 5).lockoutT ≠ 0 ∧ (s.profile 5).lockoutT ≤ (s.line 5).lockoutTimer ∧ (s.line 5).pulse.count = 0 ∧
        (s.line 5).loop.brk = none ∧ (s.line 5).tone.state = .quiet ∧ (s.line 5).entryMark = false) ∧
    (∀ n ∈ ([1, 15, 16, 17] : List Nat),
      let s := seized fun c => { c with openString := List.replicate n (errorEntry .badBreak 80), stringTimer := 4000 }
      (s.line 5).openString ≠ [] ∧ (s.profile 5).strTimeout ≤ (s.line 5).stringTimer ∧
        ((s.profile 5).strMax ≤ (s.line 5).openString.length ↔ 16 ≤ n)) := by decide +kernel

/-! ### Witnesses: ringing -/

theorem witness_RingStepExpires :
    (let s := ringing 1 fun r => { r with timer := 400 }
     s.highway.sync = .sync ∧ (s.line 5).senseLost = false ∧ (s.line 5).state = .ringing ∧
      (s.line 5).ring.step = some 1 ∧ 1 ≤ (s.line 5).ring.timer ∧
      ((s.cadenceWords 5).getD (1 - 1) 0).toNat ≤ (s.line 5).ring.timer ∧
      decide (6 ≤ 1 ∨ (s.cadenceWords 5).getD 1 0 = 0) = false) ∧
    (∀ left ∈ ([none, some 1, some 2] : List (Option Nat)),
      let s := ringing 4 fun r => { r with timer := 2000, cyclesLeft := left }
      (s.line 5).ring.step = some 4 ∧ ((s.cadenceWords 5).getD (4 - 1) 0).toNat ≤ (s.line 5).ring.timer ∧
        decide (6 ≤ 4 ∨ (s.cadenceWords 5).getD 4 0 = 0) = true ∧ (s.line 5).ring.cyclesLeft = left) ∧
    (let s := place .cadence 1 [1, 2, 3, 4, 5, 6] (ringing 6 fun r => { r with timer := 6 })
     (s.line 5).ring.step = some 6 ∧ ((s.cadenceWords 5).getD (6 - 1) 0).toNat ≤ (s.line 5).ring.timer ∧
      decide (6 ≤ 5 ∨ (s.cadenceWords 5).getD 5 0 = 0) = false) := by decide +kernel

theorem witness_RingTripAnswers :
    (let r : RingSequencer := { RingSequencer.initial with window := List.replicate 10 7, windowSum := 70 }
     1 ≤ (ready.profile 5).rtWin ∧ r.window.length ≤ (ready.profile 5).rtWin ∧ r.windowSum = r.window.sum) ∧
    (let s := ringing 1 fun r => { r with tripRun := 3 }
     s.highway.sync = .sync ∧ (s.line 5).senseLost = false ∧ (s.line 5).state = .ringing ∧
      ringOnStep (s.line 5).ring.step = true ∧ 1 ≤ (s.line 5).ring.tripRun ∧
      (s.profile 5).rtConf ≤ (s.line 5).ring.tripRun) ∧
    (let s := modLine 5 (fun c => { c with loop := { c.loop with debounced := .loop, makeTimer := 3 } }) (ringing 2 id)
     (s.line 5).state = .ringing ∧ ringOnStep (s.line 5).ring.step = false ∧ (s.line 5).loop.debounced = .loop ∧
      (s.profile 5).rtConf ≤ (s.line 5).loop.makeTimer) ∧
    ∀ step ∈ ([1, 2] : List Nat),
      let s := ringing step id
      (Usable s 0x8001 (some .standby) ∧ testHeld s 5 = false ∧ (s.line 5).state = .ringing) ∧
        (Usable (retiringAt 127 s) 0x8001 (some .standby) ∧ testHeld (retiringAt 127 s) 5 = false ∧
          ((retiringAt 127 s).line 5).state = .ringing) := by
  refine ⟨by decide +kernel, by decide +kernel, by decide +kernel, fun step _ => ?_⟩
  have h := usable_of (s := ringing step id) (status := 0x8001) (echo := some .standby) rfl rfl
    (by unfold carriesEcho; decide) (.inl rfl)
  exact ⟨⟨h.1, rfl, rfl⟩, h.2 127, rfl, rfl⟩

/-! ### Witnesses: the fault monitor -/

/-- `window` with an entry of class 5 that no window matches before the entry that every window matches. -/
def secondMatches : State :=
  place .faultPlan 1 [0x8001, 7, 0x5124, 0, 0, 0, 0, 0, 0]
    (place .faultPlan 16 [0x8000, 0, 0x3124, 0, 0, 0, 0, 0, 0] (window id))

theorem witness_FaultWindowCloses :
    ((0 : Int) < 1 ∧ (1 : Int) < 2) ∧
    ((matchingEntry secondMatches 5).map (·.faultClass) = some 3 ∧ (readClassEntry (secondMatches.faultEntry 5 1).words).enabled
      ∧ matchingEntry State.reset 5 = none) ∧
    (∀ n ∈ ([64, 65, 126] : List Nat),
      let s := { ready with highway := { ready.highway with stamp := BitVec.ofNat 16 n } }
      s.recordArrives 5 ∧ s.stamp.toNat % 64 ≠ 63) ∧
    (carriesEcho 0x8000 (some .opened) ∧ carriesEcho 0 none) ∧
    (let s := { ready with highway := { ready.highway with stamp := 127 } }
     s.recordArrives 5 ∧ s.stamp.toNat % 64 = 63 ∧ (s.line 5).state = .disabled ∧ (s.line 5).senseLost = false ∧
      (s.line 5).recoveryDue = false ∧ (s.line 5).openString = [] ∧ testHeld s 5 = false) ∧
    (let s := window fun m => { m with discard := true }
     s.highway.sync = .sync ∧ s.stamp.toNat % 64 = 63 ∧ (s.line 5).monitor.closed = false ∧
      (s.line 5).monitor.discard = true) ∧
    ((ready.line 5).monitor.closed = false ∧ (State.reset.faultEntry 5 0).valid = false) ∧
    (let s := window id
     (s.line 5).monitor.discard = false ∧ (s.faultEntry 5 0).valid = true ∧
      (matchingEntry s 5).map (fun e => (e.faultClass, e.confirmCount)) = some (3, 2) ∧
      (s.line 5).monitor.candidateClass = none ∧ (s.line 5).monitor.confirmedClass = 0) ∧
    (let s := window fun m => { m with candidateClass := some 3, candidateRun := 1 }
     (s.line 5).monitor.discard = false ∧ (s.faultEntry 5 0).valid = true ∧
      (matchingEntry s 5).map (fun e => (e.faultClass, e.confirmCount)) = some (3, 2) ∧
      (s.line 5).monitor.candidateClass = some (windowClass s 5) ∧ 2 ≤ min 15 ((s.line 5).monitor.candidateRun + 1) ∧
      ((after (.faultWindowClose 5) s).line 5).monitor.confirmedClass = 3) ∧
    (let s := window fun m => { m with confirmedClass := 4, confirmedClear := some 1 }
     (s.line 5).monitor.candidateClass ≠ some (windowClass s 5) ∧ windowClass s 5 ≠ (s.line 5).monitor.confirmedClass ∧
      ((after (.faultWindowClose 5) s).line 5).monitor.confirmedClass = 0) ∧
    (let s := { (on fun c => { c with invalidRun := 7, state := .idle }) with
        highway := { ready.highway with stamp := 127 } }
     s.recordArrives 5 ∧ s.stamp.toNat % 64 = 63 ∧ 7 ≤ (s.line 5).invalidRun ∧ (s.line 5).state ≠ .disabled) ∧
    (let s := modLine 5 (fun c => { c with state := .test }) (window id)
     s.highway.sync = .sync ∧ s.stamp.toNat % 64 = 63 ∧ (s.line 5).monitor.closed = false ∧ (s.line 5).state = .test ∧
      ((window id).line 5).state ≠ .test) := by
  unfold State.recordArrives carriesEcho; decide +kernel

/-- A monitor whose counted window has closed. -/
def closedMonitor (cls run : Nat) (m : FaultMonitor) : FaultMonitor :=
  { m with closed := true, candidateClass := some cls, candidateRun := run }

theorem witness_FaultConfirmed :
    (let s := window (closedMonitor 3 2)
     s.highway.sync = .sync ∧ windowCounted s 5 = true ∧
      (matchingEntry s 5).map (fun e => (e.faultClass, e.severity, e.confirmCount)) = some (3, .hazard, 2) ∧
      (s.line 5).monitor.candidateClass = some 3 ∧ (3 : Nat) ≠ 0 ∧ 3 ≠ (s.line 5).monitor.confirmedClass ∧
      2 ≤ (s.line 5).monitor.candidateRun ∧ (s.line 5).monitor.confirmedSeverity ≠ some .hazard ∧
      workingState (s.line 5).state = true) ∧
    (let s := place .faultPlan 1 [0x8000, 0, 0x2024, 0, 0, 0, 0, 0, 0]
        (modLine 5 (fun c => { c with state := .fault, monitor := { c.monitor with
          confirmedClass := 3, confirmedSeverity := some .hazard, confirmedClear := some 4 } }) (window (closedMonitor 2 2)))
     (matchingEntry s 5).map (fun e => (e.faultClass, e.severity, e.confirmCount)) = some (2, .advisory, 2) ∧
      windowCounted s 5 = true ∧ (s.line 5).monitor.candidateClass = some 2 ∧ 2 ≠ (s.line 5).monitor.confirmedClass ∧
      (s.line 5).monitor.confirmedSeverity = some .hazard ∧ (s.line 5).state = .fault) := by decide +kernel

theorem witness_FaultCleared :
    let s := modLine 5 (fun c => { c with state := .fault, monitor := { c.monitor with
        confirmedClass := 4, confirmedSeverity := some .hazard, confirmedClear := some 1, reported := some true
        clearRun := 1 } }) (window (closedMonitor 3 1))
    s.highway.sync = .sync ∧ windowCounted s 5 = true ∧ faultConfirmEntry s 5 = none ∧
      (s.line 5).monitor.confirmedClass ≠ 0 ∧ 1 ≤ (s.line 5).monitor.clearRun ∧
      (s.line 5).monitor.confirmedClear.getD 0 ≤ (s.line 5).monitor.clearRun ∧ (s.line 5).monitor.reported = some true ∧
      (s.line 5).monitor.confirmedSeverity = some .hazard ∧ (s.line 5).state = .fault := by decide +kernel

/-! ### Witnesses: the test engine -/

theorem witness_TestTaken :
    (let s := modEngine (fun e => { e with queue := [⟨5, .leak, .commanded⟩] }) ready
     s.highway.sync = .sync ∧ s.engine.queue = ⟨5, .leak, .commanded⟩ :: [] ∧ s.engine.busy = false ∧
      (s.line 5).state = .disabled ∧ (s.entry .testPlan (s.activeBank .testPlan) (4 * kindCode .leak)).valid = true ∧
      (readTestStep (s.entry .testPlan (s.activeBank .testPlan) (4 * kindCode .leak)).words).enabled = true) ∧
    ((queued 0).engine.busy = true ∧ (queued 0).engine.queue = ⟨6, .foreign, .commanded⟩ :: [⟨7, .leak, .sweep⟩]) ∧
    (let s := modEngine (fun e => { e with queue := [⟨5, .leak, .sweep⟩] }) ready
     s.engine.queue = [⟨5, .leak, .sweep⟩] ∧ admissible .sweep (s.line 5).state = false) ∧
    (let s := modEngine (fun e => { e with queue := [⟨5, .foreign, .commanded⟩, ⟨6, .leak, .commanded⟩] }) ready
     s.engine.busy = false ∧ programRunnable s .foreign = false ∧ programRunnable s .leak = true) := by decide +kernel

theorem witness_SettleEndsAndNoEchoAborts :
    (let s := testing fun e => { e with phase := some .settle }
     s.highway.sync = .sync ∧ s.engine.busy = true ∧ s.engine.held = some ⟨5, .leak, .commanded⟩ ∧
      (s.line 5).senseLost = false ∧ s.engine.phase = some .settle ∧ s.engine.settleCount = 0) ∧
    (let s := testing fun e => { e with phase := some .waitEcho, stepAge := 1000 }
     (s.engine.phase = some .waitEcho ∧ 1000 ≤ s.engine.stepAge) ∧ s.testQueueLawful) ∧
    (let s := modLine 5 (fun c => { c with senseLost := true, invalidRun := 8 }) (testing id)
     Usable s 0x8005 (some .testTip) ∧ s.testQueueLawful ∧ (s.line 5).senseLost = true ∧ (s.line 5).state = .test ∧
       s.engine.busy = true ∧ s.engine.held = some ⟨5, .leak, .commanded⟩ ∧ s.engine.step = some 1) ∧
    ∀ ph ∈ ([.waitEcho, .settle, .measure] : List StepPhase),
      let s := testing fun e => { e with phase := some ph, settleCount := 1 }
      (Usable s 0x8005 (some .testTip) ∧ Usable (retiringAt 127 s) 0x8005 (some .testTip)) ∧
        (s.testQueueLawful ∧ (retiringAt 127 s).testQueueLawful) ∧ (s.line 5).senseLost = false ∧ (s.line 5).state = .test ∧
        s.engine.busy = true ∧ s.engine.held = some ⟨5, .leak, .commanded⟩ ∧ s.engine.step = some 1 ∧
        s.engine.phase = some ph := by
  refine ⟨by decide +kernel, ⟨by decide +kernel, testing_queueLawful _ rfl⟩, ?_, fun ph _ => ?_⟩
  · have h := usable_of (s := modLine 5 (fun c => { c with senseLost := true, invalidRun := 8 }) (testing id))
      (status := 0x8005) (echo := some .testTip) rfl rfl (by unfold carriesEcho; decide) (.inl rfl)
    exact ⟨h.1, testing_queueLawful id rfl, rfl, rfl, rfl, rfl, rfl⟩
  have q := testing_queueLawful (fun e => { e with phase := some ph, settleCount := 1 }) rfl
  refine ⟨?_, ⟨q, q⟩, ?_⟩
  · have h := usable_of (s := testing fun e => { e with phase := some ph, settleCount := 1 }) (status := 0x8005)
      (echo := some .testTip) rfl rfl (by unfold carriesEcho; decide) (.inl rfl)
    exact ⟨h.1, h.2 127⟩
  · exact ⟨rfl, rfl, rfl, rfl, rfl, rfl⟩

theorem witness_TestStepEnds :
    (let s := testing fun e => { e with phase := some .measure, measureTimer := 100 }
     (s.highway.sync = .sync ∧ s.engine.busy = true ∧ s.engine.held = some ⟨5, .leak, .commanded⟩ ∧
      (s.line 5).senseLost = false ∧ (s.line 5).state = .test ∧ s.engine.phase = some .measure ∧
      s.engine.step = some 1 ∧ 1 ≤ s.engine.measureTimer ∧
      (readTestStep (s.entry .testPlan .a (4 * kindCode .leak)).words).measure ≤ s.engine.measureTimer ∧
      (s.entry .testPlan .a (4 * kindCode .leak + 1)).valid = true ∧
      (readTestStep (s.entry .testPlan .a (4 * kindCode .leak + 1)).words).enabled = true) ∧ s.testQueueLawful) ∧
    (let s := testing fun e => { e with phase := some .measure, measureTimer := 100, step := some 2 }
     (s.engine.step = some 2 ∧ (s.entry .testPlan .a (4 * kindCode .leak + 2)).valid = false) ∧ s.testQueueLawful) :=
  ⟨⟨by decide +kernel, testing_queueLawful _ rfl⟩, by decide +kernel, testing_queueLawful _ rfl⟩

theorem witness_SweepExpires :
    let s := modEngine (fun e => { e with sweepTimer := 1000 }) (testing id)
    let idle := modLine 7 (fun c => { c with state := .idle }) s
    let line (k : Nat) : LineNo := Fin.ofNat 48 (idle.engine.sweepPointer.val + k)
    (s.highway.sync = .sync ∧ s.settings.sweepPeriod ≠ 0 ∧ s.settings.sweepPeriod * 1000 ≤ s.engine.sweepTimer ∧
      s.engine.busy = true ∧ ∀ l, (s.line l).state ≠ .idle) ∧
    (7 < 48 ∧ (idle.line (line 7)).state = .idle ∧ ∀ j, j < 7 → (idle.line (line j)).state ≠ .idle) := by decide +kernel

/-! ### Witnesses: the invariants -/

/-- `ready` with a command waiting. -/
def waiting : State := ready.withPending [.gapExpiry]

theorem waiting_line (l : LineNo) : waiting.line l = Line.initial := by
  revert l; decide +kernel

theorem waiting_steps : step waiting = .next ready :=
  congrArg Host.Outcome.next (by decide +kernel : inSync gapExpiryIfDue (waiting.withPending []) = ready)

theorem witness_CapacitiesKept : waiting.queuesBounded ∧ waiting.buffersBounded ∧ step waiting = .next ready := by
  refine ⟨?_, fun l => ?_, waiting_steps⟩
  · unfold State.queuesBounded; decide +kernel
  · rw [waiting_line]; decide +kernel

theorem waiting_testLawful : waiting.testLawful ∧ waiting.testQueueLawful := by
  refine ⟨⟨?_, fun l => ?_⟩, ?_, ?_, ?_⟩
  · unfold State.engineLawful; decide +kernel
  · rw [waiting_line]; revert l; decide +kernel
  · decide +kernel
  · decide +kernel
  · intro r h
    have h' : waiting.engine.held = none := by decide +kernel
    rw [h'] at h; cases h

theorem witness_TestEngineLawful : waiting.testLawful ∧ waiting.testQueueLawful ∧ step waiting = .next ready :=
  ⟨waiting_testLawful.1, waiting_testLawful.2, waiting_steps⟩

theorem witness_LinesLawful :
    waiting.testLawful ∧ waiting.testQueueLawful ∧ waiting.linesLawful ∧ step waiting = .next ready := by
  refine ⟨waiting_testLawful.1, waiting_testLawful.2, fun l => ?_, waiting_steps⟩
  rw [waiting_line]
  refine ⟨fun f h => ?_, by decide, by decide, by decide⟩
  have : Line.initial.feedByState = some .opened := rfl
  rw [this] at h; cases h; rfl

theorem tablesLawful_retiringAt : (retiringAt 127 (on fun c => { c with profileBank := .b })).tablesLawful := by
  refine ⟨fun x => ?_, fun x => ?_⟩
  · cases x <;> exact ⟨by decide +kernel, by decide +kernel, fun ld h => by cases h⟩
  · cases x <;> decide +kernel

theorem witness_TablesLawful :
    (waiting.tablesLawful ∧ step waiting = .next ready) ∧
    (let s := retiringAt 127 (on fun c => { c with profileBank := .b })
     s.tablesLawful ∧ exec (.gapExpiry) s = .next s ∧ (s.table .profile).retiringTag = some 4) ∧
    (let s := retiringAt 127 (on fun c => { c with profileBank := .b })
     let t := after (.senseRecord 5 0x8000 0 0 0 .blocksFirst) s
     (t.table .profile).retiringTag = none ∧ t.users .profile .b = 0 ∧ t.report.reply = [t.record none (.commitDone .profile 4)]) := by
  refine ⟨⟨⟨fun x => ?_, fun x h => ?_⟩, waiting_steps⟩, ⟨tablesLawful_retiringAt, ?_, rfl⟩, by decide +kernel⟩
  · cases x <;> exact ⟨by decide +kernel, by decide +kernel, fun ld h => by cases h⟩
  · cases x <;> exact absurd h (by decide +kernel)
  · exact congrArg Host.Outcome.next (by decide +kernel :
      inSync gapExpiryIfDue (retiringAt 127 (on fun c => { c with profileBank := .b })) =
        retiringAt 127 (on fun c => { c with profileBank := .b }))

theorem witness_SyncLawful : waiting.syncLawful ∧ step waiting = .next ready := by
  refine ⟨?_, waiting_steps⟩
  unfold State.syncLawful; decide +kernel

end Sys2Proof.Tests
end

