-- ==== Sys2Proof/Proofs/ToneBlocks.lean ====
section
/-! SUPPORT. The end of a tone block (R66 to R71): the energies as integers, the winner of a group, each check as a
proposition, and with them the result of a block. -/

namespace Sys2Proof.Proofs

open Sys2Proof.Machine

/-! ### Energies and reference power -/

theorem shiftRight_eight (v : Int) : shiftRight v 8 = v / 256 := by
  simp [shiftRight]

theorem shiftRight_fourteen (v : Int) : shiftRight v 14 = v / 16384 := by
  simp [shiftRight]

/-- R66 in integers: both reductions and the last shift are floor divisions, and the energy saturates at either end. -/
theorem binEnergy_eq (c : Int) (b : Bin) :
    binEnergy c b =
      max 0 (min 4294967295
        (b.s1 / 256 * (b.s1 / 256) + b.s2 / 256 * (b.s2 / 256) - c * (b.s1 / 256) * (b.s2 / 256) / 16384)) := by
  simp only [binEnergy, energyStop, shiftRight_eight, shiftRight_fourteen]

theorem referencePower_eq (n power : Nat) : referencePower n power = n * power / 131072 := by
  simp [referencePower]

/-- The energy read at index `k` of a block is that of bin `k` under coefficient `k`. -/
theorem blockEnergies_getD (plan : TonePlan) (t : ToneEngine) {k : Nat} (hk : k < 8) :
    (blockEnergies plan t).getD k 0 =
      binEnergy (plan.coefficients.get (Fin.ofNat 8 k)) (t.bins.get (Fin.ofNat 8 k)) := by
  have index : Fin.ofNat 8 k = ⟨k, hk⟩ := Fin.ext (Nat.mod_eq_of_lt hk)
  rw [index]
  simp [blockEnergies, Vector.getD, hk]

/-! ### The winner of a group -/

/-- Bin `first + r` wins the group of four from `first` on: no bin of the group has more energy, and none of a lower index
has as much (R69). -/
structure Wins (es : Vector Int 8) (first : Nat) (r : Fin 4) : Prop where
  largest : ∀ j : Fin 4, es.getD (first + j) 0 ≤ es.getD (first + r) 0
  lowest : ∀ j : Fin 4, j < r → es.getD (first + j) 0 < es.getD (first + r) 0

/-- The best bin after the first `n` of a group are compared, as `winner` compares them. -/
def bestOfFirst (es : Vector Int 8) (first n : Nat) : Nat :=
  (List.range n).foldl
    (fun best j => if es.getD best 0 < es.getD (first + j) 0 then first + j else best) first

theorem winner_eq_bestOfFirst (es : Vector Int 8) (first : Nat) : winner es first = bestOfFirst es first 4 := rfl

theorem bestOfFirst_zero (es : Vector Int 8) (first : Nat) : bestOfFirst es first 0 = first := rfl

theorem bestOfFirst_succ (es : Vector Int 8) (first n : Nat) :
    bestOfFirst es first (n + 1) =
      if es.getD (bestOfFirst es first n) 0 < es.getD (first + n) 0 then first + n else bestOfFirst es first n := by
  rw [bestOfFirst, List.range_succ, List.foldl_append]
  rfl

/-- Until the winning bin has been compared, the best is a bin at or below it. -/
theorem bestOfFirst_le {es : Vector Int 8} {first : Nat} {r : Fin 4} :
    ∀ {n : Nat}, n ≤ r.val → ∃ b : Fin 4, b ≤ r ∧ bestOfFirst es first n = first + b
  | 0, _ => ⟨0, Fin.zero_le r, bestOfFirst_zero es first⟩
  | n + 1, hn => by
    obtain ⟨b, hb, best⟩ := bestOfFirst_le (es := es) (first := first) (r := r) (Nat.le_of_succ_le hn)
    rw [bestOfFirst_succ]
    split
    · exact ⟨⟨n, by omega⟩, Fin.mk_le_of_le_val (by omega), rfl⟩
    · exact ⟨b, hb, best⟩

/-- Once the winning bin has been compared, it is the best. -/
theorem Wins.bestOfFirst_eq {es : Vector Int 8} {first : Nat} {r : Fin 4} (w : Wins es first r) {n : Nat}
    (hr : r.val < n) (hn : n ≤ 4) : bestOfFirst es first n = first + r := by
  induction n, hr using Nat.le_induction with
  | base =>
    obtain ⟨b, hb, best⟩ := bestOfFirst_le (es := es) (first := first) (le_refl r.val)
    rw [Nat.succ_eq_add_one, bestOfFirst_succ, best]
    obtain below | rfl := lt_or_eq_of_le hb
    · exact if_pos (w.lowest b below)
    · exact ite_self _
  | succ n _ ih =>
    rw [bestOfFirst_succ, ih (by omega)]
    exact if_neg (not_lt.mpr (w.largest ⟨n, hn⟩))

theorem Wins.winner_eq {es : Vector Int 8} {first : Nat} {r : Fin 4} (w : Wins es first r) :
    winner es first = first + r :=
  (winner_eq_bestOfFirst es first).trans (w.bestOfFirst_eq r.isLt le_rfl)

/-! ### The checks -/

@[simp] theorem energyCheck_iff (plan : TonePlan) (er eh : Int) :
    energyCheck plan er eh = true ↔ plan.eMin ≤ er ∧ plan.eMin ≤ eh := by
  simp [energyCheck]

@[simp] theorem twistCheck_iff (plan : TonePlan) (er eh : Int) :
    twistCheck plan er eh = true ↔ plan.twf * er ≤ 16 * eh ∧ plan.twr * eh ≤ 16 * er := by
  simp [twistCheck]

theorem dominanceCheck_iff (plan : TonePlan) (es : Vector Int 8) (first : Nat) (r : Fin 4) :
    dominanceCheck plan es first (first + r) = true ↔
      ∀ j : Fin 4, j ≠ r → plan.dom * es.getD (first + j) 0 ≤ 16 * es.getD (first + r) 0 := by
  simp [dominanceCheck, Fin.forall_iff, Fin.ext_iff, or_iff_not_imp_left]

@[simp] theorem talkOffCheck_iff (plan : TonePlan) (er eh : Int) (pref : Nat) :
    talkOffCheck plan er eh pref = true ↔ plan.frac * (pref : Int) ≤ 16 * (er + eh) := by
  simp [talkOffCheck]

/-! ### The result of a block -/

/-- With the winners of both groups known, a block that is not forced is the key of their row and column when every check
passes, and NT otherwise (R69 to R71). -/
theorem classifyEnergies_of_wins (words : List Word16) {es : Vector Int 8} (pref : Nat) {r h : Fin 4}
    (row : Wins es 0 r) (column : Wins es 4 h) :
    classifyEnergies words es pref =
      let plan := readTonePlan words
      let low (j : Fin 4) := es.getD j 0
      let high (j : Fin 4) := es.getD (4 + j) 0
      if (plan.eMin ≤ low r ∧ plan.eMin ≤ high h) ∧ (plan.twf * low r ≤ 16 * high h ∧ plan.twr * high h ≤ 16 * low r) ∧
          (∀ j, j ≠ r → plan.dom * low j ≤ 16 * low r) ∧ (∀ j, j ≠ h → plan.dom * high j ≤ 16 * high h) ∧
          plan.frac * (pref : Int) ≤ 16 * (low r + high h) then
        keyMapEntry words (4 * r + h)
      else none := by
  simp only [classifyEnergies, row.winner_eq, column.winner_eq, Bool.and_eq_true, energyCheck_iff, twistCheck_iff,
    dominanceCheck_iff, talkOffCheck_iff, and_assoc]
  simp only [Nat.zero_add, Nat.add_sub_cancel_left]

theorem forcesNoTone_iff (c : Line) : c.forcesNoTone = true ↔ 1 ≤ c.pulse.count ∨ c.loop.brk.isSome = true := by
  simp [Line.forcesNoTone]

theorem blockResult_of_forced {s : State} {l : LineNo} (forced : (s.line l).forcesNoTone = true) :
    blockResult s l = none :=
  if_pos forced

theorem blockResult_of_not_forced {s : State} {l : LineNo} (free : ¬ (s.line l).forcesNoTone = true) :
    blockResult s l =
      classifyEnergies (s.toneWords l) (blockEnergies (readTonePlan (s.toneWords l)) (s.line l).tone)
        (referencePower (readTonePlan (s.toneWords l)).n (s.line l).tone.power) :=
  if_neg free

/-- Settles O33: a forced block never reaches the checks; any other is classified by the two winners, which the premises on
the energies name. -/
theorem toneBlockResult : Obligations.ToneBlockResult := by
  refine ⟨fun s l forced => blockResult_of_forced ((forcesNoTone_iff _).mpr forced), ?_⟩
  intro s l r h noPulses noBreak words plan tone energy low high pref rowMax rowLowest columnMax columnLowest
  have free : ¬ (s.line l).forcesNoTone = true := by
    simp [forcesNoTone_iff, noPulses, noBreak]
  have energy_eq {k : Nat} (hk : k < 8) : (blockEnergies plan tone).getD k 0 = energy k :=
    (blockEnergies_getD plan tone hk).trans (binEnergy_eq _ _)
  have low_eq (j : Fin 4) : (blockEnergies plan tone).getD j 0 = low j := energy_eq (by omega)
  have high_eq (j : Fin 4) : (blockEnergies plan tone).getD (4 + j) 0 = high j := energy_eq (by omega)
  have row : Wins (blockEnergies plan tone) 0 r :=
    { largest := by simpa only [Nat.zero_add, low_eq] using rowMax
      lowest := by simpa only [Nat.zero_add, low_eq] using rowLowest }
  have column : Wins (blockEnergies plan tone) 4 h :=
    { largest := by simpa only [high_eq] using columnMax
      lowest := by simpa only [high_eq] using columnLowest }
  have classified := classifyEnergies_of_wins words (referencePower plan.n tone.power) row column
  simp only [low_eq, high_eq, referencePower_eq] at classified
  exact (blockResult_of_not_forced free).trans classified

end Sys2Proof.Proofs
end

