-- ==== Sys2Proof/Proofs/SweepExpiry.lean ====
section
/-! SUPPORT. The sweep expiry (R127, R128): when it is due, the line it chooses, and what the offer of a SWEEP request leaves in
the queue. -/

namespace Sys2Proof.Proofs

open Sys2Proof.Machine

/-! ### The events in SYNC, and when an expiry is due -/

theorem exec_testTake_of_sync {s : State} (sync : s.highway.sync = .sync) :
    exec .testTake s = .next (takeRequests s) :=
  congrArg _ (if_pos sync)

theorem exec_sweepExpiry_of_sync {s : State} (sync : s.highway.sync = .sync) :
    exec .sweepExpiry s = .next (sweepExpiryIfDue s) :=
  congrArg _ (if_pos sync)

theorem sweepDue_iff (s : State) :
    sweepDue s = true ↔ s.settings.sweepPeriod ≠ 0 ∧ s.settings.sweepPeriod * 1000 ≤ s.engine.sweepTimer := by
  rw [sweepDue, Bool.and_eq_true, bne_iff_ne, decide_eq_true_iff, sweepUnit]

/-! ### The line chosen -/

/-- The line at the least distance above the sweep pointer at which a line is in IDLE is the one chosen. -/
theorem sweepChoice_of_first {s : State} {k : Nat} (hk : k < 48)
    (idle : (s.line (lineAfter s.engine.sweepPointer k)).state = .idle)
    (first : ∀ j, j < k → (s.line (lineAfter s.engine.sweepPointer j)).state ≠ .idle) :
    sweepChoice s = some (lineAfter s.engine.sweepPointer k) := by
  have found : ((List.range 48).find? fun j => (s.line (lineAfter s.engine.sweepPointer j)).state = .idle) = some k := by
    rw [List.find?_range_eq_some]
    exact ⟨decide_eq_true idle, List.mem_range.mpr hk, fun j hj => by simpa using first j hj⟩
  rw [sweepChoice, found, Option.map_some]

theorem sweepChoice_of_no_idle {s : State} (busy : ∀ l, (s.line l).state ≠ .idle) : sweepChoice s = none := by
  simp [sweepChoice, busy]

/-! ### The request offered -/

/-- A SWEEP request for the line finds no place: its line is queued or held, or the queue is full (R125). -/
def SweepDropped (l : LineNo) (e : TestEngine) : Prop :=
  (∃ r ∈ e.queue, r.line = l) ∨ (∃ r, e.held = some r ∧ r.line = l) ∨ 8 ≤ e.queue.length

theorem queuedFor_iff (l : LineNo) (q : List Request) : queuedFor l q = true ↔ ∃ r ∈ q, r.line = l := by
  simp [queuedFor]

theorem heldFor_iff (l : LineNo) (held : Option Request) :
    held.any (fun r => r.line = l) = true ↔ ∃ r, held = some r ∧ r.line = l := by
  simp [Option.any_eq_true]

theorem offerSweep_of_dropped {l : LineNo} {e : TestEngine} (dropped : SweepDropped l e) (kind : TestKind) :
    offerSweep l kind e = e := by
  unfold offerSweep
  split
  · rfl
  · next unclaimed =>
    rw [Bool.or_eq_true, queuedFor_iff, heldFor_iff, not_or] at unclaimed
    obtain ⟨notQueued, notHeld⟩ := unclaimed
    have full : 8 ≤ e.queue.length := (dropped.resolve_left notQueued).resolve_left notHeld
    exact if_neg (Nat.not_lt.mpr full)

theorem offerSweep_of_not_dropped {l : LineNo} {e : TestEngine} (kept : ¬ SweepDropped l e) (kind : TestKind) :
    offerSweep l kind e = { e with queue := e.queue ++ [⟨l, kind, .sweep⟩] } := by
  obtain ⟨notQueued, notHeld, room⟩ : (¬ ∃ r ∈ e.queue, r.line = l) ∧ (¬ ∃ r, e.held = some r ∧ r.line = l) ∧
      ¬ 8 ≤ e.queue.length := by
    simpa only [SweepDropped, not_or] using kept
  have unclaimed : ¬ (queuedFor l e.queue || e.held.any fun r => r.line = l) = true := by
    rw [Bool.or_eq_true, queuedFor_iff, heldFor_iff]
    exact not_or.mpr ⟨notQueued, notHeld⟩
  rw [offerSweep, if_neg unclaimed]
  exact if_pos (Nat.lt_of_not_le room)

/-- An offer changes the queue alone, to the one that the table of R125 gives. -/
theorem offerSweep_eq {l : LineNo} {e : TestEngine} {kind : TestKind} {queue : List Request}
    (dropped : SweepDropped l e → queue = e.queue)
    (kept : ¬ SweepDropped l e → queue = e.queue ++ [⟨l, kind, .sweep⟩]) :
    offerSweep l kind e = { e with queue := queue } := by
  by_cases h : SweepDropped l e
  · rw [offerSweep_of_dropped h, dropped h]
  · rw [offerSweep_of_not_dropped h, kept h]

/-! ### The expiry -/

/-- An expiry with a line chosen: the timer, the pointer and the offer, then the taking of the head request (R128, R129). -/
theorem sweepExpiryIfDue_of_choice {s : State} {l : LineNo} (due : sweepDue s = true) (choice : sweepChoice s = some l) :
    sweepExpiryIfDue s = takeRequests (modEngine (fun e =>
      { offerSweep l s.settings.sweepKind { e with sweepTimer := 0 } with sweepPointer := lineAfter l 1 }) s) := by
  rw [sweepExpiryIfDue, if_pos due, choice]
  rfl

theorem sweepExpiryIfDue_of_no_choice {s : State} (due : sweepDue s = true) (choice : sweepChoice s = none) :
    sweepExpiryIfDue s = modEngine (fun e => { e with sweepTimer := 0 }) s := by
  rw [sweepExpiryIfDue, if_pos due, choice]

/-- Settles O54: the expiry is the offer for the line chosen and then the taking of TEST_TAKE, which a BUSY engine does not
make; with no line in IDLE there is no choice. -/
theorem sweepExpires : Obligations.SweepExpires := by
  intro s sync period reached e line
  have due : sweepDue s = true := (sweepDue_iff s).mpr ⟨period, reached⟩
  constructor
  · intro k hk idle first l dropped queue onDrop onKeep offered
    have offer : offerSweep l s.settings.sweepKind { e with sweepTimer := 0 } =
        { e with sweepTimer := 0, queue := queue } :=
      offerSweep_eq onDrop onKeep
    have expired : sweepExpiryIfDue s = takeRequests offered := by
      rw [sweepExpiryIfDue_of_choice due (sweepChoice_of_first hk idle first)]
      exact congrArg (fun e' : TestEngine =>
        takeRequests { s with engine := { e' with sweepPointer := lineAfter l 1 } }) offer
    have run : exec .sweepExpiry s = .next (takeRequests offered) := by
      rw [exec_sweepExpiry_of_sync sync, expired]
    refine ⟨run.trans (exec_testTake_of_sync (s := offered) sync).symm, ⟨_, run⟩, fun busy => ?_⟩
    rw [run, takeRequests_busy (s := offered) busy]
  · intro noIdle
    rw [exec_sweepExpiry_of_sync sync, sweepExpiryIfDue_of_no_choice due (sweepChoice_of_no_idle noIdle)]
    rfl

end Sys2Proof.Proofs
end

