-- ==== Sys2Proof/Proofs/TableCommands.lean ====
section
/-! SUPPORT. The management commands that read or change the table store (R152, R153, R164 to R169): what each answers, check
by check, and the table that it leaves. -/

namespace Sys2Proof.Proofs

open Sys2Proof.Machine

/-! ### The table, the bank and the line a command names -/

theorem tableOfWord_of_code {w : Word16} {x : TableId} (named : w.toNat = tableCode x) : tableOfWord w = some x := by
  rw [tableOfWord, named]
  cases x <;> rfl

theorem tableOfWord_of_five_lt {w : Word16} (beyond : 5 < w.toNat) : tableOfWord w = none := by
  obtain ⟨n, sum⟩ := Nat.exists_eq_add_of_le' beyond
  rw [tableOfWord, sum]
  rfl

theorem chosenBank_of_le_one {choice : Word16} (chosen : choice.toNat ≤ 1) (tb : Table) :
    chosenBank choice tb = some (if choice.toNat = 0 then tb.active else tb.active.other) := by
  obtain zero | one := Nat.le_one_iff_eq_zero_or_eq_one.mp chosen
  · rw [chosenBank, zero]
    rfl
  · rw [chosenBank, one]
    rfl

theorem chosenBank_of_one_lt {choice : Word16} (beyond : 1 < choice.toNat) (tb : Table) : chosenBank choice tb = none := by
  obtain ⟨n, sum⟩ := Nat.exists_eq_add_of_le' beyond
  rw [chosenBank, sum]
  rfl

/-! ### Checks in their order -/

theorem firstFailure_nil : firstFailure [] = none := rfl

theorem firstFailure_cons (check status rest) :
    firstFailure ((check, status) :: rest) = if check = true then some status else firstFailure rest := by
  cases check <;> rfl

theorem guarded_nil (code tag line effect) (s : State) :
    guarded code tag line [] effect s = replyStatus code tag line .ok (effect s) :=
  guarded_ok firstFailure_nil

/-- The first check decides, and with it passed the rest do (R151). -/
theorem guarded_cons (code tag line check status rest effect) (s : State) :
    guarded code tag line ((check, status) :: rest) effect s =
      if check = true then replyStatus code tag line status s else guarded code tag line rest effect s := by
  cases check <;> rfl

/-! ### The two ends of a table command -/

/-- A command on the table store that is refused: beside the IDLE receiver, only its reply is new (R151). -/
def refused (code : Nat) (tag : Tag) (status : Status) (s : State) : State :=
  (idleReceiver s).withReply (s.replyRecord code tag none status [])

/-- A command on the table store that is taken: the table replaced, then the reply OK. -/
def replaced (code : Nat) (tag : Tag) (x : TableId) (tb : Table) (s : State) : State :=
  (setTable x tb (idleReceiver s)).withReply (s.replyRecord code tag none .ok [])

@[simp] theorem table_idleReceiver (s : State) (x : TableId) : (idleReceiver s).table x = s.table x := rfl

theorem replyStatus_idleReceiver (code tag status) (s : State) :
    replyStatus code tag none status (idleReceiver s) = refused code tag status s :=
  replyStatus_eq ..

theorem replyStatus_setTable_idleReceiver (code tag x tb) (s : State) :
    replyStatus code tag none .ok (setTable x tb (idleReceiver s)) = replaced code tag x tb s :=
  replyStatus_eq ..

theorem table_replaced_self (code tag x tb) (s : State) : (replaced code tag x tb s).table x = tb :=
  table_setTable_self x tb (idleReceiver s)

theorem table_replaced_of_ne {x y : TableId} (other : y ≠ x) (code tag tb) (s : State) :
    (replaced code tag x tb s).table y = s.table y :=
  table_setTable_of_ne other tb (idleReceiver s)

theorem entry_replaced_self (code tag x tb) (s : State) (bank i) :
    (replaced code tag x tb s).entry x bank i = (tb.bank bank).getD i ⟨false, []⟩ := by
  rw [State.entry, table_replaced_self]

/-- A bank that holds what a bank held before reads as that bank did. -/
theorem entry_replaced_of_bank {x : TableId} {tb : Table} {s : State} {bank former : Bank}
    (same : tb.bank bank = (s.table x).bank former) (code tag i) :
    (replaced code tag x tb s).entry x bank i = s.entry x former i := by
  rw [entry_replaced_self, same]
  rfl

/-! ### Banks of a table -/

@[simp] theorem bank_setBank_self (tb : Table) (bank es) : (tb.setBank bank es).bank bank = es := by
  cases bank <;> rfl

@[simp] theorem bank_setBank_other (tb : Table) (bank es) : (tb.setBank bank.other es).bank bank = tb.bank bank := by
  cases bank <;> rfl

@[simp] theorem active_setBank (tb : Table) (bank es) : (tb.setBank bank es).active = tb.active := by
  cases bank <;> rfl

@[simp] theorem retiringTag_setBank (tb : Table) (bank es) : (tb.setBank bank es).retiringTag = tb.retiringTag := by
  cases bank <;> rfl

/-! ### Queries -/

theorem exec_lineQuery_of_sync {s : State} (sync : s.highway.sync = .sync) (tag line) :
    exec (.lineQuery tag line) s = .next (lineQuery tag line (idleReceiver s)) :=
  congrArg _ (if_pos sync)

theorem exec_partQuery_of_sync {s : State} (sync : s.highway.sync = .sync) (tag) :
    exec (.partQuery tag) s = .next (partQuery tag (idleReceiver s)) :=
  congrArg _ (if_pos sync)

theorem exec_entryRead_of_sync {s : State} (sync : s.highway.sync = .sync) (tag table choice index) :
    exec (.entryRead tag table choice index) s = .next (entryRead tag table choice index (idleReceiver s)) :=
  congrArg _ (if_pos sync)

theorem lineQuery_eq {line : Word16} {l : LineNo} (named : line.toNat = l.val) (tag) (s : State) :
    lineQuery tag line s = s.withReply (s.replyRecord 9 tag (some l) .ok (lineQueryWords (s.line l))) := by
  rw [lineQuery, lineOfWord_eq named]
  exact replyWith_eq ..

theorem partQuery_eq (tag) (s : State) :
    partQuery tag s = s.withReply (s.replyRecord 15 tag none .ok (partQueryWords s)) :=
  replyWith_eq ..

/-- ENTRY_READ of an entry that its three arguments name (R169). -/
theorem entryRead_eq {table choice index : Word16} {x : TableId} {s : State} {bank : Bank}
    (named : table.toNat = tableCode x) (chosen : chosenBank choice (s.table x) = some bank)
    (inside : index.toNat < x.entries) (tag) :
    entryRead tag table choice index s =
      s.withReply (s.replyRecord 14 tag none .ok (entryReadWords (s.table x) bank (s.entry x bank index.toNat))) := by
  simp only [entryRead, tableOfWord_of_code named, chosen, if_neg (Nat.not_le.mpr inside)]
  exact replyWith_eq ..

/-- ENTRY_READ is refused RANGE where one of its arguments names nothing (R169). -/
theorem entryRead_range {table choice index : Word16}
    (bad : 5 < table.toNat ∨ 1 < choice.toNat ∨ ∃ x, table.toNat = tableCode x ∧ x.entries ≤ index.toNat)
    (tag) (s : State) :
    entryRead tag table choice index s = replyStatus 14 tag none .range s := by
  unfold entryRead
  obtain beyond | beyond | ⟨x, named, outside⟩ := bad
  · rw [tableOfWord_of_five_lt beyond]
  · simp only [chosenBank_of_one_lt beyond]
    split <;> rfl
  · simp only [tableOfWord_of_code named, if_pos outside]
    split <;> rfl

/-! ### The words of a query -/

theorem optStateCode_eq (before : Option LineState) : optStateCode before = (before.map stateCode).getD 15 := by
  cases before <;> rfl

/-- A word that is one field is that field's value. -/
theorem pack_whole (n : Nat) : pack [(n, 0)] = BitVec.ofNat 16 n := by
  simp [pack]

theorem load_getD_field (load : Option Load) (field : Load → Nat) (zero : field ⟨0, 0, 0, 0⟩ = 0) :
    field (load.getD ⟨0, 0, 0, 0⟩) = (load.map field).getD 0 := by
  cases load with
  | none => exact zero
  | some ld => rfl

theorem tableQueryWords_eq (tb : Table) :
    tableQueryWords tb =
      [pack [(roleCode (tb.role .a), 14), (roleCode (tb.role .b), 12), (flagCode tb.load.isSome, 11),
          ((tb.load.map (·.first)).getD 0, 0)],
        pack [((tb.load.map (·.count)).getD 0, 8), ((tb.load.map (·.accepted)).getD 0, 0)]] := by
  simp only [tableQueryWords, load_getD_field tb.load (·.first) rfl, load_getD_field tb.load (·.count) rfl,
    load_getD_field tb.load (·.accepted) rfl]

/-- Settles O11: each query is its reply and no more; what is left is that the model's words are those of R173. -/
theorem queriesChangeNothing : Obligations.QueriesChangeNothing := by
  intro s tag sync flag lineWords tableWords partWords
  refine ⟨?_, ?_, ?_, ?_⟩
  · intro line l named
    have words : lineQueryWords (s.line l) = lineWords (s.line l) := by
      simp only [lineQueryWords, optStateCode_eq, pack_whole]
      rfl
    rw [exec_lineQuery_of_sync sync, lineQuery_eq named, line_idleReceiver, words]
    rfl
  · have tables : allTables.flatMap (fun x => tableQueryWords (s.table x)) =
        tableWords .profile ++ tableWords .tonePlan ++ tableWords .cadence ++ tableWords .faultPlan ++
          tableWords .testPlan ++ tableWords .settings := by
      simp only [tableQueryWords_eq]
      rfl
    have words : partQueryWords s = partWords := by
      rw [partQueryWords, tables, sync]
      rfl
    have asked : partQueryWords (idleReceiver s) = partQueryWords s := rfl
    rw [exec_partQuery_of_sync sync, partQuery_eq, asked, words]
    rfl
  · intro table choice index x named chosen inside bank e
    rw [exec_entryRead_of_sync sync, entryRead_eq named (chosenBank_of_le_one chosen _) inside]
    rfl
  · intro table choice index bad
    rw [exec_entryRead_of_sync sync, entryRead_range bad, replyStatus_idleReceiver]
    rfl

/-! ### LOAD_OPEN -/

@[simp] theorem load_openLoad (tb : Table) (first count) : (tb.openLoad first count).load = some ⟨first, count, 0, 0⟩ := rfl

@[simp] theorem active_openLoad (tb : Table) (first count) : (tb.openLoad first count).active = tb.active :=
  active_setBank ..

@[simp] theorem retiringTag_openLoad (tb : Table) (first count) : (tb.openLoad first count).retiringTag = tb.retiringTag :=
  retiringTag_setBank ..

theorem bank_active_openLoad (tb : Table) (first count) : (tb.openLoad first count).bank tb.active = tb.bank tb.active :=
  bank_setBank_other ..

theorem bank_other_openLoad (tb : Table) (first count) :
    (tb.openLoad first count).bank tb.active.other = tb.bank tb.active :=
  bank_setBank_self ..

theorem exec_loadOpen_of_sync {s : State} (sync : s.highway.sync = .sync) (tag table first count) :
    exec (.loadOpen tag table first count) s = .next (loadOpen tag table first count (idleReceiver s)) :=
  congrArg _ (if_pos sync)

theorem loadOpen_range {table : Word16} (beyond : 5 < table.toNat) (tag first count) (s : State) :
    loadOpen tag table first count s = replyStatus 10 tag none .range s := by
  rw [loadOpen, tableOfWord_of_five_lt beyond]

/-- LOAD_OPEN of a table: its checks in their order, then the copy and the OPEN load (R164). -/
theorem exec_loadOpen_eq {s : State} {table : Word16} {x : TableId} (sync : s.highway.sync = .sync)
    (named : table.toNat = tableCode x) (tag first count) :
    exec (.loadOpen tag table first count) s = .next (
      if x.entries ≤ first.toNat ∨ count.toNat = 0 ∨ x.entries < first.toNat + count.toNat then refused 10 tag .range s
      else if (s.table x).load.isSome = true then refused 10 tag .state s
      else if (s.table x).retiringTag.isSome = true then refused 10 tag .busy s
      else replaced 10 tag x ((s.table x).openLoad first.toNat count.toNat) s) := by
  rw [exec_loadOpen_of_sync sync]
  simp only [loadOpen, tableOfWord_of_code named, guarded_cons, guarded_nil, Bool.or_eq_true, decide_eq_true_eq,
    or_assoc, table_idleReceiver, replyStatus_idleReceiver, replyStatus_setTable_idleReceiver]

/-- Settles O15: the checks in their order, and the frame of a replaced table whose two banks now hold the same. -/
theorem loadOpen : Obligations.LoadOpen := by
  intro s tag table first count sync answer
  constructor
  · intro beyond
    rw [exec_loadOpen_of_sync sync, loadOpen_range beyond, replyStatus_idleReceiver]
    rfl
  intro x named
  rw [exec_loadOpen_eq sync named]
  refine ⟨fun outside => congrArg _ (if_pos outside), fun firstIn notEmpty fits => ?_⟩
  rw [if_neg (by omega)]
  refine ⟨fun opened => congrArg _ (if_pos opened), fun closed retiring => ?_, fun closed shadow => ?_⟩
  · rw [closed, if_neg (by decide), if_pos retiring]
    rfl
  · rw [closed, if_neg (by decide), shadow, if_neg (by decide)]
    refine ⟨_, rfl, ?_, ?_, ?_, ?_, ?_, ?_, rfl, rfl, rfl, rfl, ⟨rfl, rfl⟩, rfl, rfl⟩
    · rw [table_replaced_self, load_openLoad]
    · rw [table_replaced_self, active_openLoad]
    · rw [table_replaced_self, retiringTag_openLoad, shadow]
    · exact fun i => entry_replaced_of_bank (bank_active_openLoad ..) ..
    · exact fun i => entry_replaced_of_bank (bank_other_openLoad ..) ..
    · exact fun y other => table_replaced_of_ne other ..

/-! ### LOAD_BLOCK -/

/-- Beside an OPEN load the block is judged at the index at which it would be written (R165). -/
theorem blockInvalid_open_iff (x ld block words) :
    blockInvalid x (some ld) block words = true ↔ validEntry x (ld.first + block) words = false := by
  cases x <;> simp [blockInvalid]

/-- Without an OPEN load the block number is the index, and FAULT_PLAN, whose layout depends on the index, judges nothing
(R165). -/
theorem blockInvalid_closed_iff (x block words) :
    blockInvalid x none block words = true ↔ x ≠ .faultPlan ∧ validEntry x block words = false := by
  cases x <;> simp [blockInvalid]

@[simp] theorem load_writeBlock (ld block words) (tb : Table) :
    (tb.writeBlock ld block words).load = some { ld with accepted := ld.accepted + 1, lapse := 0 } := rfl

@[simp] theorem active_writeBlock (ld block words) (tb : Table) : (tb.writeBlock ld block words).active = tb.active :=
  active_setBank ..

@[simp] theorem retiringTag_writeBlock (ld block words) (tb : Table) :
    (tb.writeBlock ld block words).retiringTag = tb.retiringTag :=
  retiringTag_setBank ..

theorem bank_active_writeBlock (ld block words) (tb : Table) :
    (tb.writeBlock ld block words).bank tb.active = tb.bank tb.active :=
  bank_setBank_other ..

theorem bank_other_writeBlock (ld block words) (tb : Table) :
    (tb.writeBlock ld block words).bank tb.active.other =
      (tb.bank tb.active.other).set (ld.first + block) ⟨true, words⟩ :=
  bank_setBank_self ..

/-- The block's entry is written, valid, into the bank that is not ACTIVE (R165). -/
theorem getD_writeBlock_self {tb : Table} {ld : Load} {block : Nat}
    (inside : ld.first + block < (tb.bank tb.active.other).length) (words unknown) :
    ((tb.writeBlock ld block words).bank tb.active.other).getD (ld.first + block) unknown = ⟨true, words⟩ := by
  rw [bank_other_writeBlock]
  simp [inside]

theorem getD_writeBlock_of_ne {tb : Table} {ld : Load} {block i : Nat} (elsewhere : i ≠ ld.first + block)
    (words unknown) :
    ((tb.writeBlock ld block words).bank tb.active.other).getD i unknown =
      (tb.bank tb.active.other).getD i unknown := by
  rw [bank_other_writeBlock]
  simp [elsewhere.symm]

theorem exec_loadBlock_of_sync {s : State} (sync : s.highway.sync = .sync) (tag table block entry) :
    exec (.loadBlock tag table block entry) s = .next (loadBlock tag table block entry (idleReceiver s)) :=
  congrArg _ (if_pos sync)

theorem loadBlock_range {table : Word16} (beyond : 5 < table.toNat) (tag block entry) (s : State) :
    loadBlock tag table block entry s = replyStatus 11 tag none .range s := by
  rw [loadBlock, tableOfWord_of_five_lt beyond]

/-- LOAD_BLOCK of a table: its checks in their order, then the write (R165). -/
theorem exec_loadBlock_eq {s : State} {table : Word16} {x : TableId} (sync : s.highway.sync = .sync)
    (named : table.toNat = tableCode x) (tag block entry) :
    exec (.loadBlock tag table block entry) s = .next (
      if entry.length ≠ x.entryLength then refused 11 tag .length s
      else if x.entries ≤ block.toNat ∨ blockInvalid x (s.table x).load block.toNat entry = true then
        refused 11 tag .range s
      else (s.table x).load.elim (refused 11 tag .state s) fun ld =>
        if block.toNat ≠ ld.accepted ∨ ld.accepted = ld.count then refused 11 tag .order s
        else replaced 11 tag x ((s.table x).writeBlock ld block.toNat entry) s) := by
  rw [exec_loadBlock_of_sync sync, loadBlock, tableOfWord_of_code named]
  cases opened : (s.table x).load <;>
    (simp only [guarded_cons, guarded_nil, Bool.or_eq_true, decide_eq_true_eq, bne_iff_ne, table_idleReceiver, opened,
      Option.getD_some, replyStatus_idleReceiver, replyStatus_setTable_idleReceiver]
     rfl)

/-- The next block of an OPEN load, valid and of the table's length, passes every check (R165). -/
theorem exec_loadBlock_of_next {s : State} {table block : Word16} {entry : List Word16} {x : TableId} {ld : Load}
    (sync : s.highway.sync = .sync) (named : table.toNat = tableCode x) (opened : (s.table x).load = some ld)
    (length : entry.length = x.entryLength) (next : block.toNat = ld.accepted) (incomplete : ld.accepted < ld.count)
    (fits : ld.first + ld.count ≤ x.entries) (valid : validEntry x (ld.first + block.toNat) entry = true) (tag) :
    exec (.loadBlock tag table block entry) s =
      .next (replaced 11 tag x ((s.table x).writeBlock ld block.toNat entry) s) := by
  have inRange : ¬ (x.entries ≤ block.toNat ∨ blockInvalid x (some ld) block.toNat entry = true) := by
    rw [blockInvalid_open_iff, valid]
    simp only [Bool.true_eq_false, or_false]
    omega
  rw [exec_loadBlock_eq sync named, opened, if_neg (not_not.mpr length), if_neg inRange, Option.elim_some,
    if_neg (by omega)]

/-- Settles O16: the next block passes every check and the frame is that of a replaced table; a refusal is the first check
that fails. -/
theorem loadBlock : Obligations.LoadBlock := by
  constructor
  · intro s tag table block entry x ld sync named opened length next incomplete fits full valid
    refine ⟨_, exec_loadBlock_of_next sync named opened length next incomplete fits valid tag,
      ?_, ?_, ?_, ?_, ?_, ?_, ?_, rfl, rfl, rfl, ⟨rfl, rfl⟩, rfl, rfl⟩
    · rw [table_replaced_self, load_writeBlock]
    · rw [table_replaced_self, active_writeBlock]
    · rw [table_replaced_self, retiringTag_writeBlock]
    · have inside : ld.first + block.toNat < ((s.table x).bank (s.table x).active.other).length :=
        lt_of_lt_of_eq (by omega) full.symm
      rw [entry_replaced_self]
      exact getD_writeBlock_self inside ..
    · intro i elsewhere
      rw [entry_replaced_self]
      exact getD_writeBlock_of_ne elsewhere ..
    · exact fun i => entry_replaced_of_bank (bank_active_writeBlock ..) ..
    · exact fun y other => table_replaced_of_ne other ..
  · intro s tag table block entry sync answer
    constructor
    · intro beyond
      rw [exec_loadBlock_of_sync sync, loadBlock_range beyond, replyStatus_idleReceiver]
      rfl
    intro x named
    rw [exec_loadBlock_eq sync named]
    refine ⟨fun length => congrArg _ (if_pos length), fun length => ?_⟩
    rw [if_neg (not_not.mpr length)]
    refine ⟨fun outside => congrArg _ (if_pos (.inl outside)), fun ld opened inside => ?_, fun closed inside => ?_⟩
    · rw [opened, Option.elim_some]
      refine ⟨fun invalid => ?_, fun valid order => ?_⟩
      · rw [if_pos (.inr ((blockInvalid_open_iff ..).mpr invalid))]
        rfl
      · have passes : ¬ blockInvalid x (some ld) block.toNat entry = true := by
          rw [blockInvalid_open_iff, valid]
          decide
        rw [if_neg (not_or.mpr ⟨Nat.not_le.mpr inside, passes⟩), if_pos order]
        rfl
    · rw [closed, Option.elim_none]
      refine ⟨fun indexed invalid => ?_, fun unjudged => ?_⟩
      · rw [if_pos (.inr ((blockInvalid_closed_iff ..).mpr ⟨indexed, invalid⟩))]
        rfl
      · have passes : ¬ blockInvalid x none block.toNat entry = true := by
          rw [blockInvalid_closed_iff]
          exact fun ⟨indexed, invalid⟩ => Bool.eq_false_iff.mp invalid (unjudged.resolve_left indexed)
        rw [if_neg (not_or.mpr ⟨Nat.not_le.mpr inside, passes⟩)]
        rfl

/-! ### LOAD_COMMIT -/

theorem exec_loadCommit_of_sync {s : State} (sync : s.highway.sync = .sync) (tag table) :
    exec (.loadCommit tag table) s = .next (loadCommit tag table (idleReceiver s)) :=
  congrArg _ (if_pos sync)

theorem loadCommit_range {table : Word16} (beyond : 5 < table.toNat) (tag) (s : State) :
    loadCommit tag table s = replyStatus 12 tag none .range s := by
  rw [loadCommit, tableOfWord_of_five_lt beyond]

/-- A commit's effect is the table's new roles, and the sweep timer at 0 where the SWEEP_PERIOD in force changed (R167). -/
theorem commitTable_eq (x : TableId) (tag : Tag) (s : State) :
    commitTable x tag s =
      let t := setTable x ((s.table x).commit tag (1 ≤ s.users x (s.activeBank x))) s
      { t with engine := { s.engine with
          sweepTimer := if t.settings.sweepPeriod = s.settings.sweepPeriod then s.engine.sweepTimer else 0 } } := by
  simp only [commitTable, restartSweep]
  split <;> rfl

theorem table_commitTable_self (x : TableId) (tag : Tag) (s : State) :
    (commitTable x tag s).table x = (s.table x).commit tag (1 ≤ s.users x (s.activeBank x)) := by
  rw [commitTable_eq]
  exact table_setTable_self ..

/-- The REPLY queue after a commit: the reply OK, and COMMIT_DONE behind it where the former bank is SHADOW at once. -/
def repliesOfCommit (x : TableId) (tag : Tag) (s : State) : List Record :=
  let replied := s.replyAfter (s.replyRecord 12 tag none .ok [])
  if 1 ≤ s.users x (s.activeBank x) then replied
  else if replied.length < replyCapacity then replied ++ [s.record none (.commitDone x tag)] else replied

/-- The state after a commit: the table's new roles, the sweep timer restarted where SWEEP_PERIOD changed, and the records. -/
def committed (x : TableId) (tag : Tag) (s : State) : State :=
  let t := setTable x ((s.table x).commit tag (1 ≤ s.users x (s.activeBank x))) s
  { t with
    engine := { s.engine with
      sweepTimer := if t.settings.sweepPeriod = s.settings.sweepPeriod then s.engine.sweepTimer else 0 }
    report := { s.report with reply := repliesOfCommit x tag s } }

theorem withReply_commitTable_of_used {x : TableId} {s : State} (used : 1 ≤ s.users x (s.activeBank x)) (tag : Tag) :
    (commitTable x tag s).withReply (s.replyRecord 12 tag none .ok []) = committed x tag s := by
  rw [commitTable_eq, committed, repliesOfCommit, if_pos used]
  rfl

theorem withReply_commitTable_of_unused {x : TableId} {s : State} (unused : ¬ 1 ≤ s.users x (s.activeBank x)) (tag : Tag) :
    ((commitTable x tag s).withReply (s.replyRecord 12 tag none .ok [])).withReply (s.record none (.commitDone x tag)) =
      committed x tag s := by
  rw [commitTable_eq, committed, repliesOfCommit, if_neg unused]
  rfl

/-- Whether COMMIT_DONE follows the reply is read from the role that the former bank has taken (R167). -/
theorem commit_answered (x : TableId) (tag : Tag) (s : State) :
    (let t := replyStatus 12 tag none .ok (commitTable x tag s)
      if (t.table x).retiringTag.isSome = true then t else offerReply none (.commitDone x tag) t) = committed x tag s := by
  have reply : replyStatus 12 tag none .ok (commitTable x tag s) =
      (commitTable x tag s).withReply (s.replyRecord 12 tag none .ok []) := by
    rw [replyStatus_eq, commitTable_eq]
    rfl
  have role : (((commitTable x tag s).withReply (s.replyRecord 12 tag none .ok [])).table x).retiringTag =
      if 1 ≤ s.users x (s.activeBank x) then some tag else none := by
    refine (congrArg Table.retiringTag (table_commitTable_self x tag s)).trans ?_
    simp only [Table.commit, decide_eq_true_eq]
  simp only [reply, role]
  by_cases used : 1 ≤ s.users x (s.activeBank x)
  · simp only [if_pos used, Option.isSome_some, if_true, withReply_commitTable_of_used used]
  · rw [if_neg used, if_neg (by decide), offerReply_eq, ← withReply_commitTable_of_unused used, commitTable_eq]
    rfl

/-- LOAD_COMMIT with an OPEN load: its checks in their order, then the commit (R167). -/
theorem loadCommit_of_open {s : State} {table : Word16} {x : TableId} {ld : Load}
    (named : table.toNat = tableCode x) (opened : (s.table x).load = some ld) (tag) :
    loadCommit tag table s =
      if (s.table x).retiringTag.isSome = true then replyStatus 12 tag none .busy s
      else if ld.accepted < ld.count then replyStatus 12 tag none .incomplete s
      else committed x tag s := by
  simp only [loadCommit, tableOfWord_of_code named, opened, firstFailure_cons, Option.isNone_some, Option.getD_some,
    decide_eq_true_eq, ← commit_answered]
  by_cases busy : (s.table x).retiringTag.isSome = true
  · simp [busy]
  · by_cases incomplete : ld.accepted < ld.count <;> simp [busy, incomplete, firstFailure_nil]

theorem loadCommit_of_closed {s : State} {table : Word16} {x : TableId} (named : table.toNat = tableCode x)
    (closed : (s.table x).load = none) (tag) :
    loadCommit tag table s = replyStatus 12 tag none .state s := by
  simp only [loadCommit, tableOfWord_of_code named, closed]
  rfl

/-- Settles O17: a complete load passes the checks, and `committed` spells out what is then left. -/
theorem loadCommit : Obligations.LoadCommit := by
  refine ⟨?_, ?_, ?_⟩
  · intro s tag table x ld sync named opened shadow complete used replied
    have run : exec (.loadCommit tag table) s = .next (committed x tag (idleReceiver s)) := by
      rw [exec_loadCommit_of_sync sync, loadCommit_of_open (s := idleReceiver s) named opened, table_idleReceiver, shadow,
        if_neg (by decide), if_neg (Nat.not_lt.mpr complete)]
    refine ⟨_, run, ?_, ?_, rfl, rfl, ⟨rfl, rfl⟩, rfl, ?_, ?_, rfl⟩
    · refine (table_setTable_self ..).trans ?_
      simp only [Table.commit, decide_eq_true_eq]
      rfl
    · exact fun y other => table_setTable_of_ne other ..
    · exact fun inUse => if_pos inUse
    · exact fun unused => if_neg unused
  · intro s tag table sync beyond
    rw [exec_loadCommit_of_sync sync, loadCommit_range beyond, replyStatus_idleReceiver]
    rfl
  · intro s tag table x sync named answer
    rw [exec_loadCommit_of_sync sync]
    refine ⟨fun closed => ?_, fun ld opened => ?_⟩
    · rw [loadCommit_of_closed (s := idleReceiver s) named closed, replyStatus_idleReceiver]
      rfl
    · rw [loadCommit_of_open (s := idleReceiver s) named opened, table_idleReceiver]
      refine ⟨fun retiring => ?_, fun shadow incomplete => ?_⟩
      · rw [if_pos retiring, replyStatus_idleReceiver]
        rfl
      · rw [shadow, if_neg (by decide), if_pos incomplete, replyStatus_idleReceiver]
        rfl

end Sys2Proof.Proofs
end

/-! SUPPORT. What every command keeps (O2, O55, O56, O57, O59): one relation between the state before and the state behind an
operation, closed under composition, and the lemma that each operation of the device is such a step. -/

namespace Sys2Proof.Proofs

open Sys2Proof.Machine

/-! ### Steps of the device -/

/-- The laws of the test engine and of its request queue. -/
def TestsLawful (s : State) : Prop := s.testLawful ∧ s.testQueueLawful

/-- What every operation of the device keeps: the commands that wait, the capacities, the alignment's laws, the test engine's
laws, and under these the laws of the lines. -/
structure DeviceStep (s t : State) : Prop where
  pending : t.pending = s.pending
  queues : s.queuesBounded → t.queuesBounded
  buffers : s.buffersBounded → t.buffersBounded
  sync : s.syncLawful → t.syncLawful
  tests : TestsLawful s → TestsLawful t
  lines : TestsLawful s → s.linesLawful → t.linesLawful

theorem DeviceStep.refl (s : State) : DeviceStep s s := ⟨rfl, id, id, id, id, fun _ => id⟩

theorem DeviceStep.trans {s t u : State} (h : DeviceStep s t) (g : DeviceStep t u) : DeviceStep s u where
  pending := g.pending.trans h.pending
  queues := g.queues ∘ h.queues
  buffers := g.buffers ∘ h.buffers
  sync := g.sync ∘ h.sync
  tests := g.tests ∘ h.tests
  lines laws lines := g.lines (h.tests laws) (h.lines laws lines)

/-- The parts of the test engine on which its laws depend. -/
structure SameTests (s t : State) : Prop where
  busy : t.engine.busy = s.engine.busy
  held : t.engine.held = s.engine.held
  queue : t.engine.queue = s.engine.queue

theorem SameTests.of_engine {s t : State} (h : t.engine = s.engine) : SameTests s t := by
  constructor <;> rw [h]

theorem SameTests.testHeld {s t : State} (h : SameTests s t) (l : LineNo) : testHeld t l = testHeld s l := by
  simp only [Machine.testHeld, h.busy, h.held]

/-- The test engine's laws depend on its request, its queue and which lines are in TEST. -/
theorem testsLawful_of_same {s t : State} (same : SameTests s t)
    (test : ∀ l, (t.line l).state = .test ↔ (s.line l).state = .test) (laws : TestsLawful s) : TestsLawful t := by
  obtain ⟨⟨engine, lines⟩, queue⟩ := laws
  refine ⟨⟨?_, fun l => ?_⟩, ?_⟩
  · rw [State.engineLawful, same.busy, same.held]
    exact engine
  · rw [test, same.testHeld]
    exact lines l
  · rw [State.testQueueLawful, same.held, same.queue]
    exact queue

/-- A step that leaves every line as it is. -/
theorem DeviceStep.of_lines {s t : State} (lines : t.lines = s.lines) (pending : t.pending = s.pending)
    (same : SameTests s t) (queues : s.queuesBounded → t.queuesBounded) (sync : s.syncLawful → t.syncLawful) :
    DeviceStep s t := by
  have line : ∀ l, t.line l = s.line l := (lines_eq_iff t s).mp lines
  refine ⟨pending, queues, fun h l => ?_, sync, testsLawful_of_same same fun l => by rw [line], fun _ h l => ?_⟩
  · rw [line]
    exact h l
  · rw [line]
    exact h l

/-! ### Changes of one line -/

/-- A change of one line that keeps its lawfulness, the bound of its buffer, and whether it is in TEST. -/
structure LineKeeps (l : LineNo) (s t : State) : Prop extends OnlyLine l s t where
  lawful : (s.line l).Lawful → (t.line l).Lawful
  fill : (s.line l).fill ≤ bufferCapacity → (t.line l).fill ≤ bufferCapacity
  test : (t.line l).state = .test ↔ (s.line l).state = .test
  queues : s.queuesBounded → t.queuesBounded

theorem LineKeeps.of_step {l : LineNo} {s t : State} (h : LineStep l s t) : LineKeeps l s t :=
  ⟨h.toOnlyLine, h.lawful, h.fill, h.test, h.queues⟩

theorem LineKeeps.trans {l : LineNo} {s t u : State} (h : LineKeeps l s t) (g : LineKeeps l t u) : LineKeeps l s u :=
  ⟨h.toOnlyLine.trans g.toOnlyLine, g.lawful ∘ h.lawful, g.fill ∘ h.fill, g.test.trans h.test, g.queues ∘ h.queues⟩

/-- What holds of the changed line before and after, and of every other line as it was, holds of all lines. -/
theorem forall_line_of_onlyLine {l : LineNo} {s t : State} (h : OnlyLine l s t) {P : Line → Prop}
    (own : P (s.line l) → P (t.line l)) (all : ∀ k, P (s.line k)) (k : LineNo) : P (t.line k) := by
  by_cases hk : k = l
  · rw [hk]
    exact own (all l)
  · rw [h.lines k hk]
    exact all k

theorem syncLawful_of_eq {s t : State} (highway : t.highway = s.highway) (sending : t.report.sending = s.report.sending)
    (h : s.syncLawful) : t.syncLawful := by
  rw [State.syncLawful, highway, sending]
  exact h

theorem LineKeeps.deviceStep {l : LineNo} {s t : State} (h : LineKeeps l s t) : DeviceStep s t where
  pending := h.pending
  queues := h.queues
  buffers := forall_line_of_onlyLine h.toOnlyLine (P := fun c => c.fill ≤ bufferCapacity) h.fill
  sync := syncLawful_of_eq h.highway h.sending
  tests := testsLawful_of_same (.of_engine h.engine) fun k => by
    by_cases hk : k = l
    · rw [hk]
      exact h.test
    · rw [h.lines k hk]
  lines _ := forall_line_of_onlyLine h.toOnlyLine (P := Line.Lawful) h.lawful

theorem DeviceStep.of_step {l : LineNo} {s t : State} (h : LineStep l s t) : DeviceStep s t := (LineKeeps.of_step h).deviceStep

end Sys2Proof.Proofs


namespace Sys2Proof.Proofs

open Sys2Proof.Machine

/-! ### Offers and migrations -/

theorem deviceStep_offerAlarm (o p) (s : State) : DeviceStep s (offerAlarm o p s) :=
  .of_step (lineStep_offerAlarm 0 o p s)

theorem deviceStep_releaseBank (x) (s : State) : DeviceStep s (releaseBank x s) :=
  .of_step (lineStep_releaseBank 0 x s)

theorem deviceStep_releaseBanks (s : State) : DeviceStep s (releaseBanks s) :=
  .of_step (lineStep_releaseBanks 0 s)

theorem deviceStep_withReply (r : Record) (s : State) : DeviceStep s (s.withReply r) := by
  refine .of_lines rfl rfl (.of_engine rfl) (fun ⟨alarm, reply, signal⟩ => ⟨alarm, ?_, signal⟩) id
  rw [reply_withReply, State.replyAfter]
  split
  · next room =>
    rw [List.length_append]
    exact room
  · exact reply

theorem deviceStep_offerReply (o p) (s : State) : DeviceStep s (offerReply o p s) := by
  rw [offerReply_eq]
  exact deviceStep_withReply ..

theorem deviceStep_replyWith (code tag line status result) (s : State) :
    DeviceStep s (replyWith code tag line status result s) := deviceStep_offerReply ..

theorem deviceStep_replyStatus (code tag line status) (s : State) : DeviceStep s (replyStatus code tag line status s) :=
  deviceStep_offerReply ..

/-! ### The start of a test -/

/-- The line on which a test starts (R18, R19, R129, R130). -/
def testedLine (s : State) (r : Request) : Line :=
  { s.line r.line with
    state := .test, stateBeforeTest := some (s.line r.line).state
    commandedFeed :=
      (readTestStep (s.entry .testPlan (s.activeBank .testPlan) (4 * kindCode r.kind)).words).feed
    loop := .initial (s.line r.line).loop.feedMask, cadenceBank := s.activeBank .cadence }

/-- The engine at the start of a test of a request (R130). -/
def testingEngine (s : State) (r : Request) : TestEngine :=
  { s.engine.atStep 1 with busy := true, held := some r, bank := some (s.activeBank .testPlan), results := [] }

/-- The start of a test is the engine's and the line's new fields, and the migrations that they complete. -/
theorem startTest_eq (r : Request) (s : State) :
    startTest r s = releaseBanks (setLine r.line (testedLine s r) { s with engine := testingEngine s r }) := by
  have examined : ∀ t : State, (t.line r.line).state = .test →
      examine r.line t = setLine r.line { t.line r.line with cadenceBank := t.activeBank .cadence } t :=
    fun t test => examine_of_test test
  unfold startTest
  dsimp only
  rw [examined _ (by rw [line_changeState])]
  simp only [changeState, refreshFeed, modLine, setLine_setLine, line_setLine_self]
  rfl

theorem line_startTest_self (r : Request) (s : State) : (startTest r s).line r.line = testedLine s r := by
  rw [startTest_eq, line_releaseBanks, line_setLine_self]

theorem engine_startTest (r : Request) (s : State) : (startTest r s).engine = testingEngine s r := by
  rw [startTest_eq, (upToMigration_releaseBanks _).engine]
  rfl

/-- What the taking of requests from a queue can do: it skips requests, which is told to the ALARM queue alone, until the
queue is empty or a request starts its test (R129). -/
theorem takeFrom_cases (q : List Request) (s : State) :
    ∃ a b, takeFrom q s = modEngine (fun e => { e with queue := [] }) (withAlarm a b s) ∨
      ∃ r rest, r :: rest <:+ q ∧ admissible r.origin (s.line r.line).state = true ∧
        takeFrom q s = startTest r (modEngine (fun e => { e with queue := rest }) (withAlarm a b s)) := by
  induction q generalizing s with
  | nil => exact ⟨_, _, .inl rfl⟩
  | cons r rest ih =>
    unfold takeFrom
    split
    · next taken =>
      exact ⟨_, _, .inr ⟨r, rest, List.suffix_rfl, (Bool.and_eq_true_iff.mp taken).1, rfl⟩⟩
    · obtain ⟨a', b', skipped⟩ : ∃ a b, skipRequest r s = withAlarm a b s := by
        unfold skipRequest
        split
        · exact offerAlarm_eq ..
        · exact ⟨_, _, rfl⟩
      obtain ⟨a, b, emptied | ⟨r', rest', suffix, allowed, started⟩⟩ := ih (skipRequest r s)
      · refine ⟨a, b, .inl ?_⟩
        rw [emptied, skipped]
        rfl
      · rw [skipped] at allowed
        refine ⟨a, b, .inr ⟨r', rest', suffix.trans (List.suffix_cons ..), allowed, ?_⟩⟩
        rw [started, skipped]
        rfl

/-! ### The laws behind the taking of requests -/

/-- A request queue within its capacity, with at most one request for a line (R125). -/
def QueueFits (q : List Request) : Prop := q.length ≤ testQueueCapacity ∧ (q.map (·.line)).Nodup

theorem QueueFits.of_suffix {q q' : List Request} (h : QueueFits q) (suffix : q' <:+ q) : QueueFits q' :=
  ⟨suffix.length_le.trans h.1, h.2.sublist (suffix.sublist.map _)⟩

/-- No test is under way: the engine is FREE and no line is in TEST. -/
structure Untested (s : State) : Prop where
  free : s.engine.busy = false
  held : s.engine.held = none
  lines : ∀ l, (s.line l).state ≠ .test

theorem untested_of_free {s : State} (laws : TestsLawful s) (free : s.engine.busy = false) : Untested s := by
  obtain ⟨⟨engine, lines⟩, -⟩ := laws
  refine ⟨free, ?_, fun l test => ?_⟩
  · rw [State.engineLawful, free] at engine
    simpa using engine.symm
  · have held := (lines l).mp test
    rw [testHeld, free] at held
    cases held

theorem testsLawful_of_untested {s : State} (h : Untested s) (fits : QueueFits s.engine.queue) : TestsLawful s := by
  refine ⟨⟨?_, fun l => ?_⟩, fits.1, fits.2, fun r held => ?_⟩
  · rw [State.engineLawful, h.free, h.held]
    rfl
  · rw [testHeld, h.free]
    exact iff_of_false (h.lines l) Bool.false_ne_true
  · rw [h.held] at held
    cases held

/-- With a test started on the line of a request, the laws hold if the queue that is left has no other request for it. -/
theorem testsLawful_startTest {r : Request} {s : State} (h : Untested s) (fits : QueueFits (r :: s.engine.queue)) :
    TestsLawful (startTest r s) := by
  obtain ⟨length, nodup⟩ := fits
  rw [List.map_cons, List.nodup_cons] at nodup
  have engine := engine_startTest r s
  refine ⟨⟨?_, fun l => ?_⟩, ?_, ?_, fun r' held => ?_⟩
  · rw [State.engineLawful, engine]
    rfl
  · rw [testHeld, engine]
    by_cases own : l = r.line
    · rw [own, line_startTest_self]
      simp [testedLine, testingEngine]
    · rw [line_startTest_of_ne own]
      exact iff_of_false (h.lines l) (by simp [testingEngine, Ne.symm own])
  · rw [engine]
    exact (Nat.le_succ _).trans length
  · rw [engine]
    exact nodup.2
  · rw [engine] at held ⊢
    obtain rfl : r = r' := Option.some.inj held
    have absent : queuedFor r.line s.engine.queue = false := by
      simpa [queuedFor] using nodup.1
    exact absent

theorem testsLawful_takeFrom {q : List Request} {s : State} (h : Untested s) (fits : QueueFits q) :
    TestsLawful (takeFrom q s) := by
  obtain ⟨a, b, emptied | ⟨r, rest, suffix, -, started⟩⟩ := takeFrom_cases q s
  · rw [emptied]
    exact testsLawful_of_untested ⟨h.free, h.held, h.lines⟩ ⟨Nat.zero_le _, List.nodup_nil⟩
  · rw [started]
    exact testsLawful_startTest ⟨h.free, h.held, h.lines⟩ (fits.of_suffix suffix)

/-- A line on which a test starts is lawful, if it was in a state in which its request is admissible. -/
theorem lawful_testedLine {s : State} {r : Request} (allowed : admissible r.origin (s.line r.line).state = true)
    (h : (s.line r.line).Lawful) : (testedLine s r).Lawful := by
  have quiet : (s.line r.line).state ≠ .ringing := by
    intro ringing
    rw [ringing] at allowed
    simp [admissible] at allowed
  refine ⟨fun f feed => ?_, ?_, fun disabled => ?_, ?_⟩
  · cases feed
  · have : (testedLine s r).ring = (s.line r.line).ring := rfl
    rw [this, h.ring]
    exact iff_of_false quiet (by simp [testedLine])
  · cases disabled
  · exact iff_of_true rfl rfl

theorem linesLawful_takeFrom {q : List Request} {s : State} (h : s.linesLawful) : (takeFrom q s).linesLawful := by
  obtain ⟨a, b, emptied | ⟨r, rest, -, allowed, started⟩⟩ := takeFrom_cases q s
  · rw [emptied]
    exact h
  · intro l
    rw [started]
    by_cases own : l = r.line
    · rw [own, line_startTest_self]
      exact lawful_testedLine (s := modEngine _ _) allowed (h r.line)
    · rw [line_startTest_of_ne own]
      exact h l

theorem buffersBounded_takeFrom {q : List Request} {s : State} (h : s.buffersBounded) :
    (takeFrom q s).buffersBounded := by
  obtain ⟨a, b, emptied | ⟨r, rest, -, -, started⟩⟩ := takeFrom_cases q s
  · rw [emptied]
    exact h
  · intro l
    rw [started]
    by_cases own : l = r.line
    · rw [own, line_startTest_self]
      exact h r.line
    · rw [line_startTest_of_ne own]
      exact h l

theorem deviceStep_takeRequests (s : State) : DeviceStep s (takeRequests s) := by
  have step := engineStep_takeRequests s
  unfold takeRequests at step ⊢
  split
  · exact .refl s
  · next idle =>
    rw [if_neg idle] at step
    have free : s.engine.busy = false := Bool.eq_false_iff.mpr idle
    exact ⟨step.pending, step.bounded, buffersBounded_takeFrom, syncLawful_of_eq step.highway step.sending,
      fun laws => testsLawful_takeFrom (untested_of_free laws free) ⟨laws.2.1, laws.2.2.1⟩,
      fun _ => linesLawful_takeFrom⟩

/-- The engine freed with no line in TEST takes its next request (R133 steps 3 and 4). -/
theorem freeEngine_eq (s : State) :
    freeEngine s = takeFrom s.engine.queue (releaseBanks (modEngine (·.freed) s)) := by
  rw [freeEngine, takeRequests, (upToMigration_releaseBanks _).engine]
  rfl

theorem testsLawful_freeEngine {s : State} (lines : ∀ l, (s.line l).state ≠ .test) (fits : QueueFits s.engine.queue) :
    TestsLawful (freeEngine s) := by
  have engine : (releaseBanks (modEngine (·.freed) s)).engine = s.engine.freed := (upToMigration_releaseBanks _).engine
  rw [freeEngine_eq]
  refine testsLawful_takeFrom ⟨by rw [engine]; rfl, by rw [engine]; rfl, fun l => ?_⟩ fits
  rw [line_releaseBanks]
  exact lines l

theorem linesLawful_freeEngine {s : State} (lines : s.linesLawful) : (freeEngine s).linesLawful := by
  rw [freeEngine_eq]
  refine linesLawful_takeFrom fun l => ?_
  rw [line_releaseBanks]
  exact lines l

/-- Freeing the engine keeps what does not depend on the test that ends. -/
structure Carries (s t : State) : Prop where
  pending : t.pending = s.pending
  queues : s.queuesBounded → t.queuesBounded
  buffers : s.buffersBounded → t.buffersBounded
  sync : s.syncLawful → t.syncLawful

theorem DeviceStep.carries {s t : State} (h : DeviceStep s t) : Carries s t := ⟨h.pending, h.queues, h.buffers, h.sync⟩

theorem Carries.trans {s t u : State} (h : Carries s t) (g : Carries t u) : Carries s u :=
  ⟨g.pending.trans h.pending, g.queues ∘ h.queues, g.buffers ∘ h.buffers, g.sync ∘ h.sync⟩

theorem carries_freeEngine (s : State) : Carries s (freeEngine s) :=
  have freed : Carries s (modEngine (·.freed) s) := ⟨rfl, id, id, id⟩
  freed.trans ((deviceStep_releaseBanks _).trans (deviceStep_takeRequests _)).carries

end Sys2Proof.Proofs


namespace Sys2Proof.Proofs

open Sys2Proof.Machine

/-! ### Changes of state -/

/-- The part of entering a state that follows the change of state itself. -/
theorem deviceStep_enter_of_changeState (l : LineNo) (new cause f) (s : State) :
    DeviceStep (changeState l new f s) (enter l new cause f s) :=
  .of_step ((lineStep_offerState l new (s.line l).state cause _).trans (lineStep_examine l _))

theorem carries_changeState {l : LineNo} {new : LineState} {f : Line → Line} {s : State}
    (fill : (f (s.line l)).fill = (s.line l).fill) : Carries s (changeState l new f s) := by
  have frame := onlyLine_changeState l new f s
  refine ⟨frame.pending, id, forall_line_of_onlyLine frame (P := fun c => c.fill ≤ bufferCapacity) fun h => ?_,
    syncLawful_of_eq frame.highway frame.sending⟩
  rw [line_changeState]
  exact fill.trans_le h

/-- A line is lawful behind a change of state, if its blocks are as the new state asks. -/
theorem linesLawful_changeState {l : LineNo} {new : LineState} {f : Line → Line} {s : State}
    (ring : (f (s.line l)).ring.running = true ↔ new = .ringing)
    (lost : new = .disabled → (f (s.line l)).senseLost = false)
    (before : (f (s.line l)).stateBeforeTest.isSome = true ↔ new = .test) (h : s.linesLawful) :
    (changeState l new f s).linesLawful := by
  refine forall_line_of_onlyLine (onlyLine_changeState l new f s) (P := Line.Lawful) (fun _ => ?_) h
  rw [line_changeState]
  exact lawful_refreshed (c := { f (s.line l) with state := new }) ring lost before

/-- A line leaves TEST, or enters a state other than TEST: its engine has still to be freed. -/
structure LineEnds (l : LineNo) (s t : State) : Prop where
  carries : Carries s t
  others : ∀ k, k ≠ l → t.line k = s.line k
  engine : t.engine = s.engine
  state : (t.line l).state ≠ .test
  lines : TestsLawful s → s.linesLawful → t.linesLawful

theorem LineEnds.after {l : LineNo} {s t u : State} (h : LineEnds l t u) (g : LineStep l s t) : LineEnds l s u :=
  have step := DeviceStep.of_step g
  ⟨step.carries.trans h.carries, fun k hk => (h.others k hk).trans (g.lines k hk), h.engine.trans g.engine, h.state,
    fun laws lines => h.lines (step.tests laws) (step.lines laws lines)⟩

theorem LineEnds.before {l : LineNo} {s t u : State} (h : LineEnds l s t) (g : LineStep l t u) : LineEnds l s u := by
  have keeps := LineKeeps.of_step g
  refine ⟨h.carries.trans keeps.deviceStep.carries, fun k hk => (g.lines k hk).trans (h.others k hk),
    g.engine.trans h.engine, mt g.test.mp h.state, fun laws lines => ?_⟩
  exact forall_line_of_onlyLine g.toOnlyLine (P := Line.Lawful) g.lawful (h.lines laws lines)

theorem lineEnds_enter {l : LineNo} {new : LineState} {cause} {f : Line → Line} {s : State}
    (fill : (f (s.line l)).fill = (s.line l).fill) (test : new ≠ .test)
    (lawful : TestsLawful s → (s.line l).Lawful →
      ((f (s.line l)).ring.running = true ↔ new = .ringing) ∧
      (new = .disabled → (f (s.line l)).senseLost = false) ∧ (f (s.line l)).stateBeforeTest = none) :
    LineEnds l s (enter l new cause f s) := by
  refine LineEnds.before (t := changeState l new f s) ⟨carries_changeState fill, (onlyLine_changeState ..).lines, rfl, ?_, ?_⟩
    ((lineStep_offerState l new (s.line l).state cause _).trans (lineStep_examine l _))
  · rw [line_changeState]
    exact test
  · intro laws lines
    obtain ⟨ring, lost, before⟩ := lawful laws (lines l)
    refine linesLawful_changeState ring lost ?_ lines
    rw [before]
    exact iff_of_false Bool.false_ne_true test

/-- The line under test leaves TEST and the engine is freed: no line is in TEST then but one whose test the engine starts
next. -/
theorem LineEnds.freed {l : LineNo} {s t : State} (h : LineEnds l s t) (held : testHeld s l = true) :
    DeviceStep s (freeEngine t) := by
  obtain ⟨pending, queues, buffers, sync⟩ := h.carries.trans (carries_freeEngine t)
  refine ⟨pending, queues, buffers, sync, fun laws => testsLawful_freeEngine (fun k => ?_) ?_,
    fun laws lines => linesLawful_freeEngine (h.lines laws lines)⟩
  · by_cases own : k = l
    · rw [own]
      exact h.state
    · rw [h.others k own, ne_eq, laws.1.2 k]
      intro held'
      simp only [testHeld, Bool.and_eq_true, Option.any_eq_true, decide_eq_true_eq] at held held'
      obtain ⟨-, r, hr, rfl⟩ := held
      obtain ⟨-, r', hr', rfl⟩ := held'
      rw [hr] at hr'
      exact own (congrArg Request.line (Option.some.inj hr').symm)
  · rw [h.engine]
    exact ⟨laws.2.1, laws.2.2.1⟩

/-! ### The end of a test -/

theorem lineStep_reportTest (l : LineNo) (verdict cause) (s : State) : LineStep l s (reportTest verdict cause s) := by
  unfold reportTest
  split
  · exact lineStep_offerAlarm ..
  · exact .refl l s

theorem testHeld_congr {s t : State} (h : t.engine = s.engine) (l : LineNo) : testHeld t l = testHeld s l :=
  (SameTests.of_engine h).testHeld l

theorem lineEnds_returnLine {l : LineNo} {s : State} (held : testHeld s l = true) : LineEnds l s (returnLine l s) := by
  unfold returnLine
  refine LineEnds.before (lineEnds_enter rfl ?_ fun laws lawful => ⟨?_, ?_, rfl⟩) (lineStep_releaseBanks l _)
  all_goals rw [returnState_eq]
  · obtain h | h | h := returnsTo_cases (s.line l) <;> rw [h] <;> decide
  · have quiet : ¬ (s.line l).ring.running = true := by
      rw [lawful.ring, (laws.1.2 l).mpr held]
      decide
    refine iff_of_false quiet ?_
    obtain h | h | h := returnsTo_cases (s.line l) <;> rw [h] <;> decide
  · exact fun disabled => if_pos disabled

theorem deviceStep_finishTest {l : LineNo} {s : State} (held : testHeld s l = true) (verdict cause) :
    DeviceStep s (finishTest l verdict cause s) := by
  have report := lineStep_reportTest l verdict cause s
  have held' : testHeld (reportTest verdict cause s) l = true := (testHeld_congr report.engine l).trans held
  exact ((lineEnds_returnLine held').after report).freed held

/-! ### Records of the line under test -/

/-- A change of the engine that keeps its request and its queue. -/
theorem deviceStep_modEngine {f : TestEngine → TestEngine} {s : State} (busy : (f s.engine).busy = s.engine.busy)
    (held : (f s.engine).held = s.engine.held) (queue : (f s.engine).queue = s.engine.queue) :
    DeviceStep s (modEngine f s) :=
  .of_lines rfl rfl ⟨busy, held, queue⟩ id id

/-- A change of a line that its lawfulness, its buffer and its state do not depend on. -/
theorem deviceStep_modLine {l : LineNo} {f : Line → Line} {s : State}
    (lawful : (s.line l).Lawful → (f (s.line l)).Lawful) (fill : (f (s.line l)).fill = (s.line l).fill)
    (state : (f (s.line l)).state = (s.line l).state) : DeviceStep s (modLine l f s) := by
  refine LineKeeps.deviceStep (l := l) ⟨onlyLine_modLine l f s, ?_, ?_, ?_, id⟩
  all_goals rw [line_modLine_self]
  · exact lawful
  · exact fill.trans_le
  · rw [state]

/-- The commanded feed recomputed is that of the line's state (R2). -/
theorem deviceStep_refreshFeed (l : LineNo) (s : State) : DeviceStep s (refreshFeed l s) :=
  deviceStep_modLine (fun h => lawful_refreshed h.ring h.sense h.before) rfl rfl

theorem deviceStep_beginTestStep (l : LineNo) (n : Nat) (s : State) : DeviceStep s (beginTestStep l n s) :=
  (deviceStep_modEngine (f := (·.atStep n)) rfl rfl rfl).trans (deviceStep_refreshFeed l _)

theorem testHeld_of_held {r : Request} {s : State} (busy : s.engine.busy = true) (held : s.engine.held = some r) :
    testHeld s r.line = true := by
  simp [testHeld, busy, held]

theorem deviceStep_testStepEndIfDue {l : LineNo} {s : State} (held : testHeld s l = true) :
    DeviceStep s (testStepEndIfDue l s) := by
  unfold testStepEndIfDue
  dsimp only
  split
  · generalize hu : modEngine _ s = u
    have held' : testHeld u l = true := by
      rw [← hu]
      exact held
    have step : DeviceStep s u := by
      rw [← hu]
      exact deviceStep_modEngine (f := fun e =>
        { e.clearStep with results := e.results ++ [stepResult s.currentStep e] }) rfl rfl rfl
    split
    · exact step.trans (deviceStep_beginTestStep l _ _)
    · exact step.trans (deviceStep_finishTest held' ..)
  · exact .refl s

theorem deviceStep_noEchoIfDue {l : LineNo} {s : State} (held : testHeld s l = true) : DeviceStep s (noEchoIfDue l s) := by
  unfold noEchoIfDue
  split
  · exact deviceStep_finishTest held ..
  · exact .refl s

theorem deviceStep_testSettleEndIfDue (s : State) : DeviceStep s (testSettleEndIfDue s) := by
  unfold testSettleEndIfDue
  split
  · exact deviceStep_modEngine (f := fun e => { e with phase := some .measure }) rfl rfl rfl
  · exact .refl s

theorem testHeld_testSettleEndIfDue (s : State) (l : LineNo) : testHeld (testSettleEndIfDue s) l = testHeld s l := by
  unfold testSettleEndIfDue
  split <;> rfl

theorem deviceStep_measureStep {l : LineNo} {s : State} (held : testHeld s l = true) (h : Handed) :
    DeviceStep s (measureStep l h s) := by
  unfold measureStep
  dsimp only
  generalize hf : (fun e : TestEngine => if h.held = true then { e with measureTimer := e.measureTimer + 1 }
    else TestEngine.sample (sampleOf s.currentStep.quantity h) { e with measureTimer := e.measureTimer + 1 }) = f
  have same : (f s.engine).busy = s.engine.busy ∧ (f s.engine).held = s.engine.held ∧
      (f s.engine).queue = s.engine.queue := by
    rw [← hf]
    dsimp only
    split <;> exact ⟨rfl, rfl, rfl⟩
  obtain ⟨busy, hheld, queue⟩ := same
  have held' : testHeld (modEngine f s) l = true := (SameTests.testHeld ⟨busy, hheld, queue⟩ l).trans held
  exact (deviceStep_modEngine busy hheld queue).trans (deviceStep_testStepEndIfDue held')

theorem deviceStep_settleStep {l : LineNo} {s : State} (held : testHeld s l = true) (h : Handed) :
    DeviceStep s (settleStep l h s) := by
  unfold settleStep
  split
  · exact (deviceStep_testSettleEndIfDue s).trans
      (deviceStep_measureStep ((testHeld_testSettleEndIfDue s l).trans held) h)
  · exact deviceStep_modEngine (f := fun e => { e with settleCount := e.settleCount - 1 }) rfl rfl rfl

theorem deviceStep_testRecord {l : LineNo} {s : State} (held : testHeld s l = true) (h : Handed) :
    DeviceStep s (testRecord l h s) := by
  have aged : DeviceStep s (modEngine (fun e => { e with stepAge := e.stepAge + 1 }) s) :=
    deviceStep_modEngine rfl rfl rfl
  have settling : ∀ n, DeviceStep s (modEngine (fun e => { e with phase := some .settle, settleCount := n }) s) :=
    fun n => deviceStep_modEngine rfl rfl rfl
  unfold testRecord
  dsimp only
  split
  · split
    · exact (settling s.currentStep.settle).trans (deviceStep_settleStep (by exact held) h)
    · exact aged.trans (deviceStep_noEchoIfDue held)
  · split
    · exact deviceStep_settleStep held h
    · exact deviceStep_finishTest held ..
  · split
    · exact deviceStep_measureStep held h
    · exact deviceStep_finishTest held ..
  · exact .refl s

/-! ### Sense records -/

theorem deviceStep_blocksRecord (l : LineNo) (h : Handed) (masked : Bool) (s : State) :
    DeviceStep s (blocksRecord l h masked s) := by
  unfold blocksRecord
  split
  · split
    · next held => exact deviceStep_testRecord held h
    · exact .refl s
  · exact .of_step (lineStep_ringRecord ..)
  iterate 5 exact .of_step ((lineStep_useDetector l h.i masked s).trans (lineStep_digitEndIfDue l _))
  · exact .refl s
  · exact .refl s

theorem deviceStep_useBlocks (l : LineNo) (h : Handed) (masked back : Bool) (s : State) :
    DeviceStep s (useBlocks l h masked back s) := by
  unfold useBlocks
  dsimp only
  generalize hu : (if (back || (s.line l).recoveryDue) = true then recoverLine l s else s) = u
  have step : DeviceStep s u := by
    rw [← hu]
    split
    · exact .of_step (lineStep_recoverLine l s)
    · exact .refl s
  split
  · next abort =>
    exact step.trans (deviceStep_finishTest (Bool.and_eq_true_iff.mp abort).2 ..)
  · exact step.trans (deviceStep_blocksRecord ..)

theorem deviceStep_useRecord (l : LineNo) (h : Handed) (masked back : Bool) (o : RecordOrder) (s : State) :
    DeviceStep s (useRecord l h masked back o s) := by
  have monitor : ∀ u, DeviceStep u (monitorRecord l h u) := fun u => .of_step (lineStep_monitorRecord l h u)
  unfold useRecord
  dsimp only
  split
  · exact (deviceStep_useBlocks ..).trans (monitor _)
  · split
    · exact (monitor s).trans (deviceStep_useBlocks ..)
    · exact monitor s

/-- The marks that a record clears are no part of the line's laws. -/
theorem deviceStep_clearMarks (l : LineNo) (s : State) :
    DeviceStep s (modLine l (fun c => { c with entryMark := false, recoveryDue := false }) s) :=
  deviceStep_modLine (fun h => ⟨h.feed, h.ring, h.sense, h.before⟩) rfl rfl

theorem deviceStep_handRecord (l : LineNo) (h : Handed) (back : Bool) (o : RecordOrder) (s : State) :
    DeviceStep s (handRecord l h back o s) := by
  unfold handRecord
  dsimp only
  split
  · exact .of_step (lineStep_monitorRecord l h s)
  · have masked : LineStep l s (modLine l (fun c => { c with loop := c.loop.reduceMask }) s) :=
      lineStep_modLine fun _ => rfl
    have timed := (masked.trans (lineStep_advanceLockout l _)).trans (lineStep_advanceString l _)
    exact (((DeviceStep.of_step timed).trans (deviceStep_useRecord ..)).trans (deviceStep_clearMarks l _)).trans
      (.of_step ((lineStep_examine l _).trans (lineStep_releaseBanks l _)))

theorem deviceStep_feedStuckIfDue (l : LineNo) (echo : FeedCode) (s : State) : DeviceStep s (feedStuckIfDue l echo s) := by
  unfold feedStuckIfDue
  split
  · exact (deviceStep_modLine (fun h => ⟨h.feed, h.ring, h.sense, h.before⟩) rfl rfl).trans (deviceStep_offerAlarm ..)
  · exact .refl s

theorem deviceStep_compareEcho (l : LineNo) (echo : FeedCode) (s : State) : DeviceStep s (compareEcho l echo s) := by
  unfold compareEcho
  dsimp only
  split
  · have agreed : DeviceStep s (modLine l (fun c => { c with mismatchRun := 0, feedStuck := false }) s) :=
      deviceStep_modLine (fun h => ⟨h.feed, h.ring, h.sense, h.before⟩) rfl rfl
    split
    · exact agreed.trans (deviceStep_offerAlarm ..)
    · exact agreed
  · exact (deviceStep_modLine (fun h => ⟨h.feed, h.ring, h.sense, h.before⟩) rfl rfl).trans (deviceStep_feedStuckIfDue ..)

theorem deviceStep_applyEcho (l : LineNo) (mask : Nat) (echo : FeedCode) (s : State) :
    DeviceStep s (modLine l (applyEcho mask echo) s) :=
  deviceStep_modLine (fun h => ⟨h.feed, h.ring, h.sense, h.before⟩) rfl rfl

theorem deviceStep_validRecord (l : LineNo) (echo : FeedCode) (i vt vr : Int) (o : RecordOrder) (s : State) :
    DeviceStep s (validRecord l echo i vt vr o s) := by
  unfold validRecord
  dsimp only
  generalize hu : (if (s.line l).senseLost = true then
    offerAlarm (some l) .senseBack (modLine l (fun c => { c with senseLost := false }) s) else s) = u
  have back : DeviceStep s u := by
    rw [← hu]
    split
    · exact (deviceStep_modLine (fun h => ⟨h.feed, h.ring, fun _ => rfl, h.before⟩) rfl rfl).trans
        (deviceStep_offerAlarm ..)
    · exact .refl s
  have kept : DeviceStep u (modLine l (fun c => { c with lastI := i, lastVt := vt, lastVr := vr, invalidRun := 0 }) u) :=
    deviceStep_modLine (fun h => ⟨h.feed, h.ring, h.sense, h.before⟩) rfl rfl
  exact (((back.trans kept).trans (deviceStep_compareEcho ..)).trans (deviceStep_applyEcho ..)).trans
    (deviceStep_handRecord ..)

theorem holdTone_lawful {c : Line} (h : c.Lawful) (sensed : c.state ≠ .disabled) :
    ({ c.holdTone with senseLost := true } : Line).Lawful := by
  have same : ({ c.holdTone with senseLost := true } : Line).outer = ({ c with senseLost := true } : Line).outer := by
    unfold Line.holdTone
    split <;> rfl
  exact Line.lawful_of_outer same ⟨h.feed, h.ring, fun disabled => absurd disabled sensed, h.before⟩

theorem deviceStep_senseLostIfDue (l : LineNo) (s : State) : DeviceStep s (senseLostIfDue l s) := by
  unfold senseLostIfDue
  split
  · next due =>
    have sensed : (s.line l).state ≠ .disabled := by
      simp only [senseLostDue, Bool.and_eq_true, bne_iff_ne] at due
      exact due.1.1
    refine DeviceStep.trans (deviceStep_modLine (fun h => holdTone_lawful h sensed) ?_ ?_) (deviceStep_offerAlarm ..)
    all_goals
      unfold Line.holdTone
      split <;> rfl
  · exact .refl s

theorem deviceStep_invalidRecord (l : LineNo) (o : RecordOrder) (s : State) : DeviceStep s (invalidRecord l o s) :=
  have counted : DeviceStep s (modLine l (fun c => { c with invalidRun := advance lossLimit c.invalidRun }) s) :=
    deviceStep_modLine (fun h => ⟨h.feed, h.ring, h.sense, h.before⟩) rfl rfl
  (counted.trans (deviceStep_senseLostIfDue l _)).trans (deviceStep_handRecord ..)

theorem deviceStep_senseRecord (l : LineNo) (status i vt vr : Word16) (o : RecordOrder) (s : State) :
    DeviceStep s (senseRecord l status i vt vr o s) := by
  unfold senseRecord
  split
  · exact deviceStep_validRecord ..
  · exact deviceStep_invalidRecord ..

end Sys2Proof.Proofs


namespace Sys2Proof.Proofs

open Sys2Proof.Machine

/-! ### Commands on a line -/

theorem deviceStep_lineCommand {code tag line checks effect} {s : State}
    (h : ∀ l, firstFailure (checks l) = none → DeviceStep s (effect l s)) :
    DeviceStep s (lineCommand code tag line checks effect s) := by
  unfold lineCommand
  split
  · exact deviceStep_replyStatus ..
  · next l _ =>
    split
    · exact deviceStep_replyStatus ..
    · next passed =>
      exact ((h l passed).trans (deviceStep_replyStatus ..)).trans (deviceStep_releaseBanks _)

theorem firstFailure_cons_eq_none {check : Bool} {status rest} :
    firstFailure ((check, status) :: rest) = none ↔ check = false ∧ firstFailure rest = none := by
  rw [firstFailure_cons]
  cases check <;> simp

theorem lineStep_enableLine {l : LineNo} {s : State} (disabled : (s.line l).state = .disabled) (profile : Nat) :
    LineStep l s (enableLine l profile s) := by
  have adopted := lineStep_adoptProfile l profile s
  have state : ((adoptProfile l profile s).line l).state = .disabled :=
    (congrArg Line.state (steady_adoptProfile l profile s)).trans disabled
  unfold enableLine
  generalize adoptProfile l profile s = t at adopted state ⊢
  dsimp only
  split
  all_goals
    exact adopted.trans (lineStep_enter_from state ⟨rfl, rfl, rfl, rfl, rfl, rfl, rfl⟩ (le_of_eq (Line.fill_congr rfl rfl))
      (.inl ⟨rfl, by decide, by decide⟩) (fun h => by cases h) rfl ⟨by decide, by decide⟩)

theorem deviceStep_lineEnable (tag line profile) (s : State) : DeviceStep s (lineEnable tag line profile s) := by
  refine deviceStep_lineCommand fun l passed => .of_step (lineStep_enableLine ?_ _)
  simp only [firstFailure_cons_eq_none, Bool.or_eq_false_iff, bne_eq_false_iff_eq] at passed
  exact passed.2.1.1

/-- The changes of a line's fields and blocks at LINE_DISABLE (R6). -/
def disableChanges (c : Line) : Line :=
  { c.dropDigits.stopRing with
    pendingProfile := none, polarity := .forward, lockoutTimer := 0, stringTimer := 0, senseLost := false,
    stateBeforeTest := none }

theorem disableLine_eq (l : LineNo) (s : State) :
    disableLine l s = enter l .disabled .disable disableChanges (closeString l .disable s) := rfl

theorem fill_disableChanges (c : Line) : (disableChanges c).fill = c.fill :=
  Line.fill_congr (a := c) (b := disableChanges c)
    (by simp only [disableChanges, Line.stopRing, Line.dropDigits, Line.restartDetector, Line.stopTone, Line.discardPulse])
    (by simp only [disableChanges, Line.stopRing, Line.dropDigits, Line.restartDetector, Line.stopTone, Line.discardPulse])

theorem running_disableChanges (c : Line) : (disableChanges c).ring.running = false := rfl

theorem senseLost_disableChanges (c : Line) : (disableChanges c).senseLost = false := rfl

theorem before_disableChanges (c : Line) : (disableChanges c).stateBeforeTest = none := rfl

theorem lineEnds_disableLine (l : LineNo) (s : State) : LineEnds l s (disableLine l s) := by
  rw [disableLine_eq]
  refine LineEnds.after (lineEnds_enter (fill_disableChanges _) (by decide) fun _ _ =>
    ⟨?_, fun _ => senseLost_disableChanges _, before_disableChanges _⟩) (lineStep_closeString l .disable s)
  rw [running_disableChanges]
  exact iff_of_false Bool.false_ne_true (by decide)

/-- A line that the engine does not hold is not in TEST, so that its entry into another state keeps the engine's laws. -/
theorem LineEnds.deviceStep {l : LineNo} {s t : State} (h : LineEnds l s t) (free : testHeld s l = false) :
    DeviceStep s t := by
  obtain ⟨pending, queues, buffers, sync⟩ := h.carries
  refine ⟨pending, queues, buffers, sync, fun laws => testsLawful_of_same (.of_engine h.engine) (fun k => ?_) laws, h.lines⟩
  by_cases own : k = l
  · rw [own, laws.1.2 l, free]
    exact iff_of_false h.state Bool.false_ne_true
  · rw [h.others k own]

theorem LineEnds.replyStatus {l : LineNo} {s t : State} (h : LineEnds l s t) (code tag line status) :
    LineEnds l s (replyStatus code tag line status t) := by
  rw [replyStatus_eq]
  exact ⟨h.carries.trans (deviceStep_withReply ..).carries, h.others, h.engine, h.state, h.lines⟩

theorem deviceStep_lineDisable (tag line) (s : State) : DeviceStep s (lineDisable tag line s) := by
  unfold lineDisable
  split
  · exact deviceStep_replyStatus ..
  · next l _ =>
    split
    · exact deviceStep_replyStatus ..
    split
    · next held =>
      have report := lineStep_reportTest l .aborted (some .disabled) s
      exact (((lineEnds_disableLine l _).after report).replyStatus ..).freed held
    · next free =>
      exact (((lineEnds_disableLine l s).deviceStep (Bool.eq_false_iff.mpr free)).trans (deviceStep_replyStatus ..)).trans
        (deviceStep_releaseBanks _)

theorem ne_of_dialling {st : LineState} (h : dialling st = true) : st ≠ .ringing ∧ st ≠ .test := by
  constructor <;> (rintro rfl; exact absurd h (by decide))

theorem outer_discardPulse (c : Line) : c.discardPulse.outer = c.outer := rfl

theorem outer_stopTone (c : Line) : c.stopTone.outer = c.outer := rfl

theorem outer_startTone (alignment) (c : Line) : (startTone alignment c).outer = c.outer := rfl

/-- A change of state that stops or starts the two dialling engines alone. -/
theorem lineStep_enter_of_outer {l : LineNo} {new : LineState} {cause} {f : Line → Line} {s : State}
    (same : (f (s.line l)).outer = (s.line l).outer) (old : (s.line l).state ≠ .ringing ∧ (s.line l).state ≠ .test)
    (ringing : new ≠ .ringing) (disabled : new ≠ .disabled) (test : new ≠ .test) : LineStep l s (enter l new cause f s) :=
  lineStep_enter_from rfl (Line.sense_of_outer same) (Line.fill_of_outer same).le
    (.inl ⟨(congrArg (fun c => c.ring.running) same :), old.1, ringing⟩) (absurd · disabled)
    (congrArg Line.stateBeforeTest same :) ⟨test, old.2⟩

/-- LINE_CONNECT of a SEIZED or DIALLING line (R7). -/
theorem lineStep_connectLine {l : LineNo} {s : State} (h : dialling (s.line l).state = true) :
    LineStep l s (connectLine l s) := by
  have closed := lineStep_closeString l .connect s
  rw [← state_closeString l .connect] at h
  unfold connectLine
  refine closed.trans (lineStep_enter_of_outer ?_ (ne_of_dialling h) (by decide) (by decide) (by decide))
  dsimp only
  split
  · rw [outer_startTone, outer_stopTone, outer_discardPulse]
  · rw [outer_stopTone, outer_discardPulse]

theorem deviceStep_lineConnect (tag line) (s : State) : DeviceStep s (lineConnect tag line s) := by
  refine deviceStep_lineCommand fun l passed => .of_step (lineStep_connectLine ?_)
  simp only [firstFailure_cons_eq_none, Bool.not_eq_false'] at passed
  exact passed.1

/-- The commanded feed depends on the polarity on a CONNECTED line alone (R2). -/
theorem feedByState_polarity {c : Line} (h : c.state ≠ .connected) (p : Polarity) :
    ({ c with polarity := p } : Line).feedByState = c.feedByState := by
  unfold Line.feedByState
  cases hc : c.state <;> first | rfl | exact absurd hc h

theorem deviceStep_setPolarity (l : LineNo) (p : Polarity) (s : State) : DeviceStep s (setPolarity l p s) := by
  unfold setPolarity
  simp only [line_modLine_self]
  split
  · have stored : refreshFeed l (modLine l (fun c => { c with polarity := p }) s) = modLine l (fun c => { c with
        polarity := p
        commandedFeed := (modLine l (fun c => { c with polarity := p }) s).feedFor { c with polarity := p } }) s := by
      rw [refreshFeed, modLine, modLine, setLine_setLine, line_setLine_self]
      rfl
    rw [stored]
    exact deviceStep_modLine
      (fun h => lawful_refreshed (c := { s.line l with polarity := p }) h.ring h.sense h.before) rfl rfl
  · next unconnected =>
    refine deviceStep_modLine (fun h => ⟨fun f feed => h.feed f ?_, h.ring, h.sense, h.before⟩) rfl rfl
    exact (feedByState_polarity unconnected p).symm.trans feed

theorem deviceStep_linePolarity (tag line polarity) (s : State) : DeviceStep s (linePolarity tag line polarity s) :=
  deviceStep_lineCommand fun _ _ => deviceStep_setPolarity ..

theorem deviceStep_lineProfile (tag line profile) (s : State) : DeviceStep s (lineProfile tag line profile s) :=
  deviceStep_lineCommand fun _ _ => deviceStep_modLine (fun h => ⟨h.feed, h.ring, h.sense, h.before⟩) rfl rfl

theorem deviceStep_ringStart (tag line cadence cycles) (s : State) :
    DeviceStep s (ringStart tag line cadence cycles s) := by
  refine deviceStep_lineCommand fun l passed => .of_step (l := l) ?_
  simp only [firstFailure_cons_eq_none, Bool.or_eq_false_iff, bne_eq_false_iff_eq] at passed
  unfold startRinging
  exact lineStep_enter_from passed.2.1.1 ⟨rfl, rfl, rfl, rfl, rfl, rfl, rfl⟩ (le_of_eq (Line.fill_congr rfl rfl))
    (.inr (iff_of_true rfl rfl)) (fun e => by cases e) rfl ⟨by decide, by decide⟩

theorem deviceStep_ringStop (tag line) (s : State) : DeviceStep s (Machine.ringStop tag line s) := by
  refine deviceStep_lineCommand fun l passed => .of_step (lineStep_endRinging ?_)
  simp only [firstFailure_cons_eq_none, bne_eq_false_iff_eq] at passed
  exact passed.1

/-! ### The request queue -/

theorem map_line_joinCommanded (r : Request) (q : List Request) :
    ((joinCommanded r q).map (·.line)).Perm (r.line :: q.map (·.line)) := by
  have split : (joinCommanded r q).Perm (r :: q) := by
    unfold joinCommanded
    rw [List.append_assoc, List.singleton_append]
    exact List.perm_middle.trans (.cons r (List.filter_append_perm ..))
  exact split.map _

theorem queueFits_joinCommanded {r : Request} {q : List Request} (fits : QueueFits q) (room : q.length < testQueueCapacity)
    (absent : ∀ r' ∈ q, r'.line ≠ r.line) : QueueFits (joinCommanded r q) := by
  have perm := map_line_joinCommanded r q
  refine ⟨?_, perm.nodup_iff.mpr (List.nodup_cons.mpr ⟨?_, fits.2⟩)⟩
  · have length := perm.length_eq
    simp only [List.length_map, List.length_cons] at length
    omega
  · simpa using absent

/-- A line that is not queued for and is no line of the request that joins is not queued for behind it. -/
theorem queuedFor_joinCommanded {l : LineNo} {r : Request} {q : List Request} (other : r.line ≠ l)
    (absent : queuedFor l q = false) : queuedFor l (joinCommanded r q) = false := by
  have mem : ∀ r', r' ∈ joinCommanded r q → r' = r ∨ r' ∈ q := by
    intro r' h
    simp only [joinCommanded, List.mem_append, List.mem_filter, List.mem_singleton] at h
    tauto
  simp only [queuedFor, List.any_eq_false, decide_eq_true_eq] at absent ⊢
  intro r' h
  obtain rfl | h := mem r' h
  · exact other
  · exact absent r' h

theorem QueueFits.filter {q : List Request} (fits : QueueFits q) (p : Request → Bool) : QueueFits (q.filter p) :=
  ⟨(List.length_filter_le ..).trans fits.1, fits.2.sublist (List.filter_sublist.map _)⟩

/-- The queue that takes a COMMANDED request fits, and has a request for no other line than before (R125). -/
theorem offerCommanded_fits {l : LineNo} {kind : TestKind} {q q' : List Request} (fits : QueueFits q)
    (taken : offerCommanded l kind q = some q') :
    QueueFits q' ∧ ∀ k, k ≠ l → queuedFor k q = false → queuedFor k q' = false := by
  unfold offerCommanded at taken
  split at taken
  · obtain rfl := Option.some.inj taken
    have lines : (q.map fun r => if r.line = l then { r with kind := kind } else r).map (·.line) = q.map (·.line) := by
      rw [List.map_map]
      refine List.map_congr_left fun r _ => ?_
      dsimp only [Function.comp]
      split <;> rfl
    refine ⟨⟨by rw [List.length_map]; exact fits.1, by rw [lines]; exact fits.2⟩, fun k _ absent => ?_⟩
    have mem : ∀ q : List Request, queuedFor k q = false ↔ k ∉ q.map (·.line) := by
      intro q
      simp [queuedFor]
    rw [mem, lines, ← mem]
    exact absent
  split at taken
  · next queued =>
    obtain rfl := Option.some.inj taken
    obtain ⟨r, hr, named⟩ := (queuedFor_iff l q).mp queued
    have shorter : (q.filter fun r => r.line != l).length < q.length :=
      List.length_filter_lt_length_iff_exists.mpr ⟨r, hr, by simp [named]⟩
    refine ⟨queueFits_joinCommanded (fits.filter _) (shorter.trans_le fits.1) ?_, fun k other absent => ?_⟩
    · intro r' h
      simpa using (List.mem_filter.mp h).2
    · refine queuedFor_joinCommanded (Ne.symm other) ?_
      simp only [queuedFor, List.any_eq_false] at absent ⊢
      exact fun r' h => absent r' (List.mem_filter.mp h).1
  · next unqueued =>
    split at taken
    · next room =>
      obtain rfl := Option.some.inj taken
      refine ⟨queueFits_joinCommanded fits room ?_, fun k other absent => queuedFor_joinCommanded (Ne.symm other) absent⟩
      intro r' h named
      exact unqueued ((queuedFor_iff l q).mpr ⟨r', h, named⟩)
    · cases taken

/-- A new request queue that fits and has no request for the line under test keeps the engine's laws. -/
theorem deviceStep_queue {f : TestEngine → TestEngine} {s : State} (busy : (f s.engine).busy = s.engine.busy)
    (held : (f s.engine).held = s.engine.held)
    (fits : TestsLawful s → QueueFits (f s.engine).queue ∧
      ∀ r, s.engine.held = some r → queuedFor r.line (f s.engine).queue = false) : DeviceStep s (modEngine f s) := by
  refine ⟨rfl, id, id, id, fun laws => ?_, fun _ => id⟩
  obtain ⟨⟨length, nodup⟩, absent⟩ := fits laws
  obtain ⟨⟨engine, lines⟩, -⟩ := laws
  refine ⟨⟨?_, fun l => ?_⟩, length, nodup, fun r h => absent r (held.symm.trans h)⟩
  · rw [State.engineLawful, engine_modEngine, busy, held]
    exact engine
  · rw [testHeld, engine_modEngine, busy, held]
    exact lines l

theorem deviceStep_testRequest (tag line kind) (s : State) : DeviceStep s (testRequest tag line kind s) := by
  unfold testRequest
  split
  · exact deviceStep_replyStatus ..
  · next l _ =>
    split
    · exact deviceStep_replyStatus ..
    split
    · exact deviceStep_replyStatus ..
    · next untested =>
      split
      · exact deviceStep_replyStatus ..
      · next q taken =>
        refine DeviceStep.trans (deviceStep_queue rfl rfl fun laws => ?_)
          ((deviceStep_replyStatus ..).trans (deviceStep_takeRequests _))
        obtain ⟨fits, others⟩ := offerCommanded_fits ⟨laws.2.1, laws.2.2.1⟩ taken
        refine ⟨fits, fun r held => others r.line ?_ (laws.2.2.2 r held)⟩
        rintro rfl
        have busy : s.engine.busy = true := by
          rw [laws.1.1, held]
          rfl
        exact untested ((laws.1.2 r.line).mpr (testHeld_of_held busy held))

theorem deviceStep_offerSweep (l : LineNo) (kind : TestKind) (f : TestEngine → TestEngine) (s : State)
    (busy : ∀ e, (f e).busy = e.busy) (held : ∀ e, (f e).held = e.held) (queue : ∀ e, (f e).queue = e.queue) :
    DeviceStep s (modEngine (fun e => f (offerSweep l kind e)) s) := by
  have offered : offerSweep l kind s.engine = s.engine ∨
      queuedFor l s.engine.queue = false ∧ s.engine.held.any (fun r => r.line = l) = false ∧
        s.engine.queue.length < testQueueCapacity ∧
        offerSweep l kind s.engine = { s.engine with queue := s.engine.queue ++ [⟨l, kind, .sweep⟩] } := by
    unfold offerSweep
    split
    · exact .inl rfl
    · next unclaimed =>
      rw [Bool.not_eq_true, Bool.or_eq_false_iff] at unclaimed
      split
      · next room => exact .inr ⟨unclaimed.1, unclaimed.2, room, rfl⟩
      · exact .inl rfl
  obtain same | ⟨unqueued, unheld, room, joined⟩ := offered
  · refine deviceStep_modEngine ?_ ?_ ?_
    · rw [busy, same]
    · rw [held, same]
    · rw [queue, same]
  · refine deviceStep_queue ?_ ?_ fun laws => ?_
    · rw [busy, joined]
    · rw [held, joined]
    · rw [queue, joined]
      have absent : l ∉ s.engine.queue.map (·.line) := by
        simpa [queuedFor] using unqueued
      refine ⟨⟨?_, ?_⟩, fun r hr => ?_⟩
      · rw [List.length_append]
        exact room
      · rw [List.map_append]
        exact List.nodup_append.mpr ⟨laws.2.2.1, List.nodup_singleton _, by
          rintro k hk k' hk' rfl
          obtain rfl : k = l := List.mem_singleton.mp hk'
          exact absent hk⟩
      · have old := laws.2.2.2 r hr
        rw [hr, Option.any_some, decide_eq_false_iff_not] at unheld
        simp only [queuedFor, List.any_append, Bool.or_eq_false_iff] at old ⊢
        exact ⟨old, by simpa using Ne.symm unheld⟩

end Sys2Proof.Proofs


namespace Sys2Proof.Proofs

open Sys2Proof.Machine

/-! ### The table store -/

theorem deviceStep_setTable (x tb) (s : State) : DeviceStep s (setTable x tb s) :=
  .of_lines rfl rfl (.of_engine rfl) id id

theorem deviceStep_guarded {code tag line checks effect} {s : State} (h : DeviceStep s (effect s)) :
    DeviceStep s (guarded code tag line checks effect s) := by
  unfold guarded
  split
  · exact deviceStep_replyStatus ..
  · exact h.trans (deviceStep_replyStatus ..)

theorem deviceStep_loadOpen (tag table first count) (s : State) :
    DeviceStep s (Machine.loadOpen tag table first count s) := by
  unfold Machine.loadOpen
  split
  · exact deviceStep_replyStatus ..
  · exact deviceStep_guarded (deviceStep_setTable ..)

theorem deviceStep_loadBlock (tag table block entry) (s : State) :
    DeviceStep s (Machine.loadBlock tag table block entry s) := by
  unfold Machine.loadBlock
  split
  · exact deviceStep_replyStatus ..
  · exact deviceStep_guarded (deviceStep_setTable ..)

theorem deviceStep_loadCancel (tag table) (s : State) : DeviceStep s (loadCancel tag table s) := by
  unfold loadCancel
  split
  · exact deviceStep_replyStatus ..
  · exact deviceStep_guarded (deviceStep_setTable ..)

theorem deviceStep_commitTable (x tag) (s : State) : DeviceStep s (commitTable x tag s) := by
  rw [commitTable_eq]
  exact .of_lines rfl rfl ⟨rfl, rfl, rfl⟩ id id

theorem deviceStep_loadCommit (tag table) (s : State) : DeviceStep s (Machine.loadCommit tag table s) := by
  unfold Machine.loadCommit
  split
  · exact deviceStep_replyStatus ..
  dsimp only
  split
  · exact deviceStep_replyStatus ..
  · have replied : ∀ x, DeviceStep s (replyStatus 12 tag none .ok (commitTable x tag s)) := fun x =>
      (deviceStep_commitTable x tag s).trans (deviceStep_replyStatus ..)
    split
    · exact replied _
    · exact (replied _).trans (deviceStep_offerReply ..)

theorem deviceStep_entryRead (tag table choice index) (s : State) : DeviceStep s (entryRead tag table choice index s) := by
  unfold entryRead
  split
  · exact deviceStep_replyStatus ..
  split
  · exact deviceStep_replyStatus ..
  split
  · exact deviceStep_replyStatus ..
  · exact deviceStep_replyWith ..

theorem deviceStep_loadLapseIfDue (x) (s : State) : DeviceStep s (loadLapseIfDue x s) := by
  unfold loadLapseIfDue
  split
  · split
    · exact (deviceStep_setTable ..).trans (deviceStep_offerReply ..)
    · exact .refl s
  · exact .refl s

theorem deviceStep_dueLapses (s : State) : DeviceStep s (dueLapses s) := by
  have each := deviceStep_loadLapseIfDue
  simp only [dueLapses, allTables, List.foldl]
  exact (((((each _ _).trans (each _ _)).trans (each _ _)).trans (each _ _)).trans (each _ _)).trans (each _ _)

theorem deviceStep_lapseTicks (s : State) : DeviceStep s (lapseTicks s) := by
  have each : ∀ x u, DeviceStep u (lapseTick x u) := fun _ _ => deviceStep_setTable ..
  simp only [lapseTicks, allTables, List.foldl]
  exact (((((each _ _).trans (each _ _)).trans (each _ _)).trans (each _ _)).trans (each _ _)).trans (each _ _)

/-! ### Queries and resets -/

theorem deviceStep_lineQuery (tag line) (s : State) : DeviceStep s (lineQuery tag line s) := by
  unfold lineQuery
  split
  · exact deviceStep_replyStatus ..
  · exact deviceStep_replyWith ..

theorem lawful_initial : Line.initial.Lawful :=
  ⟨fun _ feed => Option.some.inj feed, iff_of_false Bool.false_ne_true (by decide), fun _ => rfl,
    iff_of_false Bool.false_ne_true (by decide)⟩

theorem outer_of_initial {c : Line} (h : c.outer = { Line.initial with
    appliedFeed := c.appliedFeed, lastI := c.lastI, lastVt := c.lastVt, lastVr := c.lastVr, invalidRun := c.invalidRun
    recoveryDue := c.recoveryDue }) : c.Lawful ∧ c.fill = 0 ∧ c.state = .disabled := by
  have due : c.due = [] := (congrArg Line.due h :)
  have opened : c.openString = [] := (congrArg Line.openString h :)
  have same : c.outer = ({ Line.initial with
      appliedFeed := c.appliedFeed, lastI := c.lastI, lastVt := c.lastVt, lastVr := c.lastVr, invalidRun := c.invalidRun
      recoveryDue := c.recoveryDue } : Line).outer := h
  refine ⟨Line.lawful_of_outer same ⟨lawful_initial.feed, lawful_initial.ring, lawful_initial.sense,
    lawful_initial.before⟩, ?_, (congrArg Line.state h :)⟩
  rw [Line.fill, due, opened]
  rfl

/-- A part that is reset: every line is DISABLED and lawful with an empty buffer, the engine FREE with an empty queue. -/
theorem deviceStep_of_reset {s t : State} (pending : t.pending = s.pending)
    (lines : ∀ l, (t.line l).Lawful ∧ (t.line l).fill = 0 ∧ (t.line l).state = .disabled)
    (free : t.engine.busy = false) (held : t.engine.held = none) (queue : t.engine.queue = [])
    (queues : t.queuesBounded) (sync : s.syncLawful → t.syncLawful) : DeviceStep s t := by
  refine ⟨pending, fun _ => queues, fun _ l => ?_, sync, fun _ => ?_, fun _ _ l => (lines l).1⟩
  · rw [(lines l).2.1]
    exact Nat.zero_le _
  · refine testsLawful_of_untested ⟨free, held, fun l => ?_⟩ ?_
    · rw [(lines l).2.2]
      decide
    · rw [queue]
      exact ⟨Nat.zero_le _, List.nodup_nil⟩

theorem deviceStep_resetPart (s : State) : DeviceStep s (resetPart s) := by
  refine deviceStep_of_reset (pending_resetPart s) (fun l => ?_) ?_ ?_ ?_ ?_ fun laws => ?_
  · rw [line_resetPart]
    exact outer_of_initial rfl
  · rw [engine_resetPart]
    rfl
  · rw [engine_resetPart]
    rfl
  · rw [engine_resetPart]
    rfl
  · rw [State.queuesBounded, report_resetPart]
    exact ⟨Nat.zero_le _, Nat.zero_le _, Nat.zero_le _⟩
  · rw [State.syncLawful, highway_resetPart, report_resetPart]
    exact laws

theorem deviceStep_partReset (tag) (s : State) : DeviceStep s (partReset tag s) :=
  (deviceStep_resetPart s).trans (deviceStep_replyStatus ..)

theorem line_reset (l : LineNo) : State.reset.line l = Line.initial := by
  simp [State.line, State.reset, Vector.get_eq_getElem]

/-- The device right after power-on reset, whatever command waits. -/
theorem deviceStep_powerOnReset (s : State) : DeviceStep s { State.reset with pending := s.pending } := by
  refine deviceStep_of_reset rfl (fun l => ?_) rfl rfl rfl ⟨Nat.zero_le _, Nat.zero_le _, Nat.zero_le _⟩ fun _ => ?_
  · have line : ({ State.reset with pending := s.pending } : State).line l = Line.initial := line_reset l
    rw [line]
    exact outer_of_initial rfl
  · exact ⟨iff_of_false (fun sync => by cases sync) (fun frame => by cases frame), fun _ => rfl⟩

/-! ### The management receiver -/

theorem deviceStep_setReceiver (r) (s : State) : DeviceStep s (setReceiver r s) :=
  .of_lines rfl rfl (.of_engine rfl) id id

theorem deviceStep_idleReceiver (s : State) : DeviceStep s (idleReceiver s) := deviceStep_setReceiver ..

theorem deviceStep_executeCommand (code tag arg entry) (s : State) :
    DeviceStep s (executeCommand code tag arg entry s) := by
  unfold executeCommand
  split
  · exact deviceStep_lineEnable ..
  · exact deviceStep_lineDisable ..
  · exact deviceStep_lineProfile ..
  · exact deviceStep_lineConnect ..
  · exact deviceStep_linePolarity ..
  · exact deviceStep_ringStart ..
  · exact deviceStep_ringStop ..
  · exact deviceStep_testRequest ..
  · exact deviceStep_lineQuery ..
  · exact deviceStep_loadOpen ..
  · exact deviceStep_loadBlock ..
  · exact deviceStep_loadCommit ..
  · exact deviceStep_loadCancel ..
  · exact deviceStep_entryRead ..
  · exact deviceStep_replyWith ..
  · exact deviceStep_partReset ..
  · exact .refl s

theorem deviceStep_executeMessage (ws) (s : State) : DeviceStep s (executeMessage ws s) := by
  unfold executeMessage
  dsimp only
  split
  · exact deviceStep_replyStatus ..
  split
  · exact deviceStep_replyStatus ..
  split
  · exact deviceStep_replyStatus ..
  · exact deviceStep_executeCommand ..

theorem deviceStep_endMessage (status) (s : State) : DeviceStep s (endMessage status s) :=
  (deviceStep_idleReceiver s).trans (deviceStep_replyStatus ..)

theorem deviceStep_beginMessage (e data) (s : State) : DeviceStep s (beginMessage e data s) := by
  unfold beginMessage
  split
  · exact (deviceStep_idleReceiver s).trans (deviceStep_executeMessage ..)
  · exact deviceStep_setReceiver ..

theorem deviceStep_appendWord (e data) (s : State) : DeviceStep s (appendWord e data s) := by
  unfold appendWord
  dsimp only
  split
  · split
    · exact deviceStep_endMessage ..
    · exact deviceStep_setReceiver ..
  · split
    · exact (deviceStep_idleReceiver s).trans (deviceStep_executeMessage ..)
    · exact deviceStep_setReceiver ..

theorem deviceStep_gapExpiryIfDue (s : State) : DeviceStep s (gapExpiryIfDue s) := by
  unfold gapExpiryIfDue
  split
  · exact deviceStep_endMessage ..
  · exact .refl s

/-- A word of a message under way. -/
theorem deviceStep_continued (e data) (s : State) :
    DeviceStep s (if s.receiver.state = .assembling then appendWord e data s
      else if e then endMessage .length s else setReceiver { s.receiver with gap := 0 } s) := by
  split
  · exact deviceStep_appendWord ..
  split
  · exact deviceStep_endMessage ..
  · exact deviceStep_setReceiver ..

/-- What the words of a frame do to a message under way. -/
theorem deviceStep_managementWord (control data) (s : State) : DeviceStep s (managementWord control data s) := by
  unfold managementWord
  dsimp only
  split
  · split
    · exact deviceStep_beginMessage ..
    · exact .refl s
  · split
    · exact (deviceStep_setReceiver ..).trans (deviceStep_gapExpiryIfDue _)
    split
    · exact (deviceStep_endMessage ..).trans (deviceStep_beginMessage ..)
    · exact deviceStep_appendWord ..
  · split
    · exact (deviceStep_setReceiver ..).trans (deviceStep_gapExpiryIfDue _)
    split
    · exact (deviceStep_endMessage ..).trans (deviceStep_beginMessage ..)
    · exact deviceStep_continued ..

/-! ### Frames -/

theorem deviceStep_wires (w) (s : State) : DeviceStep s { s with wires := w } :=
  .of_lines rfl rfl (.of_engine rfl) id id

theorem deviceStep_modHighway {f : Highway → Highway} {s : State} (sync : s.syncLawful → (modHighway f s).syncLawful) :
    DeviceStep s (modHighway f s) :=
  .of_lines rfl rfl (.of_engine rfl) id sync

theorem deviceStep_advanceStamp (s : State) : DeviceStep s (advanceStamp s) := deviceStep_modHighway id

theorem deviceStep_sweepExpiryIfDue (s : State) : DeviceStep s (sweepExpiryIfDue s) := by
  have restarted : DeviceStep s (modEngine (fun e => { e with sweepTimer := 0 }) s) := deviceStep_modEngine rfl rfl rfl
  unfold sweepExpiryIfDue
  dsimp only
  split
  · split
    · next l _ =>
      exact (restarted.trans (deviceStep_offerSweep l s.settings.sweepKind
        (fun e => { e with sweepPointer := lineAfter l 1 }) _ (fun _ => rfl) (fun _ => rfl) fun _ => rfl)).trans
        (deviceStep_takeRequests _)
    · exact restarted
  · exact .refl s

theorem deviceStep_stampTicks (s : State) : DeviceStep s (stampTicks s) := by
  refine DeviceStep.trans ?_ (deviceStep_lapseTicks _)
  unfold sweepTick
  split
  · exact deviceStep_modEngine (f := fun e => { e with sweepTimer := 0 }) rfl rfl rfl
  · exact (deviceStep_modEngine (f := fun e => { e with sweepTimer := e.sweepTimer + 1 }) rfl rfl rfl).trans
      (deviceStep_sweepExpiryIfDue _)

theorem deviceStep_mapLines {f : Line → Line} {s : State} (lawful : ∀ c : Line, c.Lawful → (f c).Lawful)
    (fill : ∀ c, (f c).fill = c.fill) (state : ∀ c, (f c).state = c.state) : DeviceStep s (mapLines f s) := by
  refine ⟨pending_mapLines .., ?_, fun h l => ?_, ?_, ?_, fun _ h l => ?_⟩
  · rw [State.queuesBounded, State.queuesBounded, report_mapLines]
    exact id
  · rw [line_mapLines, fill]
    exact h l
  · exact syncLawful_of_eq (highway_mapLines ..) (by rw [report_mapLines])
  · exact testsLawful_of_same (.of_engine (engine_mapLines ..)) fun l => by rw [line_mapLines, state]
  · rw [line_mapLines]
    exact lawful _ (h l)

theorem deviceStep_setSending {s : State} (x) (sync : s.syncLawful → (setSending x s).syncLawful) :
    DeviceStep s (setSending x s) :=
  .of_lines rfl rfl (.of_engine rfl) id sync

theorem outer_holdTone (c : Line) : c.holdTone.outer = c.outer := by
  unfold Line.holdTone
  split <;> rfl

/-- The entry to HUNT removes the frame number and abandons the record being sent (R138). -/
theorem deviceStep_enterHunt (s : State) : DeviceStep s (enterHunt s) := by
  obtain ⟨engine, -, -, pending, report⟩ := enterHunt_keeps s
  refine ⟨pending, fun h => ?_, fun h l => ?_, fun _ => ?_, ?_, fun _ h l => ?_⟩
  · rw [State.queuesBounded, report]
    exact (deviceStep_dueLapses s).queues h
  · rw [line_enterHunt, Line.fill_of_outer (outer_holdTone _)]
    exact h l
  · rw [State.syncLawful, report]
    exact ⟨iff_of_false (by simp [enterHunt, setSending]) (by simp [enterHunt, setSending]), fun _ => rfl⟩
  · exact testsLawful_of_same (.of_engine engine) fun l => by
      rw [line_enterHunt, Line.state_of_outer (outer_holdTone _)]
  · rw [line_enterHunt]
    exact Line.lawful_of_outer (outer_holdTone _) (h l)

theorem deviceStep_beginFrameWords (frame replay) (s : State) : DeviceStep s (beginFrameWords frame replay s) :=
  deviceStep_wires ..

theorem deviceStep_passBoundary {s : State} (sync : s.highway.sync = .sync) : DeviceStep s (passBoundary s) := by
  have numbered : ∀ f, DeviceStep s (modHighway (fun h => { h with frame := some f }) s) := fun f =>
    deviceStep_modHighway fun laws => ⟨iff_of_true sync rfl, laws.2⟩
  unfold passBoundary
  dsimp only
  refine DeviceStep.trans ?_ (deviceStep_beginFrameWords ..)
  split
  · exact (((numbered _).trans (deviceStep_dueLapses _)).trans (deviceStep_advanceStamp _)).trans (deviceStep_stampTicks _)
  · exact numbered _

theorem deviceStep_boundaryPassed {s : State} (sync : s.highway.sync = .sync) :
    DeviceStep s (if huntDue s then enterHunt s else passBoundary s) := by
  split
  · exact deviceStep_enterHunt s
  · exact deviceStep_passBoundary sync

theorem deviceStep_frameBoundary (fs) (s : State) : DeviceStep s (frameBoundary fs s) := by
  unfold frameBoundary
  split
  · next sync =>
    have counted : DeviceStep s (modHighway (fun h =>
        { h with missCount := if fs then 0 else advance missLimit h.missCount }) s) :=
      deviceStep_modHighway fun laws => laws
    exact counted.trans (deviceStep_boundaryPassed sync)
  · exact .refl s

theorem deviceStep_abortAtReturn (s : State) : DeviceStep s (abortAtReturn s) := by
  unfold abortAtReturn
  split
  · next r busy held => exact deviceStep_finishTest (testHeld_of_held busy held) ..
  · exact .refl s

theorem deviceStep_markReturn (s : State) : DeviceStep s
    (mapLines (fun c => { c with monitor := { c.monitor with discard := true }, recoveryDue := true }) s) :=
  deviceStep_mapLines (fun _ h => ⟨h.feed, h.ring, h.sense, h.before⟩) (fun _ => rfl) fun _ => rfl

theorem deviceStep_abandonSending (s : State) : DeviceStep s (setSending none s) :=
  deviceStep_setSending none fun laws => ⟨laws.1, fun _ => rfl⟩

theorem deviceStep_returnToSync (s : State) : DeviceStep s (returnToSync s) :=
  ((((deviceStep_offerAlarm ..).trans (deviceStep_abortAtReturn _)).trans (deviceStep_idleReceiver _)).trans
    (deviceStep_abandonSending _)).trans (deviceStep_markReturn _)

theorem deviceStep_syncAcquire (s : State) : DeviceStep s (syncAcquire s) := by
  have entered : DeviceStep s (modHighway (fun h =>
      { h with sync := .sync, candidate := none, missCount := 0, frame := some 0, firstAcquisition := false }) s) :=
    deviceStep_modHighway fun _ => ⟨iff_of_true rfl rfl, fun hunt => by cases hunt⟩
  unfold syncAcquire
  split
  · dsimp only
    refine entered.trans (DeviceStep.trans ?_ (deviceStep_wires ..))
    split
    · exact .refl _
    · exact ((deviceStep_advanceStamp _).trans (deviceStep_returnToSync _)).trans (deviceStep_stampTicks _)
  · exact .refl s

theorem deviceStep_fsPulse (pulse) (s : State) : DeviceStep s (fsPulse pulse s) := by
  unfold fsPulse
  split
  · exact deviceStep_modHighway id
  · exact .refl s

theorem deviceStep_fsAbsent (s : State) : DeviceStep s (fsAbsent s) := by
  unfold fsAbsent
  split
  · exact deviceStep_modHighway id
  · exact .refl s

/-! ### Reports -/

/-- The line served and its record: the oldest due item, or a SNAPSHOT (R88, R159). -/
theorem serveLine_cases (l : LineNo) (s : State) :
    (∃ item rest, (s.line l).due = item :: rest ∧ serveLine l s =
      setLine l { s.line l with due := rest, overrun := false } (pushSignal (itemRecord l (s.line l).overrun item) s)) ∨
    (s.line l).due = [] ∧ serveLine l s = setLine l { s.line l with stateLost := false }
      (pushSignal (s.record (some l) (snapshotOf (s.line l))) s) := by
  unfold serveLine
  cases due : (s.line l).due with
  | nil => exact .inr ⟨rfl, rfl⟩
  | cons item rest =>
    refine .inl ⟨item, rest, rfl, ?_⟩
    simp only [keepItem, modLine, setLine_setLine, line_setLine_self]
    rfl

/-- A record served takes the room of the one that left the SIGNAL queue. -/
theorem deviceStep_serveBacklog {s u : State} {r : Record} {rest : List Record} (signal : s.report.signal = r :: rest)
    (left : u = { s with report := { s.report with signal := rest } }) : DeviceStep s (serveBacklog u) := by
  have popped : DeviceStep s u := by
    rw [left]
    refine .of_lines rfl rfl (.of_engine rfl) (fun ⟨alarm, reply, room⟩ => ⟨alarm, reply, ?_⟩) id
    rw [signal] at room
    exact (Nat.le_succ _).trans room
  have pushed : ∀ p r', DeviceStep s
      (pushSignal r' { u with report := { u.report with servicePointer := p } }) := fun p r' => by
    rw [left]
    refine .of_lines rfl rfl (.of_engine rfl) (fun ⟨alarm, reply, room⟩ => ⟨alarm, reply, ?_⟩) id
    rw [signal] at room
    simpa [pushSignal] using room
  unfold serveBacklog
  split
  · next l _ =>
    dsimp only
    obtain ⟨item, items, due, served⟩ | ⟨-, served⟩ :=
      serveLine_cases l { u with report := { u.report with servicePointer := l } }
    · rw [served]
      refine (pushed l _).trans (LineKeeps.deviceStep (l := l) ⟨onlyLine_modLine l (fun _ => _) _, ?_, ?_, ?_, id⟩)
      all_goals simp only [line_setLine_self]
      · exact fun h => ⟨h.feed, h.ring, h.sense, h.before⟩
      · refine fun h => le_trans ?_ h
        simp only [Line.fill_eq, line_pushSignal]
        rw [due, List.map_cons, List.sum_cons]
        omega
      · rfl
    · rw [served]
      exact (pushed l _).trans (deviceStep_modLine (f := fun _ => _) (fun h => ⟨h.feed, h.ring, h.sense, h.before⟩) rfl rfl)
  · exact popped

theorem deviceStep_sendWord {s : State} (sync : s.highway.sync = .sync) (r i) : DeviceStep s (sendWord r i s) := by
  rw [sendWord_eq]
  exact .of_lines rfl rfl (.of_engine rfl) id fun laws => ⟨laws.1, fun hunt => by rw [sync] at hunt; cases hunt⟩

theorem highway_serveBacklog (s : State) : (serveBacklog s).highway = s.highway := by
  unfold serveBacklog
  split
  · next l _ =>
    dsimp only
    obtain ⟨item, rest, -, served⟩ | ⟨-, served⟩ :=
      serveLine_cases l { s with report := { s.report with servicePointer := l } } <;> (rw [served]; rfl)
  · rfl

theorem deviceStep_popAlarm {s : State} {r : Record} {rest : List Record} (alarm : s.report.alarm = r :: rest) :
    DeviceStep s { s with report := { s.report with alarm := rest } } := by
  refine .of_lines rfl rfl (.of_engine rfl) (fun ⟨room, reply, signal⟩ => ⟨?_, reply, signal⟩) id
  rw [alarm] at room
  exact (Nat.le_succ _).trans room

theorem deviceStep_popReply {s : State} {r : Record} {rest : List Record} (reply : s.report.reply = r :: rest) :
    DeviceStep s { s with report := { s.report with reply := rest } } := by
  refine .of_lines rfl rfl (.of_engine rfl) (fun ⟨alarm, room, signal⟩ => ⟨alarm, ?_, signal⟩) id
  rw [reply] at room
  exact (Nat.le_succ _).trans room

theorem deviceStep_reportFrame {s : State} (sync : s.highway.sync = .sync) : DeviceStep s (reportFrame s) := by
  unfold reportFrame
  split
  · exact deviceStep_sendWord sync ..
  · unfold chooseRecord
    split
    · next alarm => exact (deviceStep_popAlarm alarm).trans (deviceStep_sendWord (by exact sync) ..)
    · next reply => exact (deviceStep_popReply reply).trans (deviceStep_sendWord (by exact sync) ..)
    · next signal =>
      refine (deviceStep_serveBacklog signal rfl).trans (deviceStep_sendWord ?_ ..)
      rw [highway_serveBacklog]
      exact sync
    · exact deviceStep_wires ..

end Sys2Proof.Proofs


namespace Sys2Proof.Proofs

open Sys2Proof.Machine

/-! ### Commands and events in their places -/

theorem deviceStep_takeCommand {f : State → State} {s : State} (h : ∀ u, DeviceStep u (f u)) :
    DeviceStep s (takeCommand f s) := by
  unfold takeCommand
  split
  · exact (deviceStep_idleReceiver s).trans (h _)
  · exact .refl s

theorem deviceStep_inSync {f : State → State} {s : State} (h : s.highway.sync = .sync → DeviceStep s (f s)) :
    DeviceStep s (inSync f s) := by
  unfold inSync
  split
  · next sync => exact h sync
  · exact .refl s

theorem deviceStep_whileUsed {l : LineNo} {f : State → State} {s : State} (h : DeviceStep s (f s)) :
    DeviceStep s (whileUsed l f s) := by
  unfold whileUsed
  split
  · exact h
  · exact .refl s

theorem deviceStep_onHeldLine {f : LineNo → State → State} {s : State}
    (h : ∀ r, s.engine.held = some r → DeviceStep s (f r.line s)) : DeviceStep s (onHeldLine f s) := by
  unfold onHeldLine
  split
  · next r held => exact deviceStep_whileUsed (h r held)
  · exact .refl s

theorem deviceStep_onLineSlot (k) {f : State → State} {s : State} (h : ∀ u, DeviceStep u (f u)) :
    DeviceStep s (onLineSlot k f s) := by
  unfold onLineSlot
  split
  · exact (deviceStep_wires ..).trans (h _)
  · exact .refl s

theorem deviceStep_onTrunkSlot (k) {f : State → State} {s : State} (h : ∀ u, DeviceStep u (f u)) :
    DeviceStep s (onTrunkSlot k f s) := by
  unfold onTrunkSlot
  split
  · exact (deviceStep_wires ..).trans (h _)
  · exact .refl s

theorem deviceStep_onSenseSlot (l) {f : State → State} {s : State} (h : ∀ u, DeviceStep u (f u)) :
    DeviceStep s (onSenseSlot l f s) := by
  unfold onSenseSlot
  split
  · exact deviceStep_onLineSlot _ h
  · exact .refl s

theorem deviceStep_onReportSlot {f : State → State} {s : State} (h : DeviceStep s (f s)) :
    DeviceStep s (onReportSlot f s) := by
  unfold onReportSlot
  split
  · exact h
  · exact .refl s

theorem deviceStep_audioUpstream (l w) (s : State) : DeviceStep s (audioUpstream l w s) :=
  (DeviceStep.of_step (lineStep_toneSample l w s)).trans (deviceStep_wires ..)

theorem outer_ite {p : Prop} [Decidable p] {c d : Line} (h : d.outer = c.outer) :
    (if p then d else c).outer = c.outer := by
  split
  · exact h
  · rfl

theorem deviceStep_testStepEnd (s : State) : DeviceStep s (onHeldLine testStepEndIfDue s) := by
  refine deviceStep_onHeldLine fun r held => ?_
  cases busy : s.engine.busy with
  | true => exact deviceStep_testStepEndIfDue (testHeld_of_held busy held)
  | false => simpa [testStepEndIfDue, testStepEndDue, inPhase, busy] using DeviceStep.refl s

theorem deviceStep_noEcho (s : State) : DeviceStep s (onHeldLine noEchoIfDue s) := by
  refine deviceStep_onHeldLine fun r held => ?_
  cases busy : s.engine.busy with
  | true => exact deviceStep_noEchoIfDue (testHeld_of_held busy held)
  | false => simpa [noEchoIfDue, noEchoDue, inPhase, busy] using DeviceStep.refl s

/-- An event of one line's blocks. -/
theorem deviceStep_blockEvent {l : LineNo} {f : State → State} {s : State} (h : LineStep l s (f s)) :
    DeviceStep s (whileUsed l f s) := deviceStep_whileUsed (.of_step h)

/-- Every command and every event keeps the device's laws. -/
theorem deviceStep_exec {c : Instr} {s t : State} (h : exec c s = .next t) : DeviceStep s t := by
  cases c <;> cases h
  case powerOnReset => exact deviceStep_powerOnReset s
  case lineEnable => exact deviceStep_takeCommand (deviceStep_lineEnable _ _ _)
  case lineDisable => exact deviceStep_takeCommand (deviceStep_lineDisable _ _)
  case lineConnect => exact deviceStep_takeCommand (deviceStep_lineConnect _ _)
  case linePolarity => exact deviceStep_takeCommand (deviceStep_linePolarity _ _ _)
  case lineProfile => exact deviceStep_takeCommand (deviceStep_lineProfile _ _ _)
  case ringStart => exact deviceStep_takeCommand (deviceStep_ringStart _ _ _ _)
  case ringStop => exact deviceStep_takeCommand (deviceStep_ringStop _ _)
  case testRequest => exact deviceStep_takeCommand (deviceStep_testRequest _ _ _)
  case lineQuery => exact deviceStep_takeCommand (deviceStep_lineQuery _ _)
  case partQuery => exact deviceStep_takeCommand fun _ => deviceStep_replyWith ..
  case partReset => exact deviceStep_takeCommand (deviceStep_partReset _)
  case loadOpen => exact deviceStep_takeCommand (deviceStep_loadOpen _ _ _ _)
  case loadBlock => exact deviceStep_takeCommand (deviceStep_loadBlock _ _ _ _)
  case loadCommit => exact deviceStep_takeCommand (deviceStep_loadCommit _ _)
  case loadCancel => exact deviceStep_takeCommand (deviceStep_loadCancel _ _)
  case entryRead => exact deviceStep_takeCommand (deviceStep_entryRead _ _ _ _)
  case managementWord => exact deviceStep_inSync fun _ => deviceStep_onTrunkSlot _ (deviceStep_managementWord _ _)
  case gapExpiry => exact deviceStep_inSync fun _ => deviceStep_gapExpiryIfDue s
  case fsPulseHunt => exact deviceStep_fsPulse ..
  case syncAcquire => exact deviceStep_syncAcquire s
  case frameBoundary => exact deviceStep_frameBoundary ..
  case huntEntry =>
    split
    · exact deviceStep_enterHunt s
    · exact .refl s
  case senseRecord => exact deviceStep_inSync fun _ => deviceStep_onSenseSlot _ (deviceStep_senseRecord _ _ _ _ _ _)
  case senseLost => exact deviceStep_inSync fun _ => deviceStep_senseLostIfDue ..
  case feedStuck => exact deviceStep_inSync fun _ => deviceStep_feedStuckIfDue ..
  case audioUpstream => exact deviceStep_inSync fun _ => deviceStep_onLineSlot _ (deviceStep_audioUpstream _ _)
  case audioDownstream => exact deviceStep_inSync fun _ => deviceStep_onTrunkSlot _ fun _ => deviceStep_wires ..
  case reportFrame => exact deviceStep_inSync fun sync => deviceStep_onReportSlot (deviceStep_reportFrame sync)
  case debounceAccept l => exact deviceStep_blockEvent (lineStep_acceptIfDue l s)
  case edgeMaskExpire => exact deviceStep_blockEvent (lineStep_modLine fun _ => outer_ite rfl)
  case feedMaskEnd => exact deviceStep_blockEvent (lineStep_modLine fun _ => outer_ite rfl)
  case seizure l => exact deviceStep_blockEvent (lineStep_seizureIfDue l s)
  case release l => exact deviceStep_blockEvent (lineStep_releaseIfDue l s)
  case makeConfirm l => exact deviceStep_blockEvent (lineStep_makeConfirmIfDue l s)
  case digitEnd l => exact deviceStep_blockEvent (lineStep_digitEndIfDue l s)
  case lockout l => exact deviceStep_blockEvent (lineStep_lockoutIfDue l s)
  case stringTimeout l => exact deviceStep_blockEvent (lineStep_stringTimeoutIfDue l s)
  case toneBlockComplete l => exact deviceStep_inSync fun _ => .of_step (lineStep_toneBlockIfDue l s)
  case ringStepExpire l => exact deviceStep_blockEvent (lineStep_ringStepExpireIfDue l s)
  case ringMaskEnd l => exact deviceStep_blockEvent (lineStep_ringMaskEndIfDue l s)
  case ringTrip l => exact deviceStep_blockEvent (lineStep_ringTripIfDue l s)
  case ringOffTrip l => exact deviceStep_blockEvent (lineStep_ringOffTripIfDue l s)
  case faultWindowClose l => exact deviceStep_inSync fun _ => .of_step (lineStep_windowCloseIfDue l s)
  case faultConfirm l => exact deviceStep_inSync fun _ => .of_step (lineStep_faultConfirmIfDue l s)
  case faultClear l => exact deviceStep_inSync fun _ => .of_step (lineStep_faultClearIfDue l s)
  case testTake => exact deviceStep_inSync fun _ => deviceStep_takeRequests s
  case testSettleEnd => exact deviceStep_onHeldLine fun _ _ => deviceStep_testSettleEndIfDue s
  case testStepEnd => exact deviceStep_testStepEnd s
  case noEcho => exact deviceStep_noEcho s
  case sweepExpiry => exact deviceStep_inSync fun _ => deviceStep_sweepExpiryIfDue s
  case loadLapse => exact deviceStep_inSync fun _ => deviceStep_loadLapseIfDue ..
  case commitDone => exact deviceStep_inSync fun _ => deviceStep_releaseBank ..
  case fsAbsentExpectedBoundary => exact deviceStep_fsAbsent s

theorem step_of_pending {s : State} {c : Instr} {rest : List Instr} (h : s.pending = c :: rest) :
    step s = exec c (s.withPending rest) := by
  unfold step
  rw [h]

/-- One step is idle, or is a command on the rest of the queue, which shares everything but the queue with the state before. -/
theorem step_cases {s t : State} (h : step s = .next t) :
    t = s ∨ ∃ c rest, s.pending = c :: rest ∧ exec c (s.withPending rest) = .next t := by
  cases pending : s.pending with
  | nil =>
    unfold step at h
    rw [pending] at h
    cases h
    exact .inl rfl
  | cons c rest => exact .inr ⟨c, rest, rfl, (step_of_pending pending).symm.trans h⟩

/-- What one step keeps. -/
theorem deviceStep_step {s t : State} (h : step s = .next t) : ∃ rest, DeviceStep (s.withPending rest) t := by
  obtain rfl | ⟨c, rest, -, run⟩ := step_cases h
  · exact ⟨t.pending, .refl t⟩
  · exact ⟨rest, deviceStep_exec run⟩

/-! ### The tables after power-on reset -/

theorem table_reset (x : TableId) : State.reset.table x = .initial x (decide (x = .settings)) := by
  cases x <;> rfl

theorem entry_initial {x : TableId} {bank : Bank} {i : Nat} (v : Bool) (inside : i < x.entries) :
    ((Table.initial x v).bank bank).getD i ⟨false, []⟩ = .powerOn x v := by
  have bank_eq : (Table.initial x v).bank bank = List.replicate x.entries (.powerOn x v) := by
    cases bank <;> rfl
  rw [bank_eq, List.getD_replicate _ inside]

theorem lawful_table_initial (x : TableId) (v : Bool) : (Table.initial x v).Lawful x :=
  ⟨List.length_replicate, List.length_replicate, fun ld open_ => by cases open_⟩

/-! ### The statements -/

/-- Settles O1: a step on a queue that is not empty is `exec` by definition. -/
theorem stepRunsFrontCommand : Obligations.StepRunsFrontCommand := fun _ _ _ => step_of_pending

/-- Settles O2: the idle step by definition, and the queue of commands as a field that every operation keeps. -/
theorem queueOfCommands : Obligations.QueueOfCommands := by
  refine ⟨fun s empty => ?_, fun _ _ _ h => (deviceStep_exec h).pending⟩
  unfold step
  rw [empty]

/-- Settles O3: the values of `State.reset`, read off field by field. -/
theorem powerOnResetValues : Obligations.PowerOnResetValues := by
  refine ⟨fun s => ⟨_, rfl, rfl, rfl, line_reset, rfl, rfl, rfl, rfl, fun x => ?_, fun x bank i inside => ?_⟩,
    fun _ => rfl, rfl, rfl, rfl, fun _ => rfl, rfl, rfl⟩
  · have table : State.table { State.reset with pending := s.pending } x = .initial x _ := table_reset x
    rw [table]
    exact ⟨rfl, rfl, rfl⟩
  · have table : State.table { State.reset with pending := s.pending } x = .initial x _ := table_reset x
    rw [State.entry, table, entry_initial _ inside]
    rfl

/-- Settles O55: every operation keeps the queues and the digit buffers within their capacities. -/
theorem capacitiesKept : Obligations.CapacitiesKept := by
  intro s t queues buffers h
  obtain ⟨rest, kept⟩ := deviceStep_step h
  exact ⟨kept.queues queues, kept.buffers buffers⟩

/-- Settles O56: every operation keeps the laws of the test engine and its queue. -/
theorem testEngineLawful : Obligations.TestEngineLawful := by
  intro s t engine queue h
  obtain ⟨rest, kept⟩ := deviceStep_step h
  exact kept.tests ⟨engine, queue⟩

/-- Settles O57: under the test engine's laws every operation keeps the laws of the lines. -/
theorem linesLawful : Obligations.LinesLawful := by
  intro s t engine queue lines h
  obtain ⟨rest, kept⟩ := deviceStep_step h
  exact kept.lines ⟨engine, queue⟩ lines

/-- Settles O59: every operation keeps the laws of the alignment. -/
theorem syncLawful : Obligations.SyncLawful := by
  intro s t sync h
  obtain ⟨rest, kept⟩ := deviceStep_step h
  exact kept.sync sync

/-- Settles O60: a device whose lines, engine, queues and tables are at their reset values satisfies each law. -/
theorem resetIsLawful : Obligations.ResetIsLawful := by
  have reset := outer_of_initial (c := Line.initial) rfl
  refine ⟨⟨Nat.zero_le _, Nat.zero_le _, Nat.zero_le _⟩, fun l => ?_, ⟨rfl, fun l => ?_⟩,
    ⟨Nat.zero_le _, List.nodup_nil, fun r held => by cases held⟩, fun l => ?_,
    ⟨iff_of_false (fun sync => by cases sync) (fun frame => by cases frame), fun _ => rfl⟩, fun x => ?_, fun x retiring => ?_⟩
  · rw [line_reset, reset.2.1]
    exact Nat.zero_le _
  · rw [line_reset, reset.2.2]
    exact iff_of_false (fun test => by cases test) (fun held => by cases held)
  · rw [line_reset]
    exact reset.1
  · rw [table_reset]
    exact lawful_table_initial ..
  · rw [table_reset] at retiring
    cases retiring

end Sys2Proof.Proofs

/-! SUPPORT. The table store under every command (O58): a step as one table sees it, which never gives a bank that is not
ACTIVE a new user, and releases a RETIRING bank only without a user and with its COMMIT_DONE. -/

namespace Sys2Proof.Proofs

open Sys2Proof.Machine

/-! ### Users -/

theorem toList_lines (s : State) : s.lines.toList = List.ofFn s.line := by
  apply List.ext_getElem
  · simp
  · intro i _ _
    simp only [Vector.getElem_toList, List.getElem_ofFn, State.line, Vector.get_eq_getElem]

/-- The users of a bank do not grow where every user of it was one before (R160). -/
theorem users_le {x : TableId} {bank : Bank} {s t : State}
    (lines : ∀ l, (t.line l).selector x = some bank → (s.line l).selector x = some bank)
    (engine : x = .testPlan → t.engine.bank = some bank → s.engine.bank = some bank) :
    t.users x bank ≤ s.users x bank := by
  have counted : (t.lines.toList.countP fun c => c.selector x = some bank) ≤
      s.lines.toList.countP fun c => c.selector x = some bank := by
    rw [toList_lines, toList_lines, List.ofFn_eq_map, List.ofFn_eq_map, List.countP_map, List.countP_map]
    refine List.countP_mono_left fun l _ used => ?_
    simpa using lines l (by simpa using used)
  unfold State.users
  split
  · split
    · next held => rw [if_pos (engine rfl held)]
    · exact Nat.zero_le _
  · exact counted

theorem users_eq {x : TableId} {s t : State} (lines : ∀ l, (t.line l).selector x = (s.line l).selector x)
    (engine : t.engine.bank = s.engine.bank) (bank : Bank) : t.users x bank = s.users x bank :=
  le_antisymm (users_le (fun l => by rw [lines]; exact id) (by rw [engine]; exact fun _ => id))
    (users_le (fun l => by rw [lines]; exact id) (by rw [engine]; exact fun _ => id))

theorem users_settings (s : State) (bank : Bank) : s.users .settings bank = 0 := by
  simp [State.users, Line.selector]

theorem other_ne (bank : Bank) : bank.other ≠ bank := by
  cases bank <;> decide

/-! ### Steps as a table sees them -/

/-- A bank of the table is RETIRING only while it has a user (R168). -/
def Served (x : TableId) (s : State) : Prop :=
  (s.table x).retiringTag.isSome = true → 1 ≤ s.users x (s.activeBank x).other

/-- The RETIRING bank of the table has been released without a user, with its COMMIT_DONE (R168). -/
def Released (x : TableId) (s t : State) : Prop :=
  ∃ tag, (s.table x).retiringTag = some tag ∧ (t.table x).retiringTag = none ∧ t.users x (t.activeBank x).other = 0 ∧
    (t.record none (.commitDone x tag) ∈ t.report.reply ∨ replyCapacity ≤ t.report.reply.length)

/-- A step as a table sees it. -/
structure BankStep (x : TableId) (s t : State) : Prop where
  active : t.activeBank x = s.activeBank x
  stamp : t.stamp = s.stamp
  reply : s.report.reply <+: t.report.reply
  users : t.users x (t.activeBank x).other ≤ s.users x (s.activeBank x).other
  tag : (t.table x).retiringTag = (s.table x).retiringTag ∨ Released x s t
  lawful : (s.table x).Lawful x → (t.table x).Lawful x

/-- A step behind which a RETIRING bank still has a user. -/
structure ServedStep (x : TableId) (s t : State) : Prop extends BankStep x s t where
  served : Served x s → Served x t

section

variable {x : TableId} {s t u : State}

theorem BankStep.refl (s : State) : BankStep x s s := ⟨rfl, rfl, List.prefix_rfl, le_rfl, .inl rfl, id⟩

theorem ServedStep.refl (s : State) : ServedStep x s s := ⟨.refl s, id⟩

theorem BankStep.trans (h : BankStep x s t) (g : BankStep x t u) : BankStep x s u := by
  refine ⟨g.active.trans h.active, g.stamp.trans h.stamp, h.reply.trans g.reply, g.users.trans h.users, ?_,
    g.lawful ∘ h.lawful⟩
  obtain kept | ⟨tag, retiring, freed, unused, told⟩ := h.tag
  · obtain kept' | ⟨tag, retiring, rest⟩ := g.tag
    · exact .inl (kept'.trans kept)
    · exact .inr ⟨tag, kept ▸ retiring, rest⟩
  · have freed' : (u.table x).retiringTag = none := by
      obtain kept' | ⟨_, -, freed', -⟩ := g.tag
      · exact kept'.trans freed
      · exact freed'
    refine .inr ⟨tag, retiring, freed', Nat.le_zero.mp (unused ▸ g.users), ?_⟩
    have record : u.record none (.commitDone x tag) = t.record none (.commitDone x tag) := by
      simp only [State.record, g.stamp]
    rw [record]
    exact told.imp (fun told => g.reply.subset told) fun full => full.trans g.reply.length_le

theorem ServedStep.trans (h : ServedStep x s t) (g : ServedStep x t u) : ServedStep x s u :=
  ⟨h.toBankStep.trans g.toBankStep, g.served ∘ h.served⟩

theorem served_congr (active : t.activeBank x = s.activeBank x) (users : ∀ bank, t.users x bank = s.users x bank)
    (tag : (t.table x).retiringTag = (s.table x).retiringTag) (h : Served x s) : Served x t := by
  rw [Served, active, users, tag]
  exact h

theorem activeBank_congr (table : t.table x = s.table x) : t.activeBank x = s.activeBank x := by
  rw [State.activeBank, State.activeBank, table]

/-- A step that leaves the table as it is, and its ACTIVE bank's rival no new user. -/
theorem BankStep.of_table (table : t.table x = s.table x) (stamp : t.stamp = s.stamp)
    (reply : s.report.reply <+: t.report.reply) (users : t.users x (s.activeBank x).other ≤ s.users x (s.activeBank x).other) :
    BankStep x s t := by
  have active := activeBank_congr table
  refine ⟨active, stamp, reply, ?_, .inl (by rw [table]), by rw [table]; exact id⟩
  rw [active]
  exact users

/-- A step that leaves the ACTIVE bank, the tag and the users. -/
theorem ServedStep.of_users (active : t.activeBank x = s.activeBank x)
    (tag : (t.table x).retiringTag = (s.table x).retiringTag) (lawful : (s.table x).Lawful x → (t.table x).Lawful x)
    (stamp : t.stamp = s.stamp) (reply : s.report.reply <+: t.report.reply)
    (users : ∀ bank, t.users x bank = s.users x bank) : ServedStep x s t := by
  refine ⟨⟨active, stamp, reply, ?_, .inl tag, lawful⟩, served_congr active users tag⟩
  rw [active, users]

/-- A step that leaves the table, the lines' selectors and the test engine's bank. -/
theorem ServedStep.of_selectors (table : t.table x = s.table x) (stamp : t.stamp = s.stamp)
    (reply : s.report.reply <+: t.report.reply) (lines : ∀ l, (t.line l).selector x = (s.line l).selector x)
    (engine : t.engine.bank = s.engine.bank) : ServedStep x s t :=
  .of_users (activeBank_congr table) (by rw [table]) (by rw [table]; exact id) stamp reply (users_eq lines engine)

/-- A step that leaves the lines and the test engine's bank, and no more of the store than this table. -/
theorem ServedStep.of_lines (table : t.table x = s.table x) (stamp : t.stamp = s.stamp)
    (reply : s.report.reply <+: t.report.reply) (lines : t.lines = s.lines) (engine : t.engine.bank = s.engine.bank) :
    ServedStep x s t :=
  .of_selectors table stamp reply (fun l => by rw [(lines_eq_iff t s).mp lines]) engine

/-! ### Changes of a line and of the engine -/

/-- A selector stays or is bound to the ACTIVE bank (R160). -/
theorem bankStep_modLine {l : LineNo} {f : Line → Line}
    (h : (f (s.line l)).selector x = (s.line l).selector x ∨ (f (s.line l)).selector x = some (s.activeBank x)) :
    BankStep x s (modLine l f s) := by
  refine .of_table rfl rfl List.prefix_rfl (users_le (fun k used => ?_) fun _ => id)
  by_cases own : k = l
  · subst own
    rw [line_modLine_self] at used
    obtain kept | bound := h
    · rwa [kept] at used
    · rw [bound] at used
      exact absurd (Option.some.inj used).symm (other_ne _)
  · rwa [line_modLine_of_ne own] at used

theorem servedStep_modLine {l : LineNo} {f : Line → Line} (h : ∀ c, (f c).selector x = c.selector x) :
    ServedStep x s (modLine l f s) := by
  refine .of_selectors rfl rfl List.prefix_rfl (fun k => ?_) rfl
  by_cases own : k = l
  · rw [own, line_modLine_self]
    exact h _
  · rw [line_modLine_of_ne own]

theorem servedStep_modEngine {f : TestEngine → TestEngine} (h : (f s.engine).bank = s.engine.bank) :
    ServedStep x s (modEngine f s) := .of_lines rfl rfl List.prefix_rfl rfl h

/-- The test engine takes no TEST_PLAN bank but the ACTIVE one (R130). -/
theorem bankStep_modEngine {f : TestEngine → TestEngine} (h : x = .testPlan →
    (f s.engine).bank = some (s.activeBank x).other → s.engine.bank = some (s.activeBank x).other) :
    BankStep x s (modEngine f s) := .of_table rfl rfl List.prefix_rfl (users_le (fun _ => id) h)

theorem servedStep_wires (w) (s : State) : ServedStep x s { s with wires := w } :=
  .of_lines rfl rfl List.prefix_rfl rfl rfl

theorem servedStep_withReply (r) (s : State) : ServedStep x s (s.withReply r) := by
  refine .of_lines rfl rfl ?_ rfl rfl
  rw [reply_withReply, State.replyAfter]
  split
  · exact List.prefix_append ..
  · exact List.prefix_rfl

theorem servedStep_offerReply (o p) (s : State) : ServedStep x s (offerReply o p s) := by
  rw [offerReply_eq]
  exact servedStep_withReply ..

theorem servedStep_replyWith (code tag line status result) (s : State) :
    ServedStep x s (replyWith code tag line status result s) := servedStep_offerReply ..

theorem servedStep_replyStatus (code tag line status) (s : State) :
    ServedStep x s (replyStatus code tag line status s) := servedStep_offerReply ..

theorem servedStep_offerAlarm (o p) (s : State) : ServedStep x s (offerAlarm o p s) := by
  obtain ⟨a, b, offered⟩ := offerAlarm_eq o p s
  rw [offered]
  exact .of_lines rfl rfl List.prefix_rfl rfl rfl

theorem servedStep_pushSignal (r) (s : State) : ServedStep x s (pushSignal r s) :=
  .of_lines rfl rfl List.prefix_rfl rfl rfl

/-! ### Releases -/

theorem lawful_untagged {tb : Table} (h : tb.Lawful x) : ({ tb with retiringTag := none } : Table).Lawful x :=
  ⟨h.bankA, h.bankB, fun ld open_ =>
    have ⟨count, last, accepted, lapse, _⟩ := h.load ld open_
    ⟨count, last, accepted, lapse, rfl⟩⟩

theorem servedStep_setTable_of_ne {y : TableId} (ne : x ≠ y) (tb) (s : State) : ServedStep x s (setTable y tb s) :=
  .of_lines (table_setTable_of_ne ne tb s) rfl List.prefix_rfl rfl rfl

/-- The reply queue holds a record offered to it, or is full. -/
theorem mem_or_full_withReply (r : Record) (s : State) :
    r ∈ (s.withReply r).report.reply ∨ replyCapacity ≤ (s.withReply r).report.reply.length := by
  rw [reply_withReply, State.replyAfter]
  split
  · exact .inl (by simp)
  · next full => exact .inr (Nat.le_of_not_lt full)

/-- The release of a RETIRING bank without a user. -/
theorem servedStep_release {tag : Tag} (retiring : (s.table x).retiringTag = some tag)
    (unused : s.users x (s.activeBank x).other = 0) : ServedStep x s
      (offerReply none (.commitDone x tag) (setTable x { s.table x with retiringTag := none } s)) := by
  have table : (offerReply none (.commitDone x tag) (setTable x { s.table x with retiringTag := none } s)).table x =
      { s.table x with retiringTag := none } := by
    rw [offerReply_eq]
    exact table_setTable_self ..
  have active : (offerReply none (.commitDone x tag) (setTable x { s.table x with retiringTag := none } s)).activeBank x =
      s.activeBank x := by
    rw [State.activeBank, table]
    rfl
  have users : ∀ bank, (offerReply none (.commitDone x tag) (setTable x { s.table x with retiringTag := none } s)).users x bank
      = s.users x bank := fun bank => by
    rw [offerReply_eq]
    rfl
  refine ⟨⟨active, by rw [offerReply_eq]; rfl, ?_, by rw [active, users], .inr ⟨tag, retiring, by rw [table], ?_, ?_⟩, ?_⟩, ?_⟩
  · exact (servedStep_offerReply (x := x) none _ (setTable x { s.table x with retiringTag := none } s)).reply
  · rw [active, users]
    exact unused
  · rw [offerReply_eq]
    exact mem_or_full_withReply ..
  · rw [table]
    exact lawful_untagged
  · intro _ still
    rw [table] at still
    cases still

theorem servedStep_releaseBank (y : TableId) (s : State) : ServedStep x s (releaseBank y s) := by
  obtain kept | ⟨tag, retiring, unused, released⟩ := releaseBank_eq y s
  · rw [kept]
    exact .refl s
  · rw [released]
    by_cases own : x = y
    · subst own
      exact servedStep_release retiring unused
    · exact (servedStep_setTable_of_ne own ..).trans (servedStep_offerReply ..)

/-- Behind its release step a table is served (R168). -/
theorem served_releaseBank (x : TableId) (s : State) : Served x (releaseBank x s) := by
  have step := servedStep_releaseBank (x := x) x s
  by_cases served : Served x s
  · exact step.served served
  · obtain ⟨retiring, unused⟩ := Classical.not_imp.mp served
    obtain ⟨tag, retiring⟩ := Option.isSome_iff_exists.mp retiring
    have unused : s.users x (s.activeBank x).other = 0 := by omega
    intro still
    have released : releaseBank x s =
        offerReply none (.commitDone x tag) (setTable x { s.table x with retiringTag := none } s) := by
      simp only [releaseBank, retiring, if_pos unused]
    have freed : ((releaseBank x s).table x).retiringTag = none := by
      rw [released, offerReply_eq]
      exact congrArg Table.retiringTag (table_setTable_self ..)
    rw [freed] at still
    cases still

theorem servedStep_foldl_releaseBank (ys : List TableId) (s : State) :
    ServedStep x s (ys.foldl (fun s y => releaseBank y s) s) := by
  induction ys generalizing s with
  | nil => exact .refl s
  | cons y ys ih => exact (servedStep_releaseBank y s).trans (ih _)

theorem served_foldl_releaseBank {ys : List TableId} (mem : x ∈ ys) (s : State) :
    Served x (ys.foldl (fun s y => releaseBank y s) s) := by
  induction ys generalizing s with
  | nil => cases mem
  | cons y ys ih =>
    obtain rfl | mem := List.mem_cons.mp mem
    · exact (servedStep_foldl_releaseBank ys _).served (served_releaseBank x s)
    · exact ih mem _

theorem servedStep_releaseBanks (s : State) : ServedStep x s (releaseBanks s) := servedStep_foldl_releaseBank ..

/-- Behind the completion of the migrations every table is served: SETTINGS has no user, and so no RETIRING bank. -/
theorem BankStep.released (h : BankStep x s t) : ServedStep x s (releaseBanks t) := by
  have step : BankStep x s (releaseBanks t) := h.trans (servedStep_releaseBanks t).toBankStep
  refine ⟨step, fun served => ?_⟩
  by_cases mem : x ∈ userTables
  · exact served_foldl_releaseBank mem t
  · have settings : x = .settings := by
      cases x <;> first | rfl | exact absurd (by decide) mem
    subst settings
    intro still
    obtain kept | ⟨_, -, freed, -⟩ := step.tag
    · rw [kept] at still
      have := served still
      rw [users_settings] at this
      cases this
    · rw [freed] at still
      cases still

end

end Sys2Proof.Proofs

/-! SUPPORT. Every operation of a line's blocks is a step as each table sees it: a selector stays or is bound to the ACTIVE
bank, and where one is bound outside a command the migrations are completed. -/

namespace Sys2Proof.Proofs

open Sys2Proof.Machine

section

variable {x : TableId} {s : State}

/-! ### Offers and strings -/

theorem selector_ite {p : Prop} [Decidable p] {c d e : Line} (h : c.selector x = e.selector x)
    (g : d.selector x = e.selector x) : (if p then c else d).selector x = e.selector x := by
  split
  · exact h
  · exact g

theorem servedStep_ite {p : Prop} [Decidable p] {t u : State} (h : ServedStep x s t) (g : ServedStep x s u) :
    ServedStep x s (if p then t else u) := by
  split
  · exact h
  · exact g

theorem servedStep_offerState (l new old cause) (s : State) : ServedStep x s (offerState l new old cause s) :=
  servedStep_ite (servedStep_pushSignal ..) (servedStep_modLine fun _ => rfl)

theorem servedStep_offerItem (l item) (s : State) : ServedStep x s (offerItem l item s) :=
  servedStep_ite ((servedStep_modLine (f := fun c => { c with overrun := false }) fun _ => rfl).trans (servedStep_pushSignal ..))
    (servedStep_modLine fun _ => rfl)

theorem servedStep_closeString (l reason) (s : State) : ServedStep x s (closeString l reason s) :=
  servedStep_ite (.refl s)
    ((servedStep_modLine (f := fun c => { c with openString := [], stringTimer := 0, lockoutTimer := 0 }) fun _ => rfl).trans
      (servedStep_offerItem ..))

theorem servedStep_refreshFeed (l) (s : State) : ServedStep x s (refreshFeed l s) := servedStep_modLine fun _ => rfl

/-! ### Profiles and examinations -/

theorem selector_switchTone (s old new) (c : Line) : (switchTone s old new c).selector x = c.selector x :=
  selector_ite rfl (selector_ite rfl rfl)

theorem selector_switchPulse (old new) (c : Line) : (switchPulse old new c).selector x = c.selector x := by
  unfold switchPulse
  dsimp only
  split <;> exact selector_ite rfl rfl

theorem bankStep_adoptProfile (l i) (s : State) : BankStep x s (adoptProfile l i s) := by
  have bound : BankStep x s
      (modLine l (fun c => { c with profileIndex := i, profileBank := s.activeBank .profile }) s) := by
    refine bankStep_modLine ?_
    cases x with
    | profile => exact .inr rfl
    | _ => exact .inl rfl
  have switched : ∀ u old new, ServedStep x u (modLine l (fun c => switchPulse old new (switchTone u old new c)) u) :=
    fun u old new => servedStep_modLine fun _ => (selector_switchPulse ..).trans (selector_switchTone ..)
  unfold adoptProfile
  dsimp only
  split
  · exact (bound.trans (switched ..).toBankStep).trans (servedStep_closeString ..).toBankStep
  · exact bound.trans (switched ..).toBankStep

theorem bankStep_applyPending (l) (s : State) : BankStep x s (applyPending l s) := by
  unfold applyPending
  split
  · exact .refl s
  · exact (servedStep_modLine (f := fun c => { c with pendingProfile := none }) fun _ => rfl).toBankStep.trans
      (bankStep_adoptProfile ..)

theorem bankStep_bindProfile (l) (s : State) : BankStep x s (bindProfile l s) := by
  unfold bindProfile
  split
  · exact .refl s
  · exact bankStep_adoptProfile ..

theorem bankStep_bindTonePlan (l) (s : State) : BankStep x s (bindTonePlan l s) := by
  unfold bindTonePlan
  split
  · exact .refl s
  · refine bankStep_modLine ?_
    cases x with
    | tonePlan => exact .inr rfl
    | _ => exact .inl rfl

theorem bankStep_bindCadence (l) (s : State) : BankStep x s (bindCadence l s) := by
  unfold bindCadence
  split
  · exact .refl s
  · refine bankStep_modLine ?_
    cases x with
    | cadence => exact .inr rfl
    | _ => exact .inl rfl

/-- An examination binds selectors to ACTIVE banks alone (R19). -/
theorem bankStep_examine (l) (s : State) : BankStep x s (examine l s) := by
  unfold examine
  split
  · exact (((bankStep_applyPending l s).trans (bankStep_bindProfile l _)).trans (bankStep_bindTonePlan l _)).trans
      (bankStep_bindCadence l _)
  · exact bankStep_bindCadence ..

/-! ### Changes of state -/

theorem bankStep_changeState {l : LineNo} {new : LineState} {f : Line → Line}
    (h : ∀ c, (f c).selector x = c.selector x ∨ (f c).selector x = some (s.activeBank x)) :
    BankStep x s (changeState l new f s) :=
  (bankStep_modLine (f := fun c => { f c with state := new }) (h _)).trans (servedStep_refreshFeed ..).toBankStep

theorem bankStep_enter {l : LineNo} {new : LineState} {cause : Cause} {f : Line → Line}
    (h : ∀ c, (f c).selector x = c.selector x ∨ (f c).selector x = some (s.activeBank x)) :
    BankStep x s (enter l new cause f s) :=
  ((bankStep_changeState h).trans (servedStep_offerState ..).toBankStep).trans (bankStep_examine ..)

/-- An event's change of state completes the migrations that its examination brings (R168). -/
theorem servedStep_move {l : LineNo} {new : LineState} {cause : Cause} {f : Line → Line}
    (h : ∀ c, (f c).selector x = c.selector x) : ServedStep x s (move l new cause f s) :=
  (bankStep_enter fun c => .inl (h c)).released

theorem servedStep_enterSeized (l) (s : State) : ServedStep x s (enterSeized l s) :=
  servedStep_move fun _ => selector_ite rfl rfl

theorem servedStep_enterLockout (l) (s : State) : ServedStep x s (enterLockout l s) := servedStep_move fun _ => rfl

theorem servedStep_enterReleased (l) (s : State) : ServedStep x s (enterReleased l s) :=
  (servedStep_closeString ..).trans (servedStep_move fun _ => rfl)

theorem selector_stopRing (c : Line) : c.stopRing.selector x = c.selector x := rfl

theorem selector_stopTone (c : Line) : c.stopTone.selector x = c.selector x := rfl

theorem selector_discardPulse (c : Line) : c.discardPulse.selector x = c.selector x := rfl

theorem selector_restartDetector (c : Line) : c.restartDetector.selector x = c.selector x := rfl

theorem selector_polarity (p) (c : Line) : ({ c with polarity := p } : Line).selector x = c.selector x := rfl

theorem selector_dropDigits (c : Line) : c.dropDigits.selector x = c.selector x := by
  rw [Line.dropDigits, selector_restartDetector, selector_stopTone, selector_discardPulse]

theorem selector_hazardChanges (c : Line) : c.hazardChanges.selector x = c.selector x := by
  rw [Line.hazardChanges, selector_polarity, selector_stopRing, selector_dropDigits]

theorem servedStep_enterFault (l) (s : State) : ServedStep x s (enterFault l s) := by
  have entered : ∀ u, ServedStep x u (move l .fault .fault Line.hazardChanges u) := fun _ =>
    servedStep_move selector_hazardChanges
  unfold enterFault
  exact (servedStep_closeString ..).trans (entered _)

theorem servedStep_leaveFault (l) (s : State) : ServedStep x s (leaveFault l s) := servedStep_move fun _ => rfl

theorem bankStep_endRinging (l cause) (s : State) : BankStep x s (endRinging l cause s) :=
  bankStep_enter fun _ => .inl ((selector_stopRing _).trans (selector_ite rfl rfl))

theorem servedStep_enterAnswered (l) (s : State) : ServedStep x s (enterAnswered l s) :=
  servedStep_move fun _ => selector_ite rfl rfl

/-! ### The collector -/

theorem servedStep_placeEntry (l e) (s : State) : ServedStep x s (placeEntry l e s) := by
  have joined : ServedStep x s (modLine l (fun c => { c with openString := c.openString ++ [e] }) s) :=
    servedStep_modLine fun _ => rfl
  refine servedStep_ite (servedStep_modLine fun _ => rfl) (servedStep_ite ?_ (servedStep_offerItem ..))
  dsimp only
  split
  · exact joined.trans (servedStep_closeString ..)
  · exact joined

theorem servedStep_takeEntry (l e) (s : State) : ServedStep x s (takeEntry l e s) :=
  ((servedStep_modLine (f := Line.entryMade) fun _ => rfl).trans (servedStep_placeEntry l e _)).trans
    (servedStep_ite (servedStep_move fun _ => rfl) (.refl _))

theorem servedStep_lockoutIfDue (l) (s : State) : ServedStep x s (lockoutIfDue l s) :=
  servedStep_ite (servedStep_enterLockout ..) (.refl s)

theorem servedStep_advanceLockout (l) (s : State) : ServedStep x s (advanceLockout l s) :=
  servedStep_ite ((servedStep_modLine (f := fun c => { c with lockoutTimer := advance timerStop c.lockoutTimer }) fun _ => rfl).trans
    (servedStep_lockoutIfDue ..)) (.refl s)

theorem servedStep_compareString (l limit) (s : State) : ServedStep x s (compareString l limit s) :=
  servedStep_ite (servedStep_closeString ..) (servedStep_ite (servedStep_closeString ..) (.refl s))

theorem servedStep_advanceString (l) (s : State) : ServedStep x s (advanceString l s) := by
  have advanced : ServedStep x s
      (modLine l (fun c => { c with stringTimer := advance timerStop c.stringTimer }) s) := servedStep_modLine fun _ => rfl
  unfold advanceString
  dsimp only
  split
  · exact .refl s
  split
  · exact servedStep_compareString ..
  · exact advanced.trans (servedStep_compareString ..)

/-! ### Detector and engines -/

theorem servedStep_endPulseDigit (l) (s : State) : ServedStep x s (endPulseDigit l s) :=
  servedStep_ite ((servedStep_takeEntry ..).trans (servedStep_modLine fun _ => rfl)) (.refl s)

theorem servedStep_digitEndIfDue (l) (s : State) : ServedStep x s (digitEndIfDue l s) :=
  servedStep_ite (servedStep_endPulseDigit ..) (.refl s)

theorem servedStep_recoverPulse (l) (s : State) : ServedStep x s (recoverPulse l s) :=
  servedStep_ite ((servedStep_takeEntry ..).trans (servedStep_modLine fun _ => rfl)) (.refl s)

theorem servedStep_acceptIfDue (l) (s : State) : ServedStep x s (acceptIfDue l s) := by
  unfold acceptIfDue
  dsimp only
  split
  · exact servedStep_ite (servedStep_modLine fun _ => rfl) (.refl s)
  · exact .refl s

theorem servedStep_releaseIfDue (l) (s : State) : ServedStep x s (releaseIfDue l s) :=
  servedStep_ite (servedStep_enterReleased ..) (.refl s)

theorem servedStep_classifyBreak (l b d) (s : State) : ServedStep x s (classifyBreak l b d s) := by
  have taken : ∀ e u, ServedStep x u (takeEntry l e u) := servedStep_takeEntry l
  refine servedStep_ite (.refl s) (servedStep_ite (servedStep_ite (taken ..) (.refl s)) (servedStep_ite ?_ (.refl s)))
  refine servedStep_ite (.refl s) (servedStep_ite ((servedStep_endPulseDigit ..).trans (taken ..)) ?_)
  exact servedStep_ite (.refl s) (servedStep_ite (servedStep_modLine fun _ => rfl)
    ((servedStep_modLine (f := (·.discardPulse)) fun _ => rfl).trans (taken ..)))

theorem servedStep_makeConfirmIfDue (l) (s : State) : ServedStep x s (makeConfirmIfDue l s) := by
  unfold makeConfirmIfDue
  split
  · exact servedStep_ite ((servedStep_classifyBreak ..).trans (servedStep_modLine fun _ => rfl)) (.refl s)
  · exact .refl s

theorem servedStep_seizureIfDue (l) (s : State) : ServedStep x s (seizureIfDue l s) :=
  servedStep_ite (servedStep_enterSeized ..) (.refl s)

theorem servedStep_useDetector (l i m) (s : State) : ServedStep x s (useDetector l i m s) := by
  have sampled : ServedStep x s
      (modLine l (fun c => { c with loop := sampleDetector (s.profile l) s.stamp i m c.loop }) s) := servedStep_modLine fun _ => rfl
  have accepted : ∀ p : Bool, ∀ u, ServedStep x u (if p then acceptIfDue l u else u) := fun p u =>
    servedStep_ite (servedStep_acceptIfDue ..) (.refl u)
  exact (((sampled.trans (accepted _ _)).trans (servedStep_releaseIfDue ..)).trans
    (servedStep_makeConfirmIfDue ..)).trans (servedStep_seizureIfDue ..)

theorem servedStep_endToneDigit (l p) (s : State) : ServedStep x s (endToneDigit l p s) :=
  (servedStep_takeEntry ..).trans (servedStep_modLine fun _ => rfl)

theorem servedStep_beginRun (l p k st) (s : State) : ServedStep x s (beginRun l p k st s) := servedStep_modLine fun _ => rfl

theorem servedStep_automaton (l p r st) (s : State) : ServedStep x s (automaton l p r st s) := by
  have put : ∀ tone, ServedStep x s (modLine l (fun c => { c with tone := tone }) s) := fun _ => servedStep_modLine fun _ => rfl
  have ended := servedStep_endToneDigit (x := x) l p s
  have began := fun k u => servedStep_beginRun (x := x) l p k st u
  unfold automaton
  dsimp only
  split
  case h_1 => exact .refl s
  case h_2 => exact began ..
  case h_3 => exact put _
  case h_4 => exact servedStep_ite (put _) (began ..)
  case h_5 => exact servedStep_ite ended (put _)
  case h_6 => exact servedStep_ite (put _) (ended.trans (began ..))
  case h_7 => exact servedStep_ite ended (put _)
  case h_8 => exact servedStep_ite (put _) (ended.trans (began ..))

theorem servedStep_toneBlockIfDue (l) (s : State) : ServedStep x s (toneBlockIfDue l s) :=
  servedStep_ite ((servedStep_modLine (f := fun c => { c with tone := c.tone.abandonBlock }) fun _ => rfl).trans
    (servedStep_automaton ..)) (.refl s)

theorem servedStep_toneSample (l w) (s : State) : ServedStep x s (toneSample l w s) :=
  servedStep_ite ((servedStep_modLine (f := fun c => { c with
    tone := takeSample (readTonePlan (s.toneWords l)) s.stamp (scaledSample w) c.tone }) fun _ => rfl).trans
      (servedStep_toneBlockIfDue ..)) (.refl s)

theorem servedStep_recoverTone (l) (s : State) : ServedStep x s (recoverTone l s) := by
  have abandoned : ServedStep x s (modLine l (fun c => { c with tone := c.tone.abandonBlock }) s) := servedStep_modLine fun _ => rfl
  exact servedStep_ite ((abandoned.trans (servedStep_ite (.refl _) (servedStep_takeEntry ..))).trans
    (servedStep_modLine fun _ => rfl)) (.refl s)

theorem selector_recoverRing (c : Line) : c.recoverRing.selector x = c.selector x := selector_ite rfl rfl

theorem servedStep_recoverLine (l) (s : State) : ServedStep x s (recoverLine l s) := by
  have recovered : ServedStep x s (modLine l (fun c => { c.recoverRing with loop := c.loop.recover }) s) :=
    servedStep_modLine fun c => selector_recoverRing c
  exact (recovered.trans (servedStep_recoverPulse ..)).trans (servedStep_recoverTone ..)

/-! ### The ring sequencer -/

theorem servedStep_beginRingStep (l n) (s : State) : ServedStep x s (beginRingStep l n s) :=
  (servedStep_modLine (f := fun c =>
    { c.restartDetector with ring := { c.ring.clearTrip with step := some n, timer := 0 } }) fun _ => rfl).trans
    (servedStep_refreshFeed ..)

theorem servedStep_ringStepExpireIfDue (l) (s : State) : ServedStep x s (ringStepExpireIfDue l s) := by
  unfold ringStepExpireIfDue
  refine servedStep_ite (.refl s) (servedStep_ite ?_ (servedStep_beginRingStep ..))
  split
  · exact servedStep_beginRingStep ..
  · next n _ =>
    exact servedStep_ite (bankStep_endRinging ..).released
      ((servedStep_modLine (f := fun c => { c with ring := { c.ring with cyclesLeft := some (n - 1) } }) fun _ => rfl).trans
        (servedStep_beginRingStep ..))

theorem servedStep_advanceRingTimer (l) (s : State) : ServedStep x s (advanceRingTimer l s) :=
  (servedStep_modLine (f := fun c => { c with ring := { c.ring with timer := c.ring.timer + 1 } }) fun _ => rfl).trans
    (servedStep_ringStepExpireIfDue ..)

theorem servedStep_ringTripIfDue (l) (s : State) : ServedStep x s (ringTripIfDue l s) :=
  servedStep_ite (servedStep_enterAnswered ..) (.refl s)

theorem servedStep_ringOffTripIfDue (l) (s : State) : ServedStep x s (ringOffTripIfDue l s) :=
  servedStep_ite (servedStep_enterAnswered ..) (.refl s)

theorem servedStep_ringMaskEndIfDue (l) (s : State) : ServedStep x s (ringMaskEndIfDue l s) :=
  servedStep_ite (servedStep_modLine fun _ => rfl) (.refl s)

theorem servedStep_ringOnRecord (l i h) (s : State) : ServedStep x s (ringOnRecord l i h s) := by
  have armed : ServedStep x s
      (modLine l (fun c => { c with ring := armRing (s.profile l) c.appliedFeed c.ring }) s) := servedStep_modLine fun _ => rfl
  have measured : ∀ u, ServedStep x u (modLine l (fun c => { c with ring := measureRing (s.profile l) i c.ring }) u) :=
    fun _ => servedStep_modLine fun _ => rfl
  exact armed.trans (servedStep_ite (.refl _) (servedStep_ite (servedStep_modLine fun _ => rfl) (servedStep_ite (.refl _)
    ((measured _).trans (servedStep_ringTripIfDue ..)))))

theorem servedStep_ringRecord (l i h m) (s : State) : ServedStep x s (ringRecord l i h m s) := by
  have off : ServedStep x s (ringOffRecord l i m s) :=
    servedStep_ite ((servedStep_useDetector ..).trans (servedStep_ringOffTripIfDue ..)) (.refl s)
  exact (servedStep_ite (servedStep_ringOnRecord ..) off).trans (servedStep_ite (servedStep_advanceRingTimer ..) (.refl _))

/-! ### The fault monitor -/

/-- The binding of the FAULT_PLAN selector completes its own migration alone (R110, R168). -/
theorem servedStep_bindFaultPlan (l) (s : State) : ServedStep x s (bindFaultPlan l s) := by
  have released := servedStep_releaseBank (x := x) .faultPlan
    (modLine l (fun c => { c with faultBank := s.activeBank .faultPlan }) s)
  by_cases own : x = .faultPlan
  · subst own
    exact ⟨(bankStep_modLine (.inr rfl)).trans released.toBankStep, fun _ => served_releaseBank .faultPlan _⟩
  · refine (servedStep_modLine fun _ => ?_).trans released
    cases x with
    | faultPlan => exact absurd rfl own
    | _ => rfl

theorem servedStep_startWindowIfDue (l) (s : State) : ServedStep x s (startWindowIfDue l s) :=
  servedStep_ite ((servedStep_bindFaultPlan ..).trans (servedStep_modLine fun _ => rfl)) (.refl s)

theorem servedStep_reportHazard (l a b) (s : State) : ServedStep x s (reportHazard l a b s) :=
  servedStep_ite (servedStep_enterFault ..) (servedStep_ite (servedStep_leaveFault ..) (.refl s))

theorem servedStep_confirmFault (l e) (s : State) : ServedStep x s (confirmFault l e s) := by
  have confirmed : ∀ o, ServedStep x s (modLine l (fun c => { c with monitor := c.monitor.confirm e o }) s) :=
    fun _ => servedStep_modLine fun _ => rfl
  exact ((confirmed _).trans (servedStep_ite (servedStep_offerAlarm ..) (.refl _))).trans (servedStep_reportHazard ..)

theorem servedStep_faultConfirmIfDue (l) (s : State) : ServedStep x s (faultConfirmIfDue l s) := by
  unfold faultConfirmIfDue
  split
  · exact servedStep_confirmFault ..
  · exact .refl s

theorem servedStep_faultClearIfDue (l) (s : State) : ServedStep x s (faultClearIfDue l s) := by
  have cleared : ∀ u, ServedStep x u (modLine l (fun c => { c with monitor := c.monitor.cleared }) u) :=
    fun _ => servedStep_modLine fun _ => rfl
  exact servedStep_ite (((servedStep_ite (servedStep_offerAlarm ..) (.refl s)).trans (cleared _)).trans
    (servedStep_reportHazard ..)) (.refl s)

theorem servedStep_windowCloseIfDue (l) (s : State) : ServedStep x s (windowCloseIfDue l s) := by
  have closed : ServedStep x s (modLine l (fun c => { c with monitor := c.monitor.close (c.state = .test) }) s) :=
    servedStep_modLine fun _ => rfl
  have counted : ∀ n u, ServedStep x u (modLine l (fun c => { c with monitor := c.monitor.updateRuns n }) u) :=
    fun _ _ => servedStep_modLine fun _ => rfl
  unfold windowCloseIfDue
  dsimp only
  split
  · generalize modLine l _ s = u at closed ⊢
    split
    · split
      · exact (closed.trans (counted ..)).trans (servedStep_confirmFault ..)
      · exact (closed.trans (counted ..)).trans (servedStep_faultClearIfDue ..)
    · exact closed
  · exact .refl s

theorem servedStep_monitorRecord (l h) (s : State) : ServedStep x s (monitorRecord l h s) :=
  ((servedStep_startWindowIfDue ..).trans
    (servedStep_modLine (f := fun c => { c with monitor := c.monitor.accumulate h }) fun _ => rfl)).trans
    (servedStep_windowCloseIfDue ..)

end

end Sys2Proof.Proofs

/-! SUPPORT. The test engine, the sense records and the commands on a line, as each table sees them. -/

namespace Sys2Proof.Proofs

open Sys2Proof.Machine

section

variable {x : TableId} {s : State}

/-! ### The test engine -/

theorem selector_testedLine (s : State) (r : Request) :
    (testedLine s r).selector x = (s.line r.line).selector x ∨ (testedLine s r).selector x = some (s.activeBank x) := by
  cases x with
  | cadence => exact .inr rfl
  | _ => exact .inl rfl

/-- A test that starts binds its line's CADENCE selector and holds the ACTIVE TEST_PLAN bank (R19, R130, R160). -/
theorem servedStep_startTest (r) (s : State) : ServedStep x s (startTest r s) := by
  have held : BankStep x s { s with engine := testingEngine s r } := by
    refine bankStep_modEngine (f := fun _ => testingEngine s r) fun own bound => ?_
    subst own
    exact absurd (Option.some.inj bound).symm (other_ne _)
  rw [startTest_eq]
  exact (held.trans (bankStep_modLine (f := fun _ => testedLine s r) (selector_testedLine s r))).released

theorem servedStep_takeFrom (q) (s : State) : ServedStep x s (takeFrom q s) := by
  have queued : ∀ q a b, ServedStep x s (modEngine (fun e => { e with queue := q }) (withAlarm a b s)) := fun _ _ _ =>
    .of_lines rfl rfl List.prefix_rfl rfl rfl
  obtain ⟨a, b, emptied | ⟨r, rest, -, -, started⟩⟩ := takeFrom_cases q s
  · rw [emptied]
    exact queued ..
  · rw [started]
    exact (queued ..).trans (servedStep_startTest ..)

theorem servedStep_takeRequests (s : State) : ServedStep x s (takeRequests s) :=
  servedStep_ite (.refl s) (servedStep_takeFrom ..)

/-- The bank that a freed engine returns may complete a TEST_PLAN migration (R133, R168). -/
theorem servedStep_freeEngine (s : State) : ServedStep x s (freeEngine s) := by
  have freed : BankStep x s (modEngine (·.freed) s) := bankStep_modEngine fun _ held => by cases held
  exact freed.released.trans (servedStep_takeRequests _)

theorem BankStep.freed {t : State} (h : BankStep x s t) : ServedStep x s (freeEngine t) := by
  have freed : BankStep x t (modEngine (·.freed) t) := bankStep_modEngine fun _ held => by cases held
  exact (h.trans freed).released.trans (servedStep_takeRequests _)

theorem servedStep_reportTest (v c) (s : State) : ServedStep x s (reportTest v c s) := by
  unfold reportTest
  split
  · exact servedStep_offerAlarm ..
  · exact .refl s

theorem servedStep_returnLine (l) (s : State) : ServedStep x s (returnLine l s) := servedStep_move fun _ => rfl

theorem servedStep_finishTest (l v c) (s : State) : ServedStep x s (finishTest l v c s) :=
  ((servedStep_reportTest ..).trans (servedStep_returnLine ..)).trans (servedStep_freeEngine _)

theorem servedStep_abortTest (l c) (s : State) : ServedStep x s (abortTest l c s) := servedStep_finishTest ..

theorem servedStep_beginTestStep (l n) (s : State) : ServedStep x s (beginTestStep l n s) :=
  (servedStep_modEngine (f := (·.atStep n)) rfl).trans (servedStep_refreshFeed ..)

theorem servedStep_testStepEndIfDue (l) (s : State) : ServedStep x s (testStepEndIfDue l s) := by
  have ended : ServedStep x s (modEngine (fun e =>
      { e.clearStep with results := e.results ++ [stepResult s.currentStep e] }) s) := servedStep_modEngine rfl
  exact servedStep_ite (ended.trans (servedStep_ite (servedStep_beginTestStep ..) (servedStep_finishTest ..))) (.refl s)

theorem servedStep_noEchoIfDue (l) (s : State) : ServedStep x s (noEchoIfDue l s) :=
  servedStep_ite (servedStep_abortTest ..) (.refl s)

theorem servedStep_testSettleEndIfDue (s : State) : ServedStep x s (testSettleEndIfDue s) :=
  servedStep_ite (servedStep_modEngine rfl) (.refl s)

theorem bank_measured (h : Handed) (v : Int) (e : TestEngine) :
    (if h.held then { e with measureTimer := e.measureTimer + 1 }
      else TestEngine.sample v { e with measureTimer := e.measureTimer + 1 }).bank = e.bank := by
  split <;> rfl

theorem servedStep_measureStep (l h) (s : State) : ServedStep x s (measureStep l h s) :=
  (servedStep_modEngine (bank_measured h _ _)).trans (servedStep_testStepEndIfDue ..)

theorem servedStep_settleStep (l h) (s : State) : ServedStep x s (settleStep l h s) :=
  servedStep_ite ((servedStep_testSettleEndIfDue s).trans (servedStep_measureStep ..)) (servedStep_modEngine rfl)

theorem servedStep_testRecord (l h) (s : State) : ServedStep x s (testRecord l h s) := by
  have settling : ServedStep x s
      (modEngine (fun e => { e with phase := some .settle, settleCount := s.currentStep.settle }) s) :=
    servedStep_modEngine rfl
  have aged : ServedStep x s (modEngine (fun e => { e with stepAge := e.stepAge + 1 }) s) := servedStep_modEngine rfl
  unfold testRecord
  dsimp only
  split
  · exact servedStep_ite (settling.trans (servedStep_settleStep ..)) (aged.trans (servedStep_noEchoIfDue ..))
  · exact servedStep_ite (servedStep_settleStep ..) (servedStep_abortTest ..)
  · exact servedStep_ite (servedStep_measureStep ..) (servedStep_abortTest ..)
  · exact .refl s

/-! ### Sense records -/

theorem servedStep_blocksRecord (l h m) (s : State) : ServedStep x s (blocksRecord l h m s) := by
  unfold blocksRecord
  split
  · exact servedStep_ite (servedStep_testRecord ..) (.refl s)
  · exact servedStep_ringRecord ..
  iterate 5 exact (servedStep_useDetector ..).trans (servedStep_digitEndIfDue ..)
  · exact .refl s
  · exact .refl s

theorem servedStep_useBlocks (l h m b) (s : State) : ServedStep x s (useBlocks l h m b s) :=
  (servedStep_ite (servedStep_recoverLine ..) (.refl s)).trans
    (servedStep_ite (servedStep_abortTest ..) (servedStep_blocksRecord ..))

theorem servedStep_useRecord (l h m b o) (s : State) : ServedStep x s (useRecord l h m b o s) := by
  unfold useRecord
  split
  · exact (servedStep_useBlocks ..).trans (servedStep_monitorRecord ..)
  · exact (servedStep_monitorRecord l h s).trans (servedStep_ite (servedStep_useBlocks ..) (.refl _))

theorem servedStep_handRecord (l h b o) (s : State) : ServedStep x s (handRecord l h b o s) := by
  have masked : ServedStep x s (modLine l (fun c => { c with loop := c.loop.reduceMask }) s) :=
    servedStep_modLine fun _ => rfl
  have cleared : ∀ u, BankStep x u (modLine l (fun c => { c with entryMark := false, recoveryDue := false }) u) := fun _ =>
    (servedStep_modLine (f := fun c => { c with entryMark := false, recoveryDue := false }) fun _ => rfl).toBankStep
  refine servedStep_ite (servedStep_monitorRecord ..) ?_
  exact (((((masked.trans (servedStep_advanceLockout ..)).trans (servedStep_advanceString ..)).trans
    (servedStep_useRecord ..)).toBankStep.trans (cleared _)).trans (bankStep_examine ..)).released

theorem servedStep_feedStuckIfDue (l e) (s : State) : ServedStep x s (feedStuckIfDue l e s) :=
  servedStep_ite ((servedStep_modLine (f := fun c => { c with feedStuck := true }) fun _ => rfl).trans
    (servedStep_offerAlarm ..)) (.refl s)

theorem servedStep_compareEcho (l e) (s : State) : ServedStep x s (compareEcho l e s) := by
  have agreed : ServedStep x s (modLine l (fun c => { c with mismatchRun := 0, feedStuck := false }) s) :=
    servedStep_modLine fun _ => rfl
  have counted : ServedStep x s
      (modLine l (fun c => { c with mismatchRun := advance stuckLimit c.mismatchRun }) s) := servedStep_modLine fun _ => rfl
  exact servedStep_ite (servedStep_ite (agreed.trans (servedStep_offerAlarm ..)) agreed)
    (counted.trans (servedStep_feedStuckIfDue ..))

theorem servedStep_validRecord (l e i vt vr o) (s : State) : ServedStep x s (validRecord l e i vt vr o s) := by
  have back : ServedStep x s (modLine l (fun c => { c with senseLost := false }) s) := servedStep_modLine fun _ => rfl
  have kept : ∀ u, ServedStep x u
      (modLine l (fun c => { c with lastI := i, lastVt := vt, lastVr := vr, invalidRun := 0 }) u) := fun _ =>
    servedStep_modLine fun _ => rfl
  have applied : ∀ n u, ServedStep x u (modLine l (applyEcho n e) u) := fun _ _ => servedStep_modLine fun _ => rfl
  unfold validRecord
  dsimp only
  refine ServedStep.trans ?_ (servedStep_handRecord ..)
  refine ServedStep.trans ?_ (applied ..)
  refine ServedStep.trans ?_ (servedStep_compareEcho ..)
  exact (servedStep_ite (back.trans (servedStep_offerAlarm ..)) (.refl s)).trans (kept _)

theorem selector_holdTone (c : Line) : c.holdTone.selector x = c.selector x := selector_ite rfl rfl

theorem servedStep_senseLostIfDue (l) (s : State) : ServedStep x s (senseLostIfDue l s) := by
  have lost : ServedStep x s (modLine l (fun c => { c.holdTone with senseLost := true }) s) :=
    servedStep_modLine selector_holdTone
  exact servedStep_ite (lost.trans (servedStep_offerAlarm ..)) (.refl s)

theorem servedStep_invalidRecord (l o) (s : State) : ServedStep x s (invalidRecord l o s) := by
  have counted : ServedStep x s (modLine l (fun c => { c with invalidRun := advance lossLimit c.invalidRun }) s) :=
    servedStep_modLine fun _ => rfl
  exact (counted.trans (servedStep_senseLostIfDue ..)).trans (servedStep_handRecord ..)

theorem servedStep_senseRecord (l st i vt vr o) (s : State) : ServedStep x s (senseRecord l st i vt vr o s) := by
  unfold senseRecord
  split
  · exact servedStep_validRecord ..
  · exact servedStep_invalidRecord ..

/-! ### Commands on a line -/

theorem servedStep_lineCommand {code tag line checks effect} (h : ∀ l, BankStep x s (effect l s)) :
    ServedStep x s (lineCommand code tag line checks effect s) := by
  unfold lineCommand
  split
  · exact servedStep_replyStatus ..
  · split
    · exact servedStep_replyStatus ..
    · exact ((h _).trans (servedStep_replyStatus ..).toBankStep).released

theorem bankStep_enableLine (l p) (s : State) : BankStep x s (enableLine l p s) := by
  refine (bankStep_adoptProfile ..).trans (bankStep_enter fun c => ?_)
  cases x with
  | tonePlan => exact .inr rfl
  | cadence => exact .inr rfl
  | _ => exact .inl rfl

theorem selector_disableChanges (c : Line) : (disableChanges c).selector x = c.selector x := by
  have outside : (disableChanges c).selector x = c.dropDigits.stopRing.selector x := by
    simp only [disableChanges, Line.selector]
  rw [outside, selector_stopRing, selector_dropDigits]

theorem bankStep_disableLine (l) (s : State) : BankStep x s (disableLine l s) := by
  rw [disableLine_eq]
  exact (servedStep_closeString ..).toBankStep.trans (bankStep_enter fun c => .inl (selector_disableChanges c))

theorem servedStep_lineDisable (tag line) (s : State) : ServedStep x s (lineDisable tag line s) := by
  have disabled : ∀ l u, BankStep x u (replyStatus 2 tag (some l) .ok (disableLine l u)) := fun l u =>
    (bankStep_disableLine l u).trans (servedStep_replyStatus ..).toBankStep
  unfold lineDisable
  split
  · exact servedStep_replyStatus ..
  · exact servedStep_ite (servedStep_replyStatus ..) (servedStep_ite
      ((servedStep_reportTest ..).toBankStep.trans (disabled ..)).freed (disabled ..).released)

theorem bankStep_connectLine (l) (s : State) : BankStep x s (connectLine l s) :=
  (servedStep_closeString ..).toBankStep.trans (bankStep_enter fun _ => .inl (selector_ite rfl rfl))

theorem servedStep_setPolarity (l p) (s : State) : ServedStep x s (setPolarity l p s) :=
  (servedStep_modLine (f := fun c => { c with polarity := p }) fun _ => rfl).trans
    (servedStep_ite (servedStep_refreshFeed ..) (.refl _))

theorem bankStep_startRinging (l a b) (s : State) : BankStep x s (startRinging l a b s) := by
  refine bankStep_enter fun c => ?_
  cases x with
  | cadence => exact .inr rfl
  | _ => exact .inl rfl

theorem servedStep_testRequest (tag line kind) (s : State) : ServedStep x s (testRequest tag line kind s) := by
  have queued : ∀ q, ServedStep x s (modEngine (fun e => { e with queue := q }) s) := fun _ => servedStep_modEngine rfl
  unfold testRequest
  split
  · exact servedStep_replyStatus ..
  split
  · exact servedStep_replyStatus ..
  refine servedStep_ite (servedStep_replyStatus ..) ?_
  split
  · exact servedStep_replyStatus ..
  · exact ((queued _).trans (servedStep_replyStatus ..)).trans (servedStep_takeRequests _)

end

end Sys2Proof.Proofs

/-! SUPPORT. The table store's own commands, the frames and the reports, as each table sees them; then what every command does
to a RETIRING bank (O58). -/

namespace Sys2Proof.Proofs

open Sys2Proof.Machine

section

variable {x : TableId} {s t u : State}

/-! ### Loads -/

/-- A change of a table that keeps its ACTIVE bank, its tag and its lawfulness. -/
theorem servedStep_setTable {y : TableId} {tb : Table} (active : tb.active = (s.table y).active)
    (tag : tb.retiringTag = (s.table y).retiringTag) (lawful : (s.table y).Lawful y → tb.Lawful y) :
    ServedStep x s (setTable y tb s) := by
  by_cases own : x = y
  · subst own
    have table : (setTable x tb s).table x = tb := table_setTable_self ..
    refine .of_users ?_ ?_ ?_ rfl List.prefix_rfl fun bank => rfl
    · rw [State.activeBank, table]
      exact active
    · rw [table]
      exact tag
    · rw [table]
      exact lawful
  · exact servedStep_setTable_of_ne own tb s

theorem servedStep_guarded {code tag line checks effect}
    (h : firstFailure checks = none → ServedStep x s (effect s)) : ServedStep x s (guarded code tag line checks effect s) := by
  unfold guarded
  split
  · exact servedStep_replyStatus ..
  · next passed => exact (h passed).trans (servedStep_replyStatus ..)

/-- A table with its SHADOW bank written and a load of it is lawful where the load's numbers are. -/
theorem lawful_loaded {tb : Table} {es : List Entry} {ld : Load} (h : tb.Lawful x) (length : es.length = x.entries)
    (count : 1 ≤ ld.count) (inside : ld.first + ld.count ≤ x.entries) (accepted : ld.accepted ≤ ld.count)
    (lapse : ld.lapse ≤ lapseLimit) (tag : tb.retiringTag = none) :
    ({ tb.setBank tb.otherBank es with load := some ld } : Table).Lawful x := by
  have load : ∀ ld', some ld = some ld' → 1 ≤ ld'.count ∧ ld'.first + ld'.count ≤ x.entries ∧ ld'.accepted ≤ ld'.count ∧
      ld'.lapse ≤ lapseLimit ∧ tb.retiringTag = none := by
    rintro ld' ⟨⟩
    exact ⟨count, inside, accepted, lapse, tag⟩
  cases bank : tb.otherBank with
  | a => exact ⟨length, h.bankB, load⟩
  | b => exact ⟨h.bankA, length, load⟩

theorem length_bank {tb : Table} (h : tb.Lawful x) (bank : Bank) : (tb.bank bank).length = x.entries := by
  cases bank with
  | a => exact h.bankA
  | b => exact h.bankB

theorem servedStep_loadOpen (tag table first count) (s : State) :
    ServedStep x s (Machine.loadOpen tag table first count s) := by
  unfold Machine.loadOpen
  split
  · exact servedStep_replyStatus ..
  · next y _ =>
    refine servedStep_guarded fun passed => servedStep_setTable (active_setBank ..) (retiringTag_setBank ..) fun laws => ?_
    simp only [firstFailure_cons_eq_none, Bool.or_eq_false_iff, decide_eq_false_iff_not, Option.isSome_eq_false_iff,
      Option.isNone_iff_eq_none] at passed
    obtain ⟨⟨⟨-, some_⟩, inside⟩, -, untagged, -⟩ := passed
    exact lawful_loaded laws (length_bank laws _) (Nat.one_le_iff_ne_zero.mpr some_) (Nat.le_of_not_lt inside)
      (Nat.zero_le _) (Nat.zero_le _) untagged

theorem servedStep_loadBlock (tag table block entry) (s : State) :
    ServedStep x s (Machine.loadBlock tag table block entry s) := by
  unfold Machine.loadBlock
  split
  · exact servedStep_replyStatus ..
  · next y _ =>
    refine servedStep_guarded fun passed => servedStep_setTable (active_setBank ..) (retiringTag_setBank ..) fun laws => ?_
    simp only [firstFailure_cons_eq_none, Bool.or_eq_false_iff, decide_eq_false_iff_not, Option.isNone_eq_false_iff,
      bne_eq_false_iff_eq] at passed
    obtain ⟨-, -, opened, ⟨order, more⟩, -⟩ := passed
    obtain ⟨ld, load⟩ := Option.isSome_iff_exists.mp opened
    rw [load, Option.getD_some] at order more ⊢
    obtain ⟨count, inside, accepted, -, untagged⟩ := laws.load ld load
    refine lawful_loaded laws ?_ count inside (Nat.lt_of_le_of_ne accepted more) (Nat.zero_le _) untagged
    rw [List.length_set]
    exact length_bank laws _

theorem lawful_closeLoad {tb : Table} (h : tb.Lawful x) : tb.closeLoad.Lawful x :=
  ⟨h.bankA, h.bankB, fun _ opened => by cases opened⟩

theorem servedStep_loadCancel (tag table) (s : State) : ServedStep x s (loadCancel tag table s) := by
  unfold loadCancel
  split
  · exact servedStep_replyStatus ..
  · exact servedStep_guarded fun _ => servedStep_setTable rfl rfl lawful_closeLoad

theorem servedStep_entryRead (tag table choice index) (s : State) :
    ServedStep x s (entryRead tag table choice index s) := by
  unfold entryRead
  split
  · exact servedStep_replyStatus ..
  split
  · exact servedStep_replyStatus ..
  · exact servedStep_ite (servedStep_replyStatus ..) (servedStep_replyWith ..)

theorem servedStep_loadLapseIfDue (y) (s : State) : ServedStep x s (loadLapseIfDue y s) := by
  have closed : ServedStep x s (setTable y (s.table y).closeLoad s) := servedStep_setTable rfl rfl lawful_closeLoad
  unfold loadLapseIfDue
  split
  · exact servedStep_ite (closed.trans (servedStep_offerReply ..)) (.refl s)
  · exact .refl s

theorem lawful_tick {tb : Table} (h : tb.Lawful x) : ({ tb with load := tb.load.map Load.tick } : Table).Lawful x := by
  refine ⟨h.bankA, h.bankB, fun ld ticked => ?_⟩
  obtain ⟨ld', load, rfl⟩ := Option.map_eq_some_iff.mp ticked
  obtain ⟨count, inside, accepted, -, untagged⟩ := h.load ld' load
  exact ⟨count, inside, accepted, Nat.min_le_left .., untagged⟩

theorem servedStep_foldl {f : TableId → State → State} (h : ∀ y s, ServedStep x s (f y s)) (ys : List TableId) (s : State) :
    ServedStep x s (ys.foldl (fun s y => f y s) s) := by
  induction ys generalizing s with
  | nil => exact .refl s
  | cons y ys ih => exact (h y s).trans (ih _)

theorem servedStep_dueLapses (s : State) : ServedStep x s (dueLapses s) :=
  servedStep_foldl servedStep_loadLapseIfDue allTables s

theorem servedStep_lapseTicks (s : State) : ServedStep x s (lapseTicks s) :=
  servedStep_foldl (f := lapseTick) (fun _ _ => servedStep_setTable rfl rfl lawful_tick) allTables s

/-! ### Receiver and frames -/

theorem servedStep_setReceiver (r) (s : State) : ServedStep x s (setReceiver r s) :=
  .of_lines rfl rfl List.prefix_rfl rfl rfl

theorem servedStep_idleReceiver (s : State) : ServedStep x s (idleReceiver s) := servedStep_setReceiver ..

theorem servedStep_endMessage (status) (s : State) : ServedStep x s (endMessage status s) :=
  (servedStep_idleReceiver s).trans (servedStep_replyStatus ..)

theorem servedStep_gapExpiryIfDue (s : State) : ServedStep x s (gapExpiryIfDue s) :=
  servedStep_ite (servedStep_endMessage ..) (.refl s)

theorem lengthFails_one (code : Nat) : lengthFails code 1 = true := by
  unfold lengthFails
  split <;> rfl

/-- A message of one word is only answered: its check word does not fit, or its code is 0 (R151). -/
theorem servedStep_executeMessage_single (w) (s : State) : ServedStep x s (executeMessage [w] s) := by
  have short : executeMessage [w] s = if [w].sum != 0 then replyStatus (codeOf w) (tagOf w) none .check s
      else if codeOf w = 0 || 16 < codeOf w then replyStatus (codeOf w) (tagOf w) none .unknown s
      else replyStatus (codeOf w) (tagOf w) none .length s := by
    unfold executeMessage
    simp only [List.length_singleton, lengthFails_one, if_true]
    rfl
  rw [short]
  exact servedStep_ite (servedStep_replyStatus ..) (servedStep_ite (servedStep_replyStatus ..) (servedStep_replyStatus ..))

theorem servedStep_beginMessage (e data) (s : State) : ServedStep x s (beginMessage e data s) :=
  servedStep_ite ((servedStep_idleReceiver s).trans (servedStep_executeMessage_single ..)) (servedStep_setReceiver ..)

theorem servedStep_modHighway {f : Highway → Highway} (stamp : (f s.highway).stamp = s.highway.stamp) :
    ServedStep x s (modHighway f s) := .of_lines rfl stamp List.prefix_rfl rfl rfl

theorem bank_offerSweep (l kind) (e : TestEngine) : (offerSweep l kind e).bank = e.bank := by
  unfold offerSweep
  split
  · rfl
  · split <;> rfl

theorem servedStep_sweepExpiryIfDue (s : State) : ServedStep x s (sweepExpiryIfDue s) := by
  have restarted : ServedStep x s (modEngine (fun e => { e with sweepTimer := 0 }) s) := servedStep_modEngine rfl
  have offered : ∀ l kind u, ServedStep x u
      (modEngine (fun e => { offerSweep l kind e with sweepPointer := lineAfter l 1 }) u) := fun l kind u =>
    servedStep_modEngine (bank_offerSweep l kind u.engine)
  refine servedStep_ite ?_ (.refl s)
  dsimp only
  split
  · exact (restarted.trans (offered ..)).trans (servedStep_takeRequests _)
  · exact restarted

theorem servedStep_stampTicks (s : State) : ServedStep x s (stampTicks s) := by
  have counted : ServedStep x s (modEngine (fun e => { e with sweepTimer := e.sweepTimer + 1 }) s) :=
    servedStep_modEngine rfl
  have swept : ServedStep x s (sweepTick s) :=
    servedStep_ite (servedStep_modEngine rfl) (counted.trans (servedStep_sweepExpiryIfDue _))
  exact swept.trans (servedStep_lapseTicks _)

theorem servedStep_beginFrameWords (f a) (s : State) : ServedStep x s (beginFrameWords f a s) := servedStep_wires ..

theorem stamp_enterHunt (s : State) : (enterHunt s).stamp = (dueLapses s).stamp := by
  simp only [enterHunt, setSending, mapLines, modHighway, State.stamp]

theorem servedStep_enterHunt (s : State) : ServedStep x s (enterHunt s) := by
  obtain ⟨engine, -, tables, -, report⟩ := enterHunt_keeps s
  have lost : ServedStep x (dueLapses s) (enterHunt s) := by
    refine .of_selectors (by rw [State.table, tables]; rfl) (stamp_enterHunt s) (by rw [report]) (fun l => ?_) ?_
    · obtain ⟨ts, rs, lapsed⟩ := dueLapses_eq s
      have line : (dueLapses s).line l = s.line l := by
        rw [lapsed]
        rfl
      rw [line_enterHunt, line]
      exact selector_holdTone _
    · obtain ⟨ts, rs, lapsed⟩ := dueLapses_eq s
      rw [engine, lapsed]
  exact (servedStep_dueLapses s).trans lost

theorem servedStep_abortAtReturn (s : State) : ServedStep x s (abortAtReturn s) := by
  unfold abortAtReturn
  split
  · exact servedStep_abortTest ..
  · exact .refl s

theorem servedStep_markReturn (s : State) : ServedStep x s
    (mapLines (fun c => { c with monitor := { c.monitor with discard := true }, recoveryDue := true }) s) :=
  .of_selectors (by rw [State.table, tables_mapLines, State.table]) (by rw [State.stamp, highway_mapLines, State.stamp])
    (by rw [report_mapLines]) (fun l => by rw [line_mapLines]; rfl) (by rw [engine_mapLines])

theorem servedStep_setSending (r) (s : State) : ServedStep x s (setSending r s) :=
  .of_lines rfl rfl List.prefix_rfl rfl rfl

theorem servedStep_returnToSync (s : State) : ServedStep x s (returnToSync s) :=
  ((((servedStep_offerAlarm ..).trans (servedStep_abortAtReturn _)).trans (servedStep_idleReceiver _)).trans
    (servedStep_setSending none _)).trans (servedStep_markReturn _)

/-! ### What a command does to a RETIRING bank -/

/-- A table is lawful, and its RETIRING bank has a user. -/
def TableKept (x : TableId) (s : State) : Prop := (s.table x).Lawful x ∧ Served x s

theorem tablesLawful_iff : s.tablesLawful ↔ ∀ x, TableKept x s :=
  ⟨fun h x => ⟨h.1 x, h.2 x⟩, fun h => ⟨fun x => (h x).1, fun x => (h x).2⟩⟩

/-- A RETIRING bank keeps a user, or is released without one and with its COMMIT_DONE (R168). -/
def Retires (x : TableId) (s t : State) : Prop :=
  ∀ tag, (s.table x).retiringTag = some tag →
    (t.table x).retiringTag = some tag ∧ t.activeBank x = s.activeBank x ∧ 1 ≤ t.users x (s.activeBank x).other ∨
    (t.table x).retiringTag = none ∧ t.activeBank x = s.activeBank x ∧ t.users x (s.activeBank x).other = 0 ∧
      (t.record none (.commitDone x tag) ∈ t.report.reply ∨ replyCapacity ≤ t.report.reply.length)

/-- A command that keeps the table, and retires its bank as it should. -/
def Settles (x : TableId) (s t : State) : Prop := TableKept x s → TableKept x t ∧ Retires x s t

theorem ServedStep.settles (h : ServedStep x s t) : Settles x s t := by
  intro kept
  have served := h.served kept.2
  refine ⟨⟨h.lawful kept.1, served⟩, fun tag retiring => ?_⟩
  obtain same | ⟨tag', retiring', freed, unused, told⟩ := h.tag
  · have still := same.trans retiring
    refine .inl ⟨still, h.active, ?_⟩
    rw [← h.active]
    exact served (by rw [still]; rfl)
  · rw [retiring] at retiring'
    obtain rfl := Option.some.inj retiring'
    exact .inr ⟨freed, h.active, by rw [← h.active]; exact unused, told⟩

/-- A step that leaves the roles of the table's banks and their users, whatever it does to the stamp and the REPLY queue. -/
structure SameBank (x : TableId) (s t : State) : Prop where
  active : t.activeBank x = s.activeBank x
  tag : (t.table x).retiringTag = (s.table x).retiringTag
  lawful : (s.table x).Lawful x → (t.table x).Lawful x
  users : ∀ bank, t.users x bank = s.users x bank

theorem SameBank.kept (h : SameBank x s t) (kept : TableKept x s) : TableKept x t :=
  ⟨h.lawful kept.1, served_congr h.active h.users h.tag kept.2⟩

theorem SameBank.refl (s : State) : SameBank x s s := ⟨rfl, rfl, id, fun _ => rfl⟩

theorem SameBank.trans (h : SameBank x s t) (g : SameBank x t u) : SameBank x s u :=
  ⟨g.active.trans h.active, g.tag.trans h.tag, g.lawful ∘ h.lawful, fun bank => (g.users bank).trans (h.users bank)⟩

/-- A step behind one that leaves the table. -/
theorem Settles.behind (g : Settles x t u) (h : SameBank x s t) : Settles x s u := by
  intro kept
  obtain ⟨kept', retires⟩ := g (h.kept kept)
  refine ⟨kept', fun tag retiring => ?_⟩
  rw [← h.active]
  exact retires tag (h.tag.trans retiring)

theorem SameBank.settles (h : SameBank x s t) : Settles x s t := (ServedStep.refl t).settles.behind h

theorem SameBank.of_table (table : t.table x = s.table x) (lines : ∀ l, (t.line l).selector x = (s.line l).selector x)
    (engine : t.engine.bank = s.engine.bank) : SameBank x s t :=
  ⟨activeBank_congr table, by rw [table], by rw [table]; exact id, users_eq lines engine⟩

theorem SameBank.of_selectors (tables : t.tables = s.tables) (lines : ∀ l, (t.line l).selector x = (s.line l).selector x)
    (engine : t.engine.bank = s.engine.bank) : SameBank x s t :=
  .of_table (by rw [State.table, State.table, tables]) lines engine

theorem sameBank_of_lines (tables : t.tables = s.tables) (lines : t.lines = s.lines)
    (engine : t.engine.bank = s.engine.bank) : SameBank x s t :=
  .of_selectors tables (fun l => by rw [(lines_eq_iff t s).mp lines]) engine

theorem sameBank_closeLoad (y) (s : State) : SameBank x s (setTable y (s.table y).closeLoad s) := by
  by_cases own : x = y
  · subst own
    have table : (setTable x (s.table x).closeLoad s).table x = (s.table x).closeLoad := table_setTable_self ..
    exact ⟨by rw [State.activeBank, table]; rfl, by rw [table]; rfl, by rw [table]; exact lawful_closeLoad, fun _ => rfl⟩
  · exact .of_table (table_setTable_of_ne own ..) (fun _ => rfl) rfl

theorem sameBank_withReply (r) (s : State) : SameBank x s (s.withReply r) := sameBank_of_lines rfl rfl rfl

theorem sameBank_loadLapseIfDue (y) (s : State) : SameBank x s (loadLapseIfDue y s) := by
  unfold loadLapseIfDue
  split
  · split
    · rw [offerReply_eq]
      exact (sameBank_closeLoad y s).trans (sameBank_withReply ..)
    · exact .refl s
  · exact .refl s

theorem sameBank_dueLapses (s : State) : SameBank x s (dueLapses s) := by
  unfold dueLapses
  generalize allTables = ys
  induction ys generalizing s with
  | nil => exact .refl s
  | cons y ys ih => exact (sameBank_loadLapseIfDue y s).trans (ih _)

end

end Sys2Proof.Proofs

/-! The table store under every command (O58). -/

namespace Sys2Proof.Proofs

open Sys2Proof.Machine

section

variable {x : TableId} {s t u : State}

/-! ### Commits -/

theorem users_commitTable (y tag) (s : State) (bank) : (commitTable y tag s).users x bank = s.users x bank := by
  rw [commitTable_eq]
  exact users_eq (fun _ => rfl) rfl bank

theorem servedStep_commitTable_of_ne {y : TableId} (ne : x ≠ y) (tag) (s : State) : ServedStep x s (commitTable y tag s) := by
  refine .of_lines ?_ ?_ ?_ ?_ ?_
  all_goals rw [commitTable_eq]
  · exact table_setTable_of_ne ne ..
  · rfl
  · exact List.prefix_rfl
  · rfl

/-- The former bank of a committed table is RETIRING exactly while it has a user (R167). -/
theorem tableKept_commitTable (tag) (laws : (s.table x).Lawful x) : TableKept x (commitTable x tag s) := by
  have table := table_commitTable_self x tag s
  refine ⟨?_, fun retiring => ?_⟩
  · rw [table]
    exact ⟨laws.bankA, laws.bankB, fun _ opened => by cases opened⟩
  · rw [State.activeBank, table, users_commitTable]
    rw [table] at retiring
    have former : ((s.table x).commit tag (1 ≤ s.users x (s.activeBank x))).active.other = s.activeBank x := by
      simp only [Table.commit, Table.otherBank, State.activeBank]
      cases (s.table x).active <;> rfl
    rw [former]
    by_contra unused
    simp [Table.commit, unused] at retiring

theorem settles_loadCommit (tag table) (s : State) : Settles x s (Machine.loadCommit tag table s) := by
  unfold Machine.loadCommit
  split
  · exact (servedStep_replyStatus ..).settles
  · next y _ =>
    dsimp only
    split
    · exact (servedStep_replyStatus ..).settles
    · next passed =>
      have replied : ServedStep x (commitTable y tag s)
          (if ((replyStatus 12 tag none .ok (commitTable y tag s)).table y).retiringTag.isSome
            then replyStatus 12 tag none .ok (commitTable y tag s)
            else offerReply none (.commitDone y tag) (replyStatus 12 tag none .ok (commitTable y tag s))) :=
        servedStep_ite (servedStep_replyStatus ..) ((servedStep_replyStatus ..).trans (servedStep_offerReply ..))
      by_cases own : x = y
      · subst own
        have opened := passed
        simp only [firstFailure_cons_eq_none] at opened
        obtain ⟨-, untagged, -⟩ := opened
        intro kept
        refine ⟨(replied.settles (tableKept_commitTable tag kept.1)).1, fun _ retiring => ?_⟩
        rw [retiring] at untagged
        cases untagged
      · exact ((servedStep_commitTable_of_ne own tag s).trans replied).settles

/-! ### Resets -/

theorem tableKept_resetPart (kept : TableKept x s) : TableKept x (resetPart s) := by
  obtain ⟨laws, -⟩ := kept
  refine ⟨?_, fun retiring => ?_⟩
  · rw [table_resetPart]
    exact ⟨laws.bankA, laws.bankB, fun _ opened => by cases opened⟩
  · rw [table_resetPart] at retiring
    cases retiring

theorem tableKept_partReset (tag) (kept : TableKept x s) : TableKept x (partReset tag s) :=
  ((servedStep_replyStatus ..).settles (tableKept_resetPart kept)).1

theorem tableKept_powerOnReset (x : TableId) (s : State) : TableKept x { State.reset with pending := s.pending } := by
  have table : State.table { State.reset with pending := s.pending } x = .initial x _ := table_reset x
  refine ⟨?_, fun retiring => ?_⟩
  · rw [table]
    exact lawful_table_initial ..
  · rw [table] at retiring
    cases retiring

/-! ### Messages -/

theorem servedStep_lineEnable (tag line profile) (s : State) : ServedStep x s (lineEnable tag line profile s) :=
  servedStep_lineCommand fun l => bankStep_enableLine l _ s

theorem servedStep_lineConnect (tag line) (s : State) : ServedStep x s (lineConnect tag line s) :=
  servedStep_lineCommand fun l => bankStep_connectLine l s

theorem servedStep_linePolarity (tag line polarity) (s : State) : ServedStep x s (linePolarity tag line polarity s) :=
  servedStep_lineCommand fun l => (servedStep_setPolarity l _ s).toBankStep

theorem servedStep_lineProfile (tag line) (profile : Word16) (s : State) : ServedStep x s (lineProfile tag line profile s) := by
  have stored : ∀ l, ServedStep x s (modLine l (fun c => { c with pendingProfile := some profile.toNat }) s) := fun _ =>
    servedStep_modLine fun _ => rfl
  exact servedStep_lineCommand fun l => (stored l).toBankStep

theorem servedStep_ringStart (tag line cadence cycles) (s : State) :
    ServedStep x s (ringStart tag line cadence cycles s) :=
  servedStep_lineCommand fun l => bankStep_startRinging l _ _ s

theorem servedStep_ringStop (tag line) (s : State) : ServedStep x s (Machine.ringStop tag line s) :=
  servedStep_lineCommand fun l => bankStep_endRinging l _ s

theorem servedStep_lineQuery (tag line) (s : State) : ServedStep x s (lineQuery tag line s) := by
  unfold lineQuery
  split
  · exact servedStep_replyStatus ..
  · exact servedStep_replyWith ..

/-- A command of a message settles each table or is PART_RESET. -/
theorem settles_executeCommand (code tag arg entry) (s : State) :
    Settles x s (executeCommand code tag arg entry s) ∨ executeCommand code tag arg entry s = partReset tag s := by
  unfold executeCommand
  split
  case h_16 => exact .inr rfl
  all_goals left
  · exact (servedStep_lineEnable ..).settles
  · exact (servedStep_lineDisable ..).settles
  · exact (servedStep_lineProfile ..).settles
  · exact (servedStep_lineConnect ..).settles
  · exact (servedStep_linePolarity ..).settles
  · exact (servedStep_ringStart ..).settles
  · exact (servedStep_ringStop ..).settles
  · exact (servedStep_testRequest ..).settles
  · exact (servedStep_lineQuery ..).settles
  · exact (servedStep_loadOpen ..).settles
  · exact (servedStep_loadBlock ..).settles
  · exact settles_loadCommit _ _ s
  · exact (servedStep_loadCancel ..).settles
  · exact (servedStep_entryRead ..).settles
  · exact (servedStep_replyWith ..).settles
  · exact (ServedStep.refl s).settles

theorem settles_executeMessage (ws) (s : State) :
    Settles x s (executeMessage ws s) ∨ ∃ tag, executeMessage ws s = partReset tag s := by
  unfold executeMessage
  dsimp only
  split
  · exact .inl (servedStep_replyStatus ..).settles
  split
  · exact .inl (servedStep_replyStatus ..).settles
  split
  · exact .inl (servedStep_replyStatus ..).settles
  · exact (settles_executeCommand ..).imp id fun reset => ⟨_, reset⟩

theorem sameBank_idleReceiver (s : State) : SameBank x s (idleReceiver s) := sameBank_of_lines rfl rfl rfl

theorem settles_appendWord (e data) (s : State) :
    Settles x s (appendWord e data s) ∨ ∃ tag, appendWord e data s = partReset tag (idleReceiver s) := by
  unfold appendWord
  dsimp only
  split
  · exact .inl (servedStep_ite (servedStep_endMessage ..) (servedStep_setReceiver ..)).settles
  split
  · exact (settles_executeMessage _ (idleReceiver s)).imp (fun h => h.behind (sameBank_idleReceiver s)) id
  · exact .inl (servedStep_setReceiver ..).settles

/-- The words of a frame settle each table, or complete a PART_RESET. -/
theorem settles_managementWord (control data) (s : State) :
    Settles x s (managementWord control data s) ∨ ∃ tag, managementWord control data s = partReset tag (idleReceiver s) := by
  have gap : ∀ r, ServedStep x s (gapExpiryIfDue (setReceiver r s)) := fun r =>
    (servedStep_setReceiver r s).trans (servedStep_gapExpiryIfDue _)
  have again : ∀ e, ServedStep x s (beginMessage e data (endMessage .truncated s)) := fun e =>
    (servedStep_endMessage ..).trans (servedStep_beginMessage ..)
  unfold managementWord
  dsimp only
  split
  · exact .inl (servedStep_ite (servedStep_beginMessage ..) (.refl s)).settles
  · split
    · exact .inl (gap _).settles
    split
    · exact .inl (again _).settles
    · exact settles_appendWord ..
  · split
    · exact .inl (gap _).settles
    split
    · exact .inl (again _).settles
    split
    · exact settles_appendWord ..
    · exact .inl (servedStep_ite (servedStep_endMessage ..) (servedStep_setReceiver ..)).settles

/-! ### Frames and reports -/

theorem sameBank_modHighway (f) (s : State) : SameBank x s (modHighway f s) := sameBank_of_lines rfl rfl rfl

/-- A frame that begins: the stamp advances behind the lapses of the multiframe and before all that it drives (R139). -/
theorem settles_frameBegun (f) (s : State) : Settles x s
    (beginFrameWords f true (if f = 0 then stampTicks (advanceStamp (dueLapses s)) else s)) := by
  split
  · exact ((servedStep_stampTicks _).trans (servedStep_beginFrameWords ..)).settles.behind
      ((sameBank_dueLapses s).trans (sameBank_modHighway (fun h => { h with stamp := h.stamp + 1 }) _))
  · exact (servedStep_beginFrameWords ..).settles

theorem settles_passBoundary (s : State) : Settles x s (passBoundary s) :=
  (settles_frameBegun _ _).behind (sameBank_modHighway ..)

theorem settles_boundaryPassed (s : State) : Settles x s (if huntDue s then enterHunt s else passBoundary s) := by
  split
  · exact (servedStep_enterHunt s).settles
  · exact settles_passBoundary s

theorem settles_frameBoundary (fs) (s : State) : Settles x s (frameBoundary fs s) := by
  have counted : SameBank x s (modHighway (fun h =>
      { h with missCount := if fs then 0 else advance missLimit h.missCount }) s) := sameBank_modHighway ..
  unfold frameBoundary
  split
  · exact (settles_boundaryPassed _).behind counted
  · exact (SameBank.refl s).settles

theorem settles_syncAcquire (s : State) : Settles x s (syncAcquire s) := by
  have entered : SameBank x s (modHighway (fun h =>
      { h with sync := .sync, candidate := none, missCount := 0, frame := some 0, firstAcquisition := false }) s) :=
    sameBank_modHighway ..
  unfold syncAcquire
  dsimp only
  split
  · split
    · exact (servedStep_beginFrameWords ..).settles.behind entered
    · refine Settles.behind ?_ (entered.trans (sameBank_modHighway (fun h => { h with stamp := h.stamp + 1 }) _))
      exact (((servedStep_returnToSync _).trans (servedStep_stampTicks _)).trans (servedStep_beginFrameWords ..)).settles
  · exact (SameBank.refl s).settles

theorem sameBank_report (r) (s : State) : SameBank x s { s with report := r } := sameBank_of_lines rfl rfl rfl

theorem sameBank_sendWord (r i) (s : State) : SameBank x s (sendWord r i s) := by
  rw [sendWord_eq]
  exact sameBank_of_lines rfl rfl rfl

theorem sameBank_serveLine (l) (s : State) : SameBank x s (serveLine l s) := by
  have changed : ∀ (f : Line → Line) (r : Record), (∀ c, (f c).selector x = c.selector x) →
      SameBank x s (modLine l f (pushSignal r s)) := fun f r h => by
    refine .of_selectors rfl (fun k => ?_) rfl
    by_cases own : k = l
    · rw [own, line_modLine_self]
      exact h _
    · rw [line_modLine_of_ne own]
      rfl
  obtain ⟨item, rest, -, served⟩ | ⟨-, served⟩ := serveLine_cases l s
  · rw [served]
    exact changed (fun c => { c with due := rest, overrun := false }) _ fun _ => rfl
  · rw [served]
    exact changed (fun c => { c with stateLost := false }) _ fun _ => rfl

theorem sameBank_reportFrame (s : State) : SameBank x s (reportFrame s) := by
  unfold reportFrame
  split
  · exact sameBank_sendWord ..
  unfold chooseRecord
  split
  · exact (sameBank_report _ s).trans (sameBank_sendWord ..)
  · exact (sameBank_report _ s).trans (sameBank_sendWord ..)
  · refine SameBank.trans ?_ (sameBank_sendWord ..)
    unfold serveBacklog
    split
    · exact (sameBank_report _ s).trans (sameBank_serveLine ..)
    · exact sameBank_report _ s
  · exact sameBank_of_lines rfl rfl rfl

end

/-! ### Every command -/

section

variable {x : TableId} {s t : State}

theorem settles_takeCommand {f : State → State} (h : ∀ u, Settles x u (f u)) : Settles x s (takeCommand f s) := by
  unfold takeCommand
  split
  · exact (h _).behind (sameBank_idleReceiver s)
  · exact (SameBank.refl s).settles

theorem servedStep_inSync {f : State → State} (h : ServedStep x s (f s)) : ServedStep x s (inSync f s) :=
  servedStep_ite h (.refl s)

theorem servedStep_whileUsed {l : LineNo} {f : State → State} (h : ServedStep x s (f s)) :
    ServedStep x s (whileUsed l f s) := servedStep_ite h (.refl s)

theorem servedStep_onHeldLine {f : LineNo → State → State} (h : ∀ l, ServedStep x s (f l s)) :
    ServedStep x s (onHeldLine f s) := by
  unfold onHeldLine
  split
  · exact servedStep_whileUsed (h _)
  · exact .refl s

theorem servedStep_onLineSlot {k : Nat} {f : State → State} (h : ∀ u, ServedStep x u (f u)) :
    ServedStep x s (onLineSlot k f s) := servedStep_ite ((servedStep_wires _ s).trans (h _)) (.refl s)

theorem servedStep_onTrunkSlot {k : Nat} {f : State → State} (h : ∀ u, ServedStep x u (f u)) :
    ServedStep x s (onTrunkSlot k f s) := servedStep_ite ((servedStep_wires _ s).trans (h _)) (.refl s)

theorem servedStep_onSenseSlot {l : LineNo} {f : State → State} (h : ∀ u, ServedStep x u (f u)) :
    ServedStep x s (onSenseSlot l f s) := servedStep_ite (servedStep_onLineSlot h) (.refl s)

theorem servedStep_audioUpstream (l w) (s : State) : ServedStep x s (audioUpstream l w s) :=
  (servedStep_toneSample ..).trans (servedStep_wires ..)

theorem settles_reportSlot (s : State) : Settles x s (inSync (onReportSlot reportFrame) s) := by
  unfold inSync onReportSlot
  split
  · split
    · exact (sameBank_reportFrame s).settles
    · exact (SameBank.refl s).settles
  · exact (SameBank.refl s).settles

/-- The two commands that free a RETIRING bank whatever its users (R147, R170). -/
def IsReset (s t : State) : Prop :=
  (∃ tag wires, exec (.partReset tag) { s with wires := wires } = .next t) ∨ exec .powerOnReset s = .next t

theorem isReset_partReset (wires) {tag : Tag} (sync : s.highway.sync = .sync) :
    IsReset s (partReset tag (idleReceiver { s with wires := wires })) :=
  .inl ⟨tag, wires, congrArg _ (if_pos sync)⟩

/-- A PART_RESET keeps the table and is a reset; in HUNT it does nothing. -/
theorem settles_execPartReset (tag) (h : exec (.partReset tag) s = .next t) :
    (TableKept x s → TableKept x t) ∧ (Settles x s t ∨ IsReset s t) := by
  cases h
  unfold takeCommand
  split
  · next sync =>
    exact ⟨fun kept => tableKept_partReset tag ((sameBank_idleReceiver s).kept kept),
      .inr (isReset_partReset s.wires sync)⟩
  · exact ⟨id, .inl (SameBank.refl s).settles⟩

/-- A management word of a frame: a message that it completes may be PART_RESET, which has passed the slot of its words. -/
theorem settles_execManagementWord (control data) (h : exec (.managementWord control data) s = .next t) :
    (TableKept x s → TableKept x t) ∧ (Settles x s t ∨ IsReset s t) := by
  have still : (TableKept x s → TableKept x s) ∧ (Settles x s s ∨ IsReset s s) := ⟨id, .inl (SameBank.refl s).settles⟩
  cases h
  unfold inSync onManagementSlot onTrunkSlot
  split
  · next sync =>
    split
    · have slot : ∀ w, SameBank x s { s with wires := w } := fun _ => sameBank_of_lines rfl rfl rfl
      obtain settles | ⟨tag, reset⟩ := settles_managementWord (x := x) control data
        { s with wires := { s.wires with trunkSlot := 48 + 1 } }
      · have settles := settles.behind (slot _)
        exact ⟨fun kept => (settles kept).1, .inl settles⟩
      · rw [reset]
        exact ⟨fun kept => tableKept_partReset tag ((sameBank_idleReceiver _).kept ((slot _).kept kept)),
          .inr (isReset_partReset _ sync)⟩
    · exact still
  · exact still

/-- Every command keeps the table, and settles it or is a reset. -/
theorem settles_exec {c : Instr} (h : exec c s = .next t) :
    (TableKept x s → TableKept x t) ∧ (Settles x s t ∨ IsReset s t) := by
  have settled : Settles x s t → (TableKept x s → TableKept x t) ∧ (Settles x s t ∨ IsReset s t) := fun settles =>
    ⟨fun kept => (settles kept).1, .inl settles⟩
  cases c
  case powerOnReset =>
    have reset := h
    cases h
    exact ⟨fun _ => tableKept_powerOnReset x s, .inr (.inr reset)⟩
  case partReset tag => exact settles_execPartReset tag h
  case managementWord control data => exact settles_execManagementWord control data h
  all_goals
    apply settled
    cases h
  case lineEnable => exact settles_takeCommand fun u => (servedStep_lineEnable _ _ _ u).settles
  case lineDisable => exact settles_takeCommand fun u => (servedStep_lineDisable _ _ u).settles
  case lineConnect => exact settles_takeCommand fun u => (servedStep_lineConnect _ _ u).settles
  case linePolarity => exact settles_takeCommand fun u => (servedStep_linePolarity _ _ _ u).settles
  case lineProfile => exact settles_takeCommand fun u => (servedStep_lineProfile _ _ _ u).settles
  case ringStart => exact settles_takeCommand fun u => (servedStep_ringStart _ _ _ _ u).settles
  case ringStop => exact settles_takeCommand fun u => (servedStep_ringStop _ _ u).settles
  case testRequest => exact settles_takeCommand fun u => (servedStep_testRequest _ _ _ u).settles
  case lineQuery => exact settles_takeCommand fun u => (servedStep_lineQuery _ _ u).settles
  case partQuery => exact settles_takeCommand fun u => (servedStep_replyWith _ _ _ _ _ u).settles
  case loadOpen => exact settles_takeCommand fun u => (servedStep_loadOpen _ _ _ _ u).settles
  case loadBlock => exact settles_takeCommand fun u => (servedStep_loadBlock _ _ _ _ u).settles
  case loadCommit => exact settles_takeCommand fun u => settles_loadCommit _ _ u
  case loadCancel => exact settles_takeCommand fun u => (servedStep_loadCancel _ _ u).settles
  case entryRead => exact settles_takeCommand fun u => (servedStep_entryRead _ _ _ _ u).settles
  case gapExpiry => exact (servedStep_inSync (servedStep_gapExpiryIfDue s)).settles
  case fsPulseHunt => exact (servedStep_ite (servedStep_modHighway rfl) (.refl s)).settles
  case syncAcquire => exact settles_syncAcquire s
  case frameBoundary => exact settles_frameBoundary _ s
  case huntEntry => exact (servedStep_ite (servedStep_enterHunt s) (.refl s)).settles
  case senseRecord => exact (servedStep_inSync (servedStep_onSenseSlot (servedStep_senseRecord _ _ _ _ _ _))).settles
  case senseLost => exact (servedStep_inSync (servedStep_senseLostIfDue _ s)).settles
  case feedStuck => exact (servedStep_inSync (servedStep_feedStuckIfDue _ _ s)).settles
  case audioUpstream => exact (servedStep_inSync (servedStep_onLineSlot (servedStep_audioUpstream _ _))).settles
  case audioDownstream => exact (servedStep_inSync (servedStep_onTrunkSlot fun u => servedStep_wires _ u)).settles
  case reportFrame => exact settles_reportSlot s
  case debounceAccept => exact (servedStep_whileUsed (servedStep_acceptIfDue _ s)).settles
  case edgeMaskExpire =>
    refine (servedStep_whileUsed (servedStep_modLine fun _ => ?_)).settles
    exact selector_ite rfl rfl
  case feedMaskEnd =>
    refine (servedStep_whileUsed (servedStep_modLine fun _ => ?_)).settles
    exact selector_ite rfl rfl
  case seizure => exact (servedStep_whileUsed (servedStep_seizureIfDue _ s)).settles
  case release => exact (servedStep_whileUsed (servedStep_releaseIfDue _ s)).settles
  case makeConfirm => exact (servedStep_whileUsed (servedStep_makeConfirmIfDue _ s)).settles
  case digitEnd => exact (servedStep_whileUsed (servedStep_digitEndIfDue _ s)).settles
  case lockout => exact (servedStep_whileUsed (servedStep_lockoutIfDue _ s)).settles
  case stringTimeout => exact (servedStep_whileUsed (servedStep_compareString _ _ s)).settles
  case toneBlockComplete => exact (servedStep_inSync (servedStep_toneBlockIfDue _ s)).settles
  case ringStepExpire => exact (servedStep_whileUsed (servedStep_ringStepExpireIfDue _ s)).settles
  case ringMaskEnd => exact (servedStep_whileUsed (servedStep_ringMaskEndIfDue _ s)).settles
  case ringTrip => exact (servedStep_whileUsed (servedStep_ringTripIfDue _ s)).settles
  case ringOffTrip => exact (servedStep_whileUsed (servedStep_ringOffTripIfDue _ s)).settles
  case faultWindowClose => exact (servedStep_inSync (servedStep_windowCloseIfDue _ s)).settles
  case faultConfirm => exact (servedStep_inSync (servedStep_faultConfirmIfDue _ s)).settles
  case faultClear => exact (servedStep_inSync (servedStep_faultClearIfDue _ s)).settles
  case testTake => exact (servedStep_inSync (servedStep_takeRequests s)).settles
  case testSettleEnd => exact (servedStep_onHeldLine fun _ => servedStep_testSettleEndIfDue s).settles
  case testStepEnd => exact (servedStep_onHeldLine fun l => servedStep_testStepEndIfDue l s).settles
  case noEcho => exact (servedStep_onHeldLine fun l => servedStep_noEchoIfDue l s).settles
  case sweepExpiry => exact (servedStep_inSync (servedStep_sweepExpiryIfDue s)).settles
  case loadLapse => exact (servedStep_inSync (servedStep_loadLapseIfDue _ s)).settles
  case commitDone => exact (servedStep_inSync (servedStep_releaseBank _ s)).settles
  case fsAbsentExpectedBoundary => exact (servedStep_ite (servedStep_modHighway rfl) (.refl s)).settles

end

/-- Settles O58: every command keeps each table, and settles its RETIRING bank or is one of the two resets. -/
theorem tablesLawful : Obligations.TablesLawful := by
  refine ⟨fun s t laws h => ?_, fun c s t x tag laws h retiring => ?_⟩
  · obtain rfl | ⟨c, rest, -, run⟩ := step_cases h
    · exact laws
    · exact tablesLawful_iff.mpr fun x => (settles_exec run).1 (tablesLawful_iff.mp laws x)
  · obtain settles | reset := (settles_exec (x := x) h).2
    · obtain ⟨-, retires⟩ := settles (tablesLawful_iff.mp laws x)
      exact (retires tag retiring).imp id .inl
    · exact .inr (.inr reset)

end Sys2Proof.Proofs

/-! The commands on a line that are taken: what each makes of its line, its reply, and the migrations behind it. -/

namespace Sys2Proof.Proofs

open Sys2Proof.Machine

/-! ### The reply of a command and its migrations -/

/-- The reply OK and the release of banks behind a command's effect (R151, R168). -/
theorem replied_released {s : State} (sync : s.highway.sync = .sync) (code tag line) :
    Replied code tag line .ok s (releaseBanks (replyStatus code tag line .ok s)) := by
  rw [replyStatus_eq]
  exact migrationsComplete_releaseBanks sync

theorem line_replied {s : State} (code tag line) (l : LineNo) :
    (releaseBanks (replyStatus code tag line .ok s)).line l = s.line l := by
  rw [line_releaseBanks, replyStatus_eq]
  rfl

theorem firstFailure_eq_none_of_two {a b : Bool} {x y : Status} (ha : a = false) (hb : b = false) :
    firstFailure [(a, x), (b, y)] = none := by
  rw [ha, hb]
  rfl

/-- RING_STOP's effect (R97). -/
theorem entersState_endRinging {l : LineNo} {cause : Cause} (s : State) :
    EntersState l
      { s.line l with
        state := .idle, commandedFeed := .standby, ring := .initial,
        loop := if ringOnStep (s.line l).ring.step then .initial (s.line l).loop.feedMask else (s.line l).loop }
      cause s (endRinging l cause s) := by
  unfold endRinging
  refine entersState_enter ?_ (feedFor_of_feedByState rfl) ?_ ?_ (settled_changeState ?_ ?_ ?_ ?_)
  all_goals split <;> rfl

/-- Settles O9: the command's check decides, and its effect is the end of ringing. -/
theorem ringStop : Obligations.RingStop := by
  intro s tag line l sync named
  have run : exec (.ringStop tag line) s = .next (Machine.ringStop tag line (idleReceiver s)) := congrArg _ (if_pos sync)
  refine ⟨fun ringing => ?_, fun quiet => ?_⟩
  · have entered := entersState_endRinging (l := l) (cause := .stopped) (idleReceiver s)
    refine ⟨_, _, ?_, entered, replied_released ?_ ..⟩
    · rw [run]
      refine congrArg _ (lineCommand_ok named ?_)
      simp [firstFailure, ringing]
    · rw [entered.frame.highway]
      exact sync
  · rw [run]
    refine congrArg _ (lineCommand_refused named ?_)
    simp [firstFailure, quiet]

/-- RING_START's effect (R15, R94). -/
theorem entersState_startRinging {l : LineNo} (cadence cycles : Nat) (s : State) :
    EntersState l
      { s.line l with
        state := .ringing, commandedFeed := .ring, cadenceBank := s.activeBank .cadence,
        loop := .initial (s.line l).loop.feedMask,
        ring :=
          { running := true, cadence := some cadence, step := some 1, timer := 0,
            cyclesLeft := if cycles = 0 then none else some cycles,
            armed := false, maskCount := 0, window := [], windowSum := 0, tripRun := 0 } } .ring s
      (startRinging l cadence cycles s) := by
  unfold startRinging
  exact entersState_enter rfl rfl rfl rfl fun settled => settled_changeState rfl rfl rfl settled.cadence.symm settled

/-- An examination of a RINGING line leaves its CADENCE selector (R106). -/
theorem cadenceBank_startRinging (l : LineNo) (cadence cycles : Nat) (s : State) :
    ((startRinging l cadence cycles s).line l).cadenceBank = s.activeBank .cadence := by
  obtain ⟨m, -, line, -, examined⟩ := (entersState_startRinging (l := l) cadence cycles s).examined
  have ringing : (m.line l).state = .ringing := by rw [line]
  have moving : ¬ (m.line l).RestPoint := by
    simp [Line.RestPoint, ringing]
  rw [examined.elsewhere moving, line_setLine_self]
  dsimp only
  rw [if_pos ringing, line]

/-- Settles O8: an IDLE line with a valid cadence passes the checks, and enters RINGING. -/
theorem ringStartTaken : Obligations.RingStartTaken := by
  intro s tag line cadence cycles l sync named idle inRange short valid
  have run : exec (.ringStart tag line cadence cycles) s = .next (ringStart tag line cadence cycles (idleReceiver s)) :=
    congrArg _ (if_pos sync)
  have valid' : (idleReceiver s).activeValid .cadence cadence.toNat = true := valid
  have entered := entersState_startRinging (l := l) cadence.toNat cycles.toNat (idleReceiver s)
  refine ⟨_, _, ?_, entered, replied_released ?_ .., ?_⟩
  · rw [run]
    refine congrArg _ (lineCommand_ok named (firstFailure_eq_none_of_two ?_ ?_))
    · simp [inRange, short]
    · simp [idle, valid']
  · rw [entered.frame.highway]
    exact sync
  · rw [line_replied]
    exact cadenceBank_startRinging l _ _ (idleReceiver s)

/-! ### LINE_CONNECT, LINE_POLARITY and LINE_PROFILE -/

/-- The changes of the two dialling engines at LINE_CONNECT in SYNC (R7, R59, R60). -/
def connectChanges (toned : Bool) (c : Line) : Line :=
  { c with
    pulse := { c.pulse with count := 0, digitStart := none, lastBreak := none }
    tone :=
      if toned then { ToneEngine.initial with run := if c.senseLost then .held else .running } else .initial }

theorem connectChanges_eq (toned : Bool) (c : Line) :
    (if toned then startTone .sync c.discardPulse.stopTone else c.discardPulse.stopTone) = connectChanges toned c := by
  cases toned <;> simp [connectChanges, startTone, Line.stopTone, Line.discardPulse]

/-- LINE_CONNECT's effect in SYNC is the close of the string, and the entry into CONNECTED (R7). -/
theorem connectLine_eq {l : LineNo} {s : State} (sync : s.highway.sync = .sync) :
    connectLine l s =
      enter l .connected .connect (connectChanges (s.profile l).connTone) (closeString l .connect s) := by
  unfold connectLine
  rw [sync]
  exact congrArg (fun f => enter l .connected .connect f (closeString l .connect s))
    (funext (connectChanges_eq (s.profile l).connTone))

theorem lineConnectTaken (s : State) (tag : Tag) (line : Word16) (l : LineNo) (sync : s.highway.sync = .sync)
    (named : line.toNat = l.val) (dials : (s.line l).state = .seized ∨ (s.line l).state = .dialling) :
    ∃ m u t, ClosesString l .connect (idleReceiver s) m ∧ exec (.lineConnect tag line) s = .next t ∧
      EntersState l
        { m.line l with
          state := .connected, commandedFeed := polarityFeed (m.line l).polarity,
          pulse := { (m.line l).pulse with count := 0, digitStart := none, lastBreak := none },
          tone :=
            if (s.profile l).connTone then
              { ToneEngine.initial with run := if (m.line l).senseLost then .held else .running }
            else .initial } .connect m u ∧
      Replied 4 tag (some l) .ok u t := by
  have closed := closesString_closeString l .connect (idleReceiver s)
  have sync' : (closeString l .connect (idleReceiver s)).highway.sync = .sync := by
    rw [closed.frame.highway]
    exact sync
  have entered : ∀ m p, EntersState l { connectChanges p (m.line l) with
      state := .connected, commandedFeed := polarityFeed (m.line l).polarity } .connect m
        (enter l .connected .connect (connectChanges p) m) := fun m p =>
    entersState_enter rfl rfl rfl rfl (settled_changeState rfl rfl rfl rfl)
  refine ⟨_, _, _, closed, ?_, entered _ (s.profile l).connTone, replied_released ?_ ..⟩
  · have run : exec (.lineConnect tag line) s = .next (lineConnect tag line (idleReceiver s)) := congrArg _ (if_pos sync)
    rw [run, lineConnect, lineCommand_ok named, connectLine_eq (by exact sync)]
    · rfl
    · have dials' : dialling (s.line l).state = true := by
        simpa only [dialling, Bool.or_eq_true, decide_eq_true_eq] using dials
      change firstFailure [(!dialling (s.line l).state, .state)] = none
      rw [dials']
      rfl
  · rw [(entered _ _).frame.highway]
    exact sync'

/-- A command whose effect is a new context of its line: the reply, and the migrations behind it. -/
theorem stored_replied {s stored : State} {l : LineNo} (sync : s.highway.sync = .sync) (code : Nat) (tag : Tag)
    {c : Line} (effect : stored = setLine l c (idleReceiver s)) :
    let t := releaseBanks (replyStatus code tag (some l) .ok stored)
    Replied code tag (some l) .ok stored t ∧ t.lines = stored.lines ∧ SameAlarm s t ∧
      t.report.signal = s.report.signal := by
  have migrated := upToMigration_releaseBanks (replyStatus code tag (some l) .ok stored)
  rw [replyStatus_eq] at migrated
  subst effect
  refine ⟨replied_released (by exact sync) .., ?_, ?_, ?_⟩
  all_goals rw [replyStatus_eq]
  · exact migrated.lines
  · exact migrated.alarm
  · exact migrated.signal

theorem setPolarity_eq (l : LineNo) (p : Polarity) (s : State) :
    setPolarity l p s = setLine l { s.line l with
      polarity := p
      commandedFeed := if (s.line l).state = .connected then polarityFeed p else (s.line l).commandedFeed } s := by
  unfold setPolarity
  dsimp only
  rw [line_modLine_self]
  split
  · next connected =>
    rw [refreshFeed, modLine, modLine, setLine_setLine, line_setLine_self]
    rw [show State.feedFor _ { s.line l with polarity := p } = polarityFeed p from ?_]
    have connected' : (s.line l).state = .connected := connected
    exact feedFor_of_feedByState (by simp [Line.feedByState, connected'])
  · rfl

theorem polarityOfWord_of_code {w : Word16} {p : Polarity} (h : w.toNat = polarityCode p) : polarityOfWord w = some p := by
  unfold polarityOfWord
  rw [h]
  cases p <;> rfl

theorem profileUsable_of {s : State} {index : Nat} (valid : s.activeValid .profile index = true)
    (toned : (readProfile (s.activeWords .profile index)).needsTonePlan = true → s.activeValid .tonePlan 0 = true) :
    profileUsable s index = true := by
  simp only [profileUsable, valid, Bool.true_and, Bool.or_eq_true, Bool.not_eq_true']
  cases needs : (readProfile (s.activeWords .profile index)).needsTonePlan with
  | false => exact .inl rfl
  | true => exact .inr (toned needs)

/-- Settles O7: each of the three commands passes its checks; LINE_CONNECT enters CONNECTED behind the close of the string, and
the other two store a new context. -/
theorem lineConnectPolarityProfileTaken : Obligations.LineConnectPolarityProfileTaken := by
  refine ⟨lineConnectTaken, ?_, ?_⟩
  · intro s tag line polarity l p sync named code enabled
    have run : exec (.linePolarity tag line polarity) s = .next (linePolarity tag line polarity (idleReceiver s)) :=
      congrArg _ (if_pos sync)
    have word := polarityOfWord_of_code code
    refine ⟨_, ?_, stored_replied sync 5 tag rfl⟩
    rw [run, linePolarity, lineCommand_ok named, word, Option.getD_some, setPolarity_eq]
    · rfl
    · have enabled' : ((idleReceiver s).line l).state ≠ .disabled := enabled
      exact firstFailure_eq_none_of_two (by rw [word]; rfl) (decide_eq_false enabled')
  · intro s tag line profile l sync named enabled inRange valid toned
    have run : exec (.lineProfile tag line profile) s = .next (lineProfile tag line profile (idleReceiver s)) :=
      congrArg _ (if_pos sync)
    refine ⟨_, ?_, stored_replied sync 3 tag rfl⟩
    rw [run, lineProfile, lineCommand_ok named]
    · rfl
    · have enabled' : ((idleReceiver s).line l).state ≠ .disabled := enabled
      have usable : profileUsable (idleReceiver s) profile.toNat = true := profileUsable_of valid toned
      exact firstFailure_eq_none_of_two (by simp [inRange]) (by simp only [enabled', usable]; rfl)

end Sys2Proof.Proofs

/-! Commands and events that have no effect, the refusals, and PART_RESET. -/

namespace Sys2Proof.Proofs

open Sys2Proof.Machine

/-! ### HUNT -/

/-- The commands that act on a device in HUNT: power-on reset and the stimuli of FS (R137, R147). -/
def actsInHunt : Instr → Bool
  | .powerOnReset | .fsPulseHunt _ | .syncAcquire | .fsAbsentExpectedBoundary => true
  | _ => false

section

variable {s : State} (hunt : s.highway.sync = .hunt)

include hunt

theorem ne_sync_of_hunt : s.highway.sync ≠ .sync := by
  rw [hunt]
  decide

theorem takeCommand_of_hunt (f : State → State) : takeCommand f s = s := if_neg (ne_sync_of_hunt hunt)

theorem inSync_of_hunt (f : State → State) : inSync f s = s := if_neg (ne_sync_of_hunt hunt)

theorem whileUsed_of_hunt (l : LineNo) (f : State → State) : whileUsed l f s = s :=
  if_neg (by simp [ne_sync_of_hunt hunt])

theorem onHeldLine_of_hunt (f : LineNo → State → State) : onHeldLine f s = s := by
  unfold onHeldLine
  split
  · exact whileUsed_of_hunt hunt ..
  · rfl

theorem exec_of_hunt {c : Instr} (deaf : actsInHunt c = false) : exec c s = .next s := by
  cases c
  case powerOnReset | fsPulseHunt | syncAcquire | fsAbsentExpectedBoundary => cases deaf
  case lineEnable | lineDisable | lineConnect | linePolarity | lineProfile | ringStart | ringStop | testRequest |
      lineQuery | partQuery | partReset | loadOpen | loadBlock | loadCommit | loadCancel | entryRead =>
    exact congrArg _ (takeCommand_of_hunt hunt _)
  case managementWord | gapExpiry | senseRecord | senseLost | feedStuck | audioUpstream | audioDownstream | reportFrame |
      toneBlockComplete | faultWindowClose | faultConfirm | faultClear | testTake | sweepExpiry | loadLapse | commitDone =>
    exact congrArg _ (inSync_of_hunt hunt _)
  case debounceAccept | edgeMaskExpire | feedMaskEnd | seizure | release | makeConfirm | digitEnd | lockout |
      stringTimeout | ringStepExpire | ringMaskEnd | ringTrip | ringOffTrip =>
    exact congrArg _ (whileUsed_of_hunt hunt _ _)
  case testSettleEnd | testStepEnd | noEcho => exact congrArg _ (onHeldLine_of_hunt hunt _)
  case frameBoundary => exact congrArg _ (if_neg (ne_sync_of_hunt hunt))
  case huntEntry => exact congrArg _ (if_neg (by simp [huntDue, ne_sync_of_hunt hunt]))

end

/-- Settles O4: none of the commands listed acts in HUNT. -/
theorem huntHandlesNothing : Obligations.HuntHandlesNothing := by
  intro s tag l a b c d ws o f x hunt
  have deaf : ∀ i, actsInHunt i = false → exec i s = .next s := fun _ => exec_of_hunt hunt
  simp only [List.forall_mem_cons, List.not_mem_nil, false_imp_iff, implies_true, and_true]
  refine ⟨?_, ?_, ?_, ?_, ?_, ?_, ?_, ?_, ?_, ?_, ?_, ?_, ?_, ?_, ?_, ?_, ?_, ?_, ?_, ?_, ?_, ?_, ?_, ?_, ?_, ?_, ?_, ?_,
    ?_, ?_, ?_, ?_, ?_, ?_, ?_, ?_, ?_, ?_, ?_, ?_, ?_, ?_, ?_, ?_, ?_, ?_, ?_, ?_, ?_, ?_, ?_⟩ <;> exact deaf _ rfl

/-! ### Refusals -/

theorem lineOfWord_eq_none {w : Word16} (h : 48 ≤ w.toNat) : lineOfWord w = none := dif_neg (Nat.not_lt.mpr h)

theorem lineCommand_unnamed {code tag line checks effect} {s : State} (h : 48 ≤ line.toNat) :
    lineCommand code tag line checks effect s = s.withReply (s.replyRecord code tag none .range []) := by
  rw [lineCommand, lineOfWord_eq_none h]
  exact replyStatus_eq ..

/-- A line number above 47 (R151). -/
theorem lineCommandsRefused_unnamed (s : State) (tag : Tag) (line b c : Word16) (sync : s.highway.sync = .sync)
    (h : 48 ≤ line.toNat) : ∀ i n, (i, n) ∈ ([(.lineEnable tag line b, 1), (.lineDisable tag line, 2),
      (.lineProfile tag line b, 3), (.lineConnect tag line, 4), (.linePolarity tag line b, 5),
      (.ringStart tag line b c, 6), (.ringStop tag line, 7), (.testRequest tag line b, 8), (.lineQuery tag line, 9)] :
      List (Instr × Nat)) →
    exec i s = .next ((idleReceiver s).withReply (s.replyRecord n tag none .range [])) := by
  intro i n mem
  have taken : ∀ f : State → State, takeCommand f s = f (idleReceiver s) := fun _ => if_pos sync
  have direct : ∀ n, replyStatus n tag none .range (idleReceiver s) =
      (idleReceiver s).withReply (s.replyRecord n tag none .range []) := fun _ => replyStatus_eq ..
  have none := lineOfWord_eq_none h
  simp only [List.mem_cons, List.not_mem_nil, or_false, Prod.mk.injEq] at mem
  obtain ⟨rfl, rfl⟩ | ⟨rfl, rfl⟩ | ⟨rfl, rfl⟩ | ⟨rfl, rfl⟩ | ⟨rfl, rfl⟩ | ⟨rfl, rfl⟩ | ⟨rfl, rfl⟩ | ⟨rfl, rfl⟩ | ⟨rfl, rfl⟩ :=
    mem
  case inr.inl => exact congrArg _ ((taken _).trans (by rw [lineDisable, none, direct]))
  case inr.inr.inr.inr.inr.inr.inr.inl => exact congrArg _ ((taken _).trans (by rw [testRequest, none, direct]))
  case inr.inr.inr.inr.inr.inr.inr.inr => exact congrArg _ ((taken _).trans (by rw [lineQuery, none, direct]))
  all_goals exact congrArg _ ((taken _).trans (lineCommand_unnamed h))

theorem firstFailure_first {a : Bool} {x : Status} {rest} (h : a = true) : firstFailure ((a, x) :: rest) = some x := by
  rw [firstFailure_cons, if_pos h]

theorem firstFailure_second {a b : Bool} {x y : Status} {rest} (ha : a = false) (hb : b = true) :
    firstFailure ((a, x) :: (b, y) :: rest) = some y := by
  rw [firstFailure_cons, ha, if_neg Bool.false_ne_true, firstFailure_first hb]

theorem profileUsable_eq_false {s : State} {index : Nat} (h : s.activeValid .profile index = false ∨
    (readProfile (s.activeWords .profile index)).needsTonePlan = true ∧ s.activeValid .tonePlan 0 = false) :
    profileUsable s index = false := by
  obtain invalid | ⟨needs, invalid⟩ := h
  · simp [profileUsable, invalid]
  · simp [profileUsable, needs, invalid]

theorem polarityOfWord_eq_none {w : Word16} (h : 2 ≤ w.toNat) : polarityOfWord w = none := by
  unfold polarityOfWord
  split <;> first | rfl | omega

theorem polarityOfWord_isNone {w : Word16} (h : w.toNat ≤ 1) : (polarityOfWord w).isNone = false := by
  obtain zero | one := Nat.le_one_iff_eq_zero_or_eq_one.mp h
  · rw [polarityOfWord, zero]
    rfl
  · rw [polarityOfWord, one]
    rfl

theorem kindOfCode_eq_none {n : Nat} (h : 3 ≤ n) : kindOfCode n = none := by
  unfold kindOfCode
  split <;> first | rfl | omega

theorem kindOfCode_isSome {n : Nat} (h : n ≤ 2) : ∃ k, kindOfCode n = some k := by
  interval_cases n <;> exact ⟨_, rfl⟩

/-- Settles O13: each command stops at its first check that fails. -/
theorem lineCommandsRefused : Obligations.LineCommandsRefused := by
  refine ⟨lineCommandsRefused_unnamed, fun s tag line b c l sync named => ?_⟩
  have taken : ∀ f : State → State, takeCommand f s = f (idleReceiver s) := fun _ => if_pos sync
  dsimp only
  refine ⟨fun high => ⟨?_, ?_⟩, fun high => ?_, fun high => ?_, fun high => ?_, fun busy low => ?_, fun busy low => ?_,
    fun seized dialling' => ?_, fun disabled low => ?_, fun busy low short => ?_, fun test low => ?_⟩
  · exact congrArg _ ((taken _).trans (lineCommand_refused named (firstFailure_first (decide_eq_true high))))
  · exact congrArg _ ((taken _).trans (lineCommand_refused named (firstFailure_first (decide_eq_true high))))
  · refine congrArg _ ((taken _).trans (lineCommand_refused named (firstFailure_first ?_)))
    rw [polarityOfWord_eq_none high]
    rfl
  · exact congrArg _ ((taken _).trans (lineCommand_refused named (firstFailure_first (by simpa using high))))
  · refine congrArg _ ((taken _).trans ?_)
    rw [testRequest, lineOfWord_eq named]
    dsimp only
    rw [kindOfCode_eq_none high]
    exact replyStatus_eq ..
  · refine congrArg _ ((taken _).trans (lineCommand_refused named (firstFailure_second ?_ ?_)))
    · exact decide_eq_false (Nat.not_le.mpr low)
    · obtain enabled | unusable := busy
      · exact Bool.or_eq_true_iff.mpr (.inl (bne_iff_ne.mpr enabled))
      · rw [profileUsable_eq_false (by exact unusable), Bool.not_false, Bool.or_true]
  · refine congrArg _ ((taken _).trans (lineCommand_refused named (firstFailure_second ?_ ?_)))
    · exact decide_eq_false (Nat.not_le.mpr low)
    · obtain disabled | unusable := busy
      · exact Bool.or_eq_true_iff.mpr (.inl (decide_eq_true disabled))
      · rw [profileUsable_eq_false (by exact unusable), Bool.not_false, Bool.or_true]
  · refine congrArg _ ((taken _).trans (lineCommand_refused named (firstFailure_first ?_)))
    change (!dialling (s.line l).state) = true
    simp [dialling, seized, dialling']
  · refine congrArg _ ((taken _).trans (lineCommand_refused named (firstFailure_second ?_ ?_)))
    · exact polarityOfWord_isNone low
    · exact decide_eq_true disabled
  · refine congrArg _ ((taken _).trans (lineCommand_refused named (firstFailure_second ?_ ?_)))
    · simp [low, short]
    · obtain moving | invalid := busy
      · exact Bool.or_eq_true_iff.mpr (.inl (bne_iff_ne.mpr moving))
      · exact Bool.or_eq_true_iff.mpr (.inr (congrArg Bool.not invalid))
  · obtain ⟨k, kind⟩ := kindOfCode_isSome low
    refine congrArg _ ((taken _).trans ?_)
    rw [testRequest, lineOfWord_eq named]
    dsimp only
    rw [kind]
    dsimp only
    rw [if_pos (by exact test)]
    exact replyStatus_eq ..

/-! ### PART_RESET -/

/-- The reply to PART_RESET stands alone in the emptied queue (R154). -/
theorem reply_partReset (tag) (s : State) :
    (partReset tag s).report = { s.report.partReset with reply := [s.replyRecord 16 tag none .ok []] } := by
  have stamp : (resetPart s).stamp = s.stamp := by rw [State.stamp, highway_resetPart, State.stamp]
  have report := report_resetPart s
  rw [partReset, replyStatus_eq, State.withReply, State.replyAfter, State.replyRecord, State.record, stamp]
  generalize resetPart s = u at report ⊢
  rw [report]
  rfl

/-- Settles O12: the fields of the reset device, read off one by one. -/
theorem partResetResets : Obligations.PartResetResets := by
  intro s tag sync
  have same : ∀ u : State, (replyStatus 16 tag none .ok u).highway = u.highway ∧
      (replyStatus 16 tag none .ok u).wires = u.wires ∧ (replyStatus 16 tag none .ok u).receiver = u.receiver ∧
      (∀ l, (replyStatus 16 tag none .ok u).line l = u.line l) ∧ (replyStatus 16 tag none .ok u).engine = u.engine ∧
      ∀ x, (replyStatus 16 tag none .ok u).table x = u.table x := fun u => by
    rw [replyStatus_eq]
    exact ⟨rfl, rfl, rfl, fun _ => rfl, rfl, fun _ => rfl⟩
  obtain ⟨highway, wires, receiver, line, engine, table⟩ := same (resetPart (idleReceiver s))
  have report := reply_partReset tag (idleReceiver s)
  refine ⟨partReset tag (idleReceiver s), congrArg _ (if_pos sync), highway.trans (highway_resetPart _),
    wires.trans (wires_resetPart _), receiver.trans (receiver_resetPart _), fun l => (line l).trans (line_resetPart ..),
    engine.trans (engine_resetPart _), ?_, ?_, ?_, ?_, ?_, ?_, fun x => (table x).trans (table_resetPart ..)⟩
  all_goals rw [report]; rfl

end Sys2Proof.Proofs

/-! LINE_DISABLE and LINE_ENABLE. -/

namespace Sys2Proof.Proofs

open Sys2Proof.Machine

/-! ### LINE_DISABLE -/

theorem disableChanges_eq (c : Line) :
    disableChanges c = { c with
      polarity := .forward, pendingProfile := none, lockoutTimer := 0, stringTimer := 0, stateBeforeTest := none,
      senseLost := false, loop := .initial c.loop.feedMask, ring := .initial, tone := .initial,
      pulse := { c.pulse with count := 0, digitStart := none, lastBreak := none } } := by
  simp only [disableChanges, Line.stopRing, Line.dropDigits, Line.restartDetector, Line.stopTone, Line.discardPulse]

/-- The context of a line that LINE_DISABLE has disabled, its open string closed before (R6). -/
def disabledLine (c : Line) : Line :=
  { c with
    state := .disabled, commandedFeed := .opened, polarity := .forward, pendingProfile := none,
    lockoutTimer := 0, stringTimer := 0, stateBeforeTest := none, senseLost := false,
    loop := .initial c.loop.feedMask, ring := .initial, tone := .initial,
    pulse := { c.pulse with count := 0, digitStart := none, lastBreak := none } }

/-- A DISABLED line has no profile pending, so that a settled line is still settled there. -/
theorem entersState_disable {l : LineNo} (s : State) :
    EntersState l (disabledLine (s.line l)) .disable s (enter l .disabled .disable disableChanges s) := by
  refine entersState_enter ?_ rfl ?_ ?_ fun settled => settled_changeState ?_ ?_ ?_ ?_ settled
  all_goals rw [disableChanges_eq]
  · rfl
  · exact settled.pending.symm

theorem exec_lineDisable_of_sync {s : State} (sync : s.highway.sync = .sync) (tag line) :
    exec (.lineDisable tag line) s = .next (lineDisable tag line (idleReceiver s)) := congrArg _ (if_pos sync)

theorem lineDisabled_eq {tag : Tag} {line : Word16} {s : State} {l : LineNo} (named : line.toNat = l.val)
    (enabled : (s.line l).state ≠ .disabled) :
    lineDisable tag line s = if testHeld s l then
        freeEngine (replyStatus 2 tag (some l) .ok (disableLine l (reportTest .aborted (some .disabled) s)))
      else releaseBanks (replyStatus 2 tag (some l) .ok (disableLine l s)) := by
  rw [lineDisable, lineOfWord_eq named]
  exact if_neg enabled

/-- What freeing the engine leaves of a line under test: its request is not queued, so that no test begins on it (R125). -/
structure FreedBehind (r : Request) (v t : State) : Prop where
  line : t.line r.line = v.line r.line
  held : t.engine.held ≠ some r
  alarm : v.report.alarm <+: t.report.alarm
  full : alarmCapacity ≤ v.report.alarm.length → v.report.alarmLost = true → t.report.alarmLost = true
  signal : t.report.signal = v.report.signal
  reply : v.report.reply <+: t.report.reply

theorem freedBehind_freeEngine {r : Request} {s v : State} (engine : v.engine = s.engine) (held : s.engine.held = some r)
    (laws : s.testQueueLawful) : FreedBehind r v (freeEngine v) := by
  have unqueued : ∀ r' ∈ s.engine.queue, r.line ≠ r'.line := by
    intro r' mem same
    have queued : queuedFor r.line s.engine.queue = true := (queuedFor_iff ..).mpr ⟨r', mem, same.symm⟩
    rw [laws.2.2 r held] at queued
    cases queued
  have freed := upToMigration_releaseBanks (modEngine (·.freed) v)
  rw [freeEngine_eq, engine]
  obtain ⟨line, took⟩ := takeFrom_of_not_queued s.engine.queue (releaseBanks (modEngine (·.freed) v)) unqueued
  have step := engineStep_takeFrom s.engine.queue (releaseBanks (modEngine (·.freed) v))
  have alarm : (releaseBanks (modEngine (·.freed) v)).report.alarm = v.report.alarm := freed.alarm.1
  have lost : (releaseBanks (modEngine (·.freed) v)).report.alarmLost = v.report.alarmLost := freed.alarm.2
  refine ⟨line.trans (line_releaseBanks ..), ?_, ?_, fun full told => ?_, step.signal.trans freed.signal,
    freed.reply.trans step.migrated.reply⟩
  · obtain same | ⟨r', mem, same⟩ := took
    · rw [same, freed.engine]
      exact fun none => by cases none
    · rw [same]
      rintro ⟨⟩
      exact unqueued r mem rfl
  · rw [← alarm]
    exact step.alarm
  · exact takeFrom_alarm_full _ _ (by rw [alarm]; exact full) (by rw [lost]; exact told)

theorem alarmFirst_of_offered {o : Option LineNo} {p : Payload} {s u t : State} (offered : AlarmOffered o p s u)
    (alarm : u.report.alarm <+: t.report.alarm)
    (full : alarmCapacity ≤ u.report.alarm.length → u.report.alarmLost = true → t.report.alarmLost = true) :
    AlarmFirst o p s t := by
  unfold AlarmOffered at offered
  unfold AlarmFirst
  split
  · next room =>
    rw [if_pos room] at offered
    rw [← offered.1]
    exact alarm
  · next none =>
    rw [if_neg none] at offered
    obtain ⟨same, lost⟩ := offered
    rw [same] at alarm full
    exact ⟨alarm, full (Nat.le_of_not_lt none) lost⟩

/-- Closing a string and disabling behind it leave the steady part as DISABLED has it. -/
theorem steady_disabledLine {c d : Line} (h : d.steady = c.steady) :
    (disabledLine d).steady = ({ c with
      state := .disabled, commandedFeed := .opened, polarity := .forward, stateBeforeTest := none,
      senseLost := false, loop := .initial c.loop.feedMask, ring := .initial } : Line).steady := by
  have changed : ∀ e : Line, (disabledLine e).steady = { e.steady with
      state := .disabled, commandedFeed := .opened, polarity := .forward, stateBeforeTest := none,
      senseLost := false, loop := .initial e.steady.loop.feedMask, ring := .initial } := fun _ => rfl
  rw [changed, h]
  rfl

/-- LINE_DISABLE of the line under test (R6, R134, R151). -/
theorem lineDisableTaken_of_test (s : State) (tag : Tag) (line : Word16) (r : Request) (sync : s.highway.sync = .sync)
    (named : line.toNat = r.line.val) (test : (s.line r.line).state = .test) (busy : s.engine.busy = true)
    (held : s.engine.held = some r) (laws : s.testQueueLawful) :
    let result : Payload := .testResult r.kind r.origin .aborted (some .disabled) s.engine.results
    ∃ a m v t, exec (.lineDisable tag line) s = .next t ∧
      AlarmOffered (some r.line) result (idleReceiver s) a ∧
      a = { idleReceiver s with report := { s.report with alarm := a.report.alarm, alarmLost := a.report.alarmLost } } ∧
      ClosesString r.line .disable a m ∧ EntersState r.line (disabledLine (m.line r.line)) .disable m v ∧
      FreesEngine (v.withReply (v.replyRecord 2 tag (some r.line) .ok [])) t ∧
      (t.line r.line).steady =
        ({ s.line r.line with
            state := .disabled, commandedFeed := .opened, polarity := .forward, stateBeforeTest := none,
            senseLost := false, loop := .initial (s.line r.line).loop.feedMask, ring := .initial } : Line).steady ∧
      AlarmFirst (some r.line) result s t ∧
      ((s.line r.line).openString = [] →
        s.signalAfter r.line (s.record (some r.line) (.state .disabled .test .disable)) <+: t.report.signal) ∧
      t.engine.held ≠ some r ∧ s.replyAfter (s.replyRecord 2 tag (some r.line) .ok []) <+: t.report.reply := by
  intro result
  obtain ⟨offered, told⟩ := alarmOffered_offerAlarm (some r.line) result (idleReceiver s)
  have report : reportTest .aborted (some .disabled) (idleReceiver s) = offerAlarm (some r.line) result (idleReceiver s) := by
    have held' : (idleReceiver s).engine.held = some r := held
    unfold reportTest
    rw [held']
    rfl
  have run : exec (.lineDisable tag line) s = .next (freeEngine (replyStatus 2 tag (some r.line) .ok
      (disableLine r.line (offerAlarm (some r.line) result (idleReceiver s))))) := by
    have enabled : ((idleReceiver s).line r.line).state ≠ .disabled := by
      change (s.line r.line).state ≠ .disabled
      rw [test]
      decide
    rw [exec_lineDisable_of_sync sync, lineDisabled_eq named enabled, if_pos (by exact testHeld_of_held busy held), report]
  generalize offerAlarm (some r.line) result (idleReceiver s) = a at offered told run
  have line_a : ∀ k, a.line k = s.line k := fun k => by
    rw [told]
    rfl
  have closed := closesString_closeString r.line .disable a
  have entered := entersState_disable (l := r.line) (closeString r.line .disable a)
  rw [disableLine_eq] at run
  have engine : (enter r.line .disabled .disable disableChanges (closeString r.line .disable a)).engine = s.engine := by
    rw [entered.frame.engine, closed.frame.engine, told]
    rfl
  have highway : (enter r.line .disabled .disable disableChanges (closeString r.line .disable a)).highway = s.highway := by
    rw [entered.frame.highway, closed.frame.highway, told]
    rfl
  rw [replyStatus_eq] at run
  generalize hv : enter r.line .disabled .disable disableChanges (closeString r.line .disable a) = v at *
  have behind := freedBehind_freeEngine (v := v.withReply (v.replyRecord 2 tag (some r.line) .ok [])) engine held laws
  refine ⟨a, _, v, _, run, offered, told, closed, entered, freesEngine_freeEngine ?_, ?_, ?_, fun empty => ?_,
    behind.held, ?_⟩
  · change v.highway.sync = .sync
    rw [highway]
    exact sync
  · rw [behind.line]
    refine entered.steady.trans ?_
    rw [← line_a]
    exact steady_disabledLine (steady_closeString ..)
  · have same : SameAlarm a v := closed.alarm.trans entered.alarm
    refine alarmFirst_of_offered (s := s) (u := a) offered ?_ ?_
    · rw [← same.1]
      exact behind.alarm
    · rw [← same.1, ← same.2]
      exact behind.full
  · have still : closeString r.line .disable a = a := closed.absent (by rw [line_a]; exact empty)
    have record := entered.record
    rw [still] at record
    rw [behind.signal]
    have signal : a.signalAfter r.line (a.record (some r.line) (.state .disabled (a.line r.line).state .disable)) =
        s.signalAfter r.line (s.record (some r.line) (.state .disabled .test .disable)) := by
      rw [line_a, test, told]
      rfl
    exact signal ▸ record
  · have reply : v.replyAfter (v.replyRecord 2 tag (some r.line) .ok []) =
        s.replyAfter (s.replyRecord 2 tag (some r.line) .ok []) := by
      have same : v.report.reply = s.report.reply := by
        rw [entered.reply, closed.reply, told]
        rfl
      simp only [State.replyAfter, State.replyRecord, State.record, State.stamp, highway, same]
    rw [← reply]
    exact behind.reply

/-- Settles O6: by the state of the line and the engine's hold on it. -/
theorem lineDisableTaken : Obligations.LineDisableTaken := by
  refine ⟨fun s tag line l sync named enabled free => ?_, fun s tag line l sync named disabled => ?_,
    fun s tag line l r sync named test busy held own laws => ?_⟩
  · have closed := closesString_closeString l .disable (idleReceiver s)
    have entered := entersState_disable (l := l) (closeString l .disable (idleReceiver s))
    refine ⟨_, _, _, closed, ?_, entered, replied_released ?_ ..⟩
    · have free' : ¬ testHeld (idleReceiver s) l = true := Bool.eq_false_iff.mp free
      rw [exec_lineDisable_of_sync sync, lineDisabled_eq named (by exact enabled), if_neg free', disableLine_eq]
    · rw [entered.frame.highway, closed.frame.highway]
      exact sync
  · rw [exec_lineDisable_of_sync sync, lineDisable, lineOfWord_eq named]
    exact congrArg _ ((if_pos disabled).trans (replyStatus_eq ..))
  · subst own
    exact lineDisableTaken_of_test s tag line r sync named test busy held laws

/-! ### LINE_ENABLE -/

/-- A DISABLED line bound to a profile of the ACTIVE bank: its engines stand, and Tbase follows a new AVG_N (R5, R20, R46). -/
def boundLine (s : State) (l : LineNo) (index : Nat) : Line :=
  let new := readProfile (s.activeWords .profile index)
  { s.line l with
    profileIndex := index
    profileBank := s.activeBank .profile
    pulse := if new.avgN = (s.profile l).avgN then (s.line l).pulse
      else { (s.line l).pulse with tbase := tbaseOf new.avgN (s.line l).pulse.history } }

theorem adoptProfile_of_disabled {s : State} {l : LineNo} (disabled : (s.line l).state = .disabled) (index : Nat) :
    adoptProfile l index s =
      if (s.profile l).reportMode = .string ∧ (readProfile (s.activeWords .profile index)).reportMode = .each then
        closeString l .timeout (setLine l (boundLine s l index) s)
      else setLine l (boundLine s l index) s := by
  have standing : ∀ (d : Line) (old new : Profile), d.state = .disabled →
      switchPulse old new (switchTone s old new d) = { d with
        pulse := if new.avgN = old.avgN then d.pulse else { d.pulse with tbase := tbaseOf new.avgN d.pulse.history } } := by
    intro d old new still
    have tone : ∀ p, toneRuns p d.state = false := fun p => by rw [still]; rfl
    have pulse : ∀ p, pulseRuns p d.state = false := fun p => by rw [still]; rfl
    simp only [switchTone, switchPulse, tone, pulse, Bool.false_and, Bool.false_eq_true, if_false]
    split <;> rfl
  have adopted := adoptProfile_eq l index (s.line l) s
  rw [setLine_line] at adopted
  rw [adopted]
  dsimp only
  rw [standing { s.line l with profileIndex := index, profileBank := s.activeBank .profile } _ _ disabled]
  rfl

/-- The state that LINE_ENABLE enters, by the line's confirmed class (R5). -/
def enabledState (c : Line) : LineState := if c.monitor.confirmedSeverity = some .hazard then .fault else .idle

/-- The feed of the state that LINE_ENABLE enters (R2). -/
def enabledFeed (c : Line) : FeedCode := if c.monitor.confirmedSeverity = some .hazard then .opened else .standby

/-- LINE_ENABLE's effect behind the binding of the profile (R5). -/
theorem entersState_enable {l : LineNo} (s : State) :
    EntersState l { s.line l with
      state := enabledState (s.line l), commandedFeed := enabledFeed (s.line l), polarity := .forward, lockoutTimer := 0
      loop := .initial (s.line l).loop.feedMask, toneBank := s.activeBank .tonePlan, cadenceBank := s.activeBank .cadence }
      .enable s
      (enter l (enabledState (s.line l)) .enable (fun c =>
        { c.restartDetector with
          toneBank := s.activeBank .tonePlan, cadenceBank := s.activeBank .cadence, polarity := .forward,
          lockoutTimer := 0 }) s) := by
  refine entersState_enter rfl ?_ rfl rfl fun settled =>
    settled_changeState rfl rfl settled.tonePlan.symm settled.cadence.symm settled
  unfold enabledState enabledFeed
  split <;> rfl

theorem enableLine_eq (l : LineNo) (index : Nat) (s : State) :
    enableLine l index s =
      let m := adoptProfile l index s
      enter l (enabledState (m.line l)) .enable (fun c =>
        { c.restartDetector with
          toneBank := m.activeBank .tonePlan, cadenceBank := m.activeBank .cadence, polarity := .forward,
          lockoutTimer := 0 }) m := by
  simp only [enableLine, enabledState, FaultMonitor.hazard, decide_eq_true_eq]

/-- What the close of a string can change of its line. -/
theorem line_of_closesString {l : LineNo} {reason : CloseReason} {s m : State} (closed : ClosesString l reason s m) :
    ∃ due overrun string lockout, m.line l = { s.line l with
      openString := [], due := due, overrun := overrun, stringTimer := string, lockoutTimer := lockout } ∧
      ((s.line l).lockoutTimer = 0 → lockout = 0) := by
  by_cases empty : (s.line l).openString = []
  · refine ⟨(s.line l).due, (s.line l).overrun, (s.line l).stringTimer, (s.line l).lockoutTimer, ?_, id⟩
    rw [closed.absent empty, ← empty]
  · cases keeps : s.signalKeeps l with
    | true => exact ⟨_, _, _, _, (closed.kept empty keeps).1, fun _ => rfl⟩
    | false => exact ⟨_, _, _, _, (closed.waits empty keeps).1, fun _ => rfl⟩

/-- The selectors and the lockout timer of a line behind its examination at rest (R19). -/
theorem examines_rest {l : LineNo} {s t : State} (examined : Examines l s t) (rest : (s.line l).RestPoint) :
    (t.line l).profileBank = s.activeBank .profile ∧ (t.line l).toneBank = s.activeBank .tonePlan ∧
      (t.line l).cadenceBank = s.activeBank .cadence ∧
      (t.line l).profileIndex = (s.line l).pendingProfile.getD (s.line l).profileIndex ∧
      ((s.line l).lockoutTimer = 0 → (t.line l).lockoutTimer = 0) := by
  obtain ⟨m, bound, rebound⟩ := examined.rest rest
  have line : ∃ due overrun string lockout opened, m.line l = { s.reprofiled l with
      openString := opened, due := due, overrun := overrun, stringTimer := string, lockoutTimer := lockout } ∧
      ((s.line l).lockoutTimer = 0 → lockout = 0) := by
    split at bound
    · obtain ⟨due, overrun, string, lockout, line, zero⟩ := line_of_closesString bound
      rw [line_setLine_self] at line zero
      exact ⟨due, overrun, string, lockout, [], line, zero⟩
    · rw [bound, line_setLine_self]
      exact ⟨_, _, _, _, _, rfl, id⟩
  obtain ⟨_, _, _, _, _, line, zero⟩ := line
  rw [rebound, line_setLine_self, line]
  exact ⟨rfl, rfl, rfl, rfl, zero⟩

theorem state_enabled (c : Line) : enabledState c = .idle ∨ enabledState c = .fault := by
  unfold enabledState
  split
  · exact .inr rfl
  · exact .inl rfl

/-- A line that enters IDLE or FAULT by LINE_ENABLE has the ACTIVE banks, and its lockout timer at 0 (R5, R19). -/
theorem selectors_of_enabled {l : LineNo} {after : Line} {m u : State} (entered : EntersState l after .enable m u)
    (rest : after.state = .idle ∨ after.state = .fault) :
    (u.line l).profileBank = m.activeBank .profile ∧ (u.line l).toneBank = m.activeBank .tonePlan ∧
      (u.line l).cadenceBank = m.activeBank .cadence ∧
      (u.line l).profileIndex = after.pendingProfile.getD after.profileIndex ∧
      (after.lockoutTimer = 0 → (u.line l).lockoutTimer = 0) := by
  obtain ⟨n, same, line, -, examined⟩ := entered.examined
  have active : ∀ x, n.activeBank x = m.activeBank x := fun x => by
    rw [same]
    rfl
  have atRest : (n.line l).RestPoint := by
    rw [line]
    exact .inl (rest.elim (fun idle => .inr (.inl idle)) fun fault => .inr (.inr (.inr fault)))
  have fields := examines_rest examined atRest
  rw [line] at fields
  simpa only [active] using fields

/-- What LINE_ENABLE's binding and entry leave of the steady part. -/
theorem steady_enabledLine {c d : Line} (h : d.steady = c.steady) (state : LineState) (feed : FeedCode) (n : Nat) (tone cadence : Bank) :
    ({ d with
        state := state, commandedFeed := feed, polarity := .forward, lockoutTimer := 0, loop := .initial n,
        toneBank := tone, cadenceBank := cadence } : Line).steady =
      ({ c with state := state, commandedFeed := feed, polarity := .forward, loop := .initial n } : Line).steady := by
  have changed : ∀ e : Line, ({ e with
        state := state, commandedFeed := feed, polarity := .forward, lockoutTimer := 0, loop := .initial n,
        toneBank := tone, cadenceBank := cadence } : Line).steady =
      { e.steady with state := state, commandedFeed := feed, polarity := .forward, loop := .initial n } := fun _ => rfl
  rw [changed, h]
  rfl

/-- Settles O5: the profile's binding on a line whose engines stand, then the entry into IDLE or FAULT. -/
theorem lineEnableTaken : Obligations.LineEnableTaken := by
  intro s tag line profile l sync named disabled inRange valid toned c old new state feed bound
  have usable : profileUsable (idleReceiver s) profile.toNat = true := profileUsable_of valid toned
  have run : exec (.lineEnable tag line profile) s = .next (releaseBanks (replyStatus 1 tag (some l) .ok
      (enableLine l profile.toNat (idleReceiver s)))) := by
    refine congrArg Host.Outcome.next ((if_pos sync).trans (lineCommand_ok named (firstFailure_eq_none_of_two ?_ ?_)))
    · exact decide_eq_false (Nat.not_le.mpr inRange)
    · rw [usable, Bool.not_true, Bool.or_false]
      exact bne_eq_false_iff_eq.mpr disabled
  have adopted : adoptProfile l profile.toNat (idleReceiver s) =
      if old.reportMode = .string ∧ new.reportMode = .each then closeString l .timeout bound else bound :=
    adoptProfile_of_disabled (s := idleReceiver s) disabled profile.toNat
  have only : OnlyLine l (idleReceiver s) (adoptProfile l profile.toNat (idleReceiver s)) := onlyLine_adoptProfile ..
  have alarm : SameAlarm (idleReceiver s) (adoptProfile l profile.toNat (idleReceiver s)) := sameAlarm_adoptProfile ..
  have steady : ((adoptProfile l profile.toNat (idleReceiver s)).line l).steady = c.steady := steady_adoptProfile ..
  have index : ((adoptProfile l profile.toNat (idleReceiver s)).line l).pendingProfile = c.pendingProfile ∧
      ((adoptProfile l profile.toNat (idleReceiver s)).line l).profileIndex = profile.toNat := by
    rw [adopted]
    split
    · rw [line_closeString, line_setLine_self]
      exact ⟨rfl, rfl⟩
    · rw [line_setLine_self]
      exact ⟨rfl, rfl⟩
  rw [enableLine_eq] at run
  have entered := entersState_enable (l := l) (adoptProfile l profile.toNat (idleReceiver s))
  dsimp only at run
  generalize adoptProfile l profile.toNat (idleReceiver s) = m at *
  have monitor : (m.line l).monitor = c.monitor := (congrArg Line.monitor steady :)
  have loop : (m.line l).loop = c.loop := (congrArg Line.loop steady :)
  have active : ∀ x, m.activeBank x = s.activeBank x := only.tables.activeBank
  have states : enabledState (m.line l) = state ∧ enabledFeed (m.line l) = feed := by
    simp only [enabledState, enabledFeed, monitor]
    exact ⟨rfl, rfl⟩
  rw [states.1, states.2, loop, active, active] at entered
  rw [states.1, active, active] at run
  generalize enter l state .enable _ m = u at entered run
  have sync' : u.highway.sync = .sync := by
    rw [entered.frame.highway, only.highway]
    exact sync
  have migrated := upToMigration_releaseBanks (replyStatus 1 tag (some l) .ok u)
  have selectors := selectors_of_enabled entered (state_enabled c)
  rw [active, active, active] at selectors
  obtain ⟨profileBank, toneBank, cadenceBank, profileIndex, lockoutTimer⟩ := selectors
  refine ⟨m, u, _, ?_, ?_, entered, replied_released sync' .., only.trans entered.frame, ?_, ?_, ?_, ?_, ?_, ?_, ?_, ?_⟩
  · exact run
  · rw [adopted]
    split
    · exact closesString_closeString ..
    · rfl
  · rw [replyStatus_eq] at migrated ⊢
    exact (alarm.trans entered.alarm).trans migrated.alarm
  · rw [line_replied, entered.steady]
    exact steady_enabledLine steady ..
  · rw [line_replied]
    exact lockoutTimer rfl
  · rw [line_replied]
    exact profileBank
  · rw [line_replied]
    exact toneBank
  · rw [line_replied]
    exact cadenceBank
  · intro none
    rw [line_replied, profileIndex]
    exact (congrArg (fun p => p.getD (m.line l).profileIndex) (index.1.trans none)).trans index.2
  · intro empty
    have same : m = bound := by
      rw [adopted]
      split
      · exact (closesString_closeString ..).absent (by rw [line_setLine_self]; exact empty)
      · rfl
    have record := entered.record
    rw [migrated.signal, replyStatus_eq]
    rw [same] at record
    have signal : bound.signalAfter l (bound.record (some l) (.state state (bound.line l).state .enable)) =
        s.signalAfter l (s.record (some l) (.state state .disabled .enable)) := by
      have line : (bound.line l).backlog = (s.line l).backlog ∧ (bound.line l).state = .disabled := by
        rw [line_setLine_self]
        exact ⟨rfl, disabled⟩
      have keeps : bound.signalKeeps l = s.signalKeeps l := by
        unfold State.signalKeeps
        rw [line.1]
        rfl
      rw [State.signalAfter, keeps, line.2]
      rfl
    exact signal ▸ record

end Sys2Proof.Proofs

/-! Events of the loop detector, the pulse engine and the dialling timers. -/

namespace Sys2Proof.Proofs

open Sys2Proof.Machine

/-! ### An event that is due -/

/-- The state uses the records of its line: SYNC, and the line with its sense. -/
theorem usesRecords_of {l : LineNo} {s : State} (sync : s.highway.sync = .sync) (sense : (s.line l).senseLost = false) :
    UsesRecords l s := ⟨sync, sense⟩

/-- An event of a line runs its operation where the line uses records. -/
theorem next_whileUsed {l : LineNo} {s : State} (sync : s.highway.sync = .sync) (sense : (s.line l).senseLost = false)
    (f : State → State) : (.next (whileUsed l f s) : Result) = .next (f s) :=
  congrArg _ (whileUsed_of_uses (usesRecords_of sync sense) f)

/-! ### Seizure -/

/-- The changes at a seizure in SYNC on a line with its sense (R10, R45, R59). -/
def seizureChanges (toned : Bool) (c : Line) : Line :=
  { c with
    lockoutTimer := 0, pulse := .initial
    tone := if toned then { ToneEngine.initial with run := if c.senseLost then .held else .running } else c.tone }

theorem seizureChanges_of_sense (toned : Bool) {c : Line} (sense : c.senseLost = false) :
    seizureChanges toned c = { c with
      lockoutTimer := 0, pulse := .initial
      tone := if toned then { ToneEngine.initial with run := .running } else c.tone } := by
  have runs : (if c.senseLost then RunCondition.held else .running) = .running := by
    rw [sense]
    rfl
  rw [seizureChanges, runs]

theorem enterSeized_eq {l : LineNo} {s : State} (sync : s.highway.sync = .sync) :
    enterSeized l s = releaseBanks (enter l .seized .seize (seizureChanges (s.profile l).toneDialling) s) := by
  unfold enterSeized move
  dsimp only
  rw [sync]
  congr 2
  funext c
  unfold seizureChanges startTone
  cases (s.profile l).toneDialling <;> rfl

/-- The lockout timer of a line that enters a state with it at 0 stays there behind the examination (R12, R83). -/
theorem lockoutTimer_of_entersState {l : LineNo} {after : Line} {cause : Cause} {s t : State}
    (entered : EntersState l after cause s t) (zero : after.lockoutTimer = 0) : (t.line l).lockoutTimer = 0 := by
  obtain ⟨m, -, line, -, examined⟩ := entered.examined
  have zero' : (m.line l).lockoutTimer = 0 := by
    rw [line]
    exact zero
  by_cases rest : (m.line l).RestPoint
  · exact (examines_rest examined rest).2.2.2.2 zero'
  · rw [examined.elsewhere rest, line_setLine_self]
    exact zero'

/-- Settles O40: a seizure that is due enters SEIZED. -/
theorem seizureMovesLine : Obligations.SeizureMovesLine := by
  intro s l sync sense idle looped lasted
  have due : seizureDue s l = true := by simp [seizureDue, idle, looped, lasted]
  have run : exec (.seizure l) s = .next (enterSeized l s) :=
    (next_whileUsed sync sense _).trans (congrArg _ (if_pos due))
  have entered : EntersState l { seizureChanges (s.profile l).toneDialling (s.line l) with
      state := .seized, commandedFeed := .forward } .seize s
      (enter l .seized .seize (seizureChanges (s.profile l).toneDialling) s) :=
    entersState_enter rfl rfl rfl rfl (settled_changeState rfl rfl rfl rfl)
  have zero := lockoutTimer_of_entersState entered rfl
  rw [enterSeized_eq sync] at run
  rw [seizureChanges_of_sense _ sense] at entered
  refine ⟨_, run, entered.moves sync, ?_⟩
  rw [line_releaseBanks]
  exact zero

/-! ### Release -/

/-- The changes at a release (R14, R34). -/
def releaseChanges (c : Line) : Line :=
  { c with
    polarity := .forward, tone := .initial
    pulse := { c.pulse with count := 0, digitStart := none, lastBreak := none }
    loop := { c.loop with
      brk := none, pendingMake := false, accepted := .noLoop, debounced := .noLoop, makeTimer := 0 } }

theorem enterReleased_eq (l : LineNo) (s : State) :
    enterReleased l s = releaseBanks (enter l .idle .release releaseChanges (closeString l .release s)) := by
  unfold enterReleased move
  congr 2

/-- Settles O41: a release that is due closes the string and enters IDLE. -/
theorem releaseMovesLine : Obligations.ReleaseMovesLine := by
  intro s l b sync sense broken timed lasted
  have due : releaseDue s l = true := by simp [releaseDue, broken, timed, openLength, lasted]
  have run : exec (.release l) s = .next (enterReleased l s) :=
    (next_whileUsed sync sense _).trans (congrArg _ (if_pos due))
  have closed := closesString_closeString l .release s
  rw [enterReleased_eq] at run
  generalize closeString l .release s = m at closed run
  have sync' : m.highway.sync = .sync := by
    rw [closed.frame.highway]
    exact sync
  have entered : EntersState l { releaseChanges (m.line l) with state := .idle, commandedFeed := .standby } .release m
      (enter l .idle .release releaseChanges m) :=
    entersState_enter rfl rfl rfl rfl (settled_changeState rfl rfl rfl rfl)
  exact ⟨m, _, closed, run, entered.moves sync'⟩

/-! ### Digit end -/

theorem pulseEntry_eq (e : PulseEngine) :
    pulseEntry e =
      if e.count ≤ 10 then
        ⟨.digit (Fin.ofNat 10 e.count), .pulse, e.digitStart.getD 0, some e.count, some e.tbase, none, none⟩
      else ⟨.error, .none, e.digitStart.getD 0, none, none, none, some .tooManyPulses⟩ := by
  unfold pulseEntry
  by_cases few : e.count ≤ 10
  · rw [if_pos few, if_neg (by change ¬ 11 ≤ e.count; omega)]
    rfl
  · rw [if_neg few, if_pos (by change 11 ≤ e.count; omega)]
    rfl

/-- A pulse digit in progress ends: its entry, and then its count is removed (R48, R51). -/
theorem endPulseDigit_of_count {l : LineNo} {s : State} (counted : 1 ≤ (s.line l).pulse.count) :
    endPulseDigit l s = modLine l (·.discardPulse) (takeEntry l (pulseEntry (s.line l).pulse) s) := if_pos counted

/-- Settles O44: a digit end that is due ends the pulse digit. -/
theorem digitEndMakesEntry : Obligations.DigitEndMakesEntry := by
  intro s l sync sense dials pulses counted whole lasted e entry
  have runs : pulseRuns (s.profile l) (s.line l).state = true := by
    simpa only [pulseRuns, dialling, pulses, Bool.and_true, Bool.true_and] using dials
  have due : digitEndDue s l = true := by
    simp [digitEndDue, runs, counted, whole, interdigit, lasted]
  have run : exec (.digitEnd l) s = .next (endPulseDigit l s) :=
    (next_whileUsed sync sense _).trans (congrArg _ (if_pos due))
  rw [endPulseDigit_of_count counted] at run
  refine ⟨takeEntry l (pulseEntry e) s, ?_, run⟩
  rw [show entry = pulseEntry e from (pulseEntry_eq e).symm]
  exact takesEntry_takeEntry sync l _

/-! ### The dialling timers -/

/-- The changes at the move to LOCKOUT (R12, R13, R60). -/
def lockoutChanges (c : Line) : Line :=
  { c with pulse := { c.pulse with count := 0, digitStart := none, lastBreak := none }, tone := .initial }

theorem enterLockout_eq (l : LineNo) (s : State) :
    enterLockout l s = releaseBanks (enter l .lockout .lockout lockoutChanges s) := by
  unfold enterLockout move
  congr 2

/-- The timers move without digit activity (R12, R83). -/
theorem timersHeld_eq_false {c : Line} (count : c.pulse.count = 0) (whole : c.loop.brk = none)
    (quiet : c.tone.state = .quiet) (mark : c.entryMark = false) : c.timersHeld = false := by
  rw [← Bool.not_eq_true, timersHeld_iff]
  simp [Line.TimersStand, count, whole, quiet, mark]

/-- Settles O45: either timer's event, where it is due, is its operation. -/
theorem diallingTimersExpire : Obligations.DiallingTimersExpire := by
  refine ⟨fun s l sync sense dials set reached count whole quiet mark => ?_,
    fun s l sync sense opened reached count whole quiet mark => ?_⟩
  · have moving := timersHeld_eq_false count whole quiet mark
    have due : lockoutDue s l = true := by
      simp only [lockoutDue, moving, reached, decide_true, Bool.and_true, Bool.not_false, Bool.and_eq_true, bne_iff_ne,
        Bool.or_eq_true, decide_eq_true_eq, List.isEmpty_iff]
      exact ⟨set, dials⟩
    have run : exec (.lockout l) s = .next (enterLockout l s) :=
      (next_whileUsed sync sense _).trans (congrArg _ (if_pos due))
    have entered : EntersState l { lockoutChanges (s.line l) with state := .lockout, commandedFeed := .standby } .lockout s
        (enter l .lockout .lockout lockoutChanges s) :=
      entersState_enter rfl rfl rfl rfl (settled_changeState rfl rfl rfl rfl)
    rw [enterLockout_eq] at run
    exact ⟨_, run, entered.moves sync⟩
  · intro reason
    have moving := timersHeld_eq_false count whole quiet mark
    have due : stringTimeoutDue s l = true := by
      simp [stringTimeoutDue, moving, reached, opened]
    have closes : stringTimeoutIfDue l s = closeString l reason s := by
      unfold stringTimeoutIfDue compareString reason
      rw [due]
      by_cases full : (s.profile l).strMax ≤ (s.line l).openString.length <;> simp [full]
    refine ⟨closeString l reason s, closesString_closeString .., ?_⟩
    rw [← closes]
    exact next_whileUsed sync sense _

end Sys2Proof.Proofs

/-! The counting of pulses, the classification of breaks, and the acceptance of transitions. -/

namespace Sys2Proof.Proofs

open Sys2Proof.Machine

/-! ### Pulses and their periods -/

theorem tbaseOf_eq (avgN : Nat) (history : List Nat) :
    tbaseOf avgN history = (history.reverse.take avgN).sum / min avgN history.length := by
  have taken : history.drop (history.length - min avgN history.length) = (history.reverse.take avgN).reverse := by
    rw [List.take_reverse, List.reverse_reverse]
    congr 1
    omega
  simp only [tbaseOf, taken, List.sum_reverse, List.length_reverse, List.length_take]

/-- The mean of a list lies between its bounds. -/
theorem mean_bounds {xs : List Nat} {low high : Nat} (some : xs ≠ []) (bounds : ∀ x ∈ xs, low ≤ x ∧ x ≤ high) :
    low ≤ xs.sum / xs.length ∧ xs.sum / xs.length ≤ high := by
  have length : 0 < xs.length := List.length_pos_of_ne_nil some
  have lower : xs.length * low ≤ xs.sum := by
    simpa using List.card_nsmul_le_sum xs low fun x mem => (bounds x mem).1
  have upper : xs.sum ≤ xs.length * high := by
    simpa using List.sum_le_card_nsmul xs high fun x mem => (bounds x mem).2
  exact ⟨(Nat.le_div_iff_mul_le length).mpr (by rw [mul_comm]; exact lower), Nat.div_le_of_le_mul upper⟩

theorem tbaseOf_bounds {avgN : Nat} {history : List Nat} {low high : Nat} (several : 1 ≤ avgN) (some : history ≠ [])
    (bounds : ∀ x ∈ history, low ≤ x ∧ x ≤ high) : low ≤ tbaseOf avgN history ∧ tbaseOf avgN history ≤ high := by
  have taken : tbaseOf avgN history = (history.reverse.take avgN).sum / (history.reverse.take avgN).length := by
    rw [tbaseOf_eq, List.length_take, List.length_reverse]
  rw [taken]
  refine mean_bounds ?_ fun x mem => bounds x (List.mem_reverse.mp (List.mem_of_mem_take mem))
  rw [Ne, List.take_eq_nil_iff, not_or]
  exact ⟨by omega, by simpa using some⟩

/-- A period that is captured leaves at most eight in the history (R44, R46). -/
theorem history_capturePeriod (p : Profile) (period : Nat) (e : PulseEngine) (few : e.history.length ≤ 8) :
    (capturePeriod p period e).history =
        (if e.history.length = 8 then e.history.drop 1 else e.history) ++ [min 4095 period] ∧
      (capturePeriod p period e).history.length ≤ 8 := by
  have full : historyCapacity ≤ e.history.length ↔ e.history.length = 8 := by
    change 8 ≤ _ ↔ _
    omega
  have history : (capturePeriod p period e).history =
      (if e.history.length = 8 then e.history.drop 1 else e.history) ++ [min 4095 period] := by
    simp only [capturePeriod, full]
    rfl
  refine ⟨history, ?_⟩
  rw [history]
  split <;> simp <;> omega

theorem stampDistance_eq (a b : Stamp) : stampDistance a b = (a - b).toNat := rfl

theorem countPulse_of_none {p : Profile} {stamp : Stamp} {e : PulseEngine} (first : e.count = 0 ∨ e.lastBreak = none) :
    countPulse p stamp e = { e with
      count := min 11 (e.count + 1), digitStart := if e.count = 0 then some stamp else e.digitStart,
      lastBreak := some stamp } := by
  unfold countPulse
  split
  · next last eq =>
    obtain zero | absent := first
    · rw [if_neg (by omega)]
      rfl
    · rw [absent] at eq
      cases eq
  · rfl

theorem countPulse_of_some {p : Profile} {stamp last : Stamp} {e : PulseEngine} (counted : 1 ≤ e.count)
    (before : e.lastBreak = some last) :
    countPulse p stamp e = { capturePeriod p (stamp - last).toNat e with
      count := min 11 (e.count + 1), digitStart := if e.count = 0 then some stamp else e.digitStart,
      lastBreak := some stamp } := by
  unfold countPulse
  rw [before]
  dsimp only
  rw [if_pos counted]
  rfl

/-- Settles O43: by whether a counted break comes before, and the mean's bounds. -/
theorem pulseCounted : Obligations.PulseCounted := by
  refine ⟨fun p stamp e few => ?_, fun avgN history low high several => ?_⟩
  · by_cases first : e.count = 0 ∨ e.lastBreak = none
    · dsimp only
      rw [countPulse_of_none first]
      refine ⟨rfl, rfl, few, rfl, fun _ => ⟨rfl, rfl⟩, fun last counted before => ?_⟩
      obtain zero | absent := first
      · omega
      · rw [absent] at before
        cases before
    · obtain ⟨counted, before⟩ := not_or.mp first
      obtain ⟨last, before⟩ := Option.ne_none_iff_exists'.mp before
      have captured := history_capturePeriod p (stamp - last).toNat e few
      dsimp only
      rw [countPulse_of_some (by omega) before]
      refine ⟨rfl, rfl, captured.2, rfl, fun zero => absurd zero counted, fun last' _ before' => ?_⟩
      rw [before] at before'
      cases before'
      exact ⟨captured.1, rfl⟩
  · exact ⟨by rw [tbaseOf_eq]; simp, tbaseOf_eq .., fun some bounds => tbaseOf_bounds several some bounds⟩

/-! ### Make confirmation -/

/-- The removal of a confirmed break (R30). -/
theorem exec_makeConfirm {s : State} {l : LineNo} {b : Break} {d : Nat} (due : confirms s l b d) :
    exec (.makeConfirm l) s = .next (modLine l confirmed (classifyBreak l b d s)) := by
  obtain ⟨sync, sense, timed, broken, pending, lasted, length⟩ := due
  have dueNow : makeConfirmDue s l = true := by simp [makeConfirmDue, timed, pending, broken, lasted]
  have open_eq : openLength (s.line l).loop b = d := by simp [openLength, pending, length]
  refine (next_whileUsed sync sense _).trans (congrArg _ ?_)
  unfold makeConfirmIfDue
  rw [broken]
  dsimp only
  rw [if_pos dueNow, open_eq]
  rfl

theorem flashLength_iff (p : Profile) (d : Nat) : flashLength p d = true ↔ p.flashMin ≤ d ∧ d ≤ p.flashMax := by
  simp [flashLength]

theorem flashLength_eq_false {p : Profile} {d : Nat} (h : ¬ (p.flashMin ≤ d ∧ d ≤ p.flashMax)) : flashLength p d = false := by
  rw [← Bool.not_eq_true, flashLength_iff]
  exact h

section

variable {s : State} {l : LineNo} {b : Break} {d : Nat}

theorem classifyBreak_interrupted (h : b.interrupted = true) : classifyBreak l b d s = s := if_pos h

theorem classifyBreak_connected (whole : b.interrupted = false) (connected : (s.line l).state = .connected) :
    classifyBreak l b d s = if flashLength (s.profile l) d then takeEntry l (flashEntry b d) s else s := by
  simp [classifyBreak, whole, connected]

theorem classifyBreak_other (whole : b.interrupted = false) (other : (s.line l).state ≠ .connected)
    (idle : dialling (s.line l).state = false) : classifyBreak l b d s = s := by
  simp [classifyBreak, whole, other, idle]

theorem classifyBreak_dialling (whole : b.interrupted = false) (dials : dialling (s.line l).state = true) :
    classifyBreak l b d s =
      if d < (s.profile l).brkMin then s
      else if flashLength (s.profile l) d then takeEntry l (flashEntry b d) (endPulseDigit l s)
      else if !(s.profile l).pulseDialling then s
      else if d ≤ (s.profile l).brkMax then
        modLine l (fun c => { c with pulse := countPulse (s.profile l) b.stamp c.pulse }) s
      else takeEntry l (errorEntry .badBreak b.stamp) (modLine l (·.discardPulse) s) := by
  have other : (s.line l).state ≠ .connected := by
    intro connected
    rw [connected] at dials
    cases dials
  simp [classifyBreak, whole, other, dials]

end

/-- Settles O42, without an entry: the break is ignored or counted, and removed. -/
theorem makeConfirm_without_entry (s : State) (l : LineNo) (b : Break) (d : Nat) (due : confirms s l b d) :
    let p := s.profile l
    let c := s.line l
    let flash := p.flashMin ≤ d ∧ d ≤ p.flashMax
    let becomes (c' : Line) := exec (.makeConfirm l) s = .next (setLine l c' s)
    (b.interrupted = true → becomes (confirmed c)) ∧
    (c.state = .lockout → becomes (confirmed c)) ∧
    (c.state = .connected → ¬ flash → becomes (confirmed c)) ∧
    (dialling c.state = true → d < p.brkMin → becomes (confirmed c)) ∧
    (dialling c.state = true → ¬ flash → p.pulseDialling = false → becomes (confirmed c)) ∧
    (b.interrupted = false → dialling c.state = true → p.pulseDialling = true → p.brkMin ≤ d → d ≤ p.brkMax →
      d < p.flashMin → becomes (confirmed { c with pulse := countPulse p b.stamp c.pulse })) := by
  intro p c flash becomes
  have run := exec_makeConfirm due
  have ignored : (b.interrupted = false → classifyBreak l b d s = s) → becomes (confirmed c) := fun whole => by
    have same : classifyBreak l b d s = s := by
      cases interrupted : b.interrupted with
      | true => exact classifyBreak_interrupted interrupted
      | false => exact whole interrupted
    rw [same] at run
    exact run
  refine ⟨fun interrupted => ignored fun whole => ?_, fun lockout => ignored fun whole => ?_,
    fun connected no => ignored fun whole => ?_, fun dials short => ignored fun whole => ?_,
    fun dials no tone => ignored fun whole => ?_, fun whole dials pulses reached within below => ?_⟩
  · rw [interrupted] at whole
    cases whole
  · have state : (s.line l).state = .lockout := lockout
    exact classifyBreak_other whole (by rw [state]; decide) (by rw [state]; rfl)
  · rw [classifyBreak_connected whole connected, flashLength_eq_false no]
    rfl
  · exact (classifyBreak_dialling whole dials).trans (if_pos short)
  · rw [classifyBreak_dialling whole dials, flashLength_eq_false no]
    have excluded : (s.profile l).pulseDialling = false := tone
    simp [excluded]
  · have pulses' : (s.profile l).pulseDialling = true := pulses
    rw [classifyBreak_dialling whole dials, if_neg (Nat.not_lt.mpr reached),
      flashLength_eq_false fun f => absurd f.1 (Nat.not_le.mpr below), pulses'] at run
    rw [if_neg (by decide), if_neg (by decide), if_pos within] at run
    exact run.trans (congrArg _ (modLine_setLine ..))

/-- Settles O42: a confirmation classifies its break, and removes it. -/
theorem makeConfirmClassifies : Obligations.MakeConfirmClassifies := by
  refine ⟨makeConfirm_without_entry, ?_⟩
  intro s l b d due whole p c flash bad noPulse ends
  have run := exec_makeConfirm due
  have sync : s.highway.sync = .sync := due.1
  refine ⟨fun connected low high => ?_, fun dials reached low high none => ?_, fun dials reached low high counted => ?_,
    fun dials pulses reached long no => ?_⟩
  · rw [classifyBreak_connected whole connected, if_pos ((flashLength_iff ..).mpr ⟨low, high⟩)] at run
    exact ⟨_, takesEntry_takeEntry sync l _, run⟩
  · have quiet : endPulseDigit l s = s := if_neg (by rw [show (s.line l).pulse.count = 0 from none]; decide)
    rw [classifyBreak_dialling whole dials, if_neg (Nat.not_lt.mpr reached),
      if_pos ((flashLength_iff ..).mpr ⟨low, high⟩), quiet] at run
    exact ⟨_, takesEntry_takeEntry sync l _, run⟩
  · rw [classifyBreak_dialling whole dials, if_neg (Nat.not_lt.mpr reached),
      if_pos ((flashLength_iff ..).mpr ⟨low, high⟩), endPulseDigit_of_count counted] at run
    have counts : TakesEntry l (pulseEntry c.pulse) s (takeEntry l (pulseEntry c.pulse) s) := takesEntry_takeEntry sync l _
    have sync' : (takeEntry l (pulseEntry c.pulse) s).highway.sync = .sync := by
      rw [(onlyLine_takeEntry ..).highway]
      exact sync
    change exec _ _ = Host.Outcome.next (modLine l confirmed (takeEntry l flash
      (modLine l (·.discardPulse) (takeEntry l (pulseEntry c.pulse) s)))) at run
    generalize takeEntry l (pulseEntry c.pulse) s = n at counts run sync'
    have flashes := takesEntry_takeEntry (s := modLine l (·.discardPulse) n) sync' l flash
    generalize takeEntry l flash (modLine l (·.discardPulse) n) = m at flashes run
    exact ⟨n, m, counts, flashes, run⟩
  · have pulses' : (s.profile l).pulseDialling = true := pulses
    rw [classifyBreak_dialling whole dials, if_neg (Nat.not_lt.mpr reached),
      flashLength_eq_false fun f => no.elim (Nat.not_lt.mpr f.1) (Nat.not_lt.mpr f.2), pulses'] at run
    rw [if_neg (by decide), if_neg (by decide), if_neg (Nat.not_le.mpr long)] at run
    exact ⟨_, takesEntry_takeEntry (by exact sync) l _, run⟩

/-! ### Acceptance and masks -/

theorem exec_debounceAccept {s : State} {l : LineNo} {r : DebounceRun} (sync : s.highway.sync = .sync)
    (sense : (s.line l).senseLost = false) (runs : detectorRuns (s.line l) = true) (running : (s.line l).loop.run = some r)
    (one : 1 ≤ r.count) (reached : (s.profile l).debounce ≤ r.count) :
    exec (.debounceAccept l) s = .next (setLine l { s.line l with
      loop := acceptRun (s.profile l) (s.line l).state (s.line l).pulse.tbase r (s.line l).loop } s) := by
  have due : acceptDue s l = true := by simp [acceptDue, running, runs, one, reached]
  refine (next_whileUsed sync sense _).trans (congrArg _ ?_)
  unfold acceptIfDue
  dsimp only
  rw [running]
  exact if_pos due

section

variable (p : Profile) (st : LineState) (tbase : Nat) (r : DebounceRun) {d : LoopDetector}

/-- The detector with an accepted run's transition and its edge mask (R26, R27). -/
def atTransition (d : LoopDetector) : LoopDetector :=
  { d with
    transition := some r.start, run := none
    edgeExpiry := some (r.start + BitVec.ofNat 16 (max p.maskMin (p.maskFrac * tbase / 128))) }

theorem acceptRun_of_loop (looped : d.accepted = .loop) :
    acceptRun p st tbase r d = { atTransition p tbase r d with
      accepted := .noLoop, debounced := .noLoop, makeTimer := 0, pendingMake := false
      brk := if timesBreaks st && d.brk.isNone then some ⟨r.start, r.age, false⟩ else d.brk } := by
  unfold acceptRun
  dsimp only
  rw [looped]
  rfl

theorem acceptRun_of_noLoop (opened : d.accepted = .noLoop) :
    acceptRun p st tbase r d =
      if d.brk.isSome then { atTransition p tbase r d with accepted := .loop, makeTimer := r.age, pendingMake := true }
      else { atTransition p tbase r d with accepted := .loop, makeTimer := r.age, debounced := .loop } := by
  unfold acceptRun
  dsimp only
  rw [opened]
  rfl

end

/-- Settles O39: the acceptance by the accepted level and the break, and the three ends of a mask. -/
theorem debounceAcceptsAndMasksEnd : Obligations.DebounceAcceptsAndMasksEnd := by
  refine ⟨fun s l r sync sense runs running one reached => ?_, fun s l sync sense => ?_⟩
  · intro p d mask accepted becomes
    have run := exec_debounceAccept sync sense runs running one reached
    refine ⟨fun looped timed whole => ?_, fun looped untimed => ?_, fun opened whole => ?_, fun opened broken => ?_⟩
    · rw [acceptRun_of_loop _ _ _ _ looped, if_pos (by simp [timed, whole])] at run
      exact run
    · have same : ¬ (timesBreaks (s.line l).state && (s.line l).loop.brk.isNone) = true := by
        have present : (s.line l).loop.brk.isSome = true → (s.line l).loop.brk.isNone = false := by simp
        obtain out | broken := untimed
        · simp [out]
        · simp [present broken]
      rw [acceptRun_of_loop _ _ _ _ looped, if_neg same] at run
      exact run
    · rw [acceptRun_of_noLoop _ _ _ _ opened, if_neg (by simp [whole])] at run
      exact run
    · rw [acceptRun_of_noLoop _ _ _ _ opened, if_pos (by exact broken)] at run
      exact run
  · intro c becomes
    have event : ∀ {i : Instr} {f : Line → Line}, exec i s = .next (whileUsed l (modLine l f) s) → becomes i (f c) :=
      fun eq => eq.trans (next_whileUsed sync sense _)
    refine ⟨fun e runs expiry => ?_, fun one => ?_, fun ringing on armed one => ?_⟩
    · have stop := event (i := .edgeMaskExpire l) rfl
      rw [if_pos runs] at stop
      have masked : edgeMasked c.loop s.stamp = true ↔ 1 ≤ (e - s.stamp).toNat ∧ (e - s.stamp).toNat ≤ 32767 := by
        simp only [edgeMasked, expiry, earlier, Bool.and_eq_true, decide_eq_true_eq]
        rfl
      refine ⟨fun past => ?_, fun low high => ?_⟩
      · rw [expireEdge, if_neg (by rw [masked]; omega)] at stop
        exact stop
      · rw [expireEdge, if_pos (masked.mpr ⟨low, high⟩)] at stop
        exact stop
    · have stop := event (i := .feedMaskEnd l) rfl
      rw [if_pos one] at stop
      rw [LoopDetector.reduceMask, one] at stop
      exact stop
    · have stop : exec (.ringMaskEnd l) s = .next (ringMaskEndIfDue l s) := next_whileUsed sync sense _
      have due : ringMaskEndIfDue l s = modLine l (fun c => { c with ring := c.ring.reduceMask }) s :=
        if_pos (by simp [show (s.line l).state = _ from ringing, show ringOnStep (s.line l).ring.step = _ from on,
          show (s.line l).ring.armed = _ from armed, show (s.line l).ring.maskCount = _ from one])
      rw [due] at stop
      refine stop.trans (congrArg _ ?_)
      have left : (s.line l).ring.reduceMask = { (s.line l).ring with maskCount := 0 } := by
        rw [RingSequencer.reduceMask, show (s.line l).ring.maskCount = 1 from one]
      rw [modLine, left]

end Sys2Proof.Proofs

/-! The ring sequencer's events, and the records that a line uses. -/

namespace Sys2Proof.Proofs

open Sys2Proof.Machine

/-! ### Ring steps -/

theorem ringOnStep_some (n : Nat) : ringOnStep (some n) = decide (n % 2 = 1) := rfl

/-- The context of a RINGING line at the beginning of a ring step (R36, R95, R102). -/
def stepBegun (step : Nat) (left : Option Nat) (c : Line) : Line :=
  { c with
    commandedFeed := if step % 2 = 1 then .ring else .standby
    loop := .initial c.loop.feedMask
    ring := { c.ring with
      step := some step, timer := 0, cyclesLeft := left, armed := false, maskCount := 0, window := [], windowSum := 0
      tripRun := 0 } }

theorem feedByState_of_ringing {c : Line} {step : Nat} (ringing : c.state = .ringing) (on : c.ring.step = some step) :
    c.feedByState = some (if step % 2 = 1 then .ring else .standby) := by
  simp [Line.feedByState, ringing, on, ringOnStep_some]

theorem refreshFeed_of_feedByState {l : LineNo} {s : State} {f : FeedCode} (feed : (s.line l).feedByState = some f) :
    refreshFeed l s = setLine l { s.line l with commandedFeed := f } s :=
  congrArg (fun f => setLine l { s.line l with commandedFeed := f } s) (feedFor_of_feedByState feed)

theorem beginRingStep_eq {l : LineNo} {s : State} (ringing : (s.line l).state = .ringing) (step : Nat) :
    beginRingStep l step s = setLine l (stepBegun step (s.line l).ring.cyclesLeft (s.line l)) s := by
  have begun : beginRingStep l step s = refreshFeed l (setLine l { stepBegun step (s.line l).ring.cyclesLeft (s.line l) with
      commandedFeed := (s.line l).commandedFeed } s) := by
    unfold beginRingStep modLine
    rfl
  rw [begun, refreshFeed_of_feedByState (by rw [line_setLine_self]; exact feedByState_of_ringing ringing rfl),
    setLine_setLine, line_setLine_self]
  rfl

section

variable {s : State} {l : LineNo} {n : Nat}

/-- A ring step that is due on step `n` (R95). -/
structure StepDue (s : State) (l : LineNo) (n : Nat) : Prop where
  ringing : (s.line l).state = .ringing
  step : (s.line l).ring.step = some n
  due : ringStepDue s l = true

theorem ringStepExpire_next (h : StepDue s l n) (last : lastCadenceStep (s.cadenceWords l) n = false) :
    ringStepExpireIfDue l s = beginRingStep l (n + 1) s := by
  simp [ringStepExpireIfDue, h.due, h.step, last]

theorem ringStepExpire_endless (h : StepDue s l n) (last : lastCadenceStep (s.cadenceWords l) n = true)
    (left : (s.line l).ring.cyclesLeft = none) : ringStepExpireIfDue l s = beginRingStep l 1 s := by
  simp [ringStepExpireIfDue, h.due, h.step, last, left]

theorem ringStepExpire_end (h : StepDue s l n) (last : lastCadenceStep (s.cadenceWords l) n = true)
    (left : (s.line l).ring.cyclesLeft = some 1) : ringStepExpireIfDue l s = releaseBanks (endRinging l .ringEnd s) := by
  simp [ringStepExpireIfDue, h.due, h.step, last, left]

theorem ringStepExpire_cycle {k : Nat} (h : StepDue s l n) (last : lastCadenceStep (s.cadenceWords l) n = true)
    (left : (s.line l).ring.cyclesLeft = some k) (more : 2 ≤ k) : ringStepExpireIfDue l s =
      beginRingStep l 1 (setLine l { s.line l with ring := { (s.line l).ring with cyclesLeft := some (k - 1) } } s) := by
  have more' : ¬ k ≤ 1 := by omega
  simp [ringStepExpireIfDue, h.due, h.step, last, left, more', modLine]

end

theorem lastCadenceStep_eq (ws : List Word16) (n : Nat) :
    lastCadenceStep ws n = decide (6 ≤ n ∨ ws.getD n 0 = 0) := by
  have zero : (ws.getD n 0).toNat = 0 ↔ ws.getD n 0 = 0 := by
    rw [← BitVec.toNat_inj]
    rfl
  have duration : cadenceDuration ws (n + 1) = (ws.getD n 0).toNat := rfl
  rw [lastCadenceStep, duration, Bool.decide_or, decide_eq_decide.mpr zero]

theorem ringEnd_loop (n : Nat) {c : Line} (on : c.ring.step = some n) (a b : LoopDetector) :
    (if ringOnStep c.ring.step then a else b) = if n % 2 = 1 then a else b := by
  rw [on, ringOnStep_some]
  by_cases odd : n % 2 = 1 <;> simp [odd]

/-- Settles O46: by whether the step is the last of its pattern, and by the cycles left. -/
theorem ringStepExpires : Obligations.RingStepExpires := by
  intro s l n sync sense ringing step one reached c last begun becomes
  have due : StepDue s l n := by
    refine ⟨ringing, step, ?_⟩
    have duration : cadenceDuration (s.cadenceWords l) n ≤ (s.line l).ring.timer := reached
    simp [ringStepDue, ringing, step, duration, one]
  have run : exec (.ringStepExpire l) s = .next (ringStepExpireIfDue l s) := next_whileUsed sync sense _
  have last_eq : lastCadenceStep (s.cadenceWords l) n = last := lastCadenceStep_eq ..
  refine ⟨fun goesOn => ?_, fun ends endless => ?_, fun k ends left more => ?_, fun ends left => ?_⟩
  · rw [ringStepExpire_next due (last_eq.trans goesOn), beginRingStep_eq ringing] at run
    exact run
  · rw [ringStepExpire_endless due (last_eq.trans ends) endless, beginRingStep_eq ringing,
      show (s.line l).ring.cyclesLeft = none from endless] at run
    exact run
  · rw [ringStepExpire_cycle due (last_eq.trans ends) left more,
      beginRingStep_eq (by rw [line_setLine_self]; exact ringing), line_setLine_self, setLine_setLine] at run
    exact run
  · rw [ringStepExpire_end due (last_eq.trans ends) left] at run
    have entered := entersState_endRinging (l := l) (cause := .ringEnd) s
    rw [ringEnd_loop n step] at entered
    exact ⟨_, run, entered.moves sync⟩

/-! ### Answer -/

/-- Measuring a current (R100): the window, its sum, and the run that follows the mean. -/
theorem measureRing_spec (p : Profile) (i : Int) (r : RingSequencer) (several : 1 ≤ p.rtWin)
    (short : r.window.length ≤ p.rtWin) (summed : r.windowSum = r.window.sum) :
    let r' := measureRing p i r
    r'.window = (if r.window.length = p.rtWin then r.window.drop 1 else r.window) ++ [i] ∧
    r'.window.length ≤ p.rtWin ∧ r'.windowSum = r'.window.sum ∧
    r'.tripRun =
      (if r'.window.length < p.rtWin then 0
       else if (p.rtThr : Int) ≤ (r'.window.sum.tdiv p.rtWin).natAbs then min 15 (r.tripRun + 1) else 0) := by
  intro r'
  have full : p.rtWin ≤ r.window.length ↔ r.window.length = p.rtWin := by omega
  have window : r'.window = (if r.window.length = p.rtWin then r.window.drop 1 else r.window) ++ [i] := by
    simp only [r', measureRing, full]
  have sum : r'.windowSum = r'.window.sum := by
    have split_sum : r.window.sum = (if r.window.length = p.rtWin then r.window.headD 0 else 0) +
        (if r.window.length = p.rtWin then r.window.drop 1 else r.window).sum := by
      split
      · cases r.window <;> simp
      · simp
    have value : r'.windowSum =
        r.windowSum - (if r.window.length = p.rtWin then r.window.headD 0 else 0) + i := by
      simp only [r', measureRing, full]
    rw [value, window, summed, split_sum, List.sum_append]
    simp
  refine ⟨window, ?_, sum, ?_⟩
  · rw [window]
    split <;> simp <;> omega
  · have run : r'.tripRun = (if r'.window.length < p.rtWin then 0
        else if (p.rtThr : Int) ≤ (r'.windowSum.tdiv p.rtWin).natAbs then min 15 (r.tripRun + 1) else 0) := rfl
    rw [run, sum]

/-- The changes at an answer in SYNC (R15, R35, R103). -/
def answerChanges (toned : Bool) (stamp : Stamp) (c : Line) : Line :=
  { c with
    polarity := .forward, ring := .initial
    loop := { c.loop with
      accepted := .loop, debounced := .loop, transition := some stamp, run := none, edgeExpiry := none, brk := none
      pendingMake := false, makeTimer := 0 }
    tone := if toned then { ToneEngine.initial with run := if c.senseLost then .held else .running } else c.tone }

theorem answerChanges_of_sense (toned : Bool) (stamp : Stamp) {c : Line} (sense : c.senseLost = false) :
    answerChanges toned stamp c = { c with
      polarity := .forward, ring := .initial
      loop := { c.loop with
        accepted := .loop, debounced := .loop, transition := some stamp, run := none, edgeExpiry := none, brk := none
        pendingMake := false, makeTimer := 0 }
      tone := if toned then { ToneEngine.initial with run := .running } else c.tone } := by
  have runs : (if c.senseLost then RunCondition.held else .running) = .running := by
    rw [sense]
    rfl
  rw [answerChanges, runs]

theorem enterAnswered_eq {l : LineNo} {s : State} (sync : s.highway.sync = .sync) :
    enterAnswered l s =
      releaseBanks (enter l .connected .answer (answerChanges (s.profile l).connTone s.stamp) s) := by
  unfold enterAnswered move
  dsimp only
  rw [sync]
  congr 2
  funext c
  unfold answerChanges startTone LoopDetector.answered Line.stopRing
  cases (s.profile l).connTone <;> rfl

theorem movesLine_enterAnswered {l : LineNo} {s : State} (uses : UsesRecords l s) :
    MovesLine l
      { s.line l with
        state := .connected, commandedFeed := .forward, polarity := .forward, ring := .initial
        loop := { (s.line l).loop with
          accepted := .loop, debounced := .loop, transition := some s.stamp, run := none, edgeExpiry := none, brk := none
          pendingMake := false, makeTimer := 0 }
        tone := if (s.profile l).connTone then { ToneEngine.initial with run := .running } else (s.line l).tone }
      .answer s (enterAnswered l s) := by
  have entered : EntersState l { answerChanges (s.profile l).connTone s.stamp (s.line l) with
      state := .connected, commandedFeed := .forward } .answer s
      (enter l .connected .answer (answerChanges (s.profile l).connTone s.stamp) s) :=
    entersState_enter rfl rfl rfl rfl (settled_changeState rfl rfl rfl rfl)
  rw [answerChanges_of_sense _ _ uses.sense] at entered
  rw [enterAnswered_eq uses.sync]
  exact entered.moves uses.sync

/-! ### Records that a line uses -/

/-- The states in which a record is the detector's and then the interdigit check's (R3, R23, R48). -/
def detects (st : LineState) : Bool :=
  st = .idle || st = .seized || st = .dialling || st = .connected || st = .lockout

theorem detects_of_follows {a b : LineState} (follows : Follows a b) (h : detects a = true) : detects b = true := by
  obtain rfl | ⟨-, rfl⟩ | ⟨-, rfl⟩ := follows
  · exact h
  · rfl
  · rfl

theorem eq_of_follows {a b : LineState} (follows : Follows a b) (h : dialling a = false) : b = a := by
  obtain same | ⟨dials, -⟩ | ⟨rfl, -⟩ := follows
  · exact same
  · rw [h] at dials
    cases dials
  · cases h

section

variable {l : LineNo} {h : Handed} {masked : Bool} {s : State}

theorem blocksRecord_of_detects (det : detects (s.line l).state = true) :
    blocksRecord l h masked s = digitEndIfDue l (useDetector l h.i masked s) := by
  unfold blocksRecord
  cases st : (s.line l).state
  case disabled | ringing | fault | test =>
    rw [st] at det
    cases det
  all_goals rfl

theorem blocksRecord_of_ringing (ringing : (s.line l).state = .ringing) :
    blocksRecord l h masked s = ringRecord l h.i h.held masked s := by
  unfold blocksRecord
  rw [ringing]

theorem blocksRecord_of_still (still : (s.line l).state = .disabled ∨ (s.line l).state = .fault) :
    blocksRecord l h masked s = s := by
  unfold blocksRecord
  obtain st | st := still <;> rw [st]

theorem blocksRecord_of_test (test : (s.line l).state = .test) (held : testHeld s l = true) :
    blocksRecord l h masked s = testRecord l h s := by
  unfold blocksRecord
  rw [test]
  exact if_pos held

end

theorem held_handedRecord (c : Line) (echo : Option FeedCode) (i vt vr : Word16) :
    (c.handedRecord echo i vt vr).held = echo.isNone := by
  cases echo <;> rfl

theorem ite_testHeld_of_not_held {s : State} {l : LineNo} (free : testHeld s l = false) (lost : Bool) (a b : State) :
    (if lost && testHeld s l then a else b) = b := by
  rw [free, Bool.and_false]
  rfl

/-- Settles O36: the blocks of a line are those of the state in which the timers leave it. -/
theorem recordUsedByLine : Obligations.RecordUsedByLine := by
  intro s l status i vt vr o echo arrives carries used free
  refine ⟨fun detecting => ?_, fun still => ?_⟩
  · have det : detects (s.line l).state = true := by
      simpa only [detects, Bool.or_eq_true, decide_eq_true_eq, or_assoc] using detecting
    refine recordUsed_senseRecord arrives carries used _ fun w uses _ follows _ current _ _ => ?_
    rw [ite_testHeld_of_not_held free, blocksRecord_of_detects (detects_of_follows follows det), current]
    have detector := detectorUses_useDetector uses ((s.line l).handedRecord echo i vt vr).i
      (decide (1 ≤ (s.line l).maskCount (s.profile l).feedMask echo))
    rw [decide_eq_true_eq] at detector
    exact ⟨_, detector, makes_digitEnd (uses.step (lineStep_useDetector ..))⟩
  · refine recordUsed_senseRecord arrives carries used _ fun w uses _ follows _ _ _ _ => ?_
    have same : (w.line l).state = (s.line l).state := by
      refine eq_of_follows follows ?_
      obtain st | st := still <;> rw [st] <;> rfl
    rw [ite_testHeld_of_not_held free, blocksRecord_of_still (by rw [same]; exact still)]

/-- Settles O47: the measurement, the answer where a trip is due, and the sequencer's part of a record. -/
theorem ringTripAnswers : Obligations.RingTripAnswers := by
  refine ⟨measureRing_spec, fun s l sync sense ringing => ?_, fun s l status i vt vr o echo arrives carries used free ringing => ?_⟩
  · intro c answered
    refine ⟨fun on one reached => ?_, fun off looped lasted => ?_⟩
    · have due : ringTripDue s l = true := by
        simp only [ringTripDue, ringing, decide_true, Bool.true_and, Bool.and_eq_true, decide_eq_true_eq]
        exact ⟨⟨on, one⟩, reached⟩
      have run : exec (.ringTrip l) s = .next (enterAnswered l s) :=
        (next_whileUsed sync sense _).trans (congrArg _ (if_pos due))
      exact ⟨_, run, movesLine_enterAnswered ⟨sync, sense⟩⟩
    · have due : ringOffTripDue s l = true := by
        simp only [ringOffTripDue, ringing, decide_true, Bool.true_and, Bool.and_eq_true, decide_eq_true_eq,
          Bool.not_eq_true']
        exact ⟨⟨off, looped⟩, lasted⟩
      have run : exec (.ringOffTrip l) s = .next (enterAnswered l s) :=
        (next_whileUsed sync sense _).trans (congrArg _ (if_pos due))
      exact ⟨_, run, movesLine_enterAnswered ⟨sync, sense⟩⟩
  · refine recordUsed_senseRecord arrives carries used _ fun w uses _ follows _ current _ _ => ?_
    have same : (w.line l).state = .ringing := by
      rw [← ringing]
      refine eq_of_follows follows ?_
      rw [ringing]
      rfl
    rw [ite_testHeld_of_not_held free, blocksRecord_of_ringing same, current, held_handedRecord]
    have sequencer := sequencerUses_ringRecord uses ((s.line l).handedRecord echo i vt vr).i echo.isNone
      (decide (1 ≤ (s.line l).maskCount (s.profile l).feedMask echo))
    rw [decide_eq_true_eq] at sequencer
    exact sequencer

end Sys2Proof.Proofs

/-! The fault monitor: a confirmation, a clearing, and the close of a window. -/

namespace Sys2Proof.Proofs

open Sys2Proof.Machine

/-! ### What the line makes of a change of severity -/

theorem next_inSync {s : State} (sync : s.highway.sync = .sync) (f : State → State) :
    (.next (inSync f s) : Result) = .next (f s) := congrArg _ (if_pos sync)

/-- The changes at the move to FAULT (R16, R104). -/
def faultChanges (c : Line) : Line :=
  { c with
    polarity := .forward, ring := .initial, tone := .initial, loop := .initial c.loop.feedMask
    pulse := { c.pulse with count := 0, digitStart := none, lastBreak := none } }

theorem enterFault_eq (l : LineNo) (s : State) :
    enterFault l s = releaseBanks (enter l .fault .fault faultChanges (closeString l .fault s)) := by
  have changes : (fun c : Line => { c.dropDigits.stopRing with polarity := .forward }) = faultChanges := by
    funext c
    simp only [faultChanges, Line.stopRing, Line.dropDigits, Line.restartDetector, Line.stopTone, Line.discardPulse]
  rw [enterFault, move, changes]

/-- A working line enters FAULT behind the close of its string (R16). -/
theorem movesLine_enterFault {l : LineNo} {s : State} (sync : s.highway.sync = .sync) :
    ∃ m, ClosesString l .fault s m ∧
      MovesLine l
        { m.line l with
          state := .fault, commandedFeed := .opened, polarity := .forward, ring := .initial, tone := .initial,
          loop := .initial (m.line l).loop.feedMask,
          pulse := { (m.line l).pulse with count := 0, digitStart := none, lastBreak := none } } .fault m
        (enterFault l s) := by
  have closed := closesString_closeString l .fault s
  have entered : ∀ m : State, EntersState l { faultChanges (m.line l) with state := .fault, commandedFeed := .opened }
      .fault m (enter l .fault .fault faultChanges m) := fun m =>
    entersState_enter rfl rfl rfl rfl (settled_changeState rfl rfl rfl rfl)
  rw [enterFault_eq]
  generalize closeString l .fault s = m at closed
  have sync' : m.highway.sync = .sync := by
    rw [closed.frame.highway]
    exact sync
  exact ⟨m, closed, (entered m).moves sync'⟩

/-- The change at the move out of FAULT (R17). -/
def clearedChanges (c : Line) : Line := { c with loop := .initial c.loop.feedMask }

theorem leaveFault_eq (l : LineNo) (s : State) :
    leaveFault l s = releaseBanks (enter l .idle .faultCleared clearedChanges s) := by
  rw [leaveFault, move]
  rfl

/-- A line leaves FAULT for IDLE, its detector afresh (R17). -/
theorem movesLine_leaveFault {l : LineNo} {s : State} (sync : s.highway.sync = .sync) :
    MovesLine l { s.line l with state := .idle, commandedFeed := .standby, loop := .initial (s.line l).loop.feedMask }
      .faultCleared s (leaveFault l s) := by
  have entered : EntersState l { clearedChanges (s.line l) with state := .idle, commandedFeed := .standby } .faultCleared s
      (enter l .idle .faultCleared clearedChanges s) :=
    entersState_enter rfl rfl rfl rfl (settled_changeState rfl rfl rfl rfl)
  rw [leaveFault_eq]
  exact entered.moves sync

section

variable {l : LineNo} {before after : Bool} {s : State}

theorem reportHazard_raised (was : before = false) (now : after = true) (working : workingState (s.line l).state = true) :
    reportHazard l before after s = enterFault l s := by
  simp [reportHazard, was, now, working]

theorem reportHazard_gone (was : before = true) (now : after = false) (fault : (s.line l).state = .fault) :
    reportHazard l before after s = leaveFault l s := by
  simp [reportHazard, was, now, fault]

theorem reportHazard_same (same : before = after) : reportHazard l before after s = s := by
  subst same
  cases before <;> simp [reportHazard]

theorem reportHazard_neither (idle : workingState (s.line l).state = false) (other : (s.line l).state ≠ .fault) :
    reportHazard l before after s = s := by
  simp [reportHazard, idle, other]

end

/-! ### Confirmation -/

theorem raiseOffered_eq (s : State) (m : FaultMonitor) (severity : Severity) :
    raiseOffered s m severity = decide (severity = .hazard ∨ s.settings.alarmAdvisory = true ∨
      m.confirmedSeverity = some .hazard ∨ m.reported = some true) := by
  simp only [raiseOffered, Bool.decide_or, Bool.decide_eq_true, Bool.or_assoc]

/-- An ALARM record of the line that is offered under a condition. -/
def offerIf (offered : Bool) (l : LineNo) (p : Payload) (s : State) : State :=
  if offered then offerAlarm (some l) p s else s

theorem offerIf_decide (offered : Prop) [Decidable offered] (l : LineNo) (p : Payload) (s : State) :
    (if offered then offerAlarm (some l) p s else s) = offerIf (decide offered) l p s := by
  unfold offerIf
  by_cases h : offered <;> simp [h]

section

variable (offered : Bool) (l : LineNo) (p : Payload) (s : State)

theorem line_offerIf (k : LineNo) : (offerIf offered l p s).line k = s.line k := by
  unfold offerIf
  split
  · exact line_offerAlarm ..
  · rfl

theorem onlyLine_offerIf : OnlyLine l s (offerIf offered l p s) := by
  unfold offerIf
  split
  · exact onlyLine_offerAlarm ..
  · exact .refl ..

theorem signal_offerIf : (offerIf offered l p s).report.signal = s.report.signal := by
  unfold offerIf
  split
  · rw [(alarmOffered_offerAlarm (some l) p s).2]
  · rfl

variable {offered}

theorem alarmOffered_offerIf (h : offered = true) : AlarmOffered (some l) p s (offerIf offered l p s) := by
  subst h
  exact (alarmOffered_offerAlarm ..).1

theorem sameAlarm_offerIf (h : offered = false) : SameAlarm s (offerIf offered l p s) := by
  subst h
  exact .refl s

end

theorem confirmFault_eq (l : LineNo) (e : ClassEntry) (s : State) :
    let m := (s.line l).monitor
    let offered := raiseOffered s m e.severity
    confirmFault l e s = reportHazard l m.hazard (e.severity = .hazard)
      (offerIf offered l (.faultRaise e.faultClass e.severity m.confirmedClass)
        (modLine l (fun c => { c with monitor := c.monitor.confirm e offered }) s)) := rfl

theorem hazard_of_confirmed {m : FaultMonitor} (h : m.confirmedSeverity = some .hazard) : m.hazard = true := decide_eq_true h

theorem hazard_of_not_confirmed {m : FaultMonitor} (h : m.confirmedSeverity ≠ some .hazard) : m.hazard = false :=
  decide_eq_false h

theorem not_hazard {severity : Severity} (h : severity = .advisory) : decide (severity = .hazard) = false := by
  rw [h]
  rfl

/-- Settles O49: a confirmation is its fields, its record, and its report to the line. -/
theorem faultConfirmed : Obligations.FaultConfirmed := by
  intro s l e sync counted matching candidate named other reached c offered
  have found : faultConfirmEntry s l = some e := by
    simp [faultConfirmEntry, matching, counted, candidate, named, other, reached]
  have run : exec (.faultConfirm l) s = .next (confirmFault l e s) := by
    refine (next_inSync sync _).trans (congrArg _ ?_)
    unfold faultConfirmIfDue
    rw [found]
  have raised : raiseOffered s (s.line l).monitor e.severity = decide offered := raiseOffered_eq ..
  rw [confirmFault_eq, raised] at run
  let base : State := modLine l (fun c => { c with monitor := c.monitor.confirm e (decide offered) }) s
  let record : Payload := .faultRaise e.faultClass e.severity c.monitor.confirmedClass
  have only : OnlyLine l s (offerIf (decide offered) l record base) :=
    (onlyLine_modLine ..).trans (onlyLine_offerIf ..)
  have signal : (offerIf (decide offered) l record base).report.signal = s.report.signal := signal_offerIf ..
  have line : (offerIf (decide offered) l record base).line l =
      { c with monitor := c.monitor.confirm e (decide offered) } := by
    rw [line_offerIf]
    exact line_modLine_self ..
  have offers : offered → AlarmOffered (some l) record s (offerIf (decide offered) l record base) := fun yes =>
    alarmOffered_offerIf l record base (decide_eq_true yes)
  have silent : ¬ offered → SameAlarm s (offerIf (decide offered) l record base) := fun no =>
    sameAlarm_offerIf l record base (decide_eq_false no)
  change exec _ s = Host.Outcome.next (reportHazard l c.monitor.hazard (e.severity = .hazard)
    (offerIf (decide offered) l record base)) at run
  generalize offerIf (decide offered) l record base = u at *
  have sync' : u.highway.sync = .sync := by
    rw [only.highway]
    exact sync
  have state : (u.line l).state = c.state := by rw [line]
  refine ⟨u, _, only, signal, line, offers, silent, run, fun hazard calm working => ?_, fun advisory was fault => ?_,
    fun same => ?_⟩
  · rw [reportHazard_raised (hazard_of_not_confirmed calm) (decide_eq_true hazard) (by rw [state]; exact working)]
    exact movesLine_enterFault sync'
  · rw [reportHazard_gone (hazard_of_confirmed was) (not_hazard advisory) (state.trans fault)]
    have left := movesLine_leaveFault (l := l) sync'
    rw [show (u.line l).loop = c.loop by rw [line]] at left
    exact left
  · obtain same | ⟨still, other⟩ := same
    · exact reportHazard_same (decide_eq_decide.mpr same.symm)
    · exact reportHazard_neither (by rw [state]; exact still) (by rw [state]; exact other)

/-! ### Clearing -/

/-- Settles O50: a clearing is its record, its fields, and its report to the line. -/
theorem faultCleared : Obligations.FaultCleared := by
  intro s l sync counted unconfirmed class_ one reached c
  have due : faultClearDue s l = true := by
    simp [faultClearDue, counted, unconfirmed, class_, one, reached]
  let record : Payload := .faultClear c.monitor.confirmedClass (c.monitor.confirmedSeverity.getD .advisory)
  let told : Bool := decide (c.monitor.reported = some true)
  have run : exec (.faultClear l) s = .next (reportHazard l c.monitor.hazard false
      (modLine l (fun c => { c with monitor := c.monitor.cleared }) (offerIf told l record s))) := by
    refine (next_inSync sync _).trans (congrArg _ ((if_pos due).trans ?_))
    exact congrArg (fun a => reportHazard l c.monitor.hazard false
      (modLine l (fun c => { c with monitor := c.monitor.cleared }) a)) (offerIf_decide ..)
  have only : OnlyLine l s (modLine l (fun c => { c with monitor := c.monitor.cleared }) (offerIf told l record s)) :=
    (onlyLine_offerIf ..).trans (onlyLine_modLine ..)
  have signal : (modLine l (fun c => { c with monitor := c.monitor.cleared }) (offerIf told l record s)).report.signal =
      s.report.signal := signal_offerIf ..
  have line : (modLine l (fun c => { c with monitor := c.monitor.cleared }) (offerIf told l record s)).line l =
      { c with monitor := c.monitor.cleared } := by
    rw [line_modLine_self, line_offerIf]
  have offers : c.monitor.reported = some true → AlarmOffered (some l) record s
      (modLine l (fun c => { c with monitor := c.monitor.cleared }) (offerIf told l record s)) := fun yes =>
    alarmOffered_offerIf l record s (decide_eq_true yes)
  have silent : c.monitor.reported ≠ some true → SameAlarm s
      (modLine l (fun c => { c with monitor := c.monitor.cleared }) (offerIf told l record s)) := fun no =>
    sameAlarm_offerIf l record s (decide_eq_false no)
  generalize modLine l (fun c => { c with monitor := c.monitor.cleared }) (offerIf told l record s) = u at *
  have sync' : u.highway.sync = .sync := by
    rw [only.highway]
    exact sync
  have state : (u.line l).state = c.state := by rw [line]
  refine ⟨u, _, only, signal, line, offers, silent, run, fun was fault => ?_, fun same => ?_⟩
  · rw [reportHazard_gone (hazard_of_confirmed was) rfl (state.trans fault)]
    have left := movesLine_leaveFault (l := l) sync'
    rw [show (u.line l).loop = c.loop by rw [line]] at left
    exact left
  · by_cases was : c.monitor.confirmedSeverity = some .hazard
    · have other : (u.line l).state ≠ .fault := by
        rw [state]
        exact same.resolve_left (not_not_intro was)
      simp [reportHazard, other]
    · exact reportHazard_same (hazard_of_not_confirmed was)

end Sys2Proof.Proofs

/-! SUPPORT. What no block of a line changes, and its fault monitor alone changes beside: the values that the highway interface
keeps for the line (R143 to R146), the feed-mask count, the monitor and its FAULT_PLAN selector. -/

namespace Sys2Proof.Proofs

open Sys2Proof.Machine

/-- The part of a line that belongs to the highway interface, with `m` also the fault monitor's part. -/
def keptPart (m : Bool) (c : Line) : Line :=
  { Line.initial with
    appliedFeed := c.appliedFeed, lastI := c.lastI, lastVt := c.lastVt, lastVr := c.lastVr, invalidRun := c.invalidRun
    mismatchRun := c.mismatchRun, feedStuck := c.feedStuck, recoveryDue := c.recoveryDue
    loop := .initial c.loop.feedMask
    monitor := if m then c.monitor else .initial 0
    faultBank := if m then c.faultBank else .a }

/-- From `s` to `t` records may have joined the ALARM queue; the alarm-lost flag stays set where the queue has no room that
would carry it away (R157). -/
structure AlarmGrows (s t : State) : Prop where
  alarm : s.report.alarm <+: t.report.alarm
  full : alarmCapacity ≤ s.report.alarm.length → s.report.alarmLost = true → t.report.alarmLost = true

theorem AlarmGrows.trans {s t u : State} (h : AlarmGrows s t) (g : AlarmGrows t u) : AlarmGrows s u :=
  ⟨h.alarm.trans g.alarm, fun full lost => g.full (full.trans h.alarm.length_le) (h.full full lost)⟩

theorem alarmGrows_of_same {s t : State} (h : SameAlarm s t) : AlarmGrows s t :=
  ⟨by rw [h.1], fun _ lost => by rw [h.2]; exact lost⟩

theorem alarmGrows_offerAlarm (o p) (s : State) : AlarmGrows s (offerAlarm o p s) := by
  unfold offerAlarm
  split
  · next room => exact ⟨List.prefix_append .., fun full => absurd room (Nat.not_lt.mpr full)⟩
  · exact ⟨List.prefix_rfl, fun _ _ => rfl⟩

/-- From `s` to `t` every line keeps that part, none loses its sense, no ALARM record is lost, and the words in flight stay. -/
structure Keeps (m : Bool) (s t : State) : Prop where
  alarm : AlarmGrows s t
  part : ∀ l, keptPart m (t.line l) = keptPart m (s.line l)
  lost : ∀ l, (t.line l).senseLost = true → (s.line l).senseLost = true
  wires : t.wires = s.wires

section

variable {m : Bool} {s t u : State}

theorem Keeps.refl (s : State) : Keeps m s s := ⟨alarmGrows_of_same (.refl s), fun _ => rfl, fun _ => id, rfl⟩

theorem Keeps.trans (h : Keeps m s t) (g : Keeps m t u) : Keeps m s u :=
  ⟨h.alarm.trans g.alarm, fun l => (g.part l).trans (h.part l), fun l => h.lost l ∘ g.lost l, g.wires.trans h.wires⟩

theorem Keeps.of_lines (h : t.lines = s.lines) (alarm : SameAlarm s t) (wires : t.wires = s.wires) : Keeps m s t :=
  ⟨alarmGrows_of_same alarm, fun l => by rw [(lines_eq_iff t s).mp h], fun l => by rw [(lines_eq_iff t s).mp h]; exact id,
    wires⟩

theorem keeps_setLine {l : LineNo} {c : Line} (h : keptPart m c = keptPart m (s.line l))
    (lost : c.senseLost = true → (s.line l).senseLost = true) : Keeps m s (setLine l c s) := by
  refine ⟨alarmGrows_of_same (sameAlarm_modLine l (fun _ => c) s), ?_, ?_, rfl⟩ <;> intro k <;> by_cases own : k = l
  · rw [own, line_setLine_self]
    exact h
  · rw [line_setLine_of_ne own]
  · rw [own, line_setLine_self]
    exact lost
  · rw [line_setLine_of_ne own]
    exact id

theorem keeps_modLine {l : LineNo} {f : Line → Line} (h : ∀ c, keptPart m (f c) = keptPart m c)
    (lost : ∀ c, (f c).senseLost = true → c.senseLost = true) : Keeps m s (modLine l f s) :=
  keeps_setLine (h _) (lost _)

theorem keeps_modEngine {f : TestEngine → TestEngine} : Keeps m s (modEngine f s) := .of_lines rfl (.refl s) rfl

theorem keeps_releaseBanks (s : State) : Keeps m s (releaseBanks s) :=
  .of_lines (lines_releaseBanks s) (upToMigration_releaseBanks s).alarm (upToMigration_releaseBanks s).wires

theorem Keeps.released (h : Keeps m s t) : Keeps m s (releaseBanks t) := h.trans (keeps_releaseBanks t)

theorem keeps_offerAlarm (o p) (s : State) : Keeps m s (offerAlarm o p s) := by
  exact ⟨alarmGrows_offerAlarm .., fun l => by rw [line_offerAlarm], fun l => by rw [line_offerAlarm]; exact id,
    (onlyLine_offerAlarm 0 ..).wires⟩

theorem keeps_pushSignal (r) (s : State) : Keeps m s (pushSignal r s) := .of_lines rfl (.refl s) rfl

/-- A part of the monitor's is kept with the whole. -/
theorem kept_weaken {c d : Line} (h : keptPart m d = keptPart m c) : keptPart false d = keptPart false c := by
  cases m with
  | false => exact h
  | true => exact (congrArg (keptPart false) h :)

theorem Keeps.weaken (h : Keeps m s t) : Keeps false s t := ⟨h.alarm, fun l => kept_weaken (h.part l), h.lost, h.wires⟩

end

section

variable {m : Bool} {s : State}

/-! ### Offers and strings -/

theorem kept_ite {p : Prop} [Decidable p] {c d e : Line} (h : keptPart m c = keptPart m e)
    (g : keptPart m d = keptPart m e) : keptPart m (if p then c else d) = keptPart m e := by
  split
  · exact h
  · exact g

theorem lost_ite {p : Prop} [Decidable p] {c d e : Line} (h : c.senseLost = true → e.senseLost = true)
    (g : d.senseLost = true → e.senseLost = true) : (if p then c else d).senseLost = true → e.senseLost = true := by
  split
  · exact h
  · exact g

theorem kept_loop {c : Line} {d : LoopDetector} (mask : d.feedMask = c.loop.feedMask) :
    keptPart m { c with loop := d } = keptPart m c := by
  simp only [keptPart, mask]

theorem keeps_ite {p : Prop} [Decidable p] {t u : State} (h : Keeps m s t) (g : Keeps m s u) :
    Keeps m s (if p then t else u) := by
  split
  · exact h
  · exact g

theorem keeps_offerState (l new old cause) (s : State) : Keeps m s (offerState l new old cause s) :=
  keeps_ite (keeps_pushSignal ..) (keeps_modLine (fun _ => rfl) fun _ => id)

theorem keeps_offerItem (l item) (s : State) : Keeps m s (offerItem l item s) :=
  keeps_ite ((keeps_modLine (f := fun c => { c with overrun := false }) (fun _ => rfl) fun _ => id).trans (keeps_pushSignal ..))
    (keeps_modLine (fun _ => rfl) fun _ => id)

theorem keeps_closeString (l reason) (s : State) : Keeps m s (closeString l reason s) :=
  keeps_ite (.refl s)
    ((keeps_modLine (f := fun c => { c with openString := [], stringTimer := 0, lockoutTimer := 0 }) (fun _ => rfl) fun _ => id).trans
      (keeps_offerItem ..))

theorem keeps_refreshFeed (l) (s : State) : Keeps m s (refreshFeed l s) := keeps_modLine (fun _ => rfl) fun _ => id

/-! ### Profiles and examinations -/

theorem kept_switchTone (s old new) (c : Line) : keptPart m (switchTone s old new c) = keptPart m c :=
  kept_ite rfl (kept_ite rfl rfl)

theorem kept_switchPulse (old new) (c : Line) : keptPart m (switchPulse old new c) = keptPart m c := by
  unfold switchPulse
  dsimp only
  split <;> exact kept_ite rfl rfl

theorem senseLost_switchTone (s old new) (c : Line) : (switchTone s old new c).senseLost = c.senseLost := by
  unfold switchTone
  split
  · rfl
  · split <;> rfl

theorem senseLost_switchPulse (old new) (c : Line) : (switchPulse old new c).senseLost = c.senseLost := by
  unfold switchPulse
  dsimp only
  split <;> split <;> rfl

theorem keeps_adoptProfile (l i) (s : State) : Keeps m s (adoptProfile l i s) := by
  have bound : Keeps m s
      (modLine l (fun c => { c with profileIndex := i, profileBank := s.activeBank .profile }) s) :=
    keeps_modLine (fun _ => rfl) fun _ => id
  have switched : ∀ u old new, Keeps m u (modLine l (fun c => switchPulse old new (switchTone u old new c)) u) :=
    fun u old new => keeps_modLine (fun _ => (kept_switchPulse ..).trans (kept_switchTone ..)) fun c lost => by
      rwa [senseLost_switchPulse, senseLost_switchTone] at lost
  unfold adoptProfile
  dsimp only
  split
  · exact (bound.trans (switched ..)).trans (keeps_closeString ..)
  · exact bound.trans (switched ..)

theorem keeps_applyPending (l) (s : State) : Keeps m s (applyPending l s) := by
  unfold applyPending
  split
  · exact .refl s
  · exact (keeps_modLine (f := fun c => { c with pendingProfile := none }) (fun _ => rfl) fun _ => id).trans
      (keeps_adoptProfile ..)

theorem keeps_bindProfile (l) (s : State) : Keeps m s (bindProfile l s) := by
  unfold bindProfile
  split
  · exact .refl s
  · exact keeps_adoptProfile ..

theorem keeps_bindTonePlan (l) (s : State) : Keeps m s (bindTonePlan l s) := by
  unfold bindTonePlan
  split
  · exact .refl s
  · exact keeps_modLine (fun _ => rfl) fun _ => id

theorem keeps_bindCadence (l) (s : State) : Keeps m s (bindCadence l s) := by
  unfold bindCadence
  split
  · exact .refl s
  · exact keeps_modLine (fun _ => rfl) fun _ => id

theorem keeps_examine (l) (s : State) : Keeps m s (examine l s) := by
  unfold examine
  split
  · exact (((keeps_applyPending l s).trans (keeps_bindProfile l _)).trans (keeps_bindTonePlan l _)).trans
      (keeps_bindCadence l _)
  · exact keeps_bindCadence ..

/-! ### Changes of state -/

section

variable {l : LineNo} {new : LineState} {cause : Cause} {f : Line → Line} (h : ∀ c, keptPart m (f c) = keptPart m c)
  (lost : ∀ c, (f c).senseLost = true → c.senseLost = true)

include h lost

theorem keeps_changeState : Keeps m s (changeState l new f s) :=
  (keeps_modLine (f := fun c => { f c with state := new }) h lost).trans (keeps_refreshFeed ..)

theorem keeps_enter : Keeps m s (enter l new cause f s) :=
  ((keeps_changeState h lost).trans (keeps_offerState ..)).trans (keeps_examine ..)

theorem keeps_move : Keeps m s (move l new cause f s) := (keeps_enter h lost).released

end

theorem keeps_enterSeized (l) (s : State) : Keeps m s (enterSeized l s) :=
  keeps_move (fun _ => kept_ite rfl rfl) fun _ => lost_ite id id

theorem keeps_enterLockout (l) (s : State) : Keeps m s (enterLockout l s) := keeps_move (fun _ => rfl) fun _ => id

theorem keeps_enterReleased (l) (s : State) : Keeps m s (enterReleased l s) :=
  (keeps_closeString ..).trans (keeps_move (fun _ => rfl) fun _ => id)

theorem kept_stopRing (c : Line) : keptPart m c.stopRing = keptPart m c := rfl

theorem keeps_enterFault (l) (s : State) : Keeps m s (enterFault l s) := by
  rw [enterFault_eq]
  exact (keeps_closeString ..).trans (keeps_enter (f := faultChanges) (fun _ => rfl) fun _ => id).released

theorem keeps_leaveFault (l) (s : State) : Keeps m s (leaveFault l s) := by
  rw [leaveFault_eq]
  exact (keeps_enter (f := clearedChanges) (fun _ => rfl) fun _ => id).released

theorem keeps_endRinging (l cause) (s : State) : Keeps m s (endRinging l cause s) :=
  keeps_enter (fun _ => (kept_stopRing _).trans (kept_ite rfl rfl)) fun c lost =>
    lost_ite (p := ringOnStep c.ring.step = true) (c := c.restartDetector) (d := c) (e := c) id id lost

theorem keeps_enterAnswered (l) (s : State) : Keeps m s (enterAnswered l s) :=
  keeps_move (fun _ => kept_ite rfl rfl) fun _ => lost_ite id id

/-! ### The collector -/

theorem keeps_placeEntry (l e) (s : State) : Keeps m s (placeEntry l e s) := by
  have joined : Keeps m s (modLine l (fun c => { c with openString := c.openString ++ [e] }) s) :=
    keeps_modLine (fun _ => rfl) fun _ => id
  refine keeps_ite (keeps_modLine (fun _ => rfl) fun _ => id) (keeps_ite ?_ (keeps_offerItem ..))
  dsimp only
  split
  · exact joined.trans (keeps_closeString ..)
  · exact joined

theorem keeps_takeEntry (l e) (s : State) : Keeps m s (takeEntry l e s) :=
  ((keeps_modLine (f := Line.entryMade) (fun _ => rfl) fun _ => id).trans (keeps_placeEntry l e _)).trans
    (keeps_ite (keeps_move (fun _ => rfl) fun _ => id) (.refl _))

theorem keeps_lockoutIfDue (l) (s : State) : Keeps m s (lockoutIfDue l s) :=
  keeps_ite (keeps_enterLockout ..) (.refl s)

theorem keeps_advanceLockout (l) (s : State) : Keeps m s (advanceLockout l s) :=
  keeps_ite ((keeps_modLine (f := fun c => { c with lockoutTimer := advance timerStop c.lockoutTimer }) (fun _ => rfl) fun _ => id).trans
    (keeps_lockoutIfDue ..)) (.refl s)

theorem keeps_compareString (l limit) (s : State) : Keeps m s (compareString l limit s) :=
  keeps_ite (keeps_closeString ..) (keeps_ite (keeps_closeString ..) (.refl s))

theorem keeps_advanceString (l) (s : State) : Keeps m s (advanceString l s) := by
  have advanced : Keeps m s
      (modLine l (fun c => { c with stringTimer := advance timerStop c.stringTimer }) s) := keeps_modLine (fun _ => rfl) fun _ => id
  unfold advanceString
  dsimp only
  split
  · exact .refl s
  split
  · exact keeps_compareString ..
  · exact advanced.trans (keeps_compareString ..)

/-! ### Detector and engines -/

theorem keeps_endPulseDigit (l) (s : State) : Keeps m s (endPulseDigit l s) :=
  keeps_ite ((keeps_takeEntry ..).trans (keeps_modLine (fun _ => rfl) fun _ => id)) (.refl s)

theorem keeps_digitEndIfDue (l) (s : State) : Keeps m s (digitEndIfDue l s) :=
  keeps_ite (keeps_endPulseDigit ..) (.refl s)

theorem keeps_recoverPulse (l) (s : State) : Keeps m s (recoverPulse l s) :=
  keeps_ite ((keeps_takeEntry ..).trans (keeps_modLine (fun _ => rfl) fun _ => id)) (.refl s)

theorem feedMask_acceptRun (p st tbase r) (d : LoopDetector) : (acceptRun p st tbase r d).feedMask = d.feedMask := by
  cases accepted : d.accepted with
  | loop => rw [acceptRun_of_loop _ _ _ _ accepted]; rfl
  | noLoop => rw [acceptRun_of_noLoop _ _ _ _ accepted]; split <;> rfl

theorem feedMask_sampleDetector (p now i masked) (d : LoopDetector) :
    (sampleDetector p now i masked d).feedMask = d.feedMask := by
  have expired : ∀ e : LoopDetector, (expireEdge now e).feedMask = e.feedMask := fun e => by
    unfold expireEdge
    split <;> rfl
  have extended : ∀ e : LoopDetector, (extendRun now e).feedMask = e.feedMask := fun e => by
    unfold extendRun
    split
    · rfl
    · split <;> rfl
  unfold sampleDetector
  dsimp only
  split
  · rw [expired]
    rfl
  · rw [extended, expired]
    rfl

theorem keeps_acceptIfDue (l) (s : State) : Keeps m s (acceptIfDue l s) := by
  unfold acceptIfDue
  dsimp only
  split
  · exact keeps_ite (keeps_modLine (fun _ => kept_loop (feedMask_acceptRun ..)) fun _ => id) (.refl s)
  · exact .refl s

theorem keeps_releaseIfDue (l) (s : State) : Keeps m s (releaseIfDue l s) :=
  keeps_ite (keeps_enterReleased ..) (.refl s)

theorem keeps_classifyBreak (l b d) (s : State) : Keeps m s (classifyBreak l b d s) := by
  have taken : ∀ e u, Keeps m u (takeEntry l e u) := keeps_takeEntry l
  refine keeps_ite (.refl s) (keeps_ite (keeps_ite (taken ..) (.refl s)) (keeps_ite ?_ (.refl s)))
  refine keeps_ite (.refl s) (keeps_ite ((keeps_endPulseDigit ..).trans (taken ..)) ?_)
  exact keeps_ite (.refl s) (keeps_ite (keeps_modLine (fun _ => rfl) fun _ => id)
    ((keeps_modLine (f := (·.discardPulse)) (fun _ => rfl) fun _ => id).trans (taken ..)))

theorem keeps_makeConfirmIfDue (l) (s : State) : Keeps m s (makeConfirmIfDue l s) := by
  unfold makeConfirmIfDue
  split
  · exact keeps_ite ((keeps_classifyBreak ..).trans (keeps_modLine (fun _ => rfl) fun _ => id)) (.refl s)
  · exact .refl s

theorem keeps_seizureIfDue (l) (s : State) : Keeps m s (seizureIfDue l s) :=
  keeps_ite (keeps_enterSeized ..) (.refl s)

theorem keeps_useDetector (l i masked) (s : State) : Keeps m s (useDetector l i masked s) := by
  have sampled : Keeps m s
      (modLine l (fun c => { c with loop := sampleDetector (s.profile l) s.stamp i masked c.loop }) s) :=
    keeps_modLine (fun _ => kept_loop (feedMask_sampleDetector ..)) fun _ => id
  have accepted : ∀ p : Bool, ∀ u, Keeps m u (if p then acceptIfDue l u else u) := fun p u =>
    keeps_ite (keeps_acceptIfDue ..) (.refl u)
  exact (((sampled.trans (accepted _ _)).trans (keeps_releaseIfDue ..)).trans
    (keeps_makeConfirmIfDue ..)).trans (keeps_seizureIfDue ..)

theorem keeps_endToneDigit (l p) (s : State) : Keeps m s (endToneDigit l p s) :=
  (keeps_takeEntry ..).trans (keeps_modLine (fun _ => rfl) fun _ => id)

theorem keeps_beginRun (l p k st) (s : State) : Keeps m s (beginRun l p k st s) := keeps_modLine (fun _ => rfl) fun _ => id

theorem keeps_automaton (l p r st) (s : State) : Keeps m s (automaton l p r st s) := by
  have put : ∀ tone, Keeps m s (modLine l (fun c => { c with tone := tone }) s) := fun _ => keeps_modLine (fun _ => rfl) fun _ => id
  have ended := keeps_endToneDigit (m := m) l p s
  have began := fun k u => keeps_beginRun (m := m) l p k st u
  unfold automaton
  dsimp only
  split
  case h_1 => exact .refl s
  case h_2 => exact began ..
  case h_3 => exact put _
  case h_4 => exact keeps_ite (put _) (began ..)
  case h_5 => exact keeps_ite ended (put _)
  case h_6 => exact keeps_ite (put _) (ended.trans (began ..))
  case h_7 => exact keeps_ite ended (put _)
  case h_8 => exact keeps_ite (put _) (ended.trans (began ..))

theorem keeps_toneBlockIfDue (l) (s : State) : Keeps m s (toneBlockIfDue l s) :=
  keeps_ite ((keeps_modLine (f := fun c => { c with tone := c.tone.abandonBlock }) (fun _ => rfl) fun _ => id).trans
    (keeps_automaton ..)) (.refl s)

theorem keeps_toneSample (l w) (s : State) : Keeps m s (toneSample l w s) :=
  keeps_ite ((keeps_modLine (f := fun c => { c with
    tone := takeSample (readTonePlan (s.toneWords l)) s.stamp (scaledSample w) c.tone }) (fun _ => rfl) fun _ => id).trans
      (keeps_toneBlockIfDue ..)) (.refl s)

theorem keeps_recoverTone (l) (s : State) : Keeps m s (recoverTone l s) := by
  have abandoned : Keeps m s (modLine l (fun c => { c with tone := c.tone.abandonBlock }) s) := keeps_modLine (fun _ => rfl) fun _ => id
  exact keeps_ite ((abandoned.trans (keeps_ite (.refl _) (keeps_takeEntry ..))).trans
    (keeps_modLine (fun _ => rfl) fun _ => id)) (.refl s)

theorem kept_recoverRing (c : Line) : keptPart m c.recoverRing = keptPart m c := kept_ite rfl rfl

theorem feedMask_recoverRing (c : Line) : c.recoverRing.loop.feedMask = c.loop.feedMask := by
  unfold Line.recoverRing
  split <;> rfl

theorem keeps_recoverLine (l) (s : State) : Keeps m s (recoverLine l s) := by
  have recovered : Keeps m s (modLine l (fun c => { c.recoverRing with loop := c.loop.recover }) s) :=
    keeps_modLine (fun c => (kept_loop (d := c.loop.recover) (feedMask_recoverRing c).symm).trans (kept_recoverRing c)) fun c lost => by
      unfold Line.recoverRing at lost
      split at lost <;> exact lost
  exact (recovered.trans (keeps_recoverPulse ..)).trans (keeps_recoverTone ..)

/-! ### The ring sequencer -/

theorem keeps_beginRingStep (l n) (s : State) : Keeps m s (beginRingStep l n s) :=
  (keeps_modLine (f := fun c =>
    { c.restartDetector with ring := { c.ring.clearTrip with step := some n, timer := 0 } }) (fun _ => rfl) fun _ => id).trans
    (keeps_refreshFeed ..)

theorem keeps_ringStepExpireIfDue (l) (s : State) : Keeps m s (ringStepExpireIfDue l s) := by
  unfold ringStepExpireIfDue
  refine keeps_ite (.refl s) (keeps_ite ?_ (keeps_beginRingStep ..))
  split
  · exact keeps_beginRingStep ..
  · next n _ =>
    exact keeps_ite (keeps_endRinging ..).released
      ((keeps_modLine (f := fun c => { c with ring := { c.ring with cyclesLeft := some (n - 1) } }) (fun _ => rfl) fun _ => id).trans
        (keeps_beginRingStep ..))

theorem keeps_advanceRingTimer (l) (s : State) : Keeps m s (advanceRingTimer l s) :=
  (keeps_modLine (f := fun c => { c with ring := { c.ring with timer := c.ring.timer + 1 } }) (fun _ => rfl) fun _ => id).trans
    (keeps_ringStepExpireIfDue ..)

theorem keeps_ringTripIfDue (l) (s : State) : Keeps m s (ringTripIfDue l s) :=
  keeps_ite (keeps_enterAnswered ..) (.refl s)

theorem keeps_ringOffTripIfDue (l) (s : State) : Keeps m s (ringOffTripIfDue l s) :=
  keeps_ite (keeps_enterAnswered ..) (.refl s)

theorem keeps_ringMaskEndIfDue (l) (s : State) : Keeps m s (ringMaskEndIfDue l s) :=
  keeps_ite (keeps_modLine (fun _ => rfl) fun _ => id) (.refl s)

theorem keeps_ringOnRecord (l i h) (s : State) : Keeps m s (ringOnRecord l i h s) := by
  have armed : Keeps m s
      (modLine l (fun c => { c with ring := armRing (s.profile l) c.appliedFeed c.ring }) s) := keeps_modLine (fun _ => rfl) fun _ => id
  have measured : ∀ u, Keeps m u (modLine l (fun c => { c with ring := measureRing (s.profile l) i c.ring }) u) :=
    fun _ => keeps_modLine (fun _ => rfl) fun _ => id
  exact armed.trans (keeps_ite (.refl _) (keeps_ite (keeps_modLine (fun _ => rfl) fun _ => id) (keeps_ite (.refl _)
    ((measured _).trans (keeps_ringTripIfDue ..)))))

theorem keeps_ringRecord (l i h masked) (s : State) : Keeps m s (ringRecord l i h masked s) := by
  have off : Keeps m s (ringOffRecord l i masked s) :=
    keeps_ite ((keeps_useDetector ..).trans (keeps_ringOffTripIfDue ..)) (.refl s)
  exact (keeps_ite (keeps_ringOnRecord ..) off).trans (keeps_ite (keeps_advanceRingTimer ..) (.refl _))

/-! ### The fault monitor -/

theorem keeps_bindFaultPlan (l) (s : State) : Keeps false s (bindFaultPlan l s) := by
  have bound : Keeps false s (modLine l (fun c => { c with faultBank := s.activeBank .faultPlan }) s) :=
    keeps_modLine (fun _ => rfl) fun _ => id
  exact bound.trans (.of_lines (lines_releaseBank ..) (upToMigration_releaseBank ..).alarm (upToMigration_releaseBank ..).wires)

theorem keeps_startWindowIfDue (l) (s : State) : Keeps false s (startWindowIfDue l s) :=
  keeps_ite ((keeps_bindFaultPlan ..).trans (keeps_modLine (fun _ => rfl) fun _ => id)) (.refl s)

theorem keeps_reportHazard (l a b) (s : State) : Keeps m s (reportHazard l a b s) :=
  keeps_ite (keeps_enterFault ..) (keeps_ite (keeps_leaveFault ..) (.refl s))

theorem keeps_confirmFault (l e) (s : State) : Keeps false s (confirmFault l e s) := by
  have confirmed : ∀ o, Keeps false s (modLine l (fun c => { c with monitor := c.monitor.confirm e o }) s) :=
    fun _ => keeps_modLine (fun _ => rfl) fun _ => id
  exact ((confirmed _).trans (keeps_ite (keeps_offerAlarm ..) (.refl _))).trans (keeps_reportHazard ..)

theorem keeps_faultConfirmIfDue (l) (s : State) : Keeps false s (faultConfirmIfDue l s) := by
  unfold faultConfirmIfDue
  split
  · exact keeps_confirmFault ..
  · exact .refl s

theorem keeps_faultClearIfDue (l) (s : State) : Keeps false s (faultClearIfDue l s) := by
  have cleared : ∀ u, Keeps false u (modLine l (fun c => { c with monitor := c.monitor.cleared }) u) :=
    fun _ => keeps_modLine (fun _ => rfl) fun _ => id
  exact keeps_ite (((keeps_ite (keeps_offerAlarm ..) (.refl s)).trans (cleared _)).trans
    (keeps_reportHazard ..)) (.refl s)

theorem keeps_windowCloseIfDue (l) (s : State) : Keeps false s (windowCloseIfDue l s) := by
  have closed : Keeps false s (modLine l (fun c => { c with monitor := c.monitor.close (c.state = .test) }) s) :=
    keeps_modLine (fun _ => rfl) fun _ => id
  have counted : ∀ n u, Keeps false u (modLine l (fun c => { c with monitor := c.monitor.updateRuns n }) u) :=
    fun _ _ => keeps_modLine (fun _ => rfl) fun _ => id
  unfold windowCloseIfDue
  dsimp only
  split
  · generalize modLine l _ s = u at closed ⊢
    split
    · split
      · exact (closed.trans (counted ..)).trans (keeps_confirmFault ..)
      · exact (closed.trans (counted ..)).trans (keeps_faultClearIfDue ..)
    · exact closed
  · exact .refl s

theorem keeps_monitorRecord (l h) (s : State) : Keeps false s (monitorRecord l h s) :=
  ((keeps_startWindowIfDue ..).trans
    (keeps_modLine (f := fun c => { c with monitor := c.monitor.accumulate h }) (fun _ => rfl) fun _ => id)).trans
    (keeps_windowCloseIfDue ..)

/-! ### The test engine -/

theorem keeps_reportTest (v c) (s : State) : Keeps m s (reportTest v c s) := by
  unfold reportTest
  split
  · exact keeps_offerAlarm ..
  · exact .refl s

theorem keeps_startTest (r) (s : State) : Keeps m s (startTest r s) := by
  rw [startTest_eq]
  have engine : Keeps m s { s with engine := testingEngine s r } := .of_lines rfl (.refl s) rfl
  have tested : Keeps m { s with engine := testingEngine s r }
      (setLine r.line (testedLine s r) { s with engine := testingEngine s r }) := keeps_setLine rfl id
  exact (engine.trans tested).released

theorem keeps_skipRequest (r : Request) (s : State) : Keeps m s (skipRequest r s) :=
  keeps_ite (keeps_offerAlarm ..) (.refl s)

theorem keeps_takeFrom (q : List Request) (s : State) : Keeps m s (takeFrom q s) := by
  induction q generalizing s with
  | nil => exact keeps_modEngine
  | cons r rest ih =>
    exact keeps_ite (Keeps.trans keeps_modEngine (keeps_startTest ..)) ((keeps_skipRequest r s).trans (ih _))

theorem keeps_freeEngine (s : State) : Keeps m s (freeEngine s) :=
  (Keeps.trans keeps_modEngine (keeps_releaseBanks _)).trans (keeps_ite (.refl _) (keeps_takeFrom ..))

theorem keeps_returnLine (l) (s : State) : Keeps m s (returnLine l s) :=
  keeps_move (fun _ => rfl) fun c lost => by
    dsimp only at lost
    split at lost
    · cases lost
    · exact lost

theorem keeps_finishTest (l v c) (s : State) : Keeps m s (finishTest l v c s) :=
  ((keeps_reportTest ..).trans (keeps_returnLine ..)).trans (keeps_freeEngine _)

theorem keeps_abortTest (l c) (s : State) : Keeps m s (abortTest l c s) := keeps_finishTest ..

theorem keeps_beginTestStep (l n) (s : State) : Keeps m s (beginTestStep l n s) :=
  (keeps_modEngine (f := (·.atStep n))).trans (keeps_refreshFeed ..)

theorem keeps_testStepEndIfDue (l) (s : State) : Keeps m s (testStepEndIfDue l s) := by
  have ended : Keeps m s (modEngine (fun e =>
      { e.clearStep with results := e.results ++ [stepResult s.currentStep e] }) s) := keeps_modEngine
  exact keeps_ite (ended.trans (keeps_ite (keeps_beginTestStep ..) (keeps_finishTest ..))) (.refl s)

theorem keeps_noEchoIfDue (l) (s : State) : Keeps m s (noEchoIfDue l s) :=
  keeps_ite (keeps_abortTest ..) (.refl s)

theorem keeps_testSettleEndIfDue (s : State) : Keeps m s (testSettleEndIfDue s) :=
  keeps_ite (keeps_modEngine) (.refl s)

theorem keeps_measureStep (l h) (s : State) : Keeps m s (measureStep l h s) :=
  Keeps.trans keeps_modEngine (keeps_testStepEndIfDue ..)

theorem keeps_settleStep (l h) (s : State) : Keeps m s (settleStep l h s) :=
  keeps_ite ((keeps_testSettleEndIfDue s).trans (keeps_measureStep ..)) (keeps_modEngine)

theorem keeps_testRecord (l h) (s : State) : Keeps m s (testRecord l h s) := by
  have settling : Keeps m s
      (modEngine (fun e => { e with phase := some .settle, settleCount := s.currentStep.settle }) s) :=
    keeps_modEngine
  have aged : Keeps m s (modEngine (fun e => { e with stepAge := e.stepAge + 1 }) s) := keeps_modEngine
  unfold testRecord
  dsimp only
  split
  · exact keeps_ite (settling.trans (keeps_settleStep ..)) (aged.trans (keeps_noEchoIfDue ..))
  · exact keeps_ite (keeps_settleStep ..) (keeps_abortTest ..)
  · exact keeps_ite (keeps_measureStep ..) (keeps_abortTest ..)
  · exact .refl s

theorem keeps_blocksRecord (l h masked) (s : State) : Keeps m s (blocksRecord l h masked s) := by
  unfold blocksRecord
  split
  · exact keeps_ite (keeps_testRecord ..) (.refl s)
  · exact keeps_ringRecord ..
  iterate 5 exact (keeps_useDetector ..).trans (keeps_digitEndIfDue ..)
  · exact .refl s
  · exact .refl s

theorem keeps_useBlocks (l h masked b) (s : State) : Keeps m s (useBlocks l h masked b s) :=
  (keeps_ite (keeps_recoverLine ..) (.refl s)).trans
    (keeps_ite (keeps_abortTest ..) (keeps_blocksRecord ..))

end

end Sys2Proof.Proofs

/-! SUPPORT. A record handed to its line, in order: the timers, the blocks and the fault monitor, the marks, the examination. -/

namespace Sys2Proof.Proofs

open Sys2Proof.Machine

/-! ### The monitor's part -/

/-- A record gathered by the fault monitor, before the close of its window (R109 steps 1 to 3). -/
def gatherRecord (l : LineNo) (h : Handed) (s : State) : State :=
  modLine l (fun c => { c with monitor := c.monitor.accumulate h }) (startWindowIfDue l s)

theorem monitorRecord_eq (l : LineNo) (h : Handed) (s : State) : monitorRecord l h s = windowCloseIfDue l (gatherRecord l h s) :=
  rfl

section

variable {l : LineNo} {h : Handed} {s : State}

theorem line_bindFaultPlan_self (l : LineNo) (s : State) :
    (bindFaultPlan l s).line l = { s.line l with faultBank := s.activeBank .faultPlan } := by
  rw [bindFaultPlan, line_releaseBank, line_modLine_self]

/-- A line whose monitor has gathered a record. -/
theorem line_gatherRecord (l : LineNo) (h : Handed) (s : State) :
    (gatherRecord l h s).line l = { s.line l with
      faultBank := if startsWindow s.stamp (s.line l).monitor = true then s.activeBank .faultPlan else (s.line l).faultBank
      monitor :=
        (if startsWindow s.stamp (s.line l).monitor = true then (s.line l).monitor.startWindow s.stamp
          else (s.line l).monitor).accumulate h } := by
  rw [gatherRecord, gatherRecord_eq, line_setLine_self]
  split
  · rw [line_bindFaultPlan_self]
  · rfl

theorem onlyLine_gatherRecord (l : LineNo) (h : Handed) (s : State) : OnlyLine l s (gatherRecord l h s) :=
  (onlyLine_startWindowIfDue ..).trans (onlyLine_modLine ..)

theorem sameAlarm_gatherRecord (l : LineNo) (h : Handed) (s : State) : SameAlarm s (gatherRecord l h s) := by
  have started : SameAlarm s (startWindowIfDue l s) := by
    unfold startWindowIfDue
    split
    · exact (sameAlarm_modLine l (fun c => { c with faultBank := s.activeBank .faultPlan }) s).trans
        ((upToMigration_releaseBank .faultPlan _).alarm.trans (sameAlarm_modLine ..))
    · exact .refl s
  exact started.trans (sameAlarm_modLine ..)

theorem stamp_gatherRecord (l : LineNo) (h : Handed) (s : State) : (gatherRecord l h s).stamp = s.stamp :=
  (onlyLine_gatherRecord ..).stamp

/-- Before the last multiframe of its window the monitor only gathers. -/
theorem monitorRecord_of_open (open_ : s.stamp.toNat % 64 ≠ 63) : monitorRecord l h s = gatherRecord l h s := by
  rw [monitorRecord_eq]
  refine if_neg ?_
  simp only [windowCloseDue, stamp_gatherRecord, Bool.and_eq_true, decide_eq_true_eq, not_and]
  exact fun last => absurd last open_

theorem discard_gatherRecord (discards : h.discards = true) : ((gatherRecord l h s).line l).monitor.discard = true := by
  rw [line_gatherRecord]
  simp only [FaultMonitor.accumulate, discards, Bool.or_true]

/-- In the last multiframe of a discarded window the monitor only marks it closed (R110). -/
theorem monitorRecord_of_discards (discards : h.discards = true) (last : s.stamp.toNat % 64 = 63) :
    monitorRecord l h s =
      modLine l (fun c => { c with monitor := { c.monitor with closed := true } }) (gatherRecord l h s) := by
  have stamp := stamp_gatherRecord l h s
  have discard := discard_gatherRecord (l := l) (s := s) discards
  rw [monitorRecord_eq]
  generalize gatherRecord l h s = g at stamp discard
  have closing : windowCloseDue g l = !(g.line l).monitor.closed := by
    simp only [windowCloseDue, stamp]
    exact Bool.and_eq_right_iff_imp.mpr fun _ => decide_eq_true last
  unfold windowCloseIfDue
  cases closed : (g.line l).monitor.closed with
  | true =>
    rw [if_neg (by rw [closing, closed]; decide)]
    refine (modLine_of_eq ?_).symm
    rw [← closed]
  | false =>
    rw [if_pos (by rw [closing, closed]; rfl)]
    have marked : modLine l (fun c => { c with monitor := c.monitor.close (c.state = .test) }) g =
        modLine l (fun c => { c with monitor := { c.monitor with closed := true } }) g := by
      unfold modLine FaultMonitor.close
      simp only [discard, Bool.true_or]
    dsimp only
    rw [marked]
    refine if_neg ?_
    simp [windowCounted, discard]

/-- A record that discards its window leaves all of its line but the monitor and the FAULT_PLAN selector, and offers no ALARM
record (R110). -/
theorem monitorRecord_quiet (discards : h.discards = true) :
    SameAlarm s (monitorRecord l h s) ∧ ∃ bank monitor,
      (monitorRecord l h s).line l = { s.line l with faultBank := bank, monitor := monitor } ∧
        monitor.confirmedSeverity = (s.line l).monitor.confirmedSeverity := by
  have severity : ∀ m : FaultMonitor,
      ((if startsWindow s.stamp m = true then m.startWindow s.stamp else m).accumulate h).confirmedSeverity =
        m.confirmedSeverity := fun m => by
    split <;> rfl
  by_cases last : s.stamp.toNat % 64 = 63
  · rw [monitorRecord_of_discards discards last]
    refine ⟨(sameAlarm_gatherRecord ..).trans (sameAlarm_modLine ..), ((gatherRecord l h s).line l).faultBank,
      { ((gatherRecord l h s).line l).monitor with closed := true }, ?_, ?_⟩
    · rw [line_modLine_self, line_gatherRecord]
    · rw [line_gatherRecord]
      exact severity _
  · rw [monitorRecord_of_open last]
    exact ⟨sameAlarm_gatherRecord .., _, _, line_gatherRecord .., severity _⟩

end

/-! ### A record handed to a line that has its sense -/

/-- The two marks that the end of a record clears (R12, R83, R140). -/
def clearMarks (l : LineNo) (s : State) : State :=
  modLine l (fun c => { c with entryMark := false, recoveryDue := false }) s

/-- The state with the feed-mask count reduced by a record (R25). -/
def maskReduced (l : LineNo) (s : State) : State := modLine l (fun c => { c with loop := c.loop.reduceMask }) s

section

variable {l : LineNo} {h : Handed} {back : Bool} {o : RecordOrder} {s : State}

theorem handRecord_of_lost (lost : h.lost = true) : handRecord l h back o s = monitorRecord l h s := if_pos lost

theorem handRecord_of_sense (sense : h.lost = false) :
    handRecord l h back o s = releaseBanks (examine l (clearMarks l
      (useRecord l h (1 ≤ (s.line l).loop.feedMask) back o (advanceString l (advanceLockout l (maskReduced l s)))))) :=
  if_neg (by rw [sense]; decide)

theorem keeps_useRecord (l : LineNo) (h : Handed) (masked back : Bool) (o : RecordOrder) (s : State) :
    Keeps false s (useRecord l h masked back o s) := by
  unfold useRecord
  split
  · exact (keeps_useBlocks ..).trans (keeps_monitorRecord ..)
  · exact (keeps_monitorRecord l h s).trans (keeps_ite (keeps_useBlocks ..) (.refl _))

/-- What a record handed to its line leaves of the highway interface's part. -/
structure HandedTo (l : LineNo) (u t : State) : Prop where
  part : keptPart false (t.line l) = keptPart false { u.line l with recoveryDue := false }
  lost : (t.line l).senseLost = true → (u.line l).senseLost = true
  alarm : AlarmGrows u t
  wires : t.wires = u.wires

theorem handedTo_handRecord (sense : h.lost = false) : HandedTo l (maskReduced l s) (handRecord l h back o s) := by
  rw [handRecord_of_sense sense]
  have used : Keeps false (maskReduced l s) (useRecord l h (1 ≤ (s.line l).loop.feedMask) back o
      (advanceString l (advanceLockout l (maskReduced l s)))) :=
    ((keeps_advanceLockout ..).trans (keeps_advanceString ..)).trans (keeps_useRecord ..)
  generalize useRecord l h (1 ≤ (s.line l).loop.feedMask) back o
    (advanceString l (advanceLockout l (maskReduced l s))) = x at used
  have done : Keeps false (clearMarks l x) (releaseBanks (examine l (clearMarks l x))) := (keeps_examine ..).released
  have cleared : (clearMarks l x).line l = { x.line l with entryMark := false, recoveryDue := false } := line_modLine_self ..
  refine ⟨?_, fun lost => ?_, ?_, done.wires.trans used.wires⟩
  · rw [done.part, cleared]
    exact (congrArg (fun c : Line => keptPart false { c with recoveryDue := false }) (used.part l) :)
  · have lost' := done.lost l lost
    rw [cleared] at lost'
    exact used.lost l lost'
  · exact (used.alarm.trans (alarmGrows_of_same (sameAlarm_modLine ..))).trans done.alarm

/-! ### A record outside TEST -/

theorem onlyLine_blocksRecord (h : Handed) (masked : Bool) (working : (s.line l).state ≠ .test) :
    OnlyLine l s (blocksRecord l h masked s) := by
  by_cases det : detects (s.line l).state = true
  · rw [blocksRecord_of_detects det]
    exact (onlyLine_useDetector ..).trans (onlyLine_digitEndIfDue ..)
  · cases state : (s.line l).state
    case test => exact absurd state working
    case ringing =>
      rw [blocksRecord_of_ringing state]
      exact onlyLine_ringRecord ..
    case disabled =>
      rw [blocksRecord_of_still (.inl state)]
      exact .refl ..
    case fault =>
      rw [blocksRecord_of_still (.inr state)]
      exact .refl ..
    all_goals
      rw [state] at det
      exact absurd rfl det

theorem onlyLine_useBlocks (h : Handed) (masked : Bool) (working : (s.line l).state ≠ .test)
    (free : back = true → testHeld s l = false) : OnlyLine l s (useBlocks l h masked back s) := by
  unfold useBlocks
  dsimp only
  generalize recovered : (if back || (s.line l).recoveryDue then recoverLine l s else s) = w
  have step : LineStep l s w := by
    rw [← recovered]
    split
    · exact lineStep_recoverLine ..
    · exact .refl ..
  have free' : (back && testHeld w l) = false := by
    cases back with
    | false => rfl
    | true =>
      rw [Bool.true_and, testHeld, step.engine]
      exact free rfl
  rw [free']
  exact step.toOnlyLine.trans (onlyLine_blocksRecord h masked fun test => working (step.test.mp test))

theorem onlyLine_useRecord (h : Handed) (masked : Bool) (o : RecordOrder) (working : (s.line l).state ≠ .test)
    (free : back = true → testHeld s l = false) : OnlyLine l s (useRecord l h masked back o s) := by
  have step := lineStep_monitorRecord l h s
  unfold useRecord
  split
  · exact (onlyLine_useBlocks h masked working free).trans (onlyLine_monitorRecord ..)
  · dsimp only
    split
    · refine step.toOnlyLine.trans (onlyLine_useBlocks h masked (fun test => working (step.test.mp test)) fun b => ?_)
      rw [testHeld, step.engine]
      exact free b
    · exact step.toOnlyLine

theorem onlyLine_handRecord (working : (s.line l).state ≠ .test) (free : back = true → testHeld s l = false) :
    OnlyLine l s (handRecord l h back o s) := by
  cases sense : h.lost with
  | true =>
    rw [handRecord_of_lost sense]
    exact onlyLine_monitorRecord ..
  | false =>
    rw [handRecord_of_sense sense]
    have timed : LineStep l (maskReduced l s) (advanceString l (advanceLockout l (maskReduced l s))) :=
      (lineStep_advanceLockout ..).trans (lineStep_advanceString ..)
    have masked : OnlyLine l s (maskReduced l s) := onlyLine_modLine ..
    have state : ((maskReduced l s).line l).state = (s.line l).state := by
      rw [maskReduced, line_modLine_self]
    refine (masked.trans timed.toOnlyLine).trans ((onlyLine_useRecord _ _ _ ?_ fun b => ?_).trans
      ((onlyLine_modLine ..).trans ((onlyLine_examine ..).trans (onlyLine_releaseBanks ..))))
    · rw [Ne, timed.test, state]
      exact working
    · rw [testHeld, timed.engine]
      exact free b

end

end Sys2Proof.Proofs

/-! The test engine's events, and the two alarms that the highway interface raises for a line. -/

namespace Sys2Proof.Proofs

open Sys2Proof.Machine

/-! ### Sense lost and feed stuck -/

theorem holdTone_eq (c : Line) :
    c.holdTone = { c with tone := { c.tone with run := if c.tone.run = .running then .held else c.tone.run } } := by
  unfold Line.holdTone
  split <;> rfl

/-- An ALARM record offered behind a change of one line. -/
theorem offeredFor_modLine (l : LineNo) (f : Line → Line) (p : Payload) (s : State) :
    OnlyLine l s (offerAlarm (some l) p (modLine l f s)) ∧
      AlarmOffered (some l) p s (offerAlarm (some l) p (modLine l f s)) ∧
      (offerAlarm (some l) p (modLine l f s)).report.reply = s.report.reply ∧
      (offerAlarm (some l) p (modLine l f s)).report.signal = s.report.signal ∧
      (offerAlarm (some l) p (modLine l f s)).line l = f (s.line l) := by
  obtain ⟨offered, rest⟩ := alarmOffered_offerAlarm (some l) p (modLine l f s)
  refine ⟨(onlyLine_modLine ..).trans (onlyLine_offerAlarm ..), offered, ?_, ?_, ?_⟩
  · rw [rest]
    rfl
  · rw [rest]
    rfl
  · rw [line_offerAlarm, line_modLine_self]

/-- Settles O38: each event is due by its premises, and is an ALARM record behind a change of its line. -/
theorem senseLostAndFeedStuckRaised : Obligations.SenseLostAndFeedStuckRaised := by
  refine ⟨fun s l sync enabled run sense => ?_, fun s l echo sync differs run => ⟨fun clear => ?_, fun set => ?_⟩⟩
  · have due : senseLostDue s l = true := by
      simp [senseLostDue, enabled, lossLimit, run, sense]
    have lost : exec (.senseLost l) s =
        .next (offerAlarm (some l) .senseLost (modLine l (fun c => { c.holdTone with senseLost := true }) s)) :=
      (next_inSync sync _).trans (congrArg _ (if_pos due))
    obtain ⟨only, offered, reply, signal, line⟩ :=
      offeredFor_modLine l (fun c => { c.holdTone with senseLost := true }) .senseLost s
    refine ⟨_, lost, only, offered, reply, signal, ?_⟩
    rw [line]
    dsimp only
    rw [holdTone_eq]
  · have due : feedStuckDue s l echo = true := by
      simp [feedStuckDue, differs, stuckLimit, run, clear]
    have stuck : exec (.feedStuck l echo) s =
        .next (offerAlarm (some l) (.feedStuck (s.line l).commandedFeed echo)
          (modLine l (fun c => { c with feedStuck := true }) s)) :=
      (next_inSync sync _).trans (congrArg _ (if_pos due))
    exact ⟨_, stuck, offeredFor_modLine ..⟩
  · have due : ¬ feedStuckDue s l echo = true := by
      simp [feedStuckDue, set]
    exact (next_inSync sync _).trans (congrArg _ (if_neg due))

/-! ### The taking of a request -/

theorem admissible_iff (o : Origin) (st : LineState) :
    admissible o st = true ↔ st = .idle ∨ o = .commanded ∧ (st = .disabled ∨ st = .fault) := by
  simp [admissible]

theorem programRunnable_iff (s : State) (k : TestKind) : programRunnable s k = true ↔
    (s.entry .testPlan (s.activeBank .testPlan) (4 * kindCode k)).valid = true ∧
      (readTestStep (s.entry .testPlan (s.activeBank .testPlan) (4 * kindCode k)).words).enabled = true := by
  simp [programRunnable, runnable]

theorem takeRequests_of_free {s : State} (free : s.engine.busy = false) : takeRequests s = takeFrom s.engine.queue s := by
  unfold takeRequests
  rw [free]
  rfl

theorem takeFrom_of_runnable {r : Request} {rest : List Request} {s : State}
    (allowed : admissible r.origin (s.line r.line).state = true) (program : programRunnable s r.kind = true) :
    takeFrom (r :: rest) s = startTest r (modEngine (fun e => { e with queue := rest }) s) :=
  if_pos (by rw [allowed, program]; rfl)

theorem takeFrom_of_skipped {r : Request} {rest : List Request} {s : State}
    (skipped : admissible r.origin (s.line r.line).state = false ∨ programRunnable s r.kind = false) :
    takeFrom (r :: rest) s = takeFrom rest (skipRequest r s) := by
  refine if_neg ?_
  rw [Bool.and_eq_true, not_and_or, Bool.not_eq_true, Bool.not_eq_true]
  exact skipped

/-- A skipped request is told to the ALARM queue if it was commanded, and forgotten if it was the sweep's (R129). -/
theorem skipRequest_of_commanded {r : Request} (commanded : r.origin = .commanded) (s : State) :
    skipRequest r s = offerAlarm (some r.line) (testResult r .skipped none []) s :=
  if_pos (decide_eq_true commanded)

theorem skipRequest_of_sweep {r : Request} (sweep : r.origin = .sweep) (s : State) : skipRequest r s = s :=
  if_neg (by rw [Request.commanded, sweep]; decide)

theorem skipRequest_eq (r : Request) (s : State) : ∃ a b, skipRequest r s = withAlarm a b s := by
  unfold skipRequest
  split
  · exact offerAlarm_eq ..
  · exact ⟨_, _, rfl⟩

theorem offerAlarm_modEngine (o : Option LineNo) (p : Payload) (f : TestEngine → TestEngine) (s : State) :
    offerAlarm o p (modEngine f s) = modEngine f (offerAlarm o p s) := by
  by_cases room : s.report.alarm.length < alarmCapacity
  · have plain : offerAlarm o p s = _ := if_pos room
    rw [plain]
    exact if_pos room
  · have plain : offerAlarm o p s = _ := if_neg room
    rw [plain]
    exact if_neg room

theorem skipRequest_modEngine (r : Request) (f : TestEngine → TestEngine) (s : State) :
    skipRequest r (modEngine f s) = modEngine f (skipRequest r s) := by
  unfold skipRequest
  split
  · exact offerAlarm_modEngine ..
  · rfl

/-- The taking of a queue does not read the engine's own. -/
theorem takeFrom_withQueue (q p : List Request) (s : State) :
    takeFrom q (modEngine (fun e => { e with queue := p }) s) = takeFrom q s := by
  induction q generalizing s with
  | nil => rfl
  | cons r rest ih =>
    unfold takeFrom
    rw [skipRequest_modEngine, ih]
    rfl

/-- What a skipped request leaves: the rest of the queue, and the record of a commanded one. -/
theorem skipped_spec (r : Request) (rest : List Request) (s : State) :
    let u := modEngine (fun e => { e with queue := rest }) (skipRequest r s)
    u = { s with
        engine := { s.engine with queue := rest }
        report := { s.report with alarm := u.report.alarm, alarmLost := u.report.alarmLost } } ∧
      (r.origin = .commanded → AlarmOffered (some r.line) (.testResult r.kind r.origin .skipped none []) s u) ∧
      (r.origin = .sweep → SameAlarm s u) := by
  refine ⟨?_, fun commanded => ?_, fun sweep => ?_⟩
  · obtain ⟨a, b, skipped⟩ := skipRequest_eq r s
    rw [skipped]
    rfl
  · rw [skipRequest_of_commanded commanded]
    exact (alarmOffered_offerAlarm (some r.line) (testResult r .skipped none []) s).1
  · rw [skipRequest_of_sweep sweep]
    exact ⟨rfl, rfl⟩

/-- Settles O51: a request that can be run starts its test; one that cannot is skipped, and the rest of the queue is taken. -/
theorem testTaken : Obligations.TestTaken := by
  refine ⟨fun s r rest sync queue => ⟨fun free allowed valid enabled => ?_, fun busy => ?_⟩, fun s r sync queue free skipped => ?_,
    fun s r rest sync queue free skipped => ?_, admissible_iff, programRunnable_iff⟩
  · have taken : exec .testTake s = .next (startTest r (modEngine (fun e => { e with queue := rest }) s)) := by
      rw [exec_testTake_of_sync sync, takeRequests_of_free free, queue,
        takeFrom_of_runnable ((admissible_iff ..).mpr allowed) ((programRunnable_iff ..).mpr ⟨valid, enabled⟩)]
    refine ⟨_, taken, ?_, fun k other => ?_, ?_, ?_, ?_, ?_⟩
    · rw [engine_startTest]
      rfl
    · rw [line_startTest_of_ne other]
      rfl
    · rw [startTest_eq]
      exact (upToMigration_releaseBanks _).alarm
    · rw [startTest_eq]
      exact (upToMigration_releaseBanks _).signal
    · rw [line_startTest_self]
      rfl
    · rw [engine_startTest, startTest_eq]
      exact migrationsComplete_releaseBanks sync
  · rw [exec_testTake_of_sync sync, takeRequests_busy busy]
  · have taken : exec .testTake s = .next (modEngine (fun e => { e with queue := [] }) (skipRequest r s)) := by
      rw [exec_testTake_of_sync sync, takeRequests_of_free free, queue, takeFrom_of_skipped skipped]
      rfl
    exact ⟨_, taken, skipped_spec r [] s⟩
  · refine ⟨modEngine (fun e => { e with queue := rest }) (skipRequest r s), ?_, skipped_spec r rest s⟩
    obtain ⟨a, b, told⟩ := skipRequest_eq r s
    have sync' : (modEngine (fun e => { e with queue := rest }) (skipRequest r s)).highway.sync = .sync := by
      rw [told]
      exact sync
    have free' : (modEngine (fun e => { e with queue := rest }) (skipRequest r s)).engine.busy = false := by
      rw [told]
      exact free
    rw [exec_testTake_of_sync sync, exec_testTake_of_sync sync', takeRequests_of_free free, takeRequests_of_free free', queue,
      takeFrom_of_skipped skipped]
    exact congrArg _ (takeFrom_withQueue ..).symm

/-! ### The events of a test -/

section

variable {s : State} {r : Request}

/-- An event on the held line, which has its sense, does its work in SYNC. -/
theorem next_onHeldLine (sync : s.highway.sync = .sync) (held : s.engine.held = some r)
    (sense : (s.line r.line).senseLost = false) (f : LineNo → State → State) :
    (.next (onHeldLine f s) : Result) = .next (f r.line s) :=
  congrArg _ (onHeldLine_of_uses ⟨sync, sense⟩ held f)

theorem inPhase_of {p : StepPhase} (busy : s.engine.busy = true) (phase : s.engine.phase = some p) : inPhase p s = true := by
  rw [inPhase, busy, phase, Bool.true_and]
  exact decide_eq_true rfl

theorem testHeld_of {l : LineNo} (busy : s.engine.busy = true) (held : s.engine.held = some r) (own : r.line = l) :
    testHeld s l = true := by
  simp [testHeld, busy, held, own]

end

/-- Settles O52: the two events are due by their premises; a record of the line under test goes to the engine, or aborts the
test where sense returns. -/
theorem settleEndsAndNoEchoAborts : Obligations.SettleEndsAndNoEchoAborts := by
  refine ⟨fun s r sync busy held sense phase count => ?_, fun s r sync busy held sense lawful phase age => ?_,
    fun s r n status i vt vr o echo arrives carries used test busy held step lawful => ?_⟩
  · have due : testSettleEndDue s = true := by
      rw [testSettleEndDue, inPhase_of busy phase, count]
      rfl
    exact (next_onHeldLine sync held sense _).trans (congrArg _ (if_pos due))
  · have due : noEchoDue s = true := by
      rw [noEchoDue, inPhase_of busy phase, Bool.true_and, decide_eq_true_eq]
      exact age
    have run : exec .noEcho s = .next (abortTest r.line .noEcho s) :=
      (next_onHeldLine sync held sense _).trans (congrArg _ (if_pos due))
    exact ⟨_, run, endsTest_finishTest _ _ sync held lawful⟩
  · have line : testHeld s r.line = true := testHeld_of busy held rfl
    refine recordUsed_senseRecord arrives carries used _ fun w uses engine _ tested current tip ring => ?_
    have lawful' : w.testQueueLawful := by
      rw [State.testQueueLawful, engine]
      exact lawful
    have held' : w.engine.held = some r := by rw [engine, held]
    rw [line, Bool.and_true]
    refine ⟨fun sense => ?_, fun lost => ?_⟩
    · rw [sense, if_neg Bool.false_ne_true, blocksRecord_of_test (tested.mp test) (by rw [testHeld, engine]; exact line),
        current, tip, ring, ← held_handedRecord]
      exact engineUses_testRecord uses (by rw [engine, busy]) held' (by rw [engine, step]) lawful' _
    · rw [lost, if_pos rfl, ← engine]
      exact endsTest_finishTest _ _ uses.sync held' lawful'

end Sys2Proof.Proofs

/-! The end of a step of a test. -/

namespace Sys2Proof.Proofs

open Sys2Proof.Machine

/-! ### What the blocks of a line do not read -/

/-- A state with another test engine, other tables, another REPLY queue and other words in flight. -/
def aside (e : TestEngine) (T : TableStore) (R : List Record) (w : Wires) (u : State) : State :=
  { u with wires := w, engine := e, tables := T, report := { u.report with reply := R } }

section

variable {e : TestEngine} {T : TableStore} {R : List Record} {w : Wires} {u : State} {l : LineNo}

theorem modLine_aside (f : Line → Line) : modLine l f (aside e T R w u) = aside e T R w (modLine l f u) := rfl

theorem offerItem_aside (item : DueItem) : offerItem l item (aside e T R w u) = aside e T R w (offerItem l item u) := by
  unfold offerItem
  rw [apply_ite (aside e T R w)]
  rfl

theorem offerState_aside (new old : LineState) (cause : Cause) :
    offerState l new old cause (aside e T R w u) = aside e T R w (offerState l new old cause u) := by
  unfold offerState
  rw [apply_ite (aside e T R w)]
  rfl

theorem closeString_aside (reason : CloseReason) :
    closeString l reason (aside e T R w u) = aside e T R w (closeString l reason u) := by
  unfold closeString
  dsimp only
  rw [apply_ite (aside e T R w), ← offerItem_aside]
  rfl

theorem feedFor_aside {c : Line} (untested : c.state ≠ .test) : (aside e T R w u).feedFor c = u.feedFor c := by
  unfold State.feedFor
  cases state : c.state
  case test => exact absurd state untested
  all_goals rfl

theorem modLine_congr {f g : Line → Line} (same : f (u.line l) = g (u.line l)) : modLine l f u = modLine l g u :=
  congrArg (fun c => setLine l c u) same

theorem tables_applyPending : (applyPending l u).tables = u.tables := by
  unfold applyPending
  split
  · rfl
  · exact (sameStore_adoptProfile ..).1

theorem tables_bindProfile : (bindProfile l u).tables = u.tables := by
  unfold bindProfile
  split
  · rfl
  · exact (sameStore_adoptProfile ..).1

theorem tables_bindTonePlan : (bindTonePlan l u).tables = u.tables := by
  unfold bindTonePlan
  split <;> rfl

theorem sameTables_aside {t : State} (same : SameTables u (aside e T R w u)) (kept : t.tables = u.tables) :
    SameTables t (aside e T R w t) := by
  intro x
  have table : t.table x = u.table x := by rw [State.table, kept, State.table]
  rw [table]
  exact same x

section

variable (same : SameTables u (aside e T R w u))

include same

theorem profile_aside : (aside e T R w u).profile l = u.profile l := by
  rw [State.profile, State.profileFor, same.entry]
  rfl

theorem adoptProfile_aside (i : Nat) : adoptProfile l i (aside e T R w u) = aside e T R w (adoptProfile l i u) := by
  have bound : modLine l (fun c => { c with profileIndex := i, profileBank := (aside e T R w u).activeBank .profile })
      (aside e T R w u) =
      aside e T R w (modLine l (fun c => { c with profileIndex := i, profileBank := u.activeBank .profile }) u) := by
    rw [same.activeBank]
    rfl
  have old := profile_aside (l := l) same
  have new := profile_aside (l := l) (sameTables_aside (t := modLine l (fun c => { c with
    profileIndex := i, profileBank := u.activeBank .profile }) u) same rfl)
  unfold adoptProfile
  dsimp only
  rw [bound, old, new]
  generalize modLine l (fun c => { c with profileIndex := i, profileBank := u.activeBank .profile }) u = v
  rw [modLine_aside, closeString_aside, apply_ite (aside e T R w)]
  rfl

theorem applyPending_aside : applyPending l (aside e T R w u) = aside e T R w (applyPending l u) := by
  have line : (aside e T R w u).line l = u.line l := rfl
  unfold applyPending
  rw [line]
  cases (u.line l).pendingProfile with
  | none => rfl
  | some i =>
    dsimp only
    rw [modLine_aside]
    exact adoptProfile_aside (sameTables_aside (t := modLine l (fun c => { c with pendingProfile := none }) u) same rfl) i

theorem bindProfile_aside : bindProfile l (aside e T R w u) = aside e T R w (bindProfile l u) := by
  unfold bindProfile
  rw [same.activeBank, adoptProfile_aside same, apply_ite (aside e T R w)]
  rfl

theorem bindTonePlan_aside : bindTonePlan l (aside e T R w u) = aside e T R w (bindTonePlan l u) := by
  unfold bindTonePlan
  rw [same.activeBank, apply_ite (aside e T R w)]
  rfl

theorem bindCadence_aside : bindCadence l (aside e T R w u) = aside e T R w (bindCadence l u) := by
  unfold bindCadence
  rw [same.activeBank, apply_ite (aside e T R w)]
  rfl

theorem examine_aside : examine l (aside e T R w u) = aside e T R w (examine l u) := by
  have pending : (applyPending l u).tables = u.tables := tables_applyPending
  have profile : (bindProfile l (applyPending l u)).tables = u.tables := tables_bindProfile.trans pending
  have tone : (bindTonePlan l (bindProfile l (applyPending l u))).tables = u.tables := tables_bindTonePlan.trans profile
  have line : (aside e T R w u).line l = u.line l := rfl
  unfold examine
  rw [line]
  split
  · rw [applyPending_aside same, bindProfile_aside (sameTables_aside same pending),
      bindTonePlan_aside (sameTables_aside same profile), bindCadence_aside (sameTables_aside same tone)]
  · exact bindCadence_aside same

/-- The entry into a state other than TEST reads neither the engine nor what a release changes. -/
theorem enter_aside {new : LineState} (cause : Cause) {f : Line → Line} (untested : new ≠ .test) :
    enter l new cause f (aside e T R w u) = aside e T R w (enter l new cause f u) := by
  have changed : changeState l new f (aside e T R w u) = aside e T R w (changeState l new f u) := by
    have feed := feedFor_aside (e := e) (T := T) (R := R) (w := w) (u := modLine l (fun c => { f c with state := new }) u)
      (c := { f (u.line l) with state := new }) untested
    unfold changeState refreshFeed
    rw [modLine_aside, modLine_aside]
    refine congrArg (aside e T R w) (modLine_congr ?_)
    rw [line_modLine_self, feed]
  have line : (aside e T R w u).line l = u.line l := rfl
  unfold enter
  rw [changed, offerState_aside, line, examine_aside]
  exact sameTables_aside same (sameStore_offerState ..).1

end

end

/-! ### The step under way -/

/-- The state with the result of the step under way recorded (R132). -/
def stepDone (s : State) : State :=
  modEngine (fun e => { e.clearStep with results := e.results ++ [stepResult s.currentStep e] }) s

section

variable {s : State} {r : Request} {n : Nat}

theorem testStepAt_of_held (held : s.engine.held = some r) (k : Nat) :
    s.testStepAt k = s.entry .testPlan (s.engine.bank.getD .a) (4 * kindCode r.kind + (k - 1)) := by
  rw [State.testStepAt, held]
  rfl

theorem currentStep_of (step : s.engine.step = some n) : s.currentStep = readTestStep (s.testStepAt n).words := by
  rw [State.currentStep, step]
  rfl

theorem testStepEnd_of_due (step : s.engine.step = some n) (l : LineNo) (due : testStepEndDue s = true) :
    testStepEndIfDue l s =
      if (n < 4 && runnable (s.testStepAt (n + 1))) = true then beginTestStep l (n + 1) (stepDone s)
      else finishTest l (verdictOf (stepDone s).engine.results) none (stepDone s) := by
  unfold testStepEndIfDue
  rw [if_pos due, step]
  rfl

theorem verdictOf_eq (results : List StepResult) :
    verdictOf results = if ∀ x ∈ results, x.pass = true then .pass else .fail := by
  simp only [verdictOf, List.all_eq_true]

/-! ### The release of banks and the engine -/

theorem releaseBank_modEngine {f : TestEngine → TestEngine} (kept : (f s.engine).bank = s.engine.bank) (x : TableId) :
    releaseBank x (modEngine f s) = modEngine f (releaseBank x s) := by
  have users : ∀ bank, (modEngine f s).users x bank = s.users x bank := fun bank => by
    cases x
    case testPlan =>
      change (if (f s.engine).bank = some bank then 1 else 0) = _
      rw [kept]
      rfl
    all_goals rfl
  have table : (modEngine f s).table x = s.table x := rfl
  have active : (modEngine f s).activeBank x = s.activeBank x := rfl
  unfold releaseBank
  rw [table, active, users]
  cases (s.table x).retiringTag with
  | none => rfl
  | some tag =>
    dsimp only
    rw [apply_ite (modEngine f)]
    unfold offerReply
    rw [apply_ite (modEngine f)]
    rfl

theorem releaseBanks_modEngine {f : TestEngine → TestEngine} (bank : (f s.engine).bank = s.engine.bank) :
    releaseBanks (modEngine f s) = modEngine f (releaseBanks s) := by
  unfold releaseBanks
  generalize userTables = tables
  induction tables generalizing s with
  | nil => rfl
  | cons x rest ih =>
    rw [List.foldl_cons, List.foldl_cons, releaseBank_modEngine bank, ih]
    rw [(upToMigration_releaseBank x s).engine]
    exact bank

theorem modEngine_eq_aside {u : State} (f : TestEngine → TestEngine) (same : u.engine = s.engine) :
    modEngine f u = aside (f s.engine) u.tables u.report.reply u.wires u := by
  rw [← same]
  rfl

/-- A move to a state other than TEST does not read the engine, but for the bank that it holds. -/
theorem move_modEngine {f : TestEngine → TestEngine} {l : LineNo} {new : LineState} (cause : Cause) (g : Line → Line)
    (bank : (f s.engine).bank = s.engine.bank) (untested : new ≠ .test) :
    move l new cause g (modEngine f s) = modEngine f (move l new cause g s) := by
  have store := sameStore_enter l new cause g s
  have engine := (onlyLine_enter l new cause g s).engine
  have wires := (onlyLine_enter l new cause g s).wires
  have same : SameTables s (aside (f s.engine) s.tables s.report.reply s.wires s) := .of_eq rfl
  have entered : enter l new cause g (modEngine f s) = modEngine f (enter l new cause g s) := by
    rw [modEngine_eq_aside f rfl, enter_aside same cause untested, modEngine_eq_aside f engine, store.1, store.2, wires]
  unfold move
  rw [entered, releaseBanks_modEngine (by rw [engine]; exact bank)]

theorem returnLine_modEngine {f : TestEngine → TestEngine} (bank : (f s.engine).bank = s.engine.bank) (l : LineNo) :
    returnLine l (modEngine f s) = modEngine f (returnLine l s) := by
  refine move_modEngine .testEnd _ bank ?_
  rw [returnState_eq]
  obtain h | h | h := returnsTo_cases ((modEngine f s).line l) <;> rw [h] <;> decide

/-- A test ends behind a change of the engine that leaves its queue, its sweep and its bank. -/
theorem endsTest_modEngine {f : TestEngine → TestEngine} (verdict : Verdict) (cause : Option AbortCause)
    (sync : s.highway.sync = .sync) (held : s.engine.held = some r) (lawful : s.testQueueLawful)
    (same : (f s.engine).bank = s.engine.bank ∧ (f s.engine).held = s.engine.held ∧ (f s.engine).freed = s.engine.freed) :
    EndsTest r verdict cause (f s.engine).results s (finishTest r.line verdict cause (modEngine f s)) := by
  obtain ⟨bank, held', freed⟩ := same
  have queue : (f s.engine).queue = s.engine.queue := (congrArg TestEngine.queue freed :)
  have lawful' : (modEngine f s).testQueueLawful := by
    change (f s.engine).queue.length ≤ _ ∧ ((f s.engine).queue.map _).Nodup ∧
      ∀ r, (f s.engine).held = some r → queuedFor r.line (f s.engine).queue = false
    rw [queue, held']
    exact lawful
  obtain ⟨-, rest⟩ := endsTest_finishTest (r := r) (s := modEngine f s) verdict cause sync (held'.trans held) lawful'
  refine ⟨?_, rest⟩
  have ended : finishTest r.line verdict cause (modEngine f s) =
      freeEngine (returnLine r.line (modEngine f
        (offerAlarm (some r.line) (testResult r verdict cause (f s.engine).results) s))) := by
    unfold finishTest reportTest
    rw [show (modEngine f s).engine.held = some r from held'.trans held, ← offerAlarm_modEngine]
    rfl
  obtain ⟨offered, told⟩ := alarmOffered_offerAlarm (some r.line) (testResult r verdict cause (f s.engine).results) s
  rw [ended]
  generalize offerAlarm (some r.line) (testResult r verdict cause (f s.engine).results) s = u at offered told
  have highway : u.highway = s.highway := by rw [told]
  have engine : u.engine = s.engine := by rw [told]
  have line : u.line r.line = s.line r.line := by
    rw [told]
    rfl
  have moved := movesLine_returnLine (s := u) (by rw [highway]; exact sync) r.line
  rw [line] at moved
  have only : OnlyLine r.line u (returnLine r.line u) := onlyLine_move ..
  rw [returnLine_modEngine (by rw [engine]; exact bank)]
  generalize returnLine r.line u = v at moved only
  have free : freeEngine (modEngine f v) = freeEngine v := by
    have same : modEngine (·.freed) (modEngine f v) = modEngine (·.freed) v := by
      change ({ v with engine := (f v.engine).freed } : State) = { v with engine := v.engine.freed }
      rw [only.engine, engine, freed]
    unfold freeEngine
    rw [same]
  rw [free]
  exact ⟨u, v, offered, told, moved, freesEngine_freeEngine (by rw [only.highway, highway]; exact sync)⟩

/-! ### The obligation -/

/-- The value and the pass mark of a step (R132). -/
theorem stepResult_eq (step : TestStep) (e : TestEngine) (number : e.step = some n) :
    stepResult step e = ⟨n, stepValue step.quantity e,
      decide (e.sampleCount ≠ 0 ∧ step.lower ≤ stepValue step.quantity e ∧ stepValue step.quantity e ≤ step.upper)⟩ := by
  unfold stepResult
  rw [number]
  simp only [Option.getD_some, Bool.decide_and, bne, ne_eq, decide_not, Bool.and_assoc]
  rfl

/-- The commanded feed of a line in TEST is the step's. -/
theorem feedFor_of_test {c : Line} (test : c.state = .test) : s.feedFor c = s.currentStep.feed := by
  unfold State.feedFor
  rw [test]

theorem line_beginTestStep (l : LineNo) (n : Nat) (s : State) : (beginTestStep l n s).line l =
    { s.line l with commandedFeed := (modEngine (·.atStep n) s).feedFor (s.line l) } :=
  line_modLine_self ..

theorem onlyLine_beginTestStep (l : LineNo) (n : Nat) (f : TestEngine → TestEngine) (s : State) :
    OnlyLine l s { beginTestStep l n (modEngine f s) with engine := s.engine } := by
  change OnlyLine l s
    (modLine l (fun c => { c with commandedFeed := (modEngine (·.atStep n) (modEngine f s)).feedFor c }) s)
  exact onlyLine_modLine ..

/-- Each quantity is the mean of its samples or half their swing (R132). -/
theorem halfSwing_eq (high low : Option Int) : halfSwing high low = (high.getD 0 - low.getD 0) / 2 := by
  unfold halfSwing shiftRight
  rw [pow_one]

end

/-- Settles O53: the step's result joins the others, and by the next entry the engine begins that step or the test ends. -/
theorem testStepEnds : Obligations.TestStepEnds := by
  intro s r n sync busy held sense lawful test phase number first e entry step value results goesOn timed measured
  have due : testStepEndDue s = true := by
    have current : s.currentStep = step := by rw [currentStep_of number, testStepAt_of_held held]
    rw [testStepEndDue, inPhase_of busy phase, current, decide_eq_true measured, decide_eq_true timed]
    rfl
  have value_eq : stepValue step.quantity e = value := by
    unfold stepValue
    simp only [halfSwing_eq]
    rfl
  have done : (stepDone s).engine.results = results := by
    change e.results ++ [stepResult s.currentStep e] = results
    rw [currentStep_of number, testStepAt_of_held held, stepResult_eq _ _ number]
    change e.results ++ [⟨n, stepValue step.quantity e, decide (e.sampleCount ≠ 0 ∧
      step.lower ≤ stepValue step.quantity e ∧ stepValue step.quantity e ≤ step.upper)⟩] = results
    rw [value_eq]
  have next : (n < 4 && runnable (s.testStepAt (n + 1))) = true ↔ goesOn := by
    rw [testStepAt_of_held held, runnable, Bool.and_eq_true, Bool.and_eq_true, decide_eq_true_eq]
  have run : exec .testStepEnd s = .next (testStepEndIfDue r.line s) := next_onHeldLine sync held sense _
  refine ⟨_, run, fun on => ?_, fun off => ?_⟩
  · rw [testStepEnd_of_due number _ due, if_pos (next.mpr on)]
    refine ⟨?_, onlyLine_beginTestStep .., ⟨rfl, rfl⟩, rfl, ?_⟩
    · rw [← done, ← busy]
      rfl
    have begun : (modEngine (·.atStep (n + 1)) (stepDone s)).currentStep = readTestStep (entry (n + 1)).words := by
      rw [currentStep_of rfl, testStepAt_of_held (s := modEngine (·.atStep (n + 1)) (stepDone s)) held]
      rfl
    have feed : (modEngine (·.atStep (n + 1)) (stepDone s)).feedFor (s.line r.line) =
        (readTestStep (entry (n + 1)).words).feed := by
      rw [feedFor_of_test test, begun]
    have line : (stepDone s).line r.line = s.line r.line := rfl
    rw [line_beginTestStep, line, feed]
  · rw [testStepEnd_of_due number _ due, if_neg (next.not.mpr off), verdictOf_eq, done]
    have ended := endsTest_modEngine (f := fun e => { e.clearStep with results := e.results ++ [stepResult s.currentStep e] })
      (if ∀ x ∈ results, x.pass = true then .pass else .fail) none sync held lawful ⟨rfl, rfl, rfl⟩
    change EndsTest r _ none (stepDone s).engine.results s (finishTest r.line _ none (stepDone s)) at ended
    rwa [done] at ended

end Sys2Proof.Proofs

/-! Sync and frames: the first acquisition, a counted boundary, the fourth miss, and the return to SYNC. -/

namespace Sys2Proof.Proofs

open Sys2Proof.Machine

/-! ### An advance of the stamp -/

/-- What an advance of the stamp leaves of the device, and how it lets the ALARM queue grow. -/
structure Ticked (s t : State) : Prop where
  highway : t.highway = s.highway
  wires : t.wires = s.wires
  receiver : t.receiver = s.receiver
  sending : t.report.sending = s.report.sending
  signal : t.report.signal = s.report.signal
  alarm : s.report.alarm <+: t.report.alarm
  marks : ∀ l, (t.line l).recoveryDue = (s.line l).recoveryDue ∧ (t.line l).monitor = (s.line l).monitor

theorem Ticked.refl (s : State) : Ticked s s := ⟨rfl, rfl, rfl, rfl, rfl, List.prefix_rfl, fun _ => ⟨rfl, rfl⟩⟩

theorem Ticked.trans {s t u : State} (h : Ticked s t) (g : Ticked t u) : Ticked s u where
  highway := g.highway.trans h.highway
  wires := g.wires.trans h.wires
  receiver := g.receiver.trans h.receiver
  sending := g.sending.trans h.sending
  signal := g.signal.trans h.signal
  alarm := h.alarm.trans g.alarm
  marks l := ⟨(g.marks l).1.trans (h.marks l).1, (g.marks l).2.trans (h.marks l).2⟩

theorem ticked_modEngine (f : TestEngine → TestEngine) (s : State) : Ticked s (modEngine f s) :=
  ⟨rfl, rfl, rfl, rfl, rfl, List.prefix_rfl, fun _ => ⟨rfl, rfl⟩⟩

theorem ticked_takeRequests (s : State) : Ticked s (takeRequests s) := by
  have step := engineStep_takeRequests s
  refine ⟨step.highway, step.wires, step.receiver, step.sending, step.signal, step.alarm, fun l => ?_⟩
  unfold takeRequests
  split
  · exact ⟨rfl, rfl⟩
  · obtain ⟨alarm, flag, emptied | ⟨r, rest, -, -, started⟩⟩ := takeFrom_cases s.engine.queue s
    · rw [emptied]
      exact ⟨rfl, rfl⟩
    · rw [started]
      by_cases own : l = r.line
      · rw [own, line_startTest_self]
        exact ⟨rfl, rfl⟩
      · rw [line_startTest_of_ne own]
        exact ⟨rfl, rfl⟩

theorem ticked_sweepExpiryIfDue (s : State) : Ticked s (sweepExpiryIfDue s) := by
  unfold sweepExpiryIfDue
  dsimp only
  split
  · split
    · exact ((ticked_modEngine _ s).trans (ticked_modEngine ..)).trans (ticked_takeRequests _)
    · exact ticked_modEngine ..
  · exact .refl s

theorem ticked_sweepTick (s : State) : Ticked s (sweepTick s) := by
  unfold sweepTick
  split
  · exact ticked_modEngine ..
  · exact (ticked_modEngine ..).trans (ticked_sweepExpiryIfDue _)

/-- A table at a tick of its load's lapse timer. -/
def tickedTable (tb : Table) : Table := { tb with load := tb.load.map Load.tick }

theorem table_lapseTick_self (x : TableId) (s : State) : (lapseTick x s).table x = tickedTable (s.table x) :=
  table_setTable_self ..

theorem table_lapseTick_of_ne {x y : TableId} (other : y ≠ x) (s : State) : (lapseTick x s).table y = s.table y :=
  table_setTable_of_ne other ..

theorem lapseTick_eq (x : TableId) (s : State) : lapseTick x s = { s with tables := (lapseTick x s).tables } := rfl

theorem foldl_lapseTick_eq (xs : List TableId) (s : State) :
    ∃ tables, xs.foldl (fun s x => lapseTick x s) s = { s with tables := tables } := by
  induction xs generalizing s with
  | nil => exact ⟨_, rfl⟩
  | cons x rest ih =>
    obtain ⟨tables, ticked⟩ := ih (lapseTick x s)
    exact ⟨tables, by rw [List.foldl_cons, ticked, lapseTick_eq]⟩

theorem table_foldl_lapseTick_of_not_mem {x : TableId} {xs : List TableId} (out : x ∉ xs) (s : State) :
    (xs.foldl (fun s x => lapseTick x s) s).table x = s.table x := by
  induction xs generalizing s with
  | nil => rfl
  | cons y rest ih =>
    rw [List.mem_cons, not_or] at out
    rw [List.foldl_cons, ih out.2, table_lapseTick_of_ne out.1]

theorem table_foldl_lapseTick_of_mem {x : TableId} {xs : List TableId} (mem : x ∈ xs) (distinct : xs.Nodup) (s : State) :
    (xs.foldl (fun s x => lapseTick x s) s).table x = tickedTable (s.table x) := by
  induction xs generalizing s with
  | nil => cases mem
  | cons y rest ih =>
    rw [List.nodup_cons] at distinct
    rw [List.foldl_cons]
    by_cases own : x = y
    · rw [own, table_foldl_lapseTick_of_not_mem distinct.1, table_lapseTick_self]
    · rw [ih ((List.mem_cons.mp mem).resolve_left own) distinct.2, table_lapseTick_of_ne own]

/-- The lapse timers' part of an advance of the stamp is the tables'. -/
theorem lapseTicks_eq (s : State) : lapseTicks s = { s with tables := (lapseTicks s).tables } := by
  obtain ⟨tables, ticked⟩ := foldl_lapseTick_eq allTables s
  unfold lapseTicks
  rw [ticked]

theorem table_lapseTicks (x : TableId) (s : State) : (lapseTicks s).table x = tickedTable (s.table x) :=
  table_foldl_lapseTick_of_mem (by cases x <;> decide) (by decide) s

theorem ticked_lapseTicks (s : State) : Ticked s (lapseTicks s) := by
  obtain ⟨tables, ticked⟩ := foldl_lapseTick_eq allTables s
  unfold lapseTicks
  rw [ticked]
  exact ⟨rfl, rfl, rfl, rfl, rfl, List.prefix_rfl, fun _ => ⟨rfl, rfl⟩⟩

theorem ticked_stampTicks (s : State) : Ticked s (stampTicks s) := by
  unfold stampTicks
  exact (ticked_sweepTick s).trans (ticked_lapseTicks _)

theorem sweepTick_of_off {s : State} (off : s.settings.sweepPeriod = 0) :
    sweepTick s = modEngine (fun e => { e with sweepTimer := 0 }) s :=
  if_pos off

theorem sweepTick_of_on {s : State} (on : s.settings.sweepPeriod ≠ 0) :
    sweepTick s = sweepExpiryIfDue (modEngine (fun e => { e with sweepTimer := e.sweepTimer + 1 }) s) :=
  if_neg on

theorem sweepTick_of_early {s : State} (early : s.engine.sweepTimer + 1 < s.settings.sweepPeriod * 1000) :
    sweepTick s = modEngine (fun e => { e with sweepTimer := e.sweepTimer + 1 }) s := by
  have on : s.settings.sweepPeriod ≠ 0 := by
    intro off
    rw [off] at early
    omega
  rw [sweepTick_of_on on]
  refine if_neg ?_
  rw [sweepDue_iff]
  exact fun due => absurd due.2 (Nat.not_le.mpr early)

/-- In SYNC an advance of the stamp is made known as the sweep's expiry and the lapse timers' ticks. -/
theorem ticks_stampTicks {s : State} (sync : s.highway.sync = .sync) : Ticks s (stampTicks s) := by
  refine ⟨sweepTick s, fun off => ?_, fun early => ?_, fun on _ => ?_, lapseTicks_eq _, fun x => ?_⟩
  · exact sweepTick_of_off (by omega)
  · exact sweepTick_of_early early
  · rw [sweepTick_of_on fun off => on (by rw [off, Nat.zero_mul])]
    exact exec_sweepExpiry_of_sync sync
  · rw [stampTicks, table_lapseTicks]
    rfl

/-! ### Lapses and the highway -/

theorem offerReply_modHighway {f : Highway → Highway} {s : State} (stamp : (f s.highway).stamp = s.highway.stamp)
    (o : Option LineNo) (p : Payload) : offerReply o p (modHighway f s) = modHighway f (offerReply o p s) := by
  have record : (modHighway f s).record o p = s.record o p := congrArg (fun n => (⟨o, n, false, p⟩ : Record)) stamp
  unfold offerReply
  rw [apply_ite (modHighway f), record]
  rfl

theorem loadLapseIfDue_modHighway {f : Highway → Highway} {s : State} (stamp : (f s.highway).stamp = s.highway.stamp)
    (x : TableId) : loadLapseIfDue x (modHighway f s) = modHighway f (loadLapseIfDue x s) := by
  have table : (modHighway f s).table x = s.table x := rfl
  have closed : setTable x (s.table x).closeLoad (modHighway f s) = modHighway f (setTable x (s.table x).closeLoad s) := rfl
  unfold loadLapseIfDue
  rw [table]
  cases (s.table x).load with
  | none => rfl
  | some ld =>
    dsimp only
    rw [closed, offerReply_modHighway (by exact stamp), apply_ite (modHighway f)]

/-- The lapses due do not read the highway interface, but for the stamp of their records. -/
theorem dueLapses_modHighway {f : Highway → Highway} {s : State} (stamp : (f s.highway).stamp = s.highway.stamp) :
    dueLapses (modHighway f s) = modHighway f (dueLapses s) := by
  unfold dueLapses
  generalize allTables = tables
  induction tables generalizing s with
  | nil => rfl
  | cons x rest ih =>
    obtain ⟨tables, replies, lapsed⟩ := loadLapseIfDue_eq x s
    rw [List.foldl_cons, List.foldl_cons, loadLapseIfDue_modHighway stamp, ih]
    rw [lapsed]
    exact stamp

/-! ### The first acquisition -/

theorem syncAcquire_of_candidate {s : State} (hunt : s.highway.sync = .hunt) (found : s.highway.candidate.isSome = true) :
    syncAcquire s =
      let entered := modHighway (fun h =>
        { h with sync := .sync, candidate := none, missCount := 0, frame := some 0, firstAcquisition := false }) s
      beginFrameWords 0 false
        (if s.highway.firstAcquisition = true then entered else stampTicks (returnToSync (advanceStamp entered))) :=
  if_pos (by rw [hunt, found]; rfl)

theorem highway_beginFrameWords (f : Nat) (audio : Bool) (s : State) : (beginFrameWords f audio s).highway = s.highway := rfl

theorem highway_abortAtReturn (s : State) : (abortAtReturn s).highway = s.highway := by
  unfold abortAtReturn
  split
  · exact (keepsStore_finishTest ..).2.2
  · rfl

/-- The mark of the recovery changes and of a discarded window that a return to SYNC leaves on a line (R110, R140). -/
def markReturn (c : Line) : Line := { c with monitor := { c.monitor with discard := true }, recoveryDue := true }

/-- The report unit and the receiver afresh, and every line marked (R140). -/
def afresh (s : State) : State := mapLines markReturn (setSending none (idleReceiver s))

theorem returnToSync_eq (s : State) :
    returnToSync s = afresh (abortAtReturn (offerAlarm none (.syncRestored (s.highway.stampAtLoss.getD 0)) s)) := rfl

theorem afresh_eq (s : State) :
    afresh s = { s with lines := (afresh s).lines, receiver := .initial, report := { s.report with sending := none } } := rfl

theorem line_afresh (l : LineNo) (s : State) : (afresh s).line l = markReturn (s.line l) := by
  simp [afresh, setSending, idleReceiver, setReceiver, mapLines, State.line, Vector.get_eq_getElem]

theorem highway_returnToSync (s : State) : (returnToSync s).highway = s.highway := by
  have aborted := (highway_abortAtReturn (offerAlarm none (.syncRestored (s.highway.stampAtLoss.getD 0)) s)).trans
    (onlyLine_offerAlarm 0 _ _ s).highway
  rw [returnToSync_eq, afresh_eq]
  exact aborted

theorem beginFrameWords_return (s : State) : beginFrameWords 0 false s = { s with wires :=
    ⟨silence, silence, some silence, some silence, feedWordsOf 0 s, true, none, 0, 0⟩ } := rfl

theorem feedWordsOf_congr {s t : State} (same : t.lines = s.lines) (f : Nat) : feedWordsOf f t = feedWordsOf f s := by
  simp only [feedWordsOf, State.line, same]

/-- Settles O22: the candidate's events are the model's, and an acquisition begins frame 0. -/
theorem firstAcquisition : Obligations.FirstAcquisition := by
  refine ⟨fun s pulse hunt => ⟨?_, ?_⟩, fun s hunt found => ?_, fun s hunt found first => ?_⟩
  · exact congrArg _ (if_pos hunt)
  · exact congrArg _ (if_pos hunt)
  · have run : exec .syncAcquire s = .next (syncAcquire s) := rfl
    refine ⟨_, run, ?_⟩
    rw [syncAcquire_of_candidate hunt found]
    dsimp only
    rw [highway_beginFrameWords]
    by_cases first : s.highway.firstAcquisition = true
    · rw [if_pos first]
      exact ⟨rfl, rfl, rfl, rfl⟩
    · rw [if_neg first, (ticked_stampTicks _).highway, highway_returnToSync]
      exact ⟨rfl, rfl, rfl, rfl⟩
  · have run : exec .syncAcquire s = .next (syncAcquire s) := rfl
    rw [run, syncAcquire_of_candidate hunt found]
    dsimp only
    rw [if_pos first, beginFrameWords_return, feedWordsOf_congr (s := s) rfl]
    rfl

/-! ### The fourth miss -/

theorem frameBoundary_of_sync {s : State} (sync : s.highway.sync = .sync) (fs : Bool) :
    frameBoundary fs s =
      let counted := modHighway (fun h => { h with missCount := if fs then 0 else advance missLimit h.missCount }) s
      if huntDue counted then enterHunt counted else passBoundary counted :=
  if_pos sync

/-- What the entry to HUNT at a miss count of 4 leaves (R61, R138, R166). -/
theorem enterHunt_hunted {s t : State} (sync : s.highway.sync = .sync)
    (counted : t = modHighway (fun h => { h with missCount := 4 }) s) :
    ∃ u, LapsesDue s u ∧
      (enterHunt t).highway = { s.highway with
        sync := .hunt, candidate := none, missCount := 4, frame := none, stampAtLoss := some s.highway.stamp } ∧
      (enterHunt t).wires = .quiet ∧ (enterHunt t).report = { u.report with sending := none } ∧
      (enterHunt t).engine = s.engine ∧ (enterHunt t).receiver = s.receiver ∧ (enterHunt t).tables = u.tables ∧
      ∀ l, (enterHunt t).line l =
        if (s.line l).tone.run = .running then { s.line l with tone := { (s.line l).tone with run := .held } }
        else s.line l := by
  obtain ⟨engine, receiver, tables, -, report⟩ := enterHunt_keeps t
  have lapsed : dueLapses t = modHighway (fun h => { h with missCount := 4 }) (dueLapses s) := by
    rw [counted, dueLapses_modHighway rfl]
  have highway : (enterHunt t).highway = { (dueLapses t).highway with
      sync := .hunt, candidate := none, frame := none, stampAtLoss := some (dueLapses t).highway.stamp } := rfl
  obtain ⟨ts, rs, due⟩ := dueLapses_eq s
  refine ⟨dueLapses s, lapsesDue_dueLapses sync, ?_, rfl, ?_, ?_, ?_, ?_, fun l => ?_⟩
  · rw [highway, lapsed, due]
    rfl
  · rw [report, lapsed]
    rfl
  · rw [engine, counted]
    rfl
  · rw [receiver, counted]
    rfl
  · rw [tables, lapsed]
    rfl
  · rw [line_enterHunt, counted]
    rfl

/-- Settles O25: the fourth miss is counted and HUNT is due; HUNT_ENTRY meets the same check. -/
theorem fourthMissEntersHunt : Obligations.FourthMissEntersHunt := by
  intro s sync hunted
  refine ⟨fun misses => ?_, fun misses => ?_⟩
  · let counted := modHighway (fun h => { h with missCount := 4 }) s
    have due : huntDue counted = true := by
      change (decide (s.highway.sync = .sync) && decide (missLimit ≤ 4)) = true
      rw [sync]
      rfl
    have missed : modHighway (fun h => { h with missCount := if false then 0 else advance missLimit h.missCount }) s = counted := by
      change { s with highway := { s.highway with missCount := advance missLimit s.highway.missCount } } = counted
      rw [misses]
      rfl
    have hunting : frameBoundary false s = enterHunt counted := by
      rw [frameBoundary_of_sync sync]
      dsimp only
      rw [missed, if_pos due]
    have run : exec (.frameBoundary false) s = .next (enterHunt counted) := congrArg Host.Outcome.next hunting
    exact ⟨_, run, enterHunt_hunted sync rfl⟩
  · have due : huntDue s = true := by
      rw [huntDue, sync, misses]
      rfl
    have counted : s = modHighway (fun h => { h with missCount := 4 }) s := by
      unfold modHighway
      rw [← misses]
    have run : exec .huntEntry s = .next (enterHunt s) := congrArg Host.Outcome.next (if_pos due)
    exact ⟨_, run, enterHunt_hunted sync counted⟩

/-! ### A counted boundary -/

/-- The misses counted at a boundary that is not the fourth miss. -/
def boundaryCounted (fs : Bool) (s : State) : State :=
  modHighway (fun h => { h with missCount := if fs then 0 else h.missCount + 1 }) s

theorem frameBoundary_of_counted {s : State} {fs : Bool} (sync : s.highway.sync = .sync)
    (few : fs = true ∨ s.highway.missCount < 3) : frameBoundary fs s = passBoundary (boundaryCounted fs s) := by
  have counted : modHighway (fun h => { h with missCount := if fs then 0 else advance missLimit h.missCount }) s =
      boundaryCounted fs s := by
    cases fs with
    | true => rfl
    | false =>
      have below := few.resolve_left Bool.false_ne_true
      have advanced : advance missLimit s.highway.missCount = s.highway.missCount + 1 := by
        rw [advance, missLimit]
        omega
      simp only [modHighway, boundaryCounted, Bool.false_eq_true, if_false, advanced]
  rw [frameBoundary_of_sync sync]
  dsimp only
  rw [counted]
  refine if_neg ?_
  have below : (boundaryCounted fs s).highway.missCount < 4 := by
    change (if fs then 0 else s.highway.missCount + 1) < 4
    split
    · decide
    · next absent => have := few.resolve_left absent; omega
  simp only [huntDue, missLimit, Bool.and_eq_true, decide_eq_true_eq, not_and]
  exact fun _ reached => absurd (of_decide_eq_true reached) (Nat.not_le.mpr below)

/-- The state in which the stamp of a new multiframe is made known. -/
def multiframeBegun (fs : Bool) (s : State) : State :=
  { dueLapses s with highway := { s.highway with
    missCount := if fs then 0 else s.highway.missCount + 1, frame := some 0, stamp := s.highway.stamp + 1 } }

theorem multiframeBegun_eq {s : State} (fs : Bool) :
    advanceStamp (dueLapses (modHighway (fun h => { h with frame := some 0 }) (boundaryCounted fs s))) =
      multiframeBegun fs s := by
  obtain ⟨tables, replies, lapsed⟩ := dueLapses_eq s
  rw [boundaryCounted, dueLapses_modHighway rfl, dueLapses_modHighway rfl, multiframeBegun, lapsed]
  rfl

theorem passBoundary_eq {s : State} {f : Nat} (frame : s.highway.frame = some f) :
    passBoundary s = beginFrameWords ((f + 1) % 8) true
      (if (f + 1) % 8 = 0 then
        stampTicks (advanceStamp (dueLapses (modHighway (fun h => { h with frame := some ((f + 1) % 8) }) s)))
      else modHighway (fun h => { h with frame := some ((f + 1) % 8) }) s) := by
  unfold passBoundary
  rw [frame]
  rfl

theorem passBoundary_of_multiframe {s : State} {f : Nat} (fs : Bool) (frame : s.highway.frame = some f)
    (last : (f + 1) % 8 = 0) :
    passBoundary (boundaryCounted fs s) = beginFrameWords 0 true (stampTicks (multiframeBegun fs s)) := by
  rw [passBoundary_eq (s := boundaryCounted fs s) frame, last, if_pos rfl, multiframeBegun_eq]

/-- The state in which a frame other than frame 0 begins. -/
def frameBegun (fs : Bool) (f : Nat) (s : State) : State :=
  { s with highway := { s.highway with missCount := if fs then 0 else s.highway.missCount + 1, frame := some f } }

theorem passBoundary_of_frame {s : State} {f : Nat} (fs : Bool) (frame : s.highway.frame = some f)
    (within : (f + 1) % 8 ≠ 0) :
    passBoundary (boundaryCounted fs s) = beginFrameWords ((f + 1) % 8) true (frameBegun fs ((f + 1) % 8) s) := by
  rw [passBoundary_eq (s := boundaryCounted fs s) frame, if_neg within]
  rfl

theorem wires_multiframeBegun (fs : Bool) (s : State) : (multiframeBegun fs s).wires = s.wires := by
  obtain ⟨tables, replies, lapsed⟩ := dueLapses_eq s
  rw [multiframeBegun, lapsed]

/-- The words sent at a boundary carry the audio received in the frame before (R142). -/
theorem beginFrameWords_boundary {u : State} {wires : Wires} (f : Nat) (same : u.wires = wires) :
    beginFrameWords f true u = { u with wires :=
      ⟨silence, silence, some wires.upReceived, some wires.downReceived, feedWordsOf f u, decide (f = 0), none, 0, 0⟩ } := by
  rw [← same]
  rfl

/-- Settles O24: the frame's words are the same behind every boundary, and frame 0 makes the lapses and the ticks besides. -/
theorem frameBoundaryCounted : Obligations.FrameBoundaryCounted := by
  constructor
  · intro s fs f sync frame few next
    have run : exec (.frameBoundary fs) s = .next (passBoundary (boundaryCounted fs s)) :=
      congrArg Host.Outcome.next (frameBoundary_of_counted sync few)
    refine ⟨_, run, ?_⟩
    by_cases last : next = 0
    · have ticked := ticked_stampTicks (multiframeBegun fs s)
      rw [passBoundary_of_multiframe fs frame last,
        beginFrameWords_boundary 0 (ticked.wires.trans (wires_multiframeBegun fs s))]
      refine ⟨ticked.highway.trans ?_, ?_, fun within => absurd last within⟩
      · rw [if_pos last, last]
        rfl
      · rw [last, feedWordsOf_congr (t := { stampTicks (multiframeBegun fs s) with wires := _ }) rfl]
        rfl
    · rw [passBoundary_of_frame fs frame last, beginFrameWords_boundary (u := frameBegun fs ((f + 1) % 8) s) (wires := s.wires) _ rfl]
      refine ⟨?_, ?_, fun _ => ⟨rfl, rfl, rfl, rfl, rfl⟩⟩
      · rw [if_neg last]
        rfl
      · rfl
  · intro s fs sync frame few
    have run : exec (.frameBoundary fs) s = .next (passBoundary (boundaryCounted fs s)) :=
      congrArg Host.Outcome.next (frameBoundary_of_counted sync few)
    have ticked := ticked_stampTicks (multiframeBegun fs s)
    rw [passBoundary_of_multiframe fs frame rfl,
      beginFrameWords_boundary 0 (ticked.wires.trans (wires_multiframeBegun fs s))] at run
    exact ⟨dueLapses s, stampTicks (multiframeBegun fs s), _, lapsesDue_dueLapses sync, run,
      ticks_stampTicks (s := multiframeBegun fs s) sync, rfl⟩

end Sys2Proof.Proofs

/-! The return to SYNC. -/

namespace Sys2Proof.Proofs

open Sys2Proof.Machine

/-! ### The steps of a return -/

/-- The device in SYNC with frame 0, the stamp one on (R137, R139). -/
def enteredSync (s : State) : State := { s with highway := { s.highway with
  sync := .sync, candidate := none, missCount := 0, frame := some 0, stamp := s.highway.stamp + 1 } }

/-- The payload of the record that tells of the return (R140). -/
def returnPayload (s : State) : Payload := .syncRestored (s.highway.stampAtLoss.getD 0)

/-- The device with its return told (R140). -/
def toldReturn (s : State) : State := offerAlarm none (returnPayload s) (enteredSync s)

theorem syncAcquire_of_return {s : State} (hunt : s.highway.sync = .hunt) (found : s.highway.candidate.isSome = true)
    (again : s.highway.firstAcquisition = false) :
    syncAcquire s = beginFrameWords 0 false (stampTicks (afresh (abortAtReturn (toldReturn s)))) := by
  have entered : advanceStamp (modHighway (fun h =>
      { h with sync := .sync, candidate := none, missCount := 0, frame := some 0, firstAcquisition := false }) s) =
      enteredSync s := by
    unfold enteredSync advanceStamp modHighway
    dsimp only
    rw [again]
  have told : returnToSync (enteredSync s) = afresh (abortAtReturn (toldReturn s)) := returnToSync_eq _
  rw [syncAcquire_of_candidate hunt found]
  dsimp only
  rw [again, if_neg Bool.false_ne_true, entered, told]

theorem abortAtReturn_of_idle {s : State} (idle : s.engine.busy = false ∨ s.engine.held = none) : abortAtReturn s = s := by
  unfold abortAtReturn
  obtain free | none := idle
  · rw [free]
  · rw [none]
    cases s.engine.busy <;> rfl

theorem abortAtReturn_of_held {s : State} {r : Request} (busy : s.engine.busy = true) (held : s.engine.held = some r) :
    abortAtReturn s = abortTest r.line .syncLost s := by
  unfold abortAtReturn
  rw [busy, held]

theorem keeps_abortAtReturn (s : State) : Keeps true s (abortAtReturn s) := by
  unfold abortAtReturn
  split
  · exact keeps_abortTest ..
  · exact .refl s

theorem alarm_offerAlarm_of_room {s : State} (o : Option LineNo) (p : Payload) (room : s.report.alarm.length < alarmCapacity) :
    (offerAlarm o p s).report.alarm = s.report.alarm ++ [⟨o, s.stamp, s.report.alarmLost, p⟩] ∧
      (offerAlarm o p s).report.alarmLost = false := by
  have offered := (alarmOffered_offerAlarm o p s).1
  rwa [AlarmOffered, if_pos room] at offered

/-- The TEST_RESULT of a test aborted with room in the queue follows what stood there (R134). -/
theorem alarm_abortTest {s : State} {r : Request} (held : s.engine.held = some r) (cause : AbortCause)
    (room : s.report.alarm.length < alarmCapacity) :
    s.report.alarm ++ [⟨some r.line, s.stamp, s.report.alarmLost,
      .testResult r.kind r.origin .aborted (some cause) s.engine.results⟩] <+: (abortTest r.line cause s).report.alarm := by
  have told : reportTest .aborted (some cause) s =
      offerAlarm (some r.line) (testResult r .aborted (some cause) s.engine.results) s := by
    unfold reportTest
    rw [held]
  have grows : Keeps true (reportTest .aborted (some cause) s) (abortTest r.line cause s) :=
    (keeps_returnLine r.line _).trans (keeps_freeEngine _)
  rw [told] at grows
  have offered := (alarm_offerAlarm_of_room (some r.line) (testResult r .aborted (some cause) s.engine.results) room).1
  have prefixed := grows.alarm.alarm
  rw [offered] at prefixed
  exact prefixed

/-! ### The sweep and the lines behind a return -/

theorem settings_of_sameTables {s t : State} (same : SameTables s t) : t.settings = s.settings := by
  rw [State.settings, State.activeWords, same.activeBank, same.entry]
  rfl

/-- The end of a test at the return keeps the sweep's timer and period (R127, R133). -/
theorem sweep_abortAtReturn (s : State) : (abortAtReturn s).settings = s.settings ∧
    (abortAtReturn s).engine.sweepTimer = s.engine.sweepTimer := by
  unfold abortAtReturn
  split
  · next r _ _ =>
    refine ⟨settings_of_sameTables (keepsStore_finishTest ..).1, ?_⟩
    have told : (reportTest .aborted (some .syncLost) s).engine = s.engine := by
      unfold reportTest
      split
      · exact (onlyLine_offerAlarm r.line ..).engine
      · rfl
    have returned : (returnLine r.line (reportTest .aborted (some .syncLost) s)).engine = s.engine :=
      (onlyLine_move r.line ..).engine.trans told
    have freed : (releaseBanks (modEngine (·.freed) (returnLine r.line (reportTest .aborted (some .syncLost) s)))).engine =
        s.engine.freed :=
      (upToMigration_releaseBanks _).engine.trans (congrArg TestEngine.freed returned)
    exact (engineStep_takeRequests _).sweepTimer.trans ((congrArg TestEngine.sweepTimer freed).trans rfl)
  · exact ⟨rfl, rfl⟩

theorem steady_markReturn {c d : Line} (same : c.steady = d.steady) : (markReturn c).steady = (markReturn d).steady :=
  (congrArg markReturn same :)

/-- Without a sweep expiry an advance of the stamp leaves every line (R127). -/
theorem line_stampTicks {s : State}
    (early : s.settings.sweepPeriod = 0 ∨ s.engine.sweepTimer + 1 < s.settings.sweepPeriod * 1000) (l : LineNo) :
    (stampTicks s).line l = s.line l := by
  have lapsed : (stampTicks s).line l = (sweepTick s).line l := by
    obtain ⟨tables, ticked⟩ := foldl_lapseTick_eq allTables (sweepTick s)
    unfold stampTicks lapseTicks
    rw [ticked]
    rfl
  rw [lapsed]
  obtain off | early := early
  · rw [sweepTick_of_off off]
    rfl
  · rw [sweepTick_of_early early]
    rfl

/-! ### The obligation -/

/-- What the device is before the test under way ends. -/
structure ReturnTold (s a : State) : Prop where
  offered : AlarmOffered none (returnPayload s) (enteredSync s) a
  rest : a = { enteredSync s with report := { s.report with alarm := a.report.alarm, alarmLost := a.report.alarmLost } }
  room : s.report.alarm.length < 16 →
    a.report.alarm = s.report.alarm ++ [⟨none, s.highway.stamp + 1, s.report.alarmLost, returnPayload s⟩] ∧
      a.report.alarmLost = false

theorem returnTold_toldReturn (s : State) : ReturnTold s (toldReturn s) := by
  obtain ⟨offered, rest⟩ := alarmOffered_offerAlarm none (returnPayload s) (enteredSync s)
  exact ⟨offered, rest, fun room => alarm_offerAlarm_of_room none (returnPayload s) (s := enteredSync s) room⟩

/-- Settles O23: the return is told, the test under way ends, the units start afresh, and the stamp's ticks follow. -/
theorem returnToSync : Obligations.ReturnToSync := by
  intro s hunt found again entered
  have run : exec .syncAcquire s = .next (beginFrameWords 0 false (stampTicks (afresh (abortAtReturn (toldReturn s))))) :=
    congrArg Host.Outcome.next (syncAcquire_of_return hunt found again)
  rw [beginFrameWords_return] at run
  obtain ⟨offered, rest, room⟩ := returnTold_toldReturn s
  generalize toldReturn s = a at run offered rest room
  have highway : a.highway = entered.highway := (congrArg State.highway rest :)
  have engine : a.engine = s.engine := (congrArg State.engine rest :)
  have line : ∀ l, a.line l = s.line l := fun l => (congrArg (fun u : State => u.line l) rest :)
  have signal : a.report.signal = s.report.signal := (congrArg (fun u : State => u.report.signal) rest :)
  have kept := keeps_abortAtReturn a
  have idle := abortAtReturn_of_idle (s := a)
  have ends : ∀ r, s.engine.busy = true → s.engine.held = some r → s.testQueueLawful →
      EndsTest r .aborted (some .syncLost) s.engine.results a (abortAtReturn a) := fun r busy held lawful => by
    rw [abortAtReturn_of_held (by rw [engine]; exact busy) (by rw [engine]; exact held), ← engine]
    refine endsTest_finishTest _ _ (by rw [highway]) (by rw [engine]; exact held) ?_
    rw [State.testQueueLawful, engine]
    exact lawful
  have told : ∀ r, s.engine.busy = true → s.engine.held = some r → s.report.alarm.length < 15 →
      s.report.alarm ++ [⟨none, s.highway.stamp + 1, s.report.alarmLost, returnPayload s⟩,
        ⟨some r.line, s.highway.stamp + 1, false, .testResult r.kind r.origin .aborted (some .syncLost) s.engine.results⟩] <+:
        (abortAtReturn a).report.alarm := fun r busy held few => by
    obtain ⟨alarm, lost⟩ := room (by omega)
    rw [abortAtReturn_of_held (by rw [engine]; exact busy) (by rw [engine]; exact held)]
    have aborted := alarm_abortTest (s := a) (r := r) (by rw [engine]; exact held) .syncLost (by
      rw [alarm, List.length_append]
      exact Nat.succ_lt_succ few)
    rw [alarm, lost, engine, List.append_assoc, State.stamp, highway] at aborted
    exact aborted
  have highway' := (highway_abortAtReturn a).trans highway
  obtain ⟨settings, timer⟩ := sweep_abortAtReturn a
  have tables : a.settings = s.settings := (congrArg State.settings rest :)
  rw [tables] at settings
  rw [engine] at timer
  generalize abortAtReturn a = b at run kept idle ends told highway' settings timer
  have marked := fun l => line_afresh l b
  have again := afresh_eq b
  generalize afresh b = c at run marked again
  have sync : c.highway.sync = .sync := by
    rw [again]
    exact (congrArg Highway.sync highway' :)
  have ticked := ticked_stampTicks c
  have early := line_stampTicks (s := c)
  have ticks := ticks_stampTicks sync
  generalize stampTicks c = v at run ticked early ticks
  refine ⟨a, b, c, v, _, run, offered, rest, ends, fun free => idle (by rw [engine]; exact free), again, marked, ticks, rfl,
    ?_, ?_, ?_, rfl, rfl, rfl, ?_, fun l => ?_, fun few => ?_, fun r busy held few => ?_, fun r busy held lawful test early' => ?_⟩
  · exact ticked.highway.trans ((congrArg State.highway again).trans highway')
  · exact ticked.receiver.trans (congrArg State.receiver again)
  · exact ticked.sending.trans (congrArg (fun u : State => u.report.sending) again)
  · exact (feedWordsOf_congr (s := v) rfl 0).symm
  · obtain ⟨due, monitor⟩ := ticked.marks l
    refine ⟨due.trans ?_, (congrArg FaultMonitor.discard monitor).trans ?_⟩
    · rw [marked]
      rfl
    · rw [marked]
      rfl
  · have grown := (kept.alarm.alarm.trans (by rw [again])).trans ticked.alarm
    rw [(room few).1] at grown
    exact grown
  · exact ((told r busy held few).trans (by rw [again])).trans ticked.alarm
  · obtain ⟨-, -, -, steady, record⟩ := ends r busy held lawful
    rw [line] at steady
    have unswept : (v.line r.line) = c.line r.line := by
      refine early ?_ r.line
      rw [again]
      change b.settings.sweepPeriod = 0 ∨ b.engine.sweepTimer + 1 < b.settings.sweepPeriod * 1000
      rw [settings, timer]
      exact early'
    refine ⟨?_, ?_⟩
    · change (v.line r.line).steady = _
      rw [unswept, marked, steady_markReturn steady]
      rfl
    · rw [line, test] at record
      have grown := (record.trans (by rw [again])).trans (by rw [ticked.signal] : c.report.signal <+: v.report.signal)
      rw [State.signalAfter, State.signalKeeps, State.record, State.stamp, signal, line, highway] at grown
      exact grown

end Sys2Proof.Proofs

/-! The tone digit engine: a completed block, and the end of a tone digit. -/

namespace Sys2Proof.Proofs

open Sys2Proof.Machine

/-! ### The automaton by tone state and result -/

section

variable {l : LineNo} {plan : TonePlan} {start : Option Stamp} {k : Symbol} {s : State}

/-- The state with another tone engine on a line. -/
def putTone (l : LineNo) (t : ToneEngine) (s : State) : State := modLine l (fun c => { c with tone := t }) s

theorem automaton_quiet_none (state : (s.line l).tone.state = .quiet) : automaton l plan none start s = s := by
  unfold automaton
  dsimp only
  rw [state]

theorem automaton_quiet_some (state : (s.line l).tone.state = .quiet) :
    automaton l plan (some k) start s = beginRun l plan k start s := by
  unfold automaton
  dsimp only
  rw [state]

theorem automaton_candidate_none (state : (s.line l).tone.state = .candidate) :
    automaton l plan none start s = putTone l (s.line l).tone.quieten s := by
  unfold automaton
  dsimp only
  rw [state]
  rfl

theorem automaton_candidate_same (state : (s.line l).tone.state = .candidate) (key : (s.line l).tone.key = some k) :
    automaton l plan (some k) start s =
      putTone l (proveKey plan k ((s.line l).tone.candidateCount + 1) (s.line l).tone.digitStart (s.line l).tone) s := by
  unfold automaton
  dsimp only
  rw [state]
  exact if_pos key

theorem automaton_candidate_other (state : (s.line l).tone.state = .candidate) (key : (s.line l).tone.key ≠ some k) :
    automaton l plan (some k) start s = beginRun l plan k start s := by
  unfold automaton
  dsimp only
  rw [state]
  exact if_neg key

theorem automaton_on_none (state : (s.line l).tone.state = .on) : automaton l plan none start s =
    if plan.offBlocks ≤ 1 then endToneDigit l plan s
    else putTone l { (s.line l).tone with state := .gap, gapCount := 1 } s := by
  unfold automaton
  dsimp only
  rw [state]
  rfl

theorem automaton_on_same (state : (s.line l).tone.state = .on) (key : (s.line l).tone.key = some k) :
    automaton l plan (some k) start s =
      putTone l { (s.line l).tone with onBlocks := advance timerStop (s.line l).tone.onBlocks } s := by
  unfold automaton
  dsimp only
  rw [state]
  exact if_pos key

theorem automaton_gap_none (state : (s.line l).tone.state = .gap) : automaton l plan none start s =
    if plan.offBlocks ≤ (s.line l).tone.gapCount + 1 then endToneDigit l plan s
    else putTone l { (s.line l).tone with gapCount := (s.line l).tone.gapCount + 1 } s := by
  unfold automaton
  dsimp only
  rw [state]
  rfl

theorem automaton_gap_same (state : (s.line l).tone.state = .gap) (key : (s.line l).tone.key = some k) :
    automaton l plan (some k) start s = putTone l { (s.line l).tone with
      state := .on, gapCount := 0
      onBlocks := min timerStop ((s.line l).tone.onBlocks + (s.line l).tone.gapCount + 1) } s := by
  unfold automaton
  dsimp only
  rw [state]
  exact if_pos key

theorem automaton_proved_other (state : (s.line l).tone.state = .on ∨ (s.line l).tone.state = .gap)
    (key : (s.line l).tone.key ≠ some k) :
    automaton l plan (some k) start s = beginRun l plan k start (endToneDigit l plan s) := by
  unfold automaton
  dsimp only
  obtain on | gap := state
  · rw [on]
    exact if_neg key
  · rw [gap]
    exact if_neg key

/-! ### A completed block -/

/-- The state with the block of a line cleared (R66). -/
def blockCleared (l : LineNo) (s : State) : State := setLine l { s.line l with tone := (s.line l).tone.abandonBlock } s

theorem next_toneBlockComplete (sync : s.highway.sync = .sync) (due : toneBlockDue s l = true) :
    exec (.toneBlockComplete l) s = .next (automaton l (readTonePlan (s.toneWords l)) (blockResult s l)
      (s.line l).tone.blockStart (blockCleared l s)) :=
  (next_inSync sync _).trans (congrArg _ (if_pos due))

theorem tone_blockCleared : ((blockCleared l s).line l).tone = (s.line l).tone.abandonBlock := by
  rw [blockCleared, line_setLine_self]

theorem putTone_blockCleared (t : ToneEngine) : putTone l t (blockCleared l s) = setLine l { s.line l with tone := t } s :=
  modLine_setLine ..

theorem beginRun_setLine (d : Line) : beginRun l plan k start (setLine l d s) =
    setLine l { d with tone := proveKey plan k 1 start d.tone.quieten } s :=
  modLine_setLine ..

theorem beginRun_blockCleared : beginRun l plan k start (blockCleared l s) =
    setLine l { s.line l with tone := proveKey plan k 1 start (s.line l).tone.abandonBlock.quieten } s :=
  modLine_setLine ..

end

/-- Settles O31: a completed block is cleared, and the automaton's equation for the tone state and the result gives the rest. -/
theorem toneBlockDrivesState : Obligations.ToneBlockDrivesState := by
  intro s l sync due plan tone cleared quiet run becomes
  have block := next_toneBlockComplete sync due
  have abandoned : ((blockCleared l s).line l).tone = cleared := tone_blockCleared
  have put : ∀ {result tone'}, blockResult s l = result →
      automaton l plan result tone.blockStart (blockCleared l s) = putTone l tone' (blockCleared l s) → becomes tone' :=
    fun result step => by
      rw [result, step, putTone_blockCleared] at block
      exact block
  have begins : ∀ k, blockResult s l = some k →
      automaton l plan (some k) tone.blockStart (blockCleared l s) = beginRun l plan k tone.blockStart (blockCleared l s) →
      becomes (run k) := fun k result step => by
    rw [result, step, beginRun_blockCleared] at block
    exact block
  refine ⟨fun state result => ?_, fun k state result => ?_, fun state result => ?_, fun k state result key => ?_,
    fun k state result key => ?_, fun k state result key => ?_, fun state result off => ?_, fun state result off => ?_,
    fun k state result key => ?_⟩
  · rw [result, automaton_quiet_none (by rw [abandoned]; exact state)] at block
    exact block
  · exact begins k result (automaton_quiet_some (by rw [abandoned]; exact state))
  · refine put result ((automaton_candidate_none (by rw [abandoned]; exact state)).trans ?_)
    rw [abandoned]
    rfl
  · exact begins k result (automaton_candidate_other (by rw [abandoned]; exact state) (by rw [abandoned]; exact key))
  · refine put result ((automaton_candidate_same (by rw [abandoned]; exact state) (by rw [abandoned]; exact key)).trans ?_)
    rw [abandoned, proveKey, ← key]
  · refine put result ((automaton_on_same (by rw [abandoned]; exact state) (by rw [abandoned]; exact key)).trans ?_)
    rw [abandoned]
    rfl
  · refine put result ((automaton_on_none (by rw [abandoned]; exact state)).trans ((if_neg (by omega)).trans ?_))
    rw [abandoned]
  · refine put result ((automaton_gap_none (by rw [abandoned]; exact state)).trans ((if_neg ?_).trans ?_))
    · rw [abandoned]
      exact Nat.not_le.mpr off
    · rw [abandoned]
  · refine put result ((automaton_gap_same (by rw [abandoned]; exact state) (by rw [abandoned]; exact key)).trans ?_)
    rw [abandoned]
    rfl

/-! ### The end of a tone digit -/

theorem endToneDigit_eq (l : LineNo) (plan : TonePlan) (s : State) : endToneDigit l plan s =
    setLine l { (takeEntry l (toneEntry plan (s.line l).tone) s).line l with
      tone := ((takeEntry l (toneEntry plan (s.line l).tone) s).line l).tone.quieten }
      (takeEntry l (toneEntry plan (s.line l).tone) s) := rfl

/-- Settles O32: the automaton ends the digit by taking its entry, and leaves the engine QUIET or in a new candidate run. -/
theorem toneDigitEnds : Obligations.ToneDigitEnds := by
  intro s l k sync due key plan tone entry cleared quiet ends
  have block := next_toneBlockComplete sync due
  have abandoned : ((blockCleared l s).line l).tone = (s.line l).tone.abandonBlock := tone_blockCleared
  have made : toneEntry plan ((blockCleared l s).line l).tone = entry := by
    rw [abandoned, toneEntry]
    change (⟨tone.key.getD (.digit 0), .tone, tone.digitStart.getD 0, none, none, _, none⟩ : DigitEntry) = _
    rw [show tone.key = some k from key]
    rfl
  have taken := takesEntry_takeEntry (s := blockCleared l s) sync l entry
  have digit := endToneDigit_eq l plan (blockCleared l s)
  rw [made] at digit
  refine ⟨fun result last => ⟨_, taken, ?_⟩, fun k' result other proved => ⟨_, taken, ?_⟩⟩
  · rw [block, result]
    have ended : automaton l plan none tone.blockStart (blockCleared l s) = endToneDigit l plan (blockCleared l s) := by
      obtain ⟨on, one⟩ | ⟨gap, reached⟩ := last
      · exact (automaton_on_none (by rw [abandoned]; exact on)).trans (if_pos (by omega))
      · exact (automaton_gap_none (by rw [abandoned]; exact gap)).trans (if_pos (by rw [abandoned]; exact reached.le))
    exact congrArg Host.Outcome.next (ended.trans digit)
  · rw [block, result]
    have ended : automaton l plan (some k') tone.blockStart (blockCleared l s) =
        beginRun l plan k' tone.blockStart (endToneDigit l plan (blockCleared l s)) := by
      refine automaton_proved_other (by rw [abandoned]; exact proved) ?_
      rw [abandoned]
      change tone.key ≠ some k'
      rw [show tone.key = some k from key]
      exact fun same => other (Option.some.inj same).symm
    refine congrArg Host.Outcome.next (ended.trans ?_)
    rw [digit]
    generalize takeEntry l entry (blockCleared l s) = m
    rw [beginRun_setLine]
    rfl

end Sys2Proof.Proofs

/-! Audio: the words in flight beside the tone engine, a sample taken, and the words kept for the other port. -/

namespace Sys2Proof.Proofs

open Sys2Proof.Machine

/-! ### The words in flight beside the blocks of a line -/

/-- A state with other words in flight. -/
def withWires (w : Wires) (u : State) : State := { u with wires := w }

section

variable {w : Wires} {u : State} {l : LineNo}

theorem withWires_eq_aside {v : State} (engine : v.engine = u.engine) (store : SameStore u v) :
    withWires w v = aside u.engine u.tables u.report.reply w v := by
  rw [← engine, ← store.1, ← store.2]
  rfl

theorem modLine_withWires (f : Line → Line) : modLine l f (withWires w u) = withWires w (modLine l f u) := rfl

theorem offerItem_withWires (item : DueItem) : offerItem l item (withWires w u) = withWires w (offerItem l item u) := by
  rw [withWires_eq_aside (u := u) rfl (.refl u), offerItem_aside,
    ← withWires_eq_aside (onlyLine_offerItem ..).engine (sameStore_offerItem ..)]

theorem closeString_withWires (reason : CloseReason) :
    closeString l reason (withWires w u) = withWires w (closeString l reason u) := by
  rw [withWires_eq_aside (u := u) rfl (.refl u), closeString_aside,
    ← withWires_eq_aside (onlyLine_closeString ..).engine (sameStore_closeString ..)]

theorem enter_withWires {new : LineState} (cause : Cause) (f : Line → Line) (untested : new ≠ .test) :
    enter l new cause f (withWires w u) = withWires w (enter l new cause f u) := by
  rw [withWires_eq_aside (u := u) rfl (.refl u), enter_aside (.of_eq rfl) cause untested,
    ← withWires_eq_aside (onlyLine_enter ..).engine (sameStore_enter ..)]

theorem releaseBank_withWires (x : TableId) : releaseBank x (withWires w u) = withWires w (releaseBank x u) := by
  have table : (withWires w u).table x = u.table x := rfl
  have users : (withWires w u).users x (u.activeBank x).other = u.users x (u.activeBank x).other := by cases x <;> rfl
  unfold releaseBank
  rw [table]
  cases (u.table x).retiringTag with
  | none => rfl
  | some tag =>
    dsimp only
    rw [show (withWires w u).activeBank x = u.activeBank x from rfl, users, apply_ite (withWires w)]
    unfold offerReply
    rw [apply_ite (withWires w)]
    rfl

theorem releaseBanks_withWires : releaseBanks (withWires w u) = withWires w (releaseBanks u) := by
  unfold releaseBanks
  generalize userTables = tables
  induction tables generalizing u with
  | nil => rfl
  | cons x rest ih => rw [List.foldl_cons, List.foldl_cons, releaseBank_withWires, ih]

theorem move_withWires {new : LineState} (cause : Cause) (f : Line → Line) (untested : new ≠ .test) :
    move l new cause f (withWires w u) = withWires w (move l new cause f u) := by
  unfold move
  rw [enter_withWires cause f untested, releaseBanks_withWires]

theorem placeEntry_withWires (e : DigitEntry) : placeEntry l e (withWires w u) = withWires w (placeEntry l e u) := by
  have joined : (modLine l (fun c => { c with openString := c.openString ++ [e] }) (withWires w u)) =
      withWires w (modLine l (fun c => { c with openString := c.openString ++ [e] }) u) := rfl
  unfold placeEntry
  dsimp only
  rw [joined]
  generalize modLine l (fun c => { c with openString := c.openString ++ [e] }) u = v
  have profile : (withWires w u).profile l = u.profile l := rfl
  have line : ∀ x : State, (withWires w x).line l = x.line l := fun _ => rfl
  rw [profile, line, line]
  split
  · rfl
  · split
    · split
      · exact closeString_withWires _
      · rfl
    · exact offerItem_withWires _

theorem takeEntry_withWires (e : DigitEntry) : takeEntry l e (withWires w u) = withWires w (takeEntry l e u) := by
  unfold takeEntry
  dsimp only
  rw [modLine_withWires, placeEntry_withWires]
  generalize placeEntry l e _ = v
  have line : (withWires w v).line l = v.line l := rfl
  rw [line]
  split
  · exact move_withWires _ _ (by decide)
  · rfl

theorem endToneDigit_withWires (plan : TonePlan) :
    endToneDigit l plan (withWires w u) = withWires w (endToneDigit l plan u) := by
  have line : (withWires w u).line l = u.line l := rfl
  unfold endToneDigit
  rw [line, takeEntry_withWires, modLine_withWires]

theorem beginRun_withWires (plan : TonePlan) (k : Symbol) (start : Option Stamp) :
    beginRun l plan k start (withWires w u) = withWires w (beginRun l plan k start u) := rfl

theorem automaton_withWires (plan : TonePlan) (result : Option Symbol) (start : Option Stamp) :
    automaton l plan result start (withWires w u) = withWires w (automaton l plan result start u) := by
  have line : (withWires w u).line l = u.line l := rfl
  unfold automaton
  dsimp only
  rw [line, endToneDigit_withWires]
  split
  case h_1 | h_2 | h_3 => rfl
  case h_5 | h_7 =>
    rw [apply_ite (withWires w)]
    rfl
  case h_4 | h_6 | h_8 =>
    rw [apply_ite (withWires w), beginRun_withWires]
    rfl

theorem toneBlockIfDue_withWires : toneBlockIfDue l (withWires w u) = withWires w (toneBlockIfDue l u) := by
  unfold toneBlockIfDue
  rw [show toneBlockDue (withWires w u) l = toneBlockDue u l from rfl]
  split
  · rw [modLine_withWires, automaton_withWires]
    rfl
  · rfl

end

/-! ### A sample taken -/

/-- The tone engine behind a sample (R63 to R66). -/
def sampled (s : State) (l : LineNo) (w : Word16) : ToneEngine :=
  takeSample (readTonePlan (s.toneWords l)) s.stamp (scaledSample w) (s.line l).tone

theorem shiftRight_two (v : Int) : shiftRight v 2 = v / 4 := rfl

theorem toneSample_of_running {s : State} {l : LineNo} {w : Word16} (running : (s.line l).tone.run = .running) :
    toneSample l w s = toneBlockIfDue l (setLine l { s.line l with tone := sampled s l w } s) :=
  if_pos running

theorem toneSample_of_not_running {s : State} {l : LineNo} {w : Word16} (still : (s.line l).tone.run ≠ .running) :
    toneSample l w s = s :=
  if_neg still

/-- The slots of a line's audio word passed, and the word kept for the trunk port (R141, R142). -/
def upstreamWires (s : State) (l : LineNo) (sent : Word16) : Wires :=
  { s.wires with upReceived := s.wires.upReceived.set l.val sent l.isLt, lineSlot := l.val + 1 }

theorem muted_iff (s : State) (l : LineNo) :
    muted s l = true ↔ ((s.line l).tone.state = .on ∨ (s.line l).tone.state = .gap) ∧ (s.profile l).mute = true := by
  simp [muted]

theorem ite_muted (s : State) (l : LineNo) (w : Word16) : (if muted s l = true then 0 else w) =
    if ((s.line l).tone.state = .on ∨ (s.line l).tone.state = .gap) ∧ (s.profile l).mute = true then 0 else w :=
  if_congr (muted_iff s l) rfl rfl

/-- An upstream audio word that arrives (R76, R142). -/
theorem next_audioUpstream {s : State} {l : LineNo} {w : Word16} (sync : s.highway.sync = .sync)
    (slot : s.wires.lineSlot ≤ l.val) :
    exec (.audioUpstream l w) s =
      .next (withWires (upstreamWires s l (if muted (toneSample l w s) l then 0 else w)) (toneSample l w s)) := by
  have passed : toneSample l w (withWires { s.wires with lineSlot := l.val + 1 } s) =
      withWires { s.wires with lineSlot := l.val + 1 } (toneSample l w s) := by
    unfold toneSample
    rw [apply_ite (withWires _), modLine_withWires, toneBlockIfDue_withWires]
    rfl
  have run : exec (.audioUpstream l w) s =
      .next (audioUpstream l w (withWires { s.wires with lineSlot := l.val + 1 } s)) :=
    (next_inSync sync _).trans (congrArg _ (if_pos slot))
  rw [run, audioUpstream, passed]
  rfl

theorem next_audioDownstream {s : State} {l : LineNo} {w : Word16} (sync : s.highway.sync = .sync)
    (slot : s.wires.trunkSlot ≤ l.val) :
    exec (.audioDownstream l w) s = .next { s with wires := { s.wires with
      downReceived := s.wires.downReceived.set l.val w l.isLt, trunkSlot := l.val + 1 } } :=
  (next_inSync sync _).trans (congrArg _ (if_pos slot))

/-- Settles O29: the word kept is muted by the tone state that the engine leaves, and the engine leaves the words in flight. -/
theorem audioPassesThrough : Obligations.AudioPassesThrough := by
  refine ⟨fun s l w sync => ?_, fun s l w sync slot => ⟨_, next_audioUpstream sync slot, ?_⟩⟩
  · intro muted sent
    refine ⟨fun slot still => ?_, fun slot => next_audioDownstream sync slot⟩
    rw [next_audioUpstream sync slot, toneSample_of_not_running still, ite_muted]
    rfl
  · rw [ite_muted]
    rfl

/-- Settles O28: a sample of a RUNNING engine joins its block, and the block is completed as TONE_BLOCK_COMPLETE does it. -/
theorem toneSampleTaken : Obligations.ToneSampleTaken := by
  refine ⟨fun w => ?_, fun s l w sync slot running => ?_⟩
  · have low : -32768 ≤ w.toInt := by
      have := BitVec.le_toInt w
      omega
    have high : w.toInt < 32768 := by
      have := BitVec.toInt_lt (x := w)
      omega
    refine ⟨by omega, by omega, ?_⟩
    have square : w.toInt / 4 * (w.toInt / 4) ≤ 67108864 := by
      have least : -8192 ≤ w.toInt / 4 := by omega
      have most : w.toInt / 4 ≤ 8191 := by omega
      nlinarith
    omega
  · intro plan tone x taken
    have sample : sampled s l w = taken.tone := by
      simp only [sampled, takeSample, stepBin, scaledSample, shiftRight_two, shiftRight_fourteen]
      rfl
    have count : sampled s l w = taken.tone → toneSample l w s = toneBlockIfDue l (setLine l taken s) := fun same => by
      rw [toneSample_of_running running, same]
    have used := count sample
    have due : toneBlockDue (setLine l taken s) l = decide (plan.n ≤ tone.sampleCount + 1) := by
      have words : (setLine l taken s).toneWords l = s.toneWords l := by
        rw [State.toneWords, line_setLine_self]
        rfl
      have run : taken.tone.run = .running := running
      have count : taken.tone.sampleCount = tone.sampleCount + 1 := rfl
      rw [toneBlockDue, words, line_setLine_self, run, count]
      simp only [decide_true, Bool.true_and, Nat.le_add_left, Bool.and_true]
      rfl
    refine ⟨fun early => ?_, fun reached => ?_⟩
    · have unfinished : toneBlockIfDue l (setLine l taken s) = setLine l taken s :=
        if_neg (by rw [due, decide_eq_true_eq]; exact Nat.not_le.mpr early)
      rw [next_audioUpstream sync slot, used, unfinished]
      exact ⟨_, rfl⟩
    · rw [next_audioUpstream sync slot, used]
      have block : exec (.toneBlockComplete l) (setLine l taken s) = .next (toneBlockIfDue l (setLine l taken s)) :=
        next_inSync (s := setLine l taken s) sync _
      exact ⟨_, _, block, rfl⟩

end Sys2Proof.Proofs

/-! The report unit: the words of a record, the serialiser, and the service of backlog. -/

namespace Sys2Proof.Proofs

open Sys2Proof.Machine

/-! ### The words of a record -/

theorem length_words (r : Record) : 3 ≤ r.words.length := by
  rw [Record.words, Record.body, List.length_append, List.length_cons, List.length_cons, List.length_singleton]
  omega

theorem sum_words (r : Record) : r.words.sum = 0 := by
  rw [Record.words, List.sum_append, List.sum_singleton, checkWord]
  exact BitVec.add_right_neg _

theorem writeControl_eq (v first last : Bool) : writeControl ⟨v, first, last⟩ =
    pack [(if v then 1 else 0, 15), (if first then 1 else 0, 14), (if last then 1 else 0, 13)] := rfl

theorem lineCode_eq (l : Option LineNo) : lineCode l = l.elim 63 (·.val) := by
  cases l <;> rfl

/-! ### The serialiser -/

section

variable {s : State}

theorem next_reportFrame (sync : s.highway.sync = .sync) (free : s.wires.report = none) :
    exec .reportFrame s = .next (reportFrame s) :=
  (next_inSync sync _).trans (congrArg _ (if_pos (by rw [free]; rfl)))

theorem reportFrame_of_sending {r : Record} {i : Nat} (sending : s.report.sending = some (r, i)) :
    reportFrame s = sendWord r i s := by
  unfold reportFrame
  rw [sending]

theorem reportFrame_of_free (free : s.report.sending = none) : reportFrame s = chooseRecord s := by
  unfold reportFrame
  rw [free]

/-- The first word of a record is never its last. -/
theorem sendWord_first (r : Record) (s : State) : sendWord r 0 s = { s with
    wires := { s.wires with report := some (pack [(1, 15), (1, 14), (0, 13)], r.words.getD 0 0) }
    report := { s.report with sending := some (r, 1) } } := by
  have more : ¬ r.words.length ≤ 0 + 1 := by
    have := length_words r
    omega
  rw [sendWord_eq, decide_eq_false more, if_neg more]
  rfl

theorem chooseRecord_of_alarm {r : Record} {rest : List Record} (alarm : s.report.alarm = r :: rest) :
    chooseRecord s = sendWord r 0 { s with report := { s.report with alarm := rest } } := by
  unfold chooseRecord
  rw [alarm]

theorem chooseRecord_of_reply {r : Record} {rest : List Record} (alarm : s.report.alarm = [])
    (reply : s.report.reply = r :: rest) :
    chooseRecord s = sendWord r 0 { s with report := { s.report with reply := rest } } := by
  unfold chooseRecord
  rw [alarm, reply]

theorem chooseRecord_of_signal {r : Record} {rest : List Record} (alarm : s.report.alarm = [])
    (reply : s.report.reply = []) (signal : s.report.signal = r :: rest) :
    chooseRecord s = sendWord r 0 (serveBacklog { s with report := { s.report with signal := rest } }) := by
  unfold chooseRecord
  rw [alarm, reply, signal]

theorem chooseRecord_of_empty (alarm : s.report.alarm = []) (reply : s.report.reply = []) (signal : s.report.signal = []) :
    chooseRecord s = putReport ⟨false, false, false⟩ 0 s := by
  unfold chooseRecord
  rw [alarm, reply, signal]

/-! ### The service of backlog -/

theorem serviceChoice_of_first {k : Nat} (within : k < 48)
    (backlog : (s.line (lineAfter s.report.servicePointer (k + 1))).backlog = true)
    (first : ∀ j, j < k → (s.line (lineAfter s.report.servicePointer (j + 1))).backlog = false) :
    serviceChoice s = some (lineAfter s.report.servicePointer (k + 1)) := by
  have found : ((List.range 48).find? fun j => (s.line (lineAfter s.report.servicePointer (j + 1))).backlog) = some k := by
    rw [List.find?_range_eq_some]
    exact ⟨backlog, List.mem_range.mpr within, fun j below => by rw [first j below]; rfl⟩
  rw [serviceChoice, found, Option.map_some]

theorem serviceChoice_of_none (clear : ∀ l, (s.line l).backlog = false) : serviceChoice s = none := by
  simp [serviceChoice, clear]

/-- A service leaves the words in flight, the serialiser and the queues before its own (R159). -/
theorem serveBacklog_keeps (s : State) : (serveBacklog s).wires = s.wires ∧ (serveBacklog s).report.alarm = s.report.alarm ∧
    (serveBacklog s).report.reply = s.report.reply ∧ s.report.signal <+: (serveBacklog s).report.signal := by
  unfold serveBacklog
  split
  · next l _ =>
    obtain ⟨item, rest, -, served⟩ | ⟨-, served⟩ := serveLine_cases l { s with report := { s.report with servicePointer := l } }
    · rw [served]
      exact ⟨rfl, rfl, rfl, List.prefix_append ..⟩
    · rw [served]
      exact ⟨rfl, rfl, rfl, List.prefix_append ..⟩
  · exact ⟨rfl, rfl, rfl, List.prefix_rfl⟩

end

/-- Settles O26: the serialiser goes on with its record or takes the first of the queues, and each kind has its words. -/
theorem serialiserActs : Obligations.SerialiserActs := by
  refine ⟨fun s r i sync free sending => ?_, fun s sync free idle => ?_, fun s sync misses => ?_, rfl, fun r => ?_⟩
  · intro last control
    rw [next_reportFrame sync free, reportFrame_of_sending sending, sendWord_eq, writeControl_eq]
    simp only [decide_eq_true_eq]
    rfl
  · intro sent
    have run : exec .reportFrame s = .next (chooseRecord s) := by
      rw [next_reportFrame sync free, reportFrame_of_free idle]
    refine ⟨fun r rest alarm => ?_, fun r rest alarm reply => ?_, fun r rest alarm reply signal => ?_,
      fun alarm reply signal => ?_⟩
    · rw [run, chooseRecord_of_alarm alarm, sendWord_first]
    · rw [run, chooseRecord_of_reply alarm reply, sendWord_first]
    · obtain ⟨wires, alarm', reply', signal'⟩ := serveBacklog_keeps { s with report := { s.report with signal := rest } }
      rw [run, chooseRecord_of_signal alarm reply signal, sendWord_first]
      refine ⟨_, rfl, ?_, rfl, alarm'.trans alarm, reply'.trans reply, signal'⟩
      exact congrArg (fun w : Wires => { w with report := some (pack [(1, 15), (1, 14), (0, 13)], r.words.getD 0 0) }) wires
    · refine ⟨writeControl ⟨false, false, false⟩, 0, by decide, ?_⟩
      rw [run, chooseRecord_of_empty alarm reply signal]
      rfl
  · have due : huntDue s = true := by
      rw [huntDue, sync, misses]
      rfl
    have run : exec .huntEntry s = .next (enterHunt s) := congrArg Host.Outcome.next (if_pos due)
    obtain ⟨-, -, -, -, report⟩ := enterHunt_keeps s
    exact ⟨_, run, congrArg ReportUnit.sending report⟩
  · intro flag head entry result body
    refine ⟨checkWord r.body, ?_, sum_words r⟩
    have entries : entryWords = entry := funext fun _ => rfl
    have headed : r.body = head (kindOf r.payload) ++ payloadWords r.payload := by
      rw [Record.body, lineCode_eq]
      rfl
    have made : r.body = body := by
      rw [headed]
      simp only [body]
      cases payload : r.payload
      case reply command tag status results =>
        simp only [payloadWords, pack_whole, kindOf]
        rfl
      case digits overrun reason es =>
        simp only [payloadWords, entries]
        rfl
      case digit overrun e =>
        simp only [payloadWords, entries]
        rfl
      case snapshot state before level polarity fill faultClass =>
        simp only [payloadWords, optStateCode_eq, pack_whole]
        rfl
      case testResult kind origin verdict cause results => rfl
      case feedOk feed =>
        simp only [payloadWords, pack_whole]
        rfl
      all_goals rfl
    rw [Record.words, made]

/-- The SNAPSHOT of a line without due items counts the entries of its open string (R89). -/
theorem snapshotOf_of_served {c : Line} (served : c.due = []) : snapshotOf c =
    .snapshot c.state c.stateBeforeTest c.loop.debounced c.polarity c.openString.length c.monitor.confirmedClass := by
  rw [snapshotOf, Line.fill_eq, served, List.map_nil, List.sum_nil, Nat.zero_add]

/-- Settles O27: the first line with backlog above the pointer is the one chosen, and it gives its oldest item or a SNAPSHOT. -/
theorem departureServesBacklog : Obligations.DepartureServesBacklog := by
  refine ⟨fun s r rest sync free idle alarm reply signal => ?_, rfl⟩
  have run : exec .reportFrame s =
      .next (sendWord r 0 (serveBacklog { s with report := { s.report with signal := rest } })) := by
    rw [next_reportFrame sync free, reportFrame_of_free idle, chooseRecord_of_signal alarm reply signal]
  rw [sendWord_first] at run
  intro line
  refine ⟨fun k within backlog first => ?_, fun clear => ?_⟩
  · intro l
    have chosen : serviceChoice { s with report := { s.report with signal := rest } } = some l :=
      serviceChoice_of_first (s := { s with report := { s.report with signal := rest } }) within backlog first
    have served : serveBacklog { s with report := { s.report with signal := rest } } =
        serveLine l { s with report := { s.report with signal := rest, servicePointer := l } } := by
      unfold serveBacklog
      rw [chosen]
    rw [served] at run
    refine ⟨_, run, ?_⟩
    obtain ⟨item, items, due, given⟩ | ⟨due, given⟩ :=
      serveLine_cases l { s with report := { s.report with signal := rest, servicePointer := l } }
    · rw [given]
      refine ⟨rfl, rfl, fun j other => line_setLine_of_ne other .., fun item' items' due' => ?_, fun none => ?_⟩
      · have same : item :: items = item' :: items' := due.symm.trans due'
        injection same with head tail
        rw [← head, ← tail]
        exact ⟨line_setLine_self .., rfl⟩
      · exact (List.cons_ne_nil _ _ (due.symm.trans none)).elim
    · rw [given]
      refine ⟨rfl, rfl, fun j other => line_setLine_of_ne other .., fun item items due' => ?_,
        fun _ => ⟨line_setLine_self .., ?_⟩⟩
      · exact (List.cons_ne_nil _ _ (due'.symm.trans due)).elim
      · have snapshot := snapshotOf_of_served due
        rw [snapshot]
        rfl
  · have unserved : serveBacklog { s with report := { s.report with signal := rest } } =
        { s with report := { s.report with signal := rest } } := by
      unfold serveBacklog
      rw [serviceChoice_of_none (s := { s with report := { s.report with signal := rest } }) clear]
    rw [run, unserved]

end Sys2Proof.Proofs

/-! The management receiver: the words of a frame, a message that completes, and the slots of the words. -/

namespace Sys2Proof.Proofs

open Sys2Proof.Machine

/-! ### The words of a frame -/

section

variable {s : State} {control data : Word16}

theorem managementWord_idle_begins (idle : s.receiver.state = .idle) (valid : bitSet control 15 = true)
    (first : bitSet control 14 = true) : managementWord control data s = beginMessage (bitSet control 13) data s := by
  unfold managementWord readControl
  dsimp only
  rw [idle, valid, first]
  rfl

theorem managementWord_idle_ignored (idle : s.receiver.state = .idle)
    (none : ¬ (bitSet control 15 = true ∧ bitSet control 14 = true)) : managementWord control data s = s := by
  unfold managementWord readControl
  dsimp only
  rw [idle]
  exact if_neg (by rw [Bool.and_eq_true]; exact none)

/-- The state with one more frame counted in the gap of a message under way (R150). -/
def gapCounted (s : State) : State := setReceiver { s.receiver with gap := s.receiver.gap + 1 } s

theorem managementWord_gap (busy : s.receiver.state ≠ .idle) (absent : bitSet control 15 = false) :
    managementWord control data s = gapExpiryIfDue (gapCounted s) := by
  unfold managementWord readControl
  dsimp only
  rw [absent]
  split
  · next idle => exact absurd idle busy
  · rfl
  · rfl

theorem managementWord_restart (busy : s.receiver.state ≠ .idle) (valid : bitSet control 15 = true)
    (first : bitSet control 14 = true) :
    managementWord control data s = beginMessage (bitSet control 13) data (endMessage .truncated s) := by
  unfold managementWord readControl
  dsimp only
  rw [valid, first]
  cases state : s.receiver.state with
  | idle => exact absurd state busy
  | assembling => rfl
  | discarding => rfl

theorem managementWord_assembling (state : s.receiver.state = .assembling) (valid : bitSet control 15 = true)
    (more : bitSet control 14 = false) : managementWord control data s = appendWord (bitSet control 13) data s := by
  unfold managementWord readControl
  dsimp only
  rw [state, valid, more]
  rfl

theorem managementWord_discarding (state : s.receiver.state = .discarding) (valid : bitSet control 15 = true)
    (more : bitSet control 14 = false) : managementWord control data s =
      if bitSet control 13 = true then endMessage .length s else setReceiver { s.receiver with gap := 0 } s := by
  unfold managementWord readControl
  dsimp only
  rw [state, valid, more]
  rfl

/-! ### A message under way that ends -/

/-- A message that ends without completing is answered with its code and tag (R149, R150, R152). -/
theorem endMessage_eq (status : Status) : endMessage status s = (idleReceiver s).withReply
    (s.replyRecord (codeOf (s.receiver.buffer.headD 0)) (s.receiver.tag.getD 0) none status []) :=
  replyStatus_eq ..

theorem gapDue_iff : gapDue s = true ↔ s.receiver.state ≠ .idle ∧ 65 ≤ s.receiver.gap := by
  rw [gapDue, Bool.and_eq_true, bne_iff_ne, decide_eq_true_iff, gapLimit]

theorem gapExpiryIfDue_of_due (busy : s.receiver.state ≠ .idle) (reached : 65 ≤ s.receiver.gap) :
    gapExpiryIfDue s = endMessage .truncated s :=
  if_pos (gapDue_iff.mpr ⟨busy, reached⟩)

theorem gapExpiryIfDue_of_few (few : s.receiver.gap < 65) : gapExpiryIfDue s = s :=
  if_neg fun due => absurd (gapDue_iff.mp due).2 (Nat.not_le.mpr few)

theorem appendWord_of_full (full : s.receiver.buffer.length = 40) (e : Bool) : appendWord e data s =
    if e = true then endMessage .length s else setReceiver { s.receiver with state := .discarding, gap := 0 } s :=
  if_pos (by rw [full]; exact le_rfl)

theorem appendWord_of_room (room : s.receiver.buffer.length < 40) (e : Bool) : appendWord e data s =
    if e = true then executeMessage (s.receiver.buffer ++ [data]) (idleReceiver s)
    else setReceiver { s.receiver with buffer := s.receiver.buffer ++ [data], gap := 0 } s :=
  if_neg (Nat.not_le.mpr room)

end

/-- Settles O19: each word has the receiver's equation for its state and its control bits. -/
theorem managementWordAssembles : Obligations.ManagementWordAssembles := by
  constructor
  · intro s control data arrives v first last p r begun run
    have taken : run = .next (managementWord control data p) := exec_managementWord_of_arrives arrives ..
    refine ⟨fun idle none => ?_, fun idle valid starts ends => ?_, fun state valid more open_ room => ?_,
      fun state valid more open_ full => ?_, fun state valid more open_ => ?_, fun busy valid starts ends => ?_,
      fun busy absent few => ?_⟩
    · rw [taken, managementWord_idle_ignored (s := p) idle none]
    · rw [taken, managementWord_idle_begins (s := p) idle valid starts,
        show bitSet control 13 = false from ends]
      rfl
    · rw [taken, managementWord_assembling (s := p) state valid more, appendWord_of_room (s := p) room,
        show bitSet control 13 = false from open_]
      rfl
    · rw [taken, managementWord_assembling (s := p) state valid more, appendWord_of_full (s := p) full,
        show bitSet control 13 = false from open_]
      rfl
    · rw [taken, managementWord_discarding (s := p) state valid more,
        show bitSet control 13 = false from open_]
      rfl
    · rw [taken, managementWord_restart (s := p) busy valid starts,
        show bitSet control 13 = false from ends, endMessage_eq]
      rfl
    · rw [taken, managementWord_gap (s := p) busy absent,
        gapExpiryIfDue_of_few (s := gapCounted p) few]
      rfl
  · intro s sync busy r truncated
    refine ⟨fun reached => ?_, fun few => ?_, fun gap arrives control data absent => ?_⟩
    · have run : exec .gapExpiry s = .next (gapExpiryIfDue s) := next_inSync sync _
      rw [run, gapExpiryIfDue_of_due busy reached, endMessage_eq]
    · have run : exec .gapExpiry s = .next (gapExpiryIfDue s) := next_inSync sync _
      rw [run, gapExpiryIfDue_of_few few]
    · have reached : 65 ≤ r.gap + 1 := by omega
      rw [exec_managementWord_of_arrives arrives, managementWord_gap (s := s.managementPassed) busy absent,
        gapExpiryIfDue_of_due (s := gapCounted s.managementPassed) busy reached, endMessage_eq]
      rfl

/-! ### Completed messages -/

section

variable {s : State} {ws : List Word16}

/-- A refusal of a completed message (R151, R152). -/
def answeredWith (ws : List Word16) (status : Status) (s : State) : State :=
  s.withReply (s.replyRecord (codeOf (ws.headD 0)) (tagOf (ws.headD 0)) none status [])

theorem lengthFails_block (count : Nat) : lengthFails 11 count = decide (count < 3) := rfl

theorem executeMessage_of_check (wrong : ws.sum ≠ 0) : executeMessage ws s = answeredWith ws .check s := by
  unfold executeMessage
  dsimp only
  rw [if_pos (bne_iff_ne.mpr wrong), replyStatus_eq]
  rfl

theorem executeMessage_of_unknown (right : ws.sum = 0) (unknown : codeOf (ws.headD 0) = 0 ∨ 16 < codeOf (ws.headD 0)) :
    executeMessage ws s = answeredWith ws .unknown s := by
  unfold executeMessage
  dsimp only
  rw [if_neg (by simp [right]), if_pos (by simpa using unknown), replyStatus_eq]
  rfl

theorem known_code {code : Nat} (known : 1 ≤ code ∧ code ≤ 16) : ¬ (decide (code = 0) || decide (16 < code)) = true := by
  rw [Bool.or_eq_true, decide_eq_true_eq, decide_eq_true_eq]
  omega

theorem executeMessage_of_length (right : ws.sum = 0) (known : 1 ≤ codeOf (ws.headD 0) ∧ codeOf (ws.headD 0) ≤ 16)
    (wrong : lengthFails (codeOf (ws.headD 0)) ws.length = true) : executeMessage ws s = answeredWith ws .length s := by
  unfold executeMessage
  dsimp only
  rw [if_neg (by simp [right]), if_neg (known_code known), if_pos wrong, replyStatus_eq]
  rfl

theorem executeMessage_of_right (right : ws.sum = 0) (known : 1 ≤ codeOf (ws.headD 0) ∧ codeOf (ws.headD 0) ≤ 16)
    (fits : lengthFails (codeOf (ws.headD 0)) ws.length = false) :
    executeMessage ws s = executeCommand (codeOf (ws.headD 0)) (tagOf (ws.headD 0)) (fun i => ws.dropLast.getD i 0)
      (ws.dropLast.drop 3) s := by
  unfold executeMessage
  dsimp only
  rw [if_neg (by simp [right]), if_neg (known_code known), if_neg (by rw [fits]; decide)]

end

section

variable {s : State} {control check : Word16}

/-- The word that completes a message with room in the buffer. -/
theorem exec_managementWord_of_completes (arrives : s.managementArrives) (state : s.receiver.state = .assembling)
    (valid : bitSet control 15 = true) (more : bitSet control 14 = false) (last : bitSet control 13 = true)
    (room : s.receiver.buffer.length < 40) :
    exec (.managementWord control check) s =
      .next (executeMessage (s.receiver.buffer ++ [check]) (idleReceiver s.managementPassed)) := by
  rw [exec_managementWord_of_arrives arrives, managementWord_assembling (s := s.managementPassed) state valid more, last,
    appendWord_of_room (s := s.managementPassed) room, if_pos rfl]
  rfl

/-- A message that passes the checks is its command (R151). -/
theorem exec_managementWord_of_right {first : Word16} {args : List Word16} {n : Nat} (arrives : s.managementArrives)
    (state : s.receiver.state = .assembling) (valid : bitSet control 15 = true) (more : bitSet control 14 = false)
    (last : bitSet control 13 = true) (room : args.length < 39) (known : 1 ≤ n ∧ n ≤ 16)
    (fits : lengthFails n (args.length + 2) = false)
    (message : s.receiver.buffer = first :: args ∧ codeOf first = n ∧ (first :: args).sum + check = 0) :
    exec (.managementWord control check) s =
      .next (executeCommand n (tagOf first) (fun i => (first :: args).getD i 0) (args.drop 2)
        (idleReceiver s.managementPassed)) := by
  obtain ⟨buffer, code, sum⟩ := message
  have right : (first :: args ++ [check]).sum = 0 := by
    rw [List.sum_append, List.sum_singleton]
    exact sum
  have length : (first :: args ++ [check]).length = args.length + 2 := by
    rw [List.length_append, List.length_cons, List.length_singleton]
  have head : codeOf ((first :: args ++ [check]).headD 0) = n := code
  have body : (first :: args ++ [check]).dropLast = first :: args := List.dropLast_concat
  rw [exec_managementWord_of_completes arrives state valid more last (by rw [buffer, List.length_cons]; omega), buffer,
    executeMessage_of_right right (by rw [head]; exact known) (by rw [head, length]; exact fits), head, body]
  rfl

end

/-- Settles O20: the message passes the checks, and a row of its command is taken in the same state. -/
theorem completedMessageIsItsCommand : Obligations.CompletedMessageIsItsCommand := by
  intro s control first a b c check es arrives state valid more last message run tag p
  have sync : p.highway.sync = .sync := arrives.1
  have taken : ∀ f : State → State, (.next (takeCommand f p) : Result) = .next (f (idleReceiver p)) := fun f =>
    congrArg Host.Outcome.next (if_pos sync)
  have completes : ∀ {args : List Word16} {n : Nat}, args.length < 39 → 1 ≤ n ∧ n ≤ 16 →
      lengthFails n (args.length + 2) = false → message args n → run = .next (executeCommand n tag
        (fun i => (first :: args).getD i 0) (args.drop 2) (idleReceiver p)) :=
    fun room known fits => exec_managementWord_of_right arrives state valid more last room known fits
  refine ⟨fun m => ?_, fun m => ?_, fun m => ?_, fun m => ?_, fun m => ?_, fun m => ?_, fun m => ?_, fun m => ?_, fun m => ?_,
    fun m => ?_, fun m short => ?_, fun m => ?_, fun m => ?_, fun m => ?_, fun m => ?_, fun m => ?_⟩
  case refine_11 =>
    have room : (a :: b :: es).length < 39 := by
      rw [List.length_cons, List.length_cons]
      omega
    have fits : lengthFails 11 ((a :: b :: es).length + 2) = false := by
      rw [lengthFails_block]
      exact decide_eq_false (by rw [List.length_cons, List.length_cons]; omega)
    exact (completes room (by decide) fits m).trans (taken _).symm
  all_goals exact (completes (by simp) (by decide) rfl m).trans (taken _).symm

/-! ### Messages that are refused -/

theorem lengthFails_of_one {code : Nat} (one : code = 2 ∨ code = 4 ∨ code = 7 ∨ code = 9 ∨ code = 12 ∨ code = 13)
    (count : Nat) : lengthFails code count = (count != 3) := by
  obtain rfl | rfl | rfl | rfl | rfl | rfl := one <;> rfl

theorem lengthFails_of_two {code : Nat} (two : code = 1 ∨ code = 3 ∨ code = 5 ∨ code = 8) (count : Nat) :
    lengthFails code count = (count != 4) := by
  obtain rfl | rfl | rfl | rfl := two <;> rfl

theorem lengthFails_of_three {code : Nat} (three : code = 6 ∨ code = 10 ∨ code = 14) (count : Nat) :
    lengthFails code count = (count != 5) := by
  obtain rfl | rfl | rfl := three <;> rfl

theorem lengthFails_of_no {code : Nat} (no : code = 15 ∨ code = 16) (count : Nat) :
    lengthFails code count = (count != 2) := by
  obtain rfl | rfl := no <;> rfl

section

variable {s : State} {tag : Tag} {table block : Word16} {entry : List Word16}

theorem loadBlock_of_no_table (beyond : 5 < table.toNat) : Machine.loadBlock tag table block entry s =
    s.withReply (s.replyRecord 11 tag none .range []) := by
  unfold Machine.loadBlock
  rw [tableOfWord_of_five_lt beyond]
  exact replyStatus_eq ..

theorem loadBlock_of_length {x : TableId} (named : table.toNat = tableCode x) (wrong : entry.length ≠ x.entryLength) :
    Machine.loadBlock tag table block entry s = s.withReply (s.replyRecord 11 tag none .length []) := by
  unfold Machine.loadBlock
  rw [tableOfWord_of_code named]
  exact guarded_refused (firstFailure_first (bne_iff_ne.mpr wrong))

end

theorem getD_dropLast {ws : List Word16} {i : Nat} (within : i + 1 < ws.length) : ws.dropLast.getD i 0 = ws.getD i 0 := by
  rw [List.getD_eq_getElem?_getD, List.getD_eq_getElem?_getD, List.getElem?_dropLast, if_pos (by omega)]

/-- A LOAD_BLOCK that passes the check word and holds its table argument (R151). -/
theorem executeMessage_loadBlock {ws : List Word16} {s : State} (right : ws.sum = 0) (code : codeOf (ws.headD 0) = 11)
    (long : 3 ≤ ws.length) : executeMessage ws s =
      Machine.loadBlock (tagOf (ws.headD 0)) (ws.getD 1 0) (ws.dropLast.getD 2 0) (ws.dropLast.drop 3) s := by
  have fits : lengthFails (codeOf (ws.headD 0)) ws.length = false := by
    rw [code, lengthFails_block]
    exact decide_eq_false (Nat.not_lt.mpr long)
  rw [executeMessage_of_right right (by rw [code]; decide) fits, code, ← getD_dropLast (i := 1) (by omega)]
  rfl

theorem executeMessage_single (data : Word16) (s : State) :
    executeMessage [data] s = answeredWith [data] (if data = 0 then .unknown else .check) s := by
  have sum : [data].sum = data := List.sum_singleton
  by_cases zero : data = 0
  · rw [executeMessage_of_unknown (sum.trans zero) (.inl (by rw [zero]; rfl)), if_pos zero]
  · rw [executeMessage_of_check (by rw [sum]; exact zero), if_neg zero]

/-- Settles O21: a completed message is answered by the first check that it fails, and nothing else changes. -/
theorem badMessageAnswered : Obligations.BadMessageAnswered := by
  refine ⟨fun s control check arrives state valid more last _ room => ?_, fun s control data arrives valid more last under => ?_,
    fun s control data arrives valid first last => ?_⟩
  · intro words code answered
    have run := exec_managementWord_of_completes (check := check) arrives state valid more last room
    have answers : ∀ {st}, executeMessage words (idleReceiver s.managementPassed) =
        answeredWith words st (idleReceiver s.managementPassed) → answered st :=
      fun same => run.trans (congrArg Host.Outcome.next same)
    have wrongLength : words.sum = 0 → 1 ≤ code ∧ code ≤ 16 → lengthFails code words.length = true → answered .length :=
      fun right known wrong => answers (executeMessage_of_length right known wrong)
    refine ⟨fun wrong => answers (executeMessage_of_check wrong), fun right unknown => answers (executeMessage_of_unknown right unknown),
      fun right named wrong => ?_, fun right named wrong => ?_, fun right named wrong => ?_, fun right named wrong => ?_,
      fun right named wrong => ?_, fun right named long beyond => ?_, fun x right named long table wrong => ?_⟩
    · exact wrongLength right (by omega) (by rw [lengthFails_of_one named]; exact bne_iff_ne.mpr wrong)
    · exact wrongLength right (by omega) (by rw [lengthFails_of_two named]; exact bne_iff_ne.mpr wrong)
    · exact wrongLength right (by omega) (by rw [lengthFails_of_three named]; exact bne_iff_ne.mpr wrong)
    · exact wrongLength right (by omega) (by rw [lengthFails_of_no named]; exact bne_iff_ne.mpr wrong)
    · exact wrongLength right (by omega) (by rw [named, lengthFails_block]; exact decide_eq_true wrong)
    · refine answers ?_
      rw [executeMessage_loadBlock right named long, loadBlock_of_no_table beyond, answeredWith, show codeOf _ = 11 from named]
    · refine answers ?_
      have entry : (words.dropLast.drop 3).length ≠ x.entryLength := by
        have some : 1 ≤ x.entryLength := by cases x <;> decide
        rw [List.length_drop, List.length_dropLast]
        omega
      rw [executeMessage_loadBlock right named long, loadBlock_of_length table entry, answeredWith,
        show codeOf _ = 11 from named]
  · have ended : managementWord control data s.managementPassed = endMessage .length s.managementPassed := by
      obtain state | ⟨state, full⟩ := under
      · rw [managementWord_discarding (s := s.managementPassed) state valid more, last, if_pos rfl]
      · rw [managementWord_assembling (s := s.managementPassed) state valid more,
          appendWord_of_full (s := s.managementPassed) full, last, if_pos rfl]
    rw [exec_managementWord_of_arrives arrives, ended, endMessage_eq]
    rfl
  · intro answer truncated
    have begins : ∀ u : State, beginMessage true data u =
        answeredWith [data] (if data = 0 then .unknown else .check) (idleReceiver u) := fun u =>
      executeMessage_single ..
    refine ⟨fun idle => ?_, fun busy => ?_⟩
    · rw [exec_managementWord_of_arrives arrives, managementWord_idle_begins (s := s.managementPassed) idle valid first, last, begins]
      rfl
    · rw [exec_managementWord_of_arrives arrives, managementWord_restart (s := s.managementPassed) busy valid first, last, begins,
        endMessage_eq]
      rfl

end Sys2Proof.Proofs

/-! The slots of the words of a frame. -/

namespace Sys2Proof.Proofs

open Sys2Proof.Machine

/-! ### The commands and the words in flight -/

section

variable {s : State} {code : Nat} {tag : Tag} {line : Option LineNo} {status : Status} {checks : List (Bool × Status)}
  {effect : State → State}

theorem wires_replyStatus : (replyStatus code tag line status s).wires = s.wires := by
  rw [replyStatus_eq]
  rfl

theorem wires_offerReply (o : Option LineNo) (p : Payload) : (offerReply o p s).wires = s.wires := by
  rw [offerReply_eq]
  rfl

theorem wires_replyWith (result : List Word16) : (replyWith code tag line status result s).wires = s.wires := by
  rw [replyWith_eq]
  rfl

theorem wires_releaseBanks : (releaseBanks s).wires = s.wires := (upToMigration_releaseBanks s).wires

theorem wires_guarded (kept : (effect s).wires = s.wires) : (guarded code tag line checks effect s).wires = s.wires := by
  unfold guarded
  split
  · exact wires_replyStatus
  · exact wires_replyStatus.trans kept

theorem wires_lineCommand {word : Word16} {checks : LineNo → List (Bool × Status)} {effect : LineNo → State → State}
    (kept : ∀ l, (effect l s).wires = s.wires) : (lineCommand code tag word checks effect s).wires = s.wires := by
  unfold lineCommand
  split
  · exact wires_replyStatus
  · split
    · exact wires_replyStatus
    · exact (wires_releaseBanks.trans wires_replyStatus).trans (kept _)

theorem wires_disableLine (l : LineNo) (s : State) : (disableLine l s).wires = s.wires :=
  ((onlyLine_closeString ..).trans (onlyLine_enter l ..)).wires

theorem wires_lineDisable (word : Word16) : (lineDisable tag word s).wires = s.wires := by
  have told : (reportTest .aborted (some .disabled) s).wires = s.wires := (keeps_reportTest (m := true) ..).wires
  unfold lineDisable
  split
  · exact wires_replyStatus
  split
  · exact wires_replyStatus
  split
  · exact ((keeps_freeEngine (m := true) _).wires.trans wires_replyStatus).trans ((wires_disableLine ..).trans told)
  · exact (wires_releaseBanks.trans wires_replyStatus).trans (wires_disableLine ..)

theorem wires_testRequest (word kind : Word16) : (testRequest tag word kind s).wires = s.wires := by
  unfold testRequest
  split
  · exact wires_replyStatus
  split
  · exact wires_replyStatus
  split
  · exact wires_replyStatus
  split
  · exact wires_replyStatus
  · exact (engineStep_takeRequests _).wires.trans wires_replyStatus

theorem wires_lineQuery (word : Word16) : (lineQuery tag word s).wires = s.wires := by
  unfold lineQuery
  split
  · exact wires_replyStatus
  · exact wires_replyWith _

theorem wires_loadOpen (table first count : Word16) : (Machine.loadOpen tag table first count s).wires = s.wires := by
  unfold Machine.loadOpen
  split
  · exact wires_replyStatus
  · exact wires_guarded rfl

theorem wires_loadBlock (table block : Word16) (entry : List Word16) :
    (Machine.loadBlock tag table block entry s).wires = s.wires := by
  unfold Machine.loadBlock
  split
  · exact wires_replyStatus
  · exact wires_guarded rfl

theorem wires_loadCancel (table : Word16) : (Machine.loadCancel tag table s).wires = s.wires := by
  unfold Machine.loadCancel
  split
  · exact wires_replyStatus
  · exact wires_guarded rfl

theorem wires_restartSweep (before : Nat) (s : State) : (restartSweep before s).wires = s.wires := by
  unfold restartSweep
  split <;> rfl

theorem wires_commitTable (x : TableId) (tag : Tag) (s : State) : (commitTable x tag s).wires = s.wires := by
  unfold commitTable
  rw [wires_restartSweep]
  rfl

theorem wires_loadCommit (table : Word16) : (Machine.loadCommit tag table s).wires = s.wires := by
  unfold Machine.loadCommit
  split
  · exact wires_replyStatus
  · next x _ =>
    have committed : (replyStatus 12 tag none .ok (commitTable x tag s)).wires = s.wires :=
      wires_replyStatus.trans (wires_commitTable ..)
    dsimp only
    split
    · exact wires_replyStatus
    · split
      · exact committed
      · rw [wires_offerReply]
        exact committed

theorem wires_entryRead (table choice index : Word16) : (Machine.entryRead tag table choice index s).wires = s.wires := by
  unfold Machine.entryRead
  split
  · exact wires_replyStatus
  split
  · exact wires_replyStatus
  split
  · exact wires_replyStatus
  · exact wires_replyWith _

theorem wires_setPolarity (l : LineNo) (p : Polarity) (s : State) : (setPolarity l p s).wires = s.wires := by
  unfold setPolarity
  dsimp only
  split <;> rfl

theorem wires_partReset : (partReset tag s).wires = s.wires := by
  unfold partReset
  rw [wires_replyStatus]
  unfold resetPart mapLines
  dsimp only

/-- No command changes the words in flight. -/
theorem wires_executeCommand (arg : Nat → Word16) (entry : List Word16) :
    (executeCommand code tag arg entry s).wires = s.wires := by
  unfold executeCommand
  split
  · exact wires_lineCommand fun l => ((onlyLine_adoptProfile l ..).trans (onlyLine_enter l ..)).wires
  · exact wires_lineDisable _
  · exact wires_lineCommand fun l => rfl
  · exact wires_lineCommand fun l => ((onlyLine_closeString l ..).trans (onlyLine_enter l ..)).wires
  · exact wires_lineCommand fun l => wires_setPolarity ..
  · exact wires_lineCommand fun l => (onlyLine_startRinging l ..).wires
  · exact wires_lineCommand fun l => (onlyLine_enter l ..).wires
  · exact wires_testRequest ..
  · exact wires_lineQuery _
  · exact wires_loadOpen ..
  · exact wires_loadBlock ..
  · exact wires_loadCommit _
  · exact wires_loadCancel _
  · exact wires_entryRead ..
  · exact wires_replyWith _
  · exact wires_partReset
  · rfl

theorem wires_executeMessage (ws : List Word16) : (executeMessage ws s).wires = s.wires := by
  unfold executeMessage
  dsimp only
  split
  · exact wires_replyStatus
  split
  · exact wires_replyStatus
  split
  · exact wires_replyStatus
  · exact wires_executeCommand ..

theorem wires_endMessage : (endMessage status s).wires = s.wires := by
  rw [endMessage_eq]
  rfl

theorem wires_beginMessage (e : Bool) (data : Word16) : (beginMessage e data s).wires = s.wires := by
  unfold beginMessage
  split
  · exact wires_executeMessage _
  · rfl

theorem wires_appendWord (e : Bool) (data : Word16) : (appendWord e data s).wires = s.wires := by
  unfold appendWord
  dsimp only
  split
  · split
    · exact wires_endMessage
    · rfl
  · split
    · exact wires_executeMessage _
    · rfl

theorem wires_gapExpiryIfDue : (gapExpiryIfDue s).wires = s.wires := by
  unfold gapExpiryIfDue
  split
  · exact wires_endMessage
  · rfl

theorem wires_managementWord (control data : Word16) : (managementWord control data s).wires = s.wires := by
  unfold managementWord
  dsimp only
  split
  · split
    · exact wires_beginMessage ..
    · rfl
  · split
    · exact wires_gapExpiryIfDue
    split
    · exact (wires_beginMessage ..).trans wires_endMessage
    · exact wires_appendWord ..
  · split
    · exact wires_gapExpiryIfDue
    split
    · exact (wires_beginMessage ..).trans wires_endMessage
    split
    · exact wires_appendWord ..
    split
    · exact wires_endMessage
    · rfl

end

/-! ### A sense record and the words in flight -/

theorem wires_handRecord (l : LineNo) (h : Handed) (back : Bool) (o : RecordOrder) (s : State) :
    (handRecord l h back o s).wires = s.wires := by
  cases sense : h.lost with
  | true =>
    rw [handRecord_of_lost sense]
    exact (onlyLine_monitorRecord ..).wires
  | false => exact (handedTo_handRecord sense).wires

theorem wires_offerAlarm (o : Option LineNo) (p : Payload) (s : State) : (offerAlarm o p s).wires = s.wires :=
  (onlyLine_offerAlarm 0 ..).wires

theorem wires_compareEcho (l : LineNo) (echo : FeedCode) (s : State) : (compareEcho l echo s).wires = s.wires := by
  unfold compareEcho feedStuckIfDue
  dsimp only
  split
  · split
    · exact wires_offerAlarm ..
    · rfl
  · split
    · exact wires_offerAlarm ..
    · rfl

theorem wires_senseRecord (l : LineNo) (status i vt vr : Word16) (o : RecordOrder) (s : State) :
    (senseRecord l status i vt vr o s).wires = s.wires := by
  unfold senseRecord
  split
  · unfold validRecord
    dsimp only
    refine (wires_handRecord ..).trans ((wires_compareEcho ..).trans ?_)
    split
    · exact wires_offerAlarm ..
    · rfl
  · unfold invalidRecord senseLostIfDue
    dsimp only
    refine (wires_handRecord ..).trans ?_
    split
    · exact wires_offerAlarm ..
    · rfl

/-! ### The slots -/

theorem not_recordArrives {s : State} {l : LineNo}
    (outside : s.highway.frame ≠ some (l.val / 6) ∨ 48 + l.val % 6 < s.wires.lineSlot) : ¬ s.recordArrives l := by
  rintro ⟨-, frame, slot⟩
  obtain other | passed := outside
  · exact other frame
  · exact absurd slot (Nat.not_le.mpr passed)

theorem report_reportFrame (s : State) : (reportFrame s).wires.report ≠ none := by
  have sent : ∀ r i u, (sendWord r i u).wires.report ≠ none := fun r i u => by
    rw [sendWord_eq]
    exact Option.some_ne_none _
  unfold reportFrame
  split
  · exact sent _ _ _
  · unfold chooseRecord
    split
    · exact sent _ _ _
    · exact sent _ _ _
    · exact sent _ _ _
    · exact Option.some_ne_none _

/-- Settles O30: outside its slot a word is not handled; within it the handling leaves the words in flight. -/
theorem wordsInTheirSlots : Obligations.WordsInTheirSlots := by
  intro s l a b c d o sync
  refine ⟨fun outside => ?_, fun frame slot => ⟨_, exec_senseRecord_of_arrives ⟨sync, frame, slot⟩ .., wires_senseRecord ..⟩,
    fun passed => ?_, fun passed => ?_, fun passed => ?_, fun slot => ⟨_, exec_managementWord_of_arrives ⟨sync, slot⟩ .., ?_⟩,
    fun sent => ?_, fun free => ⟨_, next_reportFrame sync free, report_reportFrame s⟩⟩
  · exact exec_senseRecord_of_not_arrives (not_recordArrives outside) ..
  · exact (next_inSync sync _).trans (congrArg _ (if_neg (Nat.not_le.mpr passed)))
  · exact (next_inSync sync _).trans (congrArg _ (if_neg (Nat.not_le.mpr passed)))
  · exact (next_inSync sync _).trans (congrArg _ (if_neg (Nat.not_le.mpr passed)))
  · exact wires_managementWord ..
  · exact (next_inSync sync _).trans (congrArg _ (if_neg (by rw [Option.isNone_iff_eq_none]; exact sent)))

end Sys2Proof.Proofs

/-! The close of a load, and the release of a bank. -/

namespace Sys2Proof.Proofs

open Sys2Proof.Machine

section

variable {s : State} {x : TableId}

theorem exec_loadCancel_of_sync (sync : s.highway.sync = .sync) (tag : Tag) (table : Word16) :
    exec (.loadCancel tag table) s = .next (Machine.loadCancel tag table (idleReceiver s)) :=
  congrArg _ (if_pos sync)

theorem exec_loadLapse_of_sync (sync : s.highway.sync = .sync) : exec (.loadLapse x) s = .next (loadLapseIfDue x s) :=
  next_inSync sync _

theorem loadCancel_of_no_table {table : Word16} (beyond : 5 < table.toNat) (tag : Tag) :
    Machine.loadCancel tag table s = replyStatus 13 tag none .range s := by
  unfold Machine.loadCancel
  rw [tableOfWord_of_five_lt beyond]

theorem loadCancel_of_table {table : Word16} (named : table.toNat = tableCode x) (tag : Tag) :
    Machine.loadCancel tag table s = if (s.table x).load.isNone = true then replyStatus 13 tag none .state s
      else replyStatus 13 tag none .ok (setTable x (s.table x).closeLoad s) := by
  unfold Machine.loadCancel
  rw [tableOfWord_of_code named]
  dsimp only
  rw [guarded_cons, guarded_nil]

theorem loadLapseIfDue_of_open {ld : Load} (opened : (s.table x).load = some ld) : loadLapseIfDue x s =
    if 1000 ≤ ld.lapse then offerReply none (.loadLapsed x ld.accepted) (setTable x (s.table x).closeLoad s) else s := by
  unfold loadLapseIfDue
  rw [opened]
  rfl

theorem loadLapseIfDue_of_closed (closed : (s.table x).load = none) : loadLapseIfDue x s = s := by
  unfold loadLapseIfDue
  rw [closed]

theorem releaseBank_of_retiring {tag : Tag} (retiring : (s.table x).retiringTag = some tag) : releaseBank x s =
    if s.users x (s.activeBank x).other = 0 then
      offerReply none (.commitDone x tag) (setTable x { s.table x with retiringTag := none } s)
    else s := by
  unfold releaseBank
  rw [retiring]

end

/-- Settles O18: each command and event is its equation, by whether a load is OPEN and by the users of the bank. -/
theorem loadClosesAndBankReleases : Obligations.LoadClosesAndBankReleases := by
  refine ⟨fun s x ld sync opened => ⟨fun tag table named => ?_, fun reached => ?_, fun early => ?_⟩,
    fun s x sync closed => ?_, fun s tag table sync => ?_, fun s x tag sync retiring => ⟨fun unused => ?_, fun used => ?_⟩⟩
  · have some : ¬ ((idleReceiver s).table x).load.isNone = true := by
      rw [table_idleReceiver, opened]
      exact Bool.false_ne_true
    rw [exec_loadCancel_of_sync sync, loadCancel_of_table named, if_neg some, replyStatus_eq]
    rfl
  · rw [exec_loadLapse_of_sync sync, loadLapseIfDue_of_open opened, if_pos reached, offerReply_eq]
    rfl
  · rw [exec_loadLapse_of_sync sync, loadLapseIfDue_of_open opened, if_neg (Nat.not_le.mpr early)]
  · rw [exec_loadLapse_of_sync sync, loadLapseIfDue_of_closed closed]
  · intro refused
    refine ⟨fun beyond => ?_, fun x named closed => ?_⟩
    · rw [exec_loadCancel_of_sync sync, loadCancel_of_no_table beyond, replyStatus_eq]
      rfl
    · have none : ((idleReceiver s).table x).load.isNone = true := by
        rw [table_idleReceiver, closed]
        rfl
      rw [exec_loadCancel_of_sync sync, loadCancel_of_table named, if_pos none, replyStatus_eq]
      rfl
  · rw [exec_commitDone sync, releaseBank_of_retiring retiring, if_pos unused, offerReply_eq]
    rfl
  · rw [exec_commitDone sync, releaseBank_of_retiring retiring, if_neg used]

end Sys2Proof.Proofs

/-! A requested test: the queue that takes the request, and the engine that takes the queue. -/

namespace Sys2Proof.Proofs

open Sys2Proof.Machine

/-! ### The queue that takes a commanded request -/

section

variable {l : LineNo} {k : TestKind} {q : List Request}

/-- The queue with a commanded request of a line given another kind (R125). -/
def requeued (l : LineNo) (k : TestKind) (q : List Request) : List Request :=
  q.map fun r => if r.line = l then { r with kind := k } else r

/-- The queue that a commanded request joins, behind the other commanded ones and in place of the line's own (R125). -/
def enqueued (l : LineNo) (k : TestKind) (q : List Request) : List Request :=
  (q.filter fun r => r.origin = .commanded ∧ r.line ≠ l) ++ [⟨l, k, .commanded⟩] ++
    (q.filter fun r => r.origin ≠ .commanded ∧ r.line ≠ l)

theorem commandedFor_iff : (q.any fun r => r.line = l && r.commanded) = true ↔ ∃ r ∈ q, r.line = l ∧ r.origin = .commanded := by
  simp [Request.commanded]

theorem joinCommanded_filter :
    joinCommanded ⟨l, k, .commanded⟩ (q.filter fun r => r.line != l) = enqueued l k q := by
  have commanded : ∀ r : Request, (r.commanded && r.line != l) = decide (r.origin = .commanded ∧ r.line ≠ l) := fun r => by
    rw [Bool.eq_iff_iff]
    simp [Request.commanded]
  have swept : ∀ r : Request, (!r.commanded && r.line != l) = decide (r.origin ≠ .commanded ∧ r.line ≠ l) := fun r => by
    rw [Bool.eq_iff_iff]
    simp [Request.commanded]
  unfold joinCommanded enqueued
  rw [List.filter_filter, List.filter_filter]
  simp only [commanded, swept]

theorem filter_of_not_queued (absent : ¬ ∃ r ∈ q, r.line = l) : (q.filter fun r => r.line != l) = q :=
  List.filter_eq_self.mpr fun r mem => bne_iff_ne.mpr fun own => absent ⟨r, mem, own⟩

theorem offerCommanded_of_commanded (commanded : ∃ r ∈ q, r.line = l ∧ r.origin = .commanded) :
    offerCommanded l k q = some (requeued l k q) :=
  if_pos (commandedFor_iff.mpr commanded)

theorem offerCommanded_of_joined (other : ¬ ∃ r ∈ q, r.line = l ∧ r.origin = .commanded)
    (room : (∃ r ∈ q, r.line = l) ∨ q.length < 8) : offerCommanded l k q = some (enqueued l k q) := by
  unfold offerCommanded
  rw [if_neg (commandedFor_iff.not.mpr other), ← joinCommanded_filter]
  by_cases queued : ∃ r ∈ q, r.line = l
  · rw [if_pos ((queuedFor_iff l q).mpr queued)]
  · rw [if_neg ((queuedFor_iff l q).not.mpr queued), filter_of_not_queued queued]
    exact if_pos (room.resolve_left queued)

theorem offerCommanded_of_full (absent : ¬ ∃ r ∈ q, r.line = l) (full : 8 ≤ q.length) : offerCommanded l k q = none := by
  unfold offerCommanded
  rw [if_neg (commandedFor_iff.not.mpr fun ⟨r, mem, own, _⟩ => absent ⟨r, mem, own⟩),
    if_neg ((queuedFor_iff l q).not.mpr absent)]
  exact if_neg (Nat.not_lt.mpr full)

end

/-! ### The command -/

section

variable {s : State} {tag : Tag} {line kind : Word16} {l : LineNo} {k : TestKind} {q : List Request}

theorem kindOfCode_eq (named : kind.toNat = kindCode k) : kindOfCode kind.toNat = some k := by
  rw [named]
  cases k <;> rfl

/-- The state in which a request that the queue takes has been answered, the queue not yet taken by the engine. -/
def requested (tag : Tag) (l : LineNo) (status : Status) (q : List Request) (s : State) : State :=
  { (idleReceiver s).withReply (s.replyRecord 8 tag (some l) status []) with engine := { s.engine with queue := q } }

theorem exec_testRequest_of_taken (sync : s.highway.sync = .sync) (named : line.toNat = l.val)
    (kinded : kind.toNat = kindCode k) (untested : (s.line l).state ≠ .test)
    (taken : offerCommanded l k s.engine.queue = some q) :
    exec (.testRequest tag line kind) s = .next (takeRequests (requested tag l .ok q s)) := by
  have run : exec (.testRequest tag line kind) s = .next (testRequest tag line kind (idleReceiver s)) :=
    congrArg Host.Outcome.next (if_pos sync)
  have state : ((idleReceiver s).line l).state ≠ .test := untested
  have queue : offerCommanded l k (idleReceiver s).engine.queue = some q := taken
  rw [run, testRequest, lineOfWord_eq named]
  dsimp only
  rw [kindOfCode_eq kinded]
  dsimp only
  rw [if_neg state, queue]
  dsimp only
  rw [replyStatus_eq]
  rfl

theorem exec_testRequest_of_full (sync : s.highway.sync = .sync) (named : line.toNat = l.val)
    (kinded : kind.toNat = kindCode k) (untested : (s.line l).state ≠ .test)
    (full : offerCommanded l k s.engine.queue = none) :
    exec (.testRequest tag line kind) s = .next (requested tag l .full s.engine.queue s) := by
  have run : exec (.testRequest tag line kind) s = .next (testRequest tag line kind (idleReceiver s)) :=
    congrArg Host.Outcome.next (if_pos sync)
  have state : ((idleReceiver s).line l).state ≠ .test := untested
  have queue : offerCommanded l k (idleReceiver s).engine.queue = none := full
  rw [run, testRequest, lineOfWord_eq named]
  dsimp only
  rw [kindOfCode_eq kinded]
  dsimp only
  rw [if_neg state, queue]
  dsimp only
  rw [replyStatus_eq]
  rfl

/-- With the engine FREE and no other request, a request that can be run starts its test. -/
theorem exec_testRequest_of_runnable (sync : s.highway.sync = .sync) (named : line.toNat = l.val)
    (kinded : kind.toNat = kindCode k) (free : s.engine.busy = false) (empty : s.engine.queue = [])
    (allowed : admissible .commanded (s.line l).state = true) (program : programRunnable s k = true) :
    exec (.testRequest tag line kind) s = .next (startTest ⟨l, k, .commanded⟩ (requested tag l .ok [] s)) := by
  have untested : (s.line l).state ≠ .test := fun test => by
    rw [test] at allowed
    cases allowed
  have taken : offerCommanded l k s.engine.queue = some [⟨l, k, .commanded⟩] := by
    rw [empty]
    rfl
  rw [exec_testRequest_of_taken sync named kinded untested taken,
    takeRequests_of_free (s := requested tag l .ok [⟨l, k, .commanded⟩] s) free]
  exact congrArg Host.Outcome.next
    (takeFrom_of_runnable (s := requested tag l .ok [⟨l, k, .commanded⟩] s) (r := ⟨l, k, .commanded⟩) allowed program)

/-- With the engine FREE and no other request, a request that cannot be run is skipped. -/
theorem exec_testRequest_of_skipped (sync : s.highway.sync = .sync) (named : line.toNat = l.val)
    (kinded : kind.toNat = kindCode k) (free : s.engine.busy = false) (empty : s.engine.queue = [])
    (untested : (s.line l).state ≠ .test)
    (skipped : admissible .commanded (s.line l).state = false ∨ programRunnable s k = false) :
    exec (.testRequest tag line kind) s = .next (modEngine (fun e => { e with queue := [] })
      (offerAlarm (some l) (.testResult k .commanded .skipped none []) (requested tag l .ok [⟨l, k, .commanded⟩] s))) := by
  have taken : offerCommanded l k s.engine.queue = some [⟨l, k, .commanded⟩] := by
    rw [empty]
    rfl
  rw [exec_testRequest_of_taken sync named kinded untested taken,
    takeRequests_of_free (s := requested tag l .ok [⟨l, k, .commanded⟩] s) free]
  exact congrArg Host.Outcome.next
    (takeFrom_of_skipped (s := requested tag l .ok [⟨l, k, .commanded⟩] s) (r := ⟨l, k, .commanded⟩) skipped)

/-- What the start of a requested test leaves of the device. -/
theorem reply_startTest (r : Request) (u : State) : u.report.reply <+: (startTest r u).report.reply := by
  rw [startTest_eq]
  obtain ⟨added, reply, -⟩ := (upToMigration_releaseBanks
    (setLine r.line (testedLine u r) { u with engine := testingEngine u r })).migrated
  rw [reply]
  exact List.prefix_append ..

end

/-- Settles O10: the queue takes the request by the cases of R125, and the engine then takes the queue. -/
theorem testRequestTaken : Obligations.TestRequestTaken := by
  refine ⟨?_, ?_, ?_, ?_⟩
  · intro s tag line kind l k sync named kinded untested busy q commandedForLine queued answered run
    refine ⟨fun commanded => ?_, fun other room => ?_, fun absent full => ?_⟩
    · exact (exec_testRequest_of_taken sync named kinded untested (offerCommanded_of_commanded commanded)).trans
        (congrArg Host.Outcome.next (takeRequests_busy busy))
    · exact (exec_testRequest_of_taken sync named kinded untested (offerCommanded_of_joined other room)).trans
        (congrArg Host.Outcome.next (takeRequests_busy busy))
    · exact exec_testRequest_of_full sync named kinded untested (offerCommanded_of_full absent full)
  · intro s tag line kind l k sync named kinded idle free empty program
    have run := exec_testRequest_of_runnable (tag := tag) sync named kinded free empty (by rw [idle]; rfl) program
    have engine := engine_startTest ⟨l, k, .commanded⟩ (requested tag l .ok [] s)
    have own := line_startTest_self ⟨l, k, .commanded⟩ (requested tag l .ok [] s)
    refine ⟨_, run, ?_, ?_, ?_, ?_, ?_, ?_, ?_, fun j other => ?_, ?_, ?_, reply_startTest _ (requested tag l .ok [] s)⟩
    · rw [engine]; rfl
    · rw [engine]; rfl
    · rw [engine]; rfl
    · rw [engine]; rfl
    · rw [engine]; rfl
    · rw [own]; rfl
    · rw [own]; exact congrArg some idle
    · exact line_startTest_of_ne other _
    · rw [startTest_eq]
      exact (upToMigration_releaseBanks _).alarm
    · rw [startTest_eq]
      exact (upToMigration_releaseBanks _).signal
  · intro s tag line kind l k sync named kinded untested room queue
    have taken : offerCommanded l k s.engine.queue = some queue := by
      by_cases commanded : ∃ r ∈ s.engine.queue, r.line = l ∧ r.origin = .commanded
      · exact (offerCommanded_of_commanded commanded).trans (congrArg some (if_pos commanded).symm)
      · exact (offerCommanded_of_joined commanded room).trans (congrArg some (if_neg commanded).symm)
    rw [exec_testRequest_of_taken sync named kinded untested taken]
    exact (exec_testTake_of_sync (s := requested tag l .ok queue s) sync).symm
  · intro s tag line kind l k sync named kinded free empty
    refine ⟨fun still program => ?_, fun unable => ?_⟩
    · have run := exec_testRequest_of_runnable (tag := tag) sync named kinded free empty
        ((admissible_iff ..).mpr (.inr ⟨rfl, still⟩)) program
      have engine := engine_startTest ⟨l, k, .commanded⟩ (requested tag l .ok [] s)
      have own := line_startTest_self ⟨l, k, .commanded⟩ (requested tag l .ok [] s)
      refine ⟨_, run, ?_, ?_, ?_, ?_, reply_startTest _ (requested tag l .ok [] s)⟩
      · rw [engine]; rfl
      · rw [engine]; rfl
      · rw [own]; rfl
      · rw [own]; rfl
    · have skipped : (s.line l).state ≠ .test ∧
          (admissible .commanded (s.line l).state = false ∨ programRunnable s k = false) := by
        obtain st | st | st | st | st | ⟨untested, program⟩ := unable
        case inr.inr.inr.inr.inr => exact ⟨untested, .inr program⟩
        all_goals
          rw [st]
          exact ⟨by decide, .inl rfl⟩
      obtain ⟨untested, skipped⟩ := skipped
      have run := exec_testRequest_of_skipped (tag := tag) sync named kinded free empty untested skipped
      obtain ⟨offered, rest⟩ := alarmOffered_offerAlarm (some l) (.testResult k .commanded .skipped none [])
        (requested tag l .ok [⟨l, k, .commanded⟩] s)
      refine ⟨_, run, ?_, ?_, offered, ?_⟩
      · rw [rest, ← empty]
        rfl
      · rw [rest]
        rfl
      · rw [rest]
        rfl

end Sys2Proof.Proofs

/-! The entries of the tables: the codes of the named values, the fields of the words, and the validity of every table. -/

namespace Sys2Proof.Proofs

open Sys2Proof.Machine

/-! ### The readers of an entry -/

section

variable {lo hi : Nat} {ws : List Word16}

theorem within_iff {v : Nat} : within lo hi v = true ↔ lo ≤ v ∧ v ≤ hi := by
  simp [within]

theorem withinInt_iff {lo hi v : Int} : withinInt lo hi v = true ↔ lo ≤ v ∧ v ≤ hi := by
  simp [withinInt]

theorem validSymbolCode_iff {c : Nat} : validSymbolCode c = true ↔ c ≤ 15 ∨ c = 31 := by
  simp [validSymbolCode]

theorem bits_lt (w : Word16) (hi lo : Nat) : bits w hi lo < 2 ^ (hi + 1 - lo) :=
  Nat.mod_lt _ (by positivity)

theorem entryNat_lt (ws : List Word16) (k : Nat) : entryNat ws k < 65536 := (entryWord ws k).isLt

theorem entryInt_lt (ws : List Word16) (k : Nat) : entryInt ws k < 32768 :=
  BitVec.toInt_lt (x := entryWord ws k)

theorem symbolOfCode_symbolCode {y : Symbol} (held : symbolCode y ≤ 15) : symbolOfCode (symbolCode y) = some y := by
  cases y with
  | digit d => exact dif_pos d.isLt
  | star | hash | a | b | c | d => rfl
  | flash | error => exact absurd held (by decide)

theorem symbolOfCode_eq_some {c : Nat} {y : Symbol} : symbolOfCode c = some y ↔ symbolCode y = c ∧ c ≤ 15 := by
  constructor
  · intro named
    unfold symbolOfCode at named
    split at named
    next digit =>
      obtain rfl := Option.some.inj named
      exact ⟨rfl, by omega⟩
    next =>
      split at named
      case h_7 => exact absurd named (Option.some_ne_none y).symm
      all_goals
        obtain rfl := Option.some.inj named
        exact ⟨rfl, by decide⟩
  · rintro ⟨rfl, held⟩
    exact symbolOfCode_symbolCode held

theorem feedCode_of_named {c : Nat} (named : c ≤ 6) : feedCode ((feedOfCode c).getD .opened) = c := by
  interval_cases c <;> rfl

theorem quantityOfCode_of_named {c : Nat} (named : c ≤ 4) :
    quantityOfCode c = some ((quantityOfCode c).getD .tipDc) := by
  interval_cases c <;> rfl

theorem kindCode_of_named {c : Nat} (named : c ≤ 2) : kindCode ((kindOfCode c).getD .foreign) = c := by
  interval_cases c <;> rfl

theorem ite_eq_left_iff_of_ne {α : Type} {c : Prop} [Decidable c] {a b : α} (other : b ≠ a) :
    (if c then a else b) = a ↔ c := by
  simp [other]

/-- A statement about the words of a range, numbered from the range's first. -/
theorem forall_between_iff {P : Nat → Prop} {first count last : Nat} (ends : first + count = last + 1) :
    (∀ k, k < count → P (k + first)) ↔ ∀ k, first ≤ k → k ≤ last → P k :=
  ⟨fun each k low high => by
    have shifted := each (k - first) (by omega)
    rwa [Nat.sub_add_cancel low] at shifted,
  fun each k below => each (k + first) (by omega) (by omega)⟩

/-! ### The validity of every table -/

theorem validProfile_iff :
    validProfile ws = true ↔
      (20 ≤ entryNat ws 1 ∧ entryNat ws 1 ≤ 600) ∧ (10 ≤ entryNat ws 2 ∧ entryNat ws 2 + 10 ≤ entryNat ws 1) ∧
      (1 ≤ entryNat ws 3 ∧ entryNat ws 3 ≤ 15 ∧ entryNat ws 3 < entryNat ws 9) ∧ entryNat ws 4 ≤ 50 ∧
      entryNat ws 5 ≤ 20 ∧ entryNat ws 6 ≤ 127 ∧
      (entryNat ws 7 = 1 ∨ entryNat ws 7 = 2 ∨ entryNat ws 7 = 4 ∨ entryNat ws 7 = 8) ∧
      (10 ≤ entryNat ws 8 ∧ entryNat ws 8 ≤ 500) ∧ (10 ≤ entryNat ws 9 ∧ entryNat ws 9 ≤ 200) ∧
      (entryNat ws 9 ≤ entryNat ws 10 ∧ entryNat ws 10 ≤ 250) ∧ (5 ≤ entryNat ws 11 ∧ entryNat ws 11 ≤ 200) ∧
      (50 ≤ entryNat ws 12 ∧ entryNat ws 12 ≤ 1000) ∧ entryNat ws 13 ≤ 255 ∧
      (entryNat ws 10 + 1 ≤ entryNat ws 14 ∧ entryNat ws 14 ≤ 1998) ∧
      (entryNat ws 14 ≤ entryNat ws 15 ∧ entryNat ws 15 ≤ 1998) ∧
      (entryNat ws 15 + 1 ≤ entryNat ws 16 ∧ entryNat ws 16 ≤ 2000) ∧ (entryNat ws 17 = 0 ∨ 1000 ≤ entryNat ws 17) ∧
      (500 ≤ entryNat ws 18 ∧ entryNat ws 18 ≤ 20000) ∧ (1 ≤ entryNat ws 19 ∧ entryNat ws 19 ≤ 32) ∧
      (20 ≤ entryNat ws 20 ∧ entryNat ws 20 ≤ 600) ∧ (10 ≤ entryNat ws 21 ∧ entryNat ws 21 ≤ 50) ∧
      entryNat ws 22 ≤ 200 ∧ (1 ≤ entryNat ws 23 ∧ entryNat ws 23 ≤ 15) ∧ bits (entryWord ws 24) 14 13 ≠ 0 ∧
      (bits (entryWord ws 24) 4 0 ≤ 15 ∨ bits (entryWord ws 24) 4 0 = 31) ∧ bits (entryWord ws 24) 10 5 = 0 := by
  have lockout := entryNat_lt ws 17
  simp only [validProfile, Bool.and_eq_true, Bool.or_eq_true, decide_eq_true_eq, bne_iff_ne, within_iff,
    validSymbolCode_iff]
  simp only [readProfile]
  omega

theorem validTonePlan_iff :
    validTonePlan ws = true ↔
      (∀ k, 1 ≤ k → k ≤ 8 → -32767 ≤ entryInt ws k) ∧ (80 ≤ entryNat ws 9 ∧ entryNat ws 9 ≤ 256) ∧
      entryNat ws 12 ≤ 255 ∧ entryNat ws 13 ≤ 255 ∧ (16 ≤ entryNat ws 14 ∧ entryNat ws 14 ≤ 255) ∧
      entryNat ws 15 ≤ 16 ∧ (1 ≤ entryNat ws 16 ∧ entryNat ws 16 ≤ 8) ∧ (1 ≤ entryNat ws 17 ∧ entryNat ws 17 ≤ 8) ∧
      (∀ i, i < 16 → keyMapCode ws i ≤ 15 ∨ keyMapCode ws i = 31) ∧
      ∀ k, 18 ≤ k → k ≤ 25 → bits (entryWord ws k) 15 13 = 0 ∧ bits (entryWord ws k) 7 5 = 0 := by
  have coefficient (k : Nat) : (-32767 ≤ entryInt ws k ∧ entryInt ws k ≤ 32767) ↔ -32767 ≤ entryInt ws k := by
    have := entryInt_lt ws k
    omega
  rw [← forall_between_iff (first := 1) (count := 8) (last := 8) rfl,
    ← forall_between_iff (P := fun k => bits (entryWord ws k) 15 13 = 0 ∧ bits (entryWord ws k) 7 5 = 0)
      (first := 18) (count := 8) (last := 25) rfl]
  simp only [validTonePlan, readTonePlan, Bool.and_eq_true, decide_eq_true_eq, within_iff, withinInt_iff, coefficient,
    List.all_eq_true, List.mem_range, validSymbolCode_iff, Nat.zero_le, true_and, and_assoc, Nat.add_comm 18]

theorem validCadence_iff :
    validCadence ws = true ↔ (∀ k, 1 ≤ k → k ≤ 6 → entryNat ws k ≤ 10000) ∧ 1 ≤ entryNat ws 1 := by
  rw [← forall_between_iff (first := 1) (count := 6) (last := 6) rfl]
  simp only [validCadence, cadenceDuration, Bool.and_eq_true, decide_eq_true_eq, within_iff, List.all_eq_true,
    List.mem_range, Nat.zero_le, true_and, Nat.lt_iff_add_one_le, Nat.zero_add]

theorem validThresholds_iff :
    validThresholds ws = true ↔
      (-1000 ≤ entryInt ws 1 ∧ entryInt ws 1 < entryInt ws 2 ∧ entryInt ws 2 < entryInt ws 3 ∧ entryInt ws 3 ≤ 1000) ∧
      (entryNat ws 4 < entryNat ws 5 ∧ entryNat ws 5 < entryNat ws 6 ∧ entryNat ws 6 ≤ 1000) ∧
      (entryNat ws 7 < entryNat ws 8 ∧ entryNat ws 8 < entryNat ws 9 ∧ entryNat ws 9 ≤ 1000) := by
  simp only [validThresholds, Bool.and_eq_true, decide_eq_true_eq, withinInt_iff]
  simp only [readThresholds]
  omega

theorem validClassEntry_iff :
    validClassEntry ws = true ↔
      bits (entryWord ws 2) 2 0 ≤ 4 ∧ 1 ≤ bits (entryWord ws 3) 7 4 ∧ 1 ≤ bits (entryWord ws 3) 3 0 ∧
      bits (entryWord ws 1) 14 6 = 0 ∧ bits (entryWord ws 2) 5 3 = 0 ∧ bits (entryWord ws 3) 11 9 = 0 ∧
      ∀ k, 4 ≤ k → k ≤ 9 → entryWord ws k = 0 := by
  have zero (k : Nat) : entryWord ws k = 0 ↔ entryNat ws k = 0 :=
    BitVec.toNat_inj.symm.trans Iff.rfl
  have confirm : bits (entryWord ws 3) 7 4 < 16 := bits_lt _ 7 4
  have clear : bits (entryWord ws 3) 3 0 < 16 := bits_lt _ 3 0
  rw [← forall_between_iff (P := fun k => entryWord ws k = 0) (first := 4) (count := 6) (last := 9) rfl]
  simp only [validClassEntry, Bool.and_eq_true, decide_eq_true_eq, within_iff, List.all_eq_true, List.mem_range, zero]
  simp only [readClassEntry]
  constructor
  · rintro ⟨ranges, unused⟩
    exact ⟨by omega, by omega, by omega, by omega, by omega, by omega, unused⟩
  · rintro ⟨group, confirmed, cleared, bits1, bits2, bits3, unused⟩
    exact ⟨by omega, unused⟩

theorem validTestStep_iff :
    validTestStep ws = true ↔
      (bits (entryWord ws 1) 10 8 ≤ 6 ∧ bits (entryWord ws 1) 10 8 ≠ 4) ∧ bits (entryWord ws 1) 2 0 ≤ 4 ∧
      bits (entryWord ws 1) 14 11 = 0 ∧ bits (entryWord ws 1) 7 3 = 0 ∧ entryNat ws 2 ≤ 500 ∧
      (1 ≤ entryNat ws 3 ∧ entryNat ws 3 ≤ 1000) ∧ -1000 ≤ entryInt ws 4 ∧ entryInt ws 4 ≤ entryInt ws 5 ∧
      entryInt ws 5 ≤ 1000 := by
  simp only [validTestStep, feedCode, Bool.and_eq_true, decide_eq_true_eq, bne_iff_ne, within_iff, withinInt_iff]
  omega

theorem validSettings_iff :
    validSettings ws = true ↔ entryNat ws 1 ≤ 3600 ∧ entryNat ws 2 ≤ 2 ∧ entryNat ws 3 ≤ 1 := by
  simp only [validSettings, Bool.and_eq_true, decide_eq_true_eq, and_assoc]

end

/-- Settles O14: the codes and the fields are the definitions', and the validity of an entry is its table's lemma. -/
theorem entriesRead : Obligations.EntriesRead := by
  unfold Obligations.EntriesRead
  refine ⟨⟨rfl, rfl, rfl, fun _ => rfl, rfl, rfl, rfl, rfl, rfl, rfl, rfl, rfl, rfl, rfl, rfl, rfl, rfl, rfl, rfl, rfl,
    rfl, rfl, rfl, rfl, rfl⟩, ⟨fun _ => rfl, fun _ _ _ => rfl, fun _ _ => rfl⟩, fun ws index => ?_⟩
  intro w n z symbol p tone key e step set
  have profileFields : (p.reportMode = .string ↔ bitSet (w 24) 15 = true) := ite_eq_left_iff_of_ne (by decide)
  have severity : (e.severity = .hazard ↔ bitSet (w 3) 8 = true) := ite_eq_left_iff_of_ne (by decide)
  have named (valid : validEntry .testPlan index ws = true) :
      feedCode step.feed = bits (w 1) 10 8 ∧ quantityOfCode (bits (w 1) 2 0) = some step.quantity := by
    obtain ⟨⟨feed, -⟩, quantity, -⟩ := validTestStep_iff.mp valid
    exact ⟨feedCode_of_named feed, quantityOfCode_of_named quantity⟩
  have classEntry (later : index ≠ 0) : validEntry .faultPlan index ws = validClassEntry ws := if_neg later
  exact ⟨⟨rfl, profileFields, rfl, rfl, rfl, fun _ => symbolOfCode_eq_some⟩, validProfile_iff,
    ⟨fun k => Vector.get_ofFn _ k, rfl, rfl, fun _ _ _ => symbolOfCode_eq_some⟩, validTonePlan_iff,
    ⟨fun _ _ => rfl, validCadence_iff⟩, ⟨rfl, validThresholds_iff⟩, ⟨rfl, rfl, rfl, severity, rfl, rfl⟩,
    fun later => by rw [classEntry later]; exact validClassEntry_iff,
    ⟨rfl, rfl, rfl, rfl, rfl, named, validTestStep_iff⟩,
    ⟨rfl, kindCode_of_named, decide_eq_true_iff, validSettings_iff⟩⟩

end Sys2Proof.Proofs

/-! A valid sense record (R143 to R146): its check, the ALARM records of the check, and a test that it aborts. -/

namespace Sys2Proof.Proofs

open Sys2Proof.Machine

section

variable {l : LineNo} {s t u : State}

/-! ### Steps that leave a line in its state -/

/-- From `s` to `t` only the context of line `l` has changed, and not its state nor the state to which TEST would return it. -/
structure Unmoved (l : LineNo) (s t : State) : Prop extends OnlyLine l s t where
  state : (t.line l).state = (s.line l).state
  returns : (t.line l).returnsTo = (s.line l).returnsTo
  grows : AlarmGrows s t

theorem Unmoved.refl (l : LineNo) (s : State) : Unmoved l s s := ⟨.refl l s, rfl, rfl, alarmGrows_of_same (.refl s)⟩

theorem Unmoved.trans (h : Unmoved l s t) (g : Unmoved l t u) : Unmoved l s u :=
  ⟨h.toOnlyLine.trans g.toOnlyLine, g.state.trans h.state, g.returns.trans h.returns, h.grows.trans g.grows⟩

theorem Unmoved.of_steady (only : OnlyLine l s t) (grows : AlarmGrows s t)
    (steady : (t.line l).steady = (s.line l).steady) : Unmoved l s t :=
  ⟨only, (congrArg Line.state steady :), (congrArg Line.returnsTo steady :), grows⟩

theorem unmoved_modLine {f : Line → Line} (state : ∀ c, (f c).state = c.state) (returns : ∀ c, (f c).returnsTo = c.returnsTo) :
    Unmoved l s (modLine l f s) :=
  ⟨onlyLine_modLine .., by rw [line_modLine_self, state], by rw [line_modLine_self, returns],
    alarmGrows_of_same (sameAlarm_modLine ..)⟩

theorem unmoved_offerAlarm (l : LineNo) (o p) (s : State) : Unmoved l s (offerAlarm o p s) :=
  ⟨onlyLine_offerAlarm .., by rw [line_offerAlarm], by rw [line_offerAlarm], alarmGrows_offerAlarm ..⟩

theorem unmoved_releaseBanks (l : LineNo) (s : State) : Unmoved l s (releaseBanks s) :=
  ⟨onlyLine_releaseBanks .., by rw [line_releaseBanks], by rw [line_releaseBanks],
    alarmGrows_of_same (upToMigration_releaseBanks s).alarm⟩

theorem unmoved_examine (l : LineNo) (s : State) : Unmoved l s (examine l s) :=
  .of_steady (onlyLine_examine ..) (alarmGrows_of_same (sameAlarm_examine ..)) (steady_examine ..)

theorem unmoved_clearMarks (l : LineNo) (s : State) : Unmoved l s (clearMarks l s) :=
  unmoved_modLine (fun _ => rfl) fun _ => rfl

theorem unmoved_monitorRecord {h : Handed} (discards : h.discards = true) : Unmoved l s (monitorRecord l h s) := by
  obtain ⟨same, bank, monitor, line, severity⟩ := monitorRecord_quiet (l := l) (s := s) discards
  refine ⟨onlyLine_monitorRecord .., by rw [line], ?_, alarmGrows_of_same same⟩
  rw [line]
  unfold Line.returnsTo
  dsimp only
  rw [severity]

/-- Steps that leave a line in its state and offer no ALARM record. -/
structure Quiet (l : LineNo) (s t : State) : Prop extends Unmoved l s t where
  same : SameAlarm s t

theorem Quiet.refl (l : LineNo) (s : State) : Quiet l s s := ⟨.refl l s, .refl s⟩

theorem Quiet.trans (h : Quiet l s t) (g : Quiet l t u) : Quiet l s u :=
  ⟨h.toUnmoved.trans g.toUnmoved, h.same.trans g.same⟩

theorem Quiet.of_steady (only : OnlyLine l s t) (same : SameAlarm s t) (steady : (t.line l).steady = (s.line l).steady) :
    Quiet l s t :=
  ⟨.of_steady only (alarmGrows_of_same same) steady, same⟩

theorem quiet_modLine {f : Line → Line} (state : ∀ c, (f c).state = c.state) (returns : ∀ c, (f c).returnsTo = c.returnsTo) :
    Quiet l s (modLine l f s) :=
  ⟨unmoved_modLine state returns, sameAlarm_modLine ..⟩

theorem quiet_monitorRecord {h : Handed} (discards : h.discards = true) : Quiet l s (monitorRecord l h s) :=
  ⟨unmoved_monitorRecord discards, (monitorRecord_quiet discards).1⟩

theorem quiet_closeString (l : LineNo) (reason) (s : State) : Quiet l s (closeString l reason s) :=
  .of_steady (onlyLine_closeString ..) (sameAlarm_closeString ..) (steady_closeString ..)

theorem quiet_compareString (l : LineNo) (limit) (s : State) : Quiet l s (compareString l limit s) := by
  unfold compareString
  split
  · exact quiet_closeString ..
  split
  · exact quiet_closeString ..
  · exact .refl l s

theorem quiet_advanceString (l : LineNo) (s : State) : Quiet l s (advanceString l s) := by
  have advanced : Quiet l s (modLine l (fun c => { c with stringTimer := advance timerStop c.stringTimer }) s) :=
    quiet_modLine (fun _ => rfl) fun _ => rfl
  unfold advanceString
  dsimp only
  split
  · exact .refl l s
  split
  · exact quiet_compareString ..
  · exact advanced.trans (quiet_compareString ..)

/-! ### The timers and the recovery of a line under test -/

section

variable (test : (s.line l).state = .test)

include test

theorem advanceLockout_of_test : advanceLockout l s = s := by
  unfold advanceLockout
  dsimp only
  rw [test]
  rfl

theorem recoverPulse_of_test : recoverPulse l s = s := by
  unfold recoverPulse
  dsimp only
  rw [test]
  rfl

theorem quiet_takeEntry (e : DigitEntry) : Quiet l s (takeEntry l e s) := by
  have marked : Quiet l s (modLine l (fun c => { c with lockoutTimer := 0, stringTimer := 0, entryMark := true }) s) :=
    quiet_modLine (fun _ => rfl) fun _ => rfl
  have placed := marked.trans (.of_steady (onlyLine_placeEntry l e _) (sameAlarm_placeEntry ..) (steady_placeEntry ..))
  unfold takeEntry
  dsimp only
  rw [if_neg]
  · exact placed
  · rw [placed.state, test]
    exact nofun

theorem quiet_recoverTone : Quiet l s (recoverTone l s) := by
  have abandoned : Quiet l s (modLine l (fun c => { c with tone := c.tone.abandonBlock }) s) :=
    quiet_modLine (fun _ => rfl) fun _ => rfl
  unfold recoverTone
  dsimp only
  split
  · refine Quiet.trans ?_ (quiet_modLine (fun _ => rfl) fun _ => rfl)
    split
    · exact abandoned
    · exact abandoned.trans (quiet_takeEntry (abandoned.state.trans test) _)
  · exact .refl l s

theorem quiet_recoverLine : Quiet l s (recoverLine l s) := by
  have ringing (c : Line) : c.recoverRing.state = c.state ∧ c.recoverRing.returnsTo = c.returnsTo := by
    unfold Line.recoverRing
    split <;> exact ⟨rfl, rfl⟩
  have recovered : Quiet l s (modLine l (fun c => { c.recoverRing with loop := c.loop.recover }) s) :=
    quiet_modLine (fun c => (ringing c).1) fun c => (ringing c).2
  have test' := recovered.state.trans test
  unfold recoverLine
  rw [recoverPulse_of_test test']
  exact recovered.trans (quiet_recoverTone test')

end

/-! ### The abort of a test at the return of sense -/

section

variable {h : Handed}

theorem useBlocks_of_back (masked : Bool) (held : testHeld s l = true) (test : (s.line l).state = .test) :
    ∃ w, Quiet l s w ∧ useBlocks l h masked true s = abortTest l .senseLost w := by
  have recovered := quiet_recoverLine test
  have held' : testHeld (recoverLine l s) l = true := by
    rw [testHeld, recovered.engine]
    exact held
  exact ⟨_, recovered, if_pos held'⟩

/-- A record that brings back the sense of a line under test: quiet steps, the abort, and steps that leave the line in its
state (R134, R144). -/
theorem handRecord_of_back (o : RecordOrder) (held : testHeld s l = true) (test : (s.line l).state = .test)
    (sense : h.lost = false) (inTest : h.inTest = true) :
    ∃ w, Quiet l s w ∧ Unmoved l (abortTest l .senseLost w) (handRecord l h true o s) := by
  have discards : h.discards = true := by
    rw [Handed.discards, inTest, Bool.or_true]
  have masked : Quiet l s (maskReduced l s) := quiet_modLine (fun _ => rfl) fun _ => rfl
  have timed := masked.trans (quiet_advanceString l (maskReduced l s))
  have ended (x : State) : Unmoved l x (releaseBanks (examine l (clearMarks l x))) :=
    ((unmoved_clearMarks l x).trans (unmoved_examine ..)).trans (unmoved_releaseBanks ..)
  rw [handRecord_of_sense sense, advanceLockout_of_test (masked.state.trans test)]
  generalize advanceString l (maskReduced l s) = p at timed
  have held_of {q : State} (quiet : Quiet l s q) : testHeld q l = true := by
    rw [testHeld, quiet.engine]
    exact held
  cases o with
  | blocksFirst =>
    obtain ⟨w, quiet, aborted⟩ := useBlocks_of_back (h := h) (1 ≤ (s.line l).loop.feedMask) (held_of timed)
      (timed.state.trans test)
    refine ⟨w, timed.trans quiet, ?_⟩
    rw [← aborted]
    exact (unmoved_monitorRecord discards).trans (ended _)
  | monitorFirst =>
    have gathered := timed.trans (quiet_monitorRecord (h := h) discards)
    obtain ⟨w, quiet, aborted⟩ := useBlocks_of_back (h := h) (1 ≤ (s.line l).loop.feedMask) (held_of gathered)
      (gathered.state.trans test)
    have unmoved : ((monitorRecord l h p).line l).state = (p.line l).state := gathered.state.trans timed.state.symm
    have used : useRecord l h (1 ≤ (s.line l).loop.feedMask) true .monitorFirst p = abortTest l .senseLost w :=
      (if_pos unmoved).trans aborted
    refine ⟨w, gathered.trans quiet, ?_⟩
    rw [used]
    exact ended _

end

/-! ### The check of a valid record -/

/-- The state when a valid record has brought its line's sense back. -/
def sensed (l : LineNo) (s : State) : State :=
  if (s.line l).senseLost then offerAlarm (some l) .senseBack (modLine l (fun c => { c with senseLost := false }) s) else s

/-- The state that keeps the values of a valid record. -/
def valued (l : LineNo) (i vt vr : Int) (s : State) : State :=
  modLine l (fun c => { c with lastI := i, lastVt := vt, lastVr := vr, invalidRun := 0 }) s

/-- The state whose line takes the echo of a valid record behind the comparison. -/
def echoed (l : LineNo) (f : FeedCode) (s : State) : State :=
  modLine l (applyEcho (s.profile l).feedMask f) (compareEcho l f s)

theorem validRecord_handed (l : LineNo) (f : FeedCode) (i vt vr : Int) (o : RecordOrder) (s : State) :
    validRecord l f i vt vr o s = handRecord l
      ⟨i, vt, vr, false, f != ((valued l i vt vr (sensed l s)).line l).appliedFeed, false,
        ((echoed l f (valued l i vt vr (sensed l s))).line l).state = .test⟩
      (s.line l).senseLost o (echoed l f (valued l i vt vr (sensed l s))) := rfl

theorem unmoved_sensed (l : LineNo) (s : State) : Unmoved l s (sensed l s) := by
  unfold sensed
  split
  · exact (unmoved_modLine (f := fun c => { c with senseLost := false }) (fun _ => rfl) fun _ => rfl).trans
      (unmoved_offerAlarm ..)
  · exact .refl l s

theorem quiet_valued (l : LineNo) (i vt vr : Int) (s : State) : Quiet l s (valued l i vt vr s) :=
  quiet_modLine (fun _ => rfl) fun _ => rfl

theorem quiet_applyEcho (l : LineNo) (mask : Nat) (f : FeedCode) (s : State) : Quiet l s (modLine l (applyEcho mask f) s) :=
  quiet_modLine (fun _ => rfl) fun _ => rfl

theorem unmoved_compareEcho (l : LineNo) (f : FeedCode) (s : State) : Unmoved l s (compareEcho l f s) := by
  have agreed : Unmoved l s (modLine l (fun c => { c with mismatchRun := 0, feedStuck := false }) s) :=
    unmoved_modLine (fun _ => rfl) fun _ => rfl
  have counted : Unmoved l s (modLine l (fun c => { c with mismatchRun := advance stuckLimit c.mismatchRun }) s) :=
    unmoved_modLine (fun _ => rfl) fun _ => rfl
  have stuck (u : State) : Unmoved l u (modLine l (fun c => { c with feedStuck := true }) u) :=
    unmoved_modLine (fun _ => rfl) fun _ => rfl
  unfold compareEcho
  dsimp only
  split
  · split
    · exact agreed.trans (unmoved_offerAlarm ..)
    · exact agreed
  · unfold feedStuckIfDue
    split
    · exact (counted.trans (stuck _)).trans (unmoved_offerAlarm ..)
    · exact counted

theorem unmoved_echoed (l : LineNo) (f : FeedCode) (s : State) : Unmoved l s (echoed l f s) :=
  (unmoved_compareEcho l f s).trans (quiet_applyEcho ..).toUnmoved

theorem offered_sensed (lost : (s.line l).senseLost = true) : AlarmOffered (some l) .senseBack s (sensed l s) := by
  rw [sensed, if_pos lost]
  exact (offeredFor_modLine ..).2.1

theorem offered_feedOk {f : FeedCode} (agree : f = (s.line l).commandedFeed) (stuck : (s.line l).feedStuck = true) :
    AlarmOffered (some l) (.feedOk f) s (compareEcho l f s) := by
  unfold compareEcho
  dsimp only
  rw [if_pos agree, if_pos stuck]
  exact (offeredFor_modLine ..).2.1

/-- The comparison counts a mismatch and looks at the run. -/
theorem compareEcho_of_differs {f : FeedCode} (differs : f ≠ (s.line l).commandedFeed) :
    compareEcho l f s = feedStuckIfDue l f
      (modLine l (fun c => { c with mismatchRun := advance stuckLimit c.mismatchRun }) s) :=
  if_neg differs

theorem offered_feedStuck {f : FeedCode} (differs : f ≠ (s.line l).commandedFeed)
    (run : min 16 ((s.line l).mismatchRun + 1) = 16) (clear : (s.line l).feedStuck = false) :
    AlarmOffered (some l) (.feedStuck (s.line l).commandedFeed f) s (compareEcho l f s) := by
  rw [compareEcho_of_differs differs]
  unfold feedStuckIfDue
  rw [if_pos]
  · rw [line_modLine_self]
    exact (offeredFor_modLine l _ _ (modLine l _ s)).2.1
  · unfold feedStuckDue
    rw [line_modLine_self]
    simp [differs, advance, stuckLimit, run, clear]

/-- A comparison that finds nothing new offers no record. -/
theorem sameAlarm_compareEcho {f : FeedCode} (clear : (s.line l).feedStuck = false)
    (run : f ≠ (s.line l).commandedFeed → min 16 ((s.line l).mismatchRun + 1) < 16) : SameAlarm s (compareEcho l f s) := by
  by_cases agree : f = (s.line l).commandedFeed
  · unfold compareEcho
    dsimp only
    rw [if_pos agree, if_neg (by rw [clear]; decide)]
    exact sameAlarm_modLine ..
  · rw [compareEcho_of_differs agree]
    unfold feedStuckIfDue
    rw [if_neg]
    · exact sameAlarm_modLine ..
    · intro due
      have short := run agree
      simp [feedStuckDue, advance, stuckLimit] at due
      omega

end

end Sys2Proof.Proofs

/-! What a valid sense record leaves: the fields of its line, the ALARM records in their order, and the aborted test. -/

namespace Sys2Proof.Proofs

open Sys2Proof.Machine

section

variable {l : LineNo} {s : State} {f : FeedCode} {o : RecordOrder}

theorem maskCount_some {c : Line} {mask : Nat} :
    c.maskCount mask (some f) = if f = c.appliedFeed then c.loop.feedMask else mask := by
  by_cases same : f = c.appliedFeed <;> simp [Line.maskCount, same]

/-- The state in which a valid record has been checked, before it is handed. -/
def checkedState (l : LineNo) (f : FeedCode) (i vt vr : Int) (s : State) : State :=
  echoed l f (valued l i vt vr (sensed l s))

theorem sensed_of_sense (sense : (s.line l).senseLost = false) : sensed l s = s := by
  unfold sensed
  rw [sense]
  rfl

theorem line_sensed : (sensed l s).line l = { s.line l with senseLost := false } := by
  cases lost : (s.line l).senseLost with
  | true =>
    rw [sensed, if_pos lost]
    exact (line_offerAlarm ..).trans (line_modLine_self ..)
  | false => rw [sensed_of_sense lost, ← lost]

theorem line_valued {i vt vr : Int} : (valued l i vt vr s).line l =
    { s.line l with lastI := i, lastVt := vt, lastVr := vr, invalidRun := 0 } :=
  line_modLine_self ..

section

variable (l f s) (i vt vr : Int)

theorem unmoved_checkedState : Unmoved l s (checkedState l f i vt vr s) :=
  ((unmoved_sensed l s).trans (quiet_valued ..).toUnmoved).trans (unmoved_echoed ..)

theorem validRecord_checked (o : RecordOrder) : ∃ h : Handed, h.lost = false ∧
    (h.inTest = true ↔ (s.line l).state = .test) ∧
    validRecord l f i vt vr o s = handRecord l h (s.line l).senseLost o (checkedState l f i vt vr s) := by
  refine ⟨_, rfl, ?_, validRecord_handed ..⟩
  exact decide_eq_true_iff.trans (by rw [← (unmoved_checkedState l s f i vt vr).state]; exact Iff.rfl)

theorem grows_validRecord (o : RecordOrder) :
    AlarmGrows (checkedState l f i vt vr s) (validRecord l f i vt vr o s) := by
  obtain ⟨h, sense, -, handed⟩ := validRecord_checked l s f i vt vr o
  rw [handed]
  exact (alarmGrows_of_same (sameAlarm_modLine ..)).trans (handedTo_handRecord sense).alarm

theorem onlyLine_validRecord (o : RecordOrder) (working : (s.line l).state ≠ .test) (free : testHeld s l = false) :
    OnlyLine l s (validRecord l f i vt vr o s) := by
  obtain ⟨h, -, -, handed⟩ := validRecord_checked l s f i vt vr o
  have checked := unmoved_checkedState l s f i vt vr
  rw [handed]
  refine checked.toOnlyLine.trans (onlyLine_handRecord (by rwa [checked.state]) fun _ => ?_)
  rw [testHeld, checked.engine]
  exact free

/-! ### The ALARM record of the check -/

theorem alarmFirst_senseBack (o : RecordOrder) (lost : (s.line l).senseLost = true) :
    AlarmFirst (some l) .senseBack s (validRecord l f i vt vr o s) := by
  have grows : AlarmGrows (sensed l s) (validRecord l f i vt vr o s) :=
    ((quiet_valued ..).grows.trans (unmoved_echoed ..).grows).trans (grows_validRecord ..)
  exact alarmFirst_of_offered (offered_sensed lost) grows.alarm grows.full

/-- The record that the comparison of a line with sense offers is the first. -/
theorem alarmFirst_compared (o : RecordOrder) {p : Payload} (sense : (s.line l).senseLost = false)
    (offered : AlarmOffered (some l) p (valued l i vt vr s) (compareEcho l f (valued l i vt vr s))) :
    AlarmFirst (some l) p s (validRecord l f i vt vr o s) := by
  have grows := (quiet_applyEcho l ((valued l i vt vr s).profile l).feedMask f
    (compareEcho l f (valued l i vt vr s))).grows.trans (by
      have whole := grows_validRecord l s f i vt vr o
      rwa [checkedState, sensed_of_sense sense] at whole)
  exact alarmFirst_of_offered (s := s) offered grows.alarm grows.full

theorem alarmFirst_feedOk (o : RecordOrder) (sense : (s.line l).senseLost = false) (agree : f = (s.line l).commandedFeed)
    (stuck : (s.line l).feedStuck = true) : AlarmFirst (some l) (.feedOk f) s (validRecord l f i vt vr o s) :=
  alarmFirst_compared l s f i vt vr o sense (offered_feedOk (by rwa [line_valued]) (by rwa [line_valued]))

theorem alarmFirst_feedStuck (o : RecordOrder) (sense : (s.line l).senseLost = false)
    (differs : f ≠ (s.line l).commandedFeed) (run : min 16 ((s.line l).mismatchRun + 1) = 16)
    (clear : (s.line l).feedStuck = false) :
    AlarmFirst (some l) (.feedStuck (s.line l).commandedFeed f) s (validRecord l f i vt vr o s) := by
  have offered := offered_feedStuck (l := l) (s := valued l i vt vr s) (f := f) (by rwa [line_valued])
    (by rwa [line_valued]) (by rwa [line_valued])
  rw [line_valued] at offered
  exact alarmFirst_compared l s f i vt vr o sense offered

/-! ### The aborted test -/

/-- A check whose comparison finds nothing new offers SENSE_BACK alone. -/
theorem alarm_checkedState (lost : (s.line l).senseLost = true) (room : s.report.alarm.length < alarmCapacity)
    (clear : (s.line l).feedStuck = false)
    (run : f ≠ (s.line l).commandedFeed → min 16 ((s.line l).mismatchRun + 1) < 16) :
    (checkedState l f i vt vr s).report.alarm = s.report.alarm ++ [⟨some l, s.stamp, s.report.alarmLost, .senseBack⟩] ∧
      (checkedState l f i vt vr s).report.alarmLost = false := by
  have line : (valued l i vt vr (sensed l s)).line l =
      { s.line l with senseLost := false, lastI := i, lastVt := vt, lastVr := vr, invalidRun := 0 } := by
    rw [line_valued, line_sensed]
  have silent : SameAlarm (sensed l s) (checkedState l f i vt vr s) :=
    ((quiet_valued ..).same.trans (sameAlarm_compareEcho (by rw [line]; exact clear) (by rw [line]; exact run))).trans
      (quiet_applyEcho ..).same
  rw [silent.1, silent.2, sensed, if_pos lost]
  exact alarm_offerAlarm_of_room (s := modLine l (fun c => { c with senseLost := false }) s) (some l) .senseBack room

end

theorem state_of_returned {c d : Line} (steady : d.steady = c.returned.steady) : d.state = c.returnsTo :=
  (congrArg Line.state steady :)

/-- A valid record that brings back the sense of the line whose request the engine holds (R134, R144). -/
theorem test_validRecord (i vt vr : Int) {r : Request} (sync : s.highway.sync = .sync)
    (lost : (s.line r.line).senseLost = true) (test : (s.line r.line).state = .test) (busy : s.engine.busy = true)
    (held : s.engine.held = some r) (lawful : s.testQueueLawful) :
    (validRecord r.line f i vt vr o s).engine.held ≠ some r ∧
      ((validRecord r.line f i vt vr o s).line r.line).state = (s.line r.line).returnsTo ∧
      (s.report.alarm.length < 15 → (s.line r.line).feedStuck = false →
        (f ≠ (s.line r.line).commandedFeed → min 16 ((s.line r.line).mismatchRun + 1) < 16) →
        s.report.alarm ++ [⟨some r.line, s.stamp, s.report.alarmLost, .senseBack⟩,
          ⟨some r.line, s.stamp, false, .testResult r.kind r.origin .aborted (some .senseLost) s.engine.results⟩] <+:
            (validRecord r.line f i vt vr o s).report.alarm) := by
  obtain ⟨h, sense, inTest, handed⟩ := validRecord_checked r.line s f i vt vr o
  have checked := unmoved_checkedState r.line s f i vt vr
  have heldLine : testHeld (checkedState r.line f i vt vr s) r.line = true := by
    simp [testHeld, checked.engine, busy, held]
  obtain ⟨w, quiet, ended⟩ := handRecord_of_back (h := h) o heldLine (checked.state.trans test) sense (inTest.mpr test)
  have engine : w.engine = s.engine := quiet.engine.trans checked.engine
  have highway : w.highway = s.highway := quiet.highway.trans checked.highway
  have stamp : w.stamp = s.stamp := congrArg Highway.stamp highway
  have lawful' : w.testQueueLawful := by
    rw [State.testQueueLawful, engine]
    exact lawful
  have held' : w.engine.held = some r := by rw [engine, held]
  obtain ⟨-, -, freed, steady, -⟩ :=
    endsTest_finishTest (s := w) .aborted (some .senseLost) (by rw [highway, sync]) held' lawful'
  rw [handed, lost]
  refine ⟨?_, ?_, fun room clear run => ?_⟩
  · rw [ended.engine]
    exact freed
  · calc ((handRecord r.line h true o (checkedState r.line f i vt vr s)).line r.line).state
      _ = ((abortTest r.line .senseLost w).line r.line).state := ended.state
      _ = (w.line r.line).returnsTo := state_of_returned steady
      _ = (s.line r.line).returnsTo := quiet.returns.trans checked.returns
  · have room' : s.report.alarm.length < alarmCapacity := by
      unfold alarmCapacity
      omega
    obtain ⟨alarm, alarmLost⟩ := alarm_checkedState r.line s f i vt vr lost room' clear run
    have told := alarm_abortTest held' .senseLost (by
      rw [quiet.same.1, alarm, List.length_append]
      unfold alarmCapacity
      exact Nat.add_lt_add_right room 1)
    rw [quiet.same.1, quiet.same.2, alarm, alarmLost, engine, stamp, List.append_assoc] at told
    exact told.trans ended.grows.alarm

/-- The fields of a line that a valid record leaves (R143, R144, R146). -/
theorem part_validRecord (i vt vr : Word16) :
    keptPart false ((validRecord l f (clampSense i) (clampSense vt) (clampSense vr) o s).line l) =
        keptPart false { (s.line l).checked (s.profile l).feedMask (some f) i vt vr with recoveryDue := false } ∧
      ((validRecord l f (clampSense i) (clampSense vt) (clampSense vr) o s).line l).senseLost = false := by
  obtain ⟨m, checked, handed⟩ := validRecord_eq l f i vt vr o s
  obtain ⟨a, b, reduced⟩ := checked.reduced
  rw [handed]
  have kept : HandedTo l (maskReduced l m) _ :=
    handedTo_handRecord (h := (s.line l).handedRecord (some f) i vt vr) (back := (s.line l).senseLost) (o := o) rfl
  have line : (maskReduced l m).line l = (s.line l).checked (s.profile l).feedMask (some f) i vt vr := by
    rw [maskReduced, reduced]
    exact line_setLine_self ..
  refine ⟨by rw [kept.part, line], Bool.eq_false_iff.mpr fun lost => ?_⟩
  have lost' := kept.lost lost
  rw [line] at lost'
  exact Bool.noConfusion lost'

/-- The fields of a line whose part is that of a checked one. -/
theorem fields_of_checked {c d : Line} {mask : Nat} {i vt vr : Word16}
    (part : keptPart false d = keptPart false { c.checked mask (some f) i vt vr with recoveryDue := false }) :
    let run := if f = c.commandedFeed then 0 else min 16 (c.mismatchRun + 1)
    d.appliedFeed = f ∧ d.lastI = clamped i ∧ d.lastVt = clamped vt ∧ d.lastVr = clamped vr ∧ d.invalidRun = 0 ∧
      d.recoveryDue = false ∧ d.mismatchRun = run ∧
      d.feedStuck = (if f = c.commandedFeed then false else c.feedStuck || decide (run = 16)) ∧
      d.loop.feedMask = (if f = c.appliedFeed then c.loop.feedMask else mask) - 1 := by
  refine ⟨(congrArg Line.appliedFeed part :), (congrArg Line.lastI part :), (congrArg Line.lastVt part :),
    (congrArg Line.lastVr part :), (congrArg Line.invalidRun part :), (congrArg Line.recoveryDue part :),
    (congrArg Line.mismatchRun part :), (congrArg Line.feedStuck part :), ?_⟩
  rw [← maskCount_some]
  exact (congrArg (fun c : Line => c.loop.feedMask) part :)

end

/-- Settles O34: the record is checked, which offers its ALARM records in their order, and handed to the line. -/
theorem validRecordAccepted : Obligations.ValidRecordAccepted := by
  unfold Obligations.ValidRecordAccepted
  intro s l status i vt vr o echo arrives carries
  dsimp only
  obtain ⟨part, sense⟩ := part_validRecord (l := l) (s := s.recordPassed l) (f := echo) (o := o) i vt vr
  obtain ⟨feed, lastI, lastVt, lastVr, invalid, recovery, run, stuck, mask⟩ := fields_of_checked part
  refine ⟨_, (exec_senseRecord_of_arrives arrives ..).trans (congrArg Host.Outcome.next ?_), feed, lastI, lastVt, lastVr,
    invalid, sense, recovery, run, stuck, mask, fun working free => ?_, fun lost => ?_, fun sense agree stuck => ?_, fun sense run clear => ?_, fun r lost test busy held own lawful => ?_⟩
  · rw [senseRecord, validEcho_of_carries carries]
  · exact onlyLine_validRecord l (s.recordPassed l) echo _ _ _ o working free
  · exact alarmFirst_senseBack l (s.recordPassed l) echo _ _ _ o lost
  · exact alarmFirst_feedOk l (s.recordPassed l) echo _ _ _ o sense agree stuck
  · have differs : echo ≠ (s.line l).commandedFeed := fun agree => by
      rw [if_pos agree] at run
      exact absurd run (by decide)
    rw [if_neg differs] at run
    exact alarmFirst_feedStuck l (s.recordPassed l) echo _ _ _ o sense differs run clear
  · subst own
    obtain ⟨freed, state, alarm⟩ := test_validRecord (s := s.recordPassed r.line) (f := echo) (o := o) (clampSense i)
      (clampSense vt) (clampSense vr) arrives.1 lost test busy held lawful
    exact ⟨freed, state, fun room run clear => alarm room clear fun differs =>
      (if_neg (c := echo = (s.line r.line).commandedFeed) differs).symm.trans_lt run⟩

end Sys2Proof.Proofs

/-! An invalid sense record (R143, R144): the run that it counts, the line that becomes sense-lost, and the fault monitor that
takes it alone. -/

namespace Sys2Proof.Proofs

open Sys2Proof.Machine

section

variable {l : LineNo} {s : State} {h : Handed}

/-! ### The count of an invalid record -/

/-- The state that counts an invalid record. -/
def counted (l : LineNo) (s : State) : State :=
  modLine l (fun c => { c with invalidRun := advance lossLimit c.invalidRun }) s

/-- The state in which an invalid record is handed. -/
def heldState (l : LineNo) (s : State) : State := senseLostIfDue l (counted l s)

theorem invalidRecord_handed (l : LineNo) (o : RecordOrder) (s : State) :
    invalidRecord l o s = handRecord l ⟨((heldState l s).line l).lastI, ((heldState l s).line l).lastVt,
      ((heldState l s).line l).lastVr, true, false, ((heldState l s).line l).senseLost,
      ((heldState l s).line l).state = .test⟩ false o (heldState l s) := rfl

theorem line_counted : (counted l s).line l = { s.line l with invalidRun := min 8 ((s.line l).invalidRun + 1) } :=
  line_modLine_self ..

theorem unmoved_counted (l : LineNo) (s : State) : Unmoved l s (counted l s) :=
  unmoved_modLine (fun _ => rfl) fun _ => rfl

theorem senseLostDue_iff : senseLostDue s l = true ↔
    (s.line l).state ≠ .disabled ∧ 8 ≤ (s.line l).invalidRun ∧ (s.line l).senseLost = false := by
  have plain : senseLostDue s l = true ↔
      (s.line l).state ≠ .disabled ∧ lossLimit ≤ (s.line l).invalidRun ∧ (s.line l).senseLost = false := by
    simp [senseLostDue, and_assoc]
  exact plain

/-- The eighth invalid record of a line that is not DISABLED and has sense. -/
theorem senseLostDue_counted : senseLostDue (counted l s) l = true ↔
    (min 8 ((s.line l).invalidRun + 1) = 8 ∧ (s.line l).state ≠ .disabled) ∧ (s.line l).senseLost = false := by
  have full : 8 ≤ min 8 ((s.line l).invalidRun + 1) ↔ min 8 ((s.line l).invalidRun + 1) = 8 := by omega
  rw [senseLostDue_iff, line_counted, ← full]
  exact ⟨fun ⟨enabled, run, sense⟩ => ⟨⟨run, enabled⟩, sense⟩, fun ⟨⟨run, enabled⟩, sense⟩ => ⟨enabled, run, sense⟩⟩

theorem heldState_of_due (due : senseLostDue (counted l s) l = true) :
    heldState l s = offerAlarm (some l) .senseLost (modLine l (fun c => { c.holdTone with senseLost := true }) (counted l s)) :=
  if_pos due

theorem heldState_of_not_due (due : ¬ senseLostDue (counted l s) l = true) : heldState l s = counted l s := if_neg due

theorem unmoved_holdTone (l : LineNo) (s : State) :
    Unmoved l s (modLine l (fun c => { c.holdTone with senseLost := true }) s) :=
  unmoved_modLine (fun c => by rw [holdTone_eq]) fun c => by rw [holdTone_eq]; rfl

theorem unmoved_heldState (l : LineNo) (s : State) : Unmoved l s (heldState l s) := by
  by_cases due : senseLostDue (counted l s) l = true
  · rw [heldState_of_due due]
    exact ((unmoved_counted l s).trans (unmoved_holdTone ..)).trans (unmoved_offerAlarm ..)
  · rw [heldState_of_not_due due]
    exact unmoved_counted l s

/-- The counted line, but for its sense-lost flag and the tone engine that the loss holds (R61). -/
theorem line_heldState : ∃ tone, (heldState l s).line l = { s.line l with
    invalidRun := min 8 ((s.line l).invalidRun + 1), tone := tone
    senseLost := (s.line l).senseLost ||
      decide (min 8 ((s.line l).invalidRun + 1) = 8 ∧ (s.line l).state ≠ .disabled) } := by
  by_cases due : senseLostDue (counted l s) l = true
  · obtain ⟨reached, sense⟩ := senseLostDue_counted.mp due
    rw [heldState_of_due due, line_offerAlarm, line_modLine_self, holdTone_eq, line_counted, decide_eq_true reached,
      Bool.or_true]
    exact ⟨_, rfl⟩
  · have still : ((s.line l).senseLost ||
        decide (min 8 ((s.line l).invalidRun + 1) = 8 ∧ (s.line l).state ≠ .disabled)) = (s.line l).senseLost := by
      rw [senseLostDue_counted] at due
      cases lost : (s.line l).senseLost with
      | true => rfl
      | false => exact decide_eq_false fun reached => due ⟨reached, lost⟩
    rw [heldState_of_not_due due, line_counted, still]
    exact ⟨_, rfl⟩

/-! ### The fields that the record leaves -/

theorem grows_handRecord (back : Bool) (o : RecordOrder) (s : State) : AlarmGrows s (handRecord l h back o s) := by
  cases sense : h.lost with
  | true =>
    rw [handRecord_of_lost sense]
    exact (keeps_monitorRecord ..).alarm
  | false => exact (alarmGrows_of_same (sameAlarm_modLine ..)).trans (handedTo_handRecord sense).alarm

/-- What a handed record leaves of a line: it reduces the feed-mask count where it is handed with sense (R25, R144). -/
theorem part_handRecord (back : Bool) (o : RecordOrder) (matched : h.lost = (s.line l).senseLost) :
    ((handRecord l h back o s).line l).senseLost = (s.line l).senseLost ∧
      ∃ recovery, keptPart false ((handRecord l h back o s).line l) = keptPart false { s.line l with
        recoveryDue := recovery
        loop := { (s.line l).loop with
          feedMask := (s.line l).loop.feedMask - (if (s.line l).senseLost then 0 else 1) } } := by
  rw [← matched]
  cases sense : h.lost with
  | true =>
    rw [handRecord_of_lost sense]
    exact ⟨(lineStep_monitorRecord l h s).sense.lost.trans (matched.symm.trans sense), _,
      (keeps_monitorRecord l h s).part l⟩
  | false =>
    have kept := handedTo_handRecord (l := l) (s := s) (back := back) (o := o) sense
    refine ⟨Bool.eq_false_iff.mpr fun lost => ?_, false, ?_⟩
    · have lost' := kept.lost lost
      rw [maskReduced, line_modLine_self, ← matched, sense] at lost'
      exact Bool.noConfusion lost'
    · rw [kept.part, maskReduced, line_modLine_self]
      rfl

/-- The fields of a line that an invalid record leaves (R143, R144). -/
theorem fields_of_held {c d : Line} {tone : ToneEngine} {recovery lost : Bool} {run : Nat} {e : Line}
    (held : e = { c with invalidRun := run, tone := tone, senseLost := lost })
    (part : keptPart false d = keptPart false { e with
      recoveryDue := recovery, loop := { e.loop with feedMask := e.loop.feedMask - (if e.senseLost then 0 else 1) } }) :
    d.appliedFeed = c.appliedFeed ∧ d.lastI = c.lastI ∧ d.lastVt = c.lastVt ∧ d.lastVr = c.lastVr ∧
      d.mismatchRun = c.mismatchRun ∧ d.feedStuck = c.feedStuck ∧ d.invalidRun = run ∧
      d.loop.feedMask = c.loop.feedMask - (if lost then 0 else 1) := by
  subst held
  exact ⟨(congrArg Line.appliedFeed part :), (congrArg Line.lastI part :), (congrArg Line.lastVt part :),
    (congrArg Line.lastVr part :), (congrArg Line.mismatchRun part :), (congrArg Line.feedStuck part :),
    (congrArg Line.invalidRun part :), (congrArg (fun c : Line => c.loop.feedMask) part :)⟩

theorem onlyLine_invalidRecord (o : RecordOrder) (working : (s.line l).state ≠ .test) :
    OnlyLine l s (invalidRecord l o s) := by
  have held := unmoved_heldState l s
  rw [invalidRecord_handed]
  exact held.toOnlyLine.trans (onlyLine_handRecord (by rwa [held.state]) nofun)

theorem alarmFirst_senseLost (o : RecordOrder) (enabled : (s.line l).state ≠ .disabled)
    (run : min 8 ((s.line l).invalidRun + 1) = 8) (sense : (s.line l).senseLost = false) :
    AlarmFirst (some l) .senseLost s (invalidRecord l o s) := by
  have due := heldState_of_due (senseLostDue_counted.mpr ⟨⟨run, enabled⟩, sense⟩)
  have offered : AlarmOffered (some l) .senseLost s (heldState l s) := by
    rw [due]
    exact (offeredFor_modLine (s := counted l s) ..).2.1
  have grows : AlarmGrows (heldState l s) (invalidRecord l o s) := by
    rw [invalidRecord_handed]
    exact grows_handRecord ..
  exact alarmFirst_of_offered offered grows.alarm grows.full

/-! ### A record of a sense-lost line -/

theorem releaseBank_modLine {x : TableId} {f : Line → Line} (selector : ∀ c, (f c).selector x = c.selector x) :
    releaseBank x (modLine l f s) = modLine l f (releaseBank x s) := by
  have table : (modLine l f s).table x = s.table x := rfl
  have users : (modLine l f s).users x (s.activeBank x).other = s.users x (s.activeBank x).other := by
    refine users_eq (s := s) (t := modLine l f s) (fun k => ?_) rfl _
    by_cases own : k = l
    · rw [own, line_modLine_self, selector]
    · rw [line_modLine_of_ne own]
  cases retiring : (s.table x).retiringTag with
  | none =>
    unfold releaseBank
    rw [table, retiring]
  | some tag =>
    rw [releaseBank_of_retiring (s := modLine l f s) retiring, releaseBank_of_retiring retiring]
    have active : (modLine l f s).activeBank x = s.activeBank x := rfl
    rw [active, users, offerReply_eq, offerReply_eq]
    split <;> rfl

/-- A release reads no monitor. -/
theorem releaseBank_modMonitor (x : TableId) (g : FaultMonitor → FaultMonitor) :
    releaseBank x (modLine l (fun c => { c with monitor := g c.monitor }) s) =
      modLine l (fun c => { c with monitor := g c.monitor }) (releaseBank x s) :=
  releaseBank_modLine fun _ => rfl

/-- A line whose monitor has gathered a record, which begins a window where `starts` says so (R109 steps 1 to 3). -/
def gatheredContext (starts : Bool) (stamp : Stamp) (bank : Bank) (h : Handed) (c : Line) : Line :=
  { c with
    faultBank := if starts = true then bank else c.faultBank
    monitor := (if starts = true then c.monitor.startWindow stamp else c.monitor).accumulate h }

/-- The record gathered by the fault monitor, with the migration of the FAULT_PLAN selector left to complete. -/
def gatheredLine (l : LineNo) (h : Handed) (s : State) : State :=
  modLine l (gatheredContext (startsWindow s.stamp (s.line l).monitor) s.stamp (s.activeBank .faultPlan) h) s

theorem modLine_modLine (f g : Line → Line) : modLine l f (modLine l g s) = modLine l (fun c => f (g c)) s := by
  unfold modLine
  rw [line_setLine_self, setLine_setLine]

/-- A window that begins completes its migration behind the gathering. -/
theorem gatherRecord_eq_release (l : LineNo) (h : Handed) (s : State) : gatherRecord l h s =
    if startsWindow s.stamp (s.line l).monitor = true then releaseBank .faultPlan (gatheredLine l h s)
    else gatheredLine l h s := by
  cases starts : startsWindow s.stamp (s.line l).monitor with
  | true =>
    have bound : gatheredLine l h s = modLine l (fun c => { c with monitor := c.monitor.accumulate h })
        (modLine l (fun c => { c with monitor := c.monitor.startWindow s.stamp })
          (modLine l (fun c => { c with faultBank := s.activeBank .faultPlan }) s)) := by
      rw [modLine_modLine, modLine_modLine, gatheredLine, starts]
      rfl
    have begun : startWindowIfDue l s =
        modLine l (fun c => { c with monitor := c.monitor.startWindow s.stamp }) (bindFaultPlan l s) := if_pos starts
    rw [if_pos rfl, bound, releaseBank_modMonitor _ (·.accumulate h), releaseBank_modMonitor _ (·.startWindow s.stamp), gatherRecord, begun]
    rfl
  | false =>
    have open_ : startWindowIfDue l s = s := if_neg (by rw [starts]; exact Bool.false_ne_true)
    rw [if_neg Bool.false_ne_true, gatherRecord, gatheredLine, open_, starts]
    rfl

theorem upToMigration_gatherRecord (l : LineNo) (h : Handed) (s : State) :
    UpToMigration (gatheredLine l h s) (gatherRecord l h s) := by
  rw [gatherRecord_eq_release]
  split
  · exact upToMigration_releaseBank ..
  · exact .refl _

/-- A record that discards its window changes the monitor and the FAULT_PLAN selector, up to that table's migration. -/
theorem upToMigration_monitorRecord (discards : h.discards = true) : ∃ f : Line → Line,
    (∀ c, f c = { c with faultBank := (f c).faultBank, monitor := (f c).monitor }) ∧
      (f (s.line l)).monitor.discard = true ∧
      (f (s.line l)).monitor.confirmedClass = (s.line l).monitor.confirmedClass ∧
      UpToMigration (modLine l f s) (monitorRecord l h s) := by
  let gathers := gatheredContext (startsWindow s.stamp (s.line l).monitor) s.stamp (s.activeBank .faultPlan) h
  have discard (c : Line) : (gathers c).monitor.discard = true := by
    simp only [gathers, gatheredContext, FaultMonitor.accumulate, discards, Bool.or_true]
  have confirmed (c : Line) : (gathers c).monitor.confirmedClass = c.monitor.confirmedClass := by
    simp only [gathers, gatheredContext]
    split <;> rfl
  by_cases last : s.stamp.toNat % 64 = 63
  · have closed : modLine l (fun c => { c with monitor := { c.monitor with closed := true } }) (gatherRecord l h s) =
        if startsWindow s.stamp (s.line l).monitor = true then
          releaseBank .faultPlan
            (modLine l (fun c => { c with monitor := { c.monitor with closed := true } }) (gatheredLine l h s))
        else modLine l (fun c => { c with monitor := { c.monitor with closed := true } }) (gatheredLine l h s) := by
      rw [gatherRecord_eq_release, apply_ite (modLine l _), releaseBank_modMonitor _ fun m => { m with closed := true }]
    rw [monitorRecord_of_discards discards last, closed, gatheredLine, modLine_modLine]
    refine ⟨fun c => { gathers c with monitor := { (gathers c).monitor with closed := true } }, fun _ => rfl, discard _,
      confirmed _, ?_⟩
    split
    · exact upToMigration_releaseBank ..
    · exact .refl _
  · rw [monitorRecord_of_open last]
    exact ⟨gathers, fun _ => rfl, discard _, confirmed _, upToMigration_gatherRecord l h s⟩

/-- A line that is sense-lost already only counts an invalid record, and hands it to its monitor alone (R110, R144). -/
theorem invalidRecord_of_lost (o : RecordOrder) (lost : (s.line l).senseLost = true) :
    ∃ h : Handed, h.discards = true ∧ invalidRecord l o s = monitorRecord l h (counted l s) := by
  have still : heldState l s = counted l s :=
    heldState_of_not_due fun due => by
      have sense := (senseLostDue_counted.mp due).2
      rw [lost] at sense
      exact Bool.noConfusion sense
  rw [invalidRecord_handed, still]
  exact ⟨_, Bool.or_eq_true_iff.mpr (.inl (Bool.or_eq_true_iff.mpr (.inl (Bool.or_true _)))),
    handRecord_of_lost (by rw [line_counted]; exact lost)⟩

end

/-- Settles O35: the record is counted, which makes the line sense-lost at its eighth, and handed with or without sense. -/
theorem invalidRecordHeld : Obligations.InvalidRecordHeld := by
  unfold Obligations.InvalidRecordHeld
  refine ⟨fun s l status i vt vr o arrives carries => ?_, fun s l status i vt vr o arrives carries lost => ?_⟩
  · have made : exec (.senseRecord l status i vt vr o) s = .next (invalidRecord l o (s.recordPassed l)) := by
      rw [exec_senseRecord_of_arrives arrives, senseRecord, validEcho_of_carries carries]
    obtain ⟨tone, held⟩ := line_heldState (l := l) (s := s.recordPassed l)
    obtain ⟨lost, recovery, part⟩ := part_handRecord (l := l) (s := heldState l (s.recordPassed l)) (h :=
      ⟨((heldState l (s.recordPassed l)).line l).lastI, _, _, true, false, _, _⟩) false o rfl
    rw [← invalidRecord_handed] at lost part
    obtain ⟨feed, lastI, lastVt, lastVr, mismatch, stuck, run, mask⟩ := fields_of_held held part
    have senseLost := lost.trans (congrArg Line.senseLost held)
    exact ⟨_, made, feed, lastI, lastVt, lastVr, mismatch, stuck, run, senseLost, by rw [senseLost]; exact mask,
      fun working => onlyLine_invalidRecord (s := s.recordPassed l) o working,
      fun enabled reached sense => alarmFirst_senseLost (s := s.recordPassed l) o enabled reached sense⟩
  · obtain ⟨h, discards, handed⟩ := invalidRecord_of_lost (s := s.recordPassed l) o lost
    obtain ⟨f, only, discard, confirmed, upTo⟩ :=
      upToMigration_monitorRecord (l := l) (s := counted l (s.recordPassed l)) discards
    have made : exec (.senseRecord l status i vt vr o) s = .next (monitorRecord l h (counted l (s.recordPassed l))) := by
      rw [exec_senseRecord_of_arrives arrives, senseRecord, validEcho_of_carries carries]
      exact congrArg Host.Outcome.next handed
    generalize monitorRecord l h (counted l (s.recordPassed l)) = t at upTo made
    have line : t.line l = f ((counted l (s.recordPassed l)).line l) := by
      rw [(lines_eq_iff t _).mp upTo.lines l, line_modLine_self]
    have start : setLine l { s.line l with
        invalidRun := min 8 ((s.line l).invalidRun + 1), monitor := (t.line l).monitor,
        faultBank := (t.line l).faultBank } (s.recordPassed l) = modLine l f (counted l (s.recordPassed l)) := by
      rw [modLine, only, ← line, line_counted]
      exact (setLine_setLine ..).symm
    refine ⟨t, made, by rw [start]; exact upTo, by rw [line]; exact discard, ?_⟩
    rw [line, confirmed, line_counted]
    rfl

end Sys2Proof.Proofs

/-! A record of a line at rest whose blocks do not use it: the fault monitor takes it and the line examines its position. -/

namespace Sys2Proof.Proofs

open Sys2Proof.Machine

section

variable {l : LineNo} {s t u : State} {h : Handed}

/-! ### A record handed to a line whose blocks do not use it -/

section

variable (still : (s.line l).state = .disabled ∨ (s.line l).state = .fault)

include still

theorem advanceLockout_of_still : advanceLockout l s = s := by
  unfold advanceLockout
  dsimp only
  obtain state | state := still <;> rw [state] <;> rfl

theorem useBlocks_of_still (masked : Bool) (recovered : (s.line l).recoveryDue = false) :
    useBlocks l h masked false s = s := by
  unfold useBlocks
  rw [recovered]
  exact blocksRecord_of_still still

theorem useRecord_of_still (masked : Bool) (o : RecordOrder) (recovered : (s.line l).recoveryDue = false) :
    useRecord l h masked false o s = monitorRecord l h s := by
  cases o with
  | blocksFirst => exact congrArg (monitorRecord l h) (useBlocks_of_still still masked recovered)
  | monitorFirst =>
    have recovered' := (lineStep_monitorRecord l h s).sense.recovery.trans recovered
    unfold useRecord
    dsimp only
    split
    · next same => exact useBlocks_of_still (by rw [same]; exact still) masked recovered'
    · rfl

end

theorem advanceString_of_closed (closed : (s.line l).openString = []) : advanceString l s = s :=
  if_pos (by rw [closed]; rfl)

/-- A DISABLED line or a line in FAULT gives the record to its monitor and examines its position (R19, R109). -/
theorem handRecord_of_still {x : State} {d : Line} (o : RecordOrder) (sense : h.lost = false) (masked : maskReduced l s = x)
    (line : x.line l = d) (still : d.state = .disabled ∨ d.state = .fault) (recovered : d.recoveryDue = false)
    (closed : d.openString = []) :
    handRecord l h false o s = releaseBanks (examine l (clearMarks l (monitorRecord l h x))) := by
  rw [← line] at still recovered closed
  rw [handRecord_of_sense sense, masked, advanceLockout_of_still still, advanceString_of_closed closed,
    useRecord_of_still still _ o recovered]

/-- A valid record of a line whose blocks do not use it is checked, gathered, and followed by the examination. -/
theorem validRecord_of_still (f : FeedCode) (i vt vr : Word16) (o : RecordOrder)
    (still : (s.line l).state = .disabled ∨ (s.line l).state = .fault) (sense : (s.line l).senseLost = false)
    (recovered : (s.line l).recoveryDue = false) (closed : (s.line l).openString = []) :
    ∃ a b, validRecord l f (clampSense i) (clampSense vt) (clampSense vr) o s =
      releaseBanks (examine l (clearMarks l (monitorRecord l ((s.line l).handedRecord (some f) i vt vr)
        (withAlarm a b (setLine l ((s.line l).checked (s.profile l).feedMask (some f) i vt vr) s))))) := by
  obtain ⟨m, checked, handed⟩ := validRecord_eq l f i vt vr o s
  obtain ⟨a, b, reduced⟩ := checked.reduced
  rw [sense] at handed
  exact ⟨a, b, handed.trans (handRecord_of_still o rfl reduced (line_setLine_self ..) still recovered closed)⟩

/-! ### The examination and a migration of FAULT_PLAN -/

/-- A bank released from a state that differs in no table, reply or stamp, seen as the same change of both. -/
theorem offerReply_eq_aside {w : State} {x : TableId} {p : Payload} (engine : w.engine = u.engine) (wires : w.wires = u.wires)
    (store : SameStore u w) (stamp : w.stamp = u.stamp) :
    offerReply none p (setTable x { w.table x with retiringTag := none } w) =
      aside u.engine (setTable x { u.table x with retiringTag := none } u).tables (u.replyAfter (u.record none p)) u.wires w := by
  have table : w.table x = u.table x := by rw [State.table, store.1, State.table]
  have reply : w.replyAfter (w.record none p) = u.replyAfter (u.record none p) := by
    unfold State.replyAfter State.record
    rw [store.2, stamp]
  rw [offerReply_eq, table]
  unfold State.withReply
  have after : (setTable x { u.table x with retiringTag := none } w).replyAfter
      ((setTable x { u.table x with retiringTag := none } w).record none p) = w.replyAfter (w.record none p) := rfl
  rw [after, reply, aside, ← engine, ← wires]
  unfold setTable
  rw [store.1]

/-- The examination does not read what a release of FAULT_PLAN changes, and the release does not read the selectors that the
examination binds. -/
theorem examine_releaseBank (l : LineNo) (u : State) :
    examine l (releaseBank .faultPlan u) = releaseBank .faultPlan (examine l u) := by
  have only := onlyLine_examine l u
  have store := sameStore_examine l u
  have table : (examine l u).table .faultPlan = u.table .faultPlan := by rw [State.table, store.1, State.table]
  have active : (examine l u).activeBank .faultPlan = u.activeBank .faultPlan := only.tables.activeBank _
  have users : (examine l u).users .faultPlan (u.activeBank .faultPlan).other =
      u.users .faultPlan (u.activeBank .faultPlan).other := by
    refine users_eq (s := u) (t := examine l u) (fun k => ?_) (congrArg TestEngine.bank only.engine) _
    exact (congrArg (fun c : Line => some c.faultBank) ((keeps_examine (m := true) l u).part k) :)
  cases retiring : (u.table .faultPlan).retiringTag with
  | none =>
    unfold releaseBank
    rw [table, retiring]
  | some tag =>
    have stepped := upToMigration_releaseBank .faultPlan u
    rw [releaseBank_of_retiring (s := examine l u) (by rw [table]; exact retiring), active, users,
      offerReply_eq_aside only.engine only.wires store only.stamp]
    rw [releaseBank_of_retiring retiring, offerReply_eq_aside (u := u) rfl rfl (.refl u) rfl] at stepped ⊢
    split
    · next unused =>
      rw [if_pos unused] at stepped
      exact examine_aside stepped.tables
    · rfl

/-- The record of a line at rest, with the migration of the FAULT_PLAN selector left to complete. -/
def restedLine (l : LineNo) (h : Handed) (x : State) : State := clearMarks l (gatheredLine l h x)

theorem upToMigration_examine_gatherRecord (l : LineNo) (h : Handed) (x : State) :
    UpToMigration (examine l (restedLine l h x)) (releaseBanks (examine l (clearMarks l (gatherRecord l h x)))) := by
  refine UpToMigration.trans ?_ (upToMigration_releaseBanks _)
  have cleared : clearMarks l (releaseBank .faultPlan (gatheredLine l h x)) = releaseBank .faultPlan (restedLine l h x) :=
    (releaseBank_modLine (f := fun c => { c with entryMark := false, recoveryDue := false }) fun _ => rfl).symm
  rw [gatherRecord_eq_release]
  split
  · rw [cleared, examine_releaseBank]
    exact upToMigration_releaseBank ..
  · exact .refl _

/-! ### What the examination leaves of a line without an open string -/

theorem examined_of_closed {v : State} (examined : Examines l u v) (rest : (u.line l).RestPoint)
    (closed : (u.line l).openString = []) :
    (v.line l).pendingProfile = none ∧ (v.line l).profileIndex = (u.line l).pendingProfile.getD (u.line l).profileIndex ∧
      (v.line l).profileBank = u.activeBank .profile ∧ (v.line l).toneBank = u.activeBank .tonePlan ∧
      (v.line l).cadenceBank = u.activeBank .cadence := by
  obtain ⟨profile, tone, cadence, index, -⟩ := examines_rest examined rest
  obtain ⟨m, bound, rebound⟩ := examined.rest rest
  have adopted : m = setLine l (u.reprofiled l) u := by
    split at bound
    · refine bound.absent ?_
      rw [line_setLine_self]
      exact closed
    · exact bound
  refine ⟨?_, index, profile, tone, cadence⟩
  rw [rebound, line_setLine_self, adopted, line_setLine_self]
  rfl

/-! ### The migrations that complete -/

/-- Behind the completion of the migrations a RETIRING bank stays exactly where it has a user. -/
theorem retiringTag_of_served {x : TableId} {tag : Tag} (step : BankStep x s t) (served : Served x t)
    (retiring : (s.table x).retiringTag = some tag) :
    (t.table x).retiringTag = if t.users x (s.activeBank x).other = 0 then none else some tag := by
  rw [← step.active]
  split
  · next unused =>
    by_contra held
    have used := served (Option.isSome_iff_ne_none.mpr held)
    omega
  · next used =>
    obtain kept | ⟨-, -, -, unused, -⟩ := step.tag
    · rw [kept, retiring]
    · exact absurd unused used

/-! ### A checked line -/

theorem modLine_withAlarm_setLine (f : Line → Line) (a : List Record) (b : Bool) (d : Line) (p : State) :
    modLine l f (withAlarm a b (setLine l d p)) = withAlarm a b (setLine l (f d) p) := by
  have line : (withAlarm a b (setLine l d p)).line l = d := line_setLine_self ..
  rw [modLine, line, setLine_withAlarm, setLine_setLine]

/-- A line at rest behind its record: the entry mark, the monitor and the FAULT_PLAN selector are all that has changed. -/
theorem restedLine_withAlarm (a : List Record) (b : Bool) {d : Line} (p : State) (recovered : d.recoveryDue = false) :
    ∃ bank monitor, restedLine l h (withAlarm a b (setLine l d p)) =
      withAlarm a b (setLine l { d with entryMark := false, faultBank := bank, monitor := monitor } p) := by
  have marked (starts : Bool) (stamp : Stamp) (bank : Bank) :
      { gatheredContext starts stamp bank h d with entryMark := false, recoveryDue := false } =
        { d with
          entryMark := false, faultBank := (gatheredContext starts stamp bank h d).faultBank
          monitor := (gatheredContext starts stamp bank h d).monitor } := by
    cases d
    cases recovered
    rfl
  unfold restedLine clearMarks gatheredLine
  rw [modLine_withAlarm_setLine, modLine_withAlarm_setLine]
  exact ⟨_, _, congrArg (fun c => withAlarm a b (setLine l c p)) (marked ..)⟩

theorem eq_of_withAlarm {w y : State} {a : List Record} {b : Bool} (same : w = withAlarm a b y) :
    w = { y with report := { y.report with alarm := w.report.alarm, alarmLost := w.report.alarmLost } } := by
  subst same
  rfl

theorem monitor_of_part {c d : Line} (part : keptPart true d = keptPart true c) :
    d.monitor = c.monitor ∧ d.faultBank = c.faultBank :=
  ⟨(congrArg Line.monitor part :), (congrArg Line.faultBank part :)⟩

end

/-- Settles O37: the line's monitor gathers the record, and the line examines its position at rest. -/
theorem examinationAtRest : Obligations.ExaminationAtRest := by
  unfold Obligations.ExaminationAtRest
  intro s l status i vt vr o echo arrives carries still sense recovered closed _ open_
  obtain ⟨a, b, handed⟩ := validRecord_of_still (s := s.recordPassed l) echo i vt vr o still sense recovered closed
  let d := (s.line l).checked (s.profile l).feedMask (some echo) i vt vr
  let h := (s.line l).handedRecord (some echo) i vt vr
  let x := withAlarm a b (setLine l d (s.recordPassed l))
  obtain ⟨bank, monitor, rested⟩ := restedLine_withAlarm (l := l) (h := h) a b (d := d) (s.recordPassed l) recovered
  have restedAt : (restedLine l h x).line l = { d with entryMark := false, faultBank := bank, monitor := monitor } := by
    rw [rested]
    exact line_setLine_self ..
  have result : exec (.senseRecord l status i vt vr o) s =
      .next (releaseBanks (examine l (clearMarks l (gatherRecord l h x)))) := by
    rw [exec_senseRecord_of_arrives arrives, senseRecord, validEcho_of_carries carries]
    have gathered : monitorRecord l h x = gatherRecord l h x := monitorRecord_of_open (s := x) open_
    exact congrArg Host.Outcome.next
      (handed.trans (congrArg (fun y => releaseBanks (examine l (clearMarks l y))) gathered))
  have upTo := upToMigration_examine_gatherRecord l h x
  have examined := examines_examine l (restedLine l h x)
  have rest : ((restedLine l h x).line l).RestPoint := by
    rw [restedAt]
    obtain state | state := still
    · exact .inl (.inl state)
    · exact .inl (.inr (.inr (.inr state)))
  obtain ⟨pending, index, profile, tone, cadence⟩ := examined_of_closed examined rest (by rw [restedAt]; exact closed)
  obtain ⟨kept, bound⟩ := monitor_of_part ((keeps_examine l (restedLine l h x)).part l)
  have active (y : TableId) : (restedLine l h x).activeBank y = s.activeBank y := by
    rw [rested]
    rfl
  rw [active] at profile tone cadence
  rw [restedAt] at index kept bound
  have migrated (y : TableId) : ServedStep y (s.recordPassed l)
      (releaseBanks (examine l (clearMarks l (gatherRecord l h x)))) := by
    rw [exec_senseRecord_of_arrives arrives] at result
    rw [← Host.Outcome.next.inj result]
    exact servedStep_senseRecord ..
  have served (y : TableId) (user : y ∈ userTables) :
      Served y (releaseBanks (examine l (clearMarks l (gatherRecord l h x)))) := served_foldl_releaseBank user _
  generalize releaseBanks (examine l (clearMarks l (gatherRecord l h x))) = t at result upTo migrated served
  have lineAt : t.line l = (examine l (restedLine l h x)).line l := (lines_eq_iff t _).mp upTo.lines l
  rw [← lineAt] at pending index profile tone cadence kept bound
  refine ⟨restedLine l h x, _, t, result, ?_, examined, upTo, pending, index, profile, tone, cadence,
    fun y tag retiring fault settings => ?_⟩
  · rw [kept, bound]
    exact eq_of_withAlarm rested
  · have user : y ∈ userTables := by
      cases y with
      | faultPlan => exact absurd rfl fault
      | settings => exact absurd rfl settings
      | profile | tonePlan | cadence | testPlan => decide
    have tagged := retiringTag_of_served (migrated y).toBankStep (served y user) retiring
    exact tagged

end Sys2Proof.Proofs

/-! What a sense record leaves of the fault monitor before and in the last multiframe of its window (R109, R110). -/

namespace Sys2Proof.Proofs

open Sys2Proof.Machine

section

variable {l : LineNo} {s t u : State} {h : Handed}

/-! ### Steps that leave the monitor -/

/-- From `s` to `t` the line's monitor and its FAULT_PLAN selector stand, and so do the multiframe and the ACTIVE bank. -/
structure MonitorKept (l : LineNo) (s t : State) : Prop where
  monitor : (t.line l).monitor = (s.line l).monitor
  bank : (t.line l).faultBank = (s.line l).faultBank
  stamp : t.stamp = s.stamp
  active : t.activeBank .faultPlan = s.activeBank .faultPlan

theorem MonitorKept.trans (k : MonitorKept l s t) (j : MonitorKept l t u) : MonitorKept l s u :=
  ⟨j.monitor.trans k.monitor, j.bank.trans k.bank, j.stamp.trans k.stamp, j.active.trans k.active⟩

theorem MonitorKept.of_keeps (k : Keeps true s t) (step : BankStep .faultPlan s t) : MonitorKept l s t :=
  ⟨(monitor_of_part (k.part l)).1, (monitor_of_part (k.part l)).2, step.stamp, step.active⟩

theorem monitorKept_modLine {f : Line → Line} (monitor : ∀ c, (f c).monitor = c.monitor)
    (bank : ∀ c, (f c).faultBank = c.faultBank) : MonitorKept l s (modLine l f s) :=
  ⟨by rw [line_modLine_self, monitor], by rw [line_modLine_self, bank], rfl, rfl⟩

theorem monitorKept_timers (l : LineNo) (s : State) : MonitorKept l s (advanceString l (advanceLockout l s)) :=
  .of_keeps ((keeps_advanceLockout ..).trans (keeps_advanceString ..))
    ((servedStep_advanceLockout ..).trans (servedStep_advanceString ..)).toBankStep

theorem monitorKept_useBlocks (masked back : Bool) (s : State) : MonitorKept l s (useBlocks l h masked back s) :=
  .of_keeps (keeps_useBlocks ..) (servedStep_useBlocks ..).toBankStep

theorem monitorKept_settle (l : LineNo) (s : State) : MonitorKept l s (releaseBanks (examine l (clearMarks l s))) :=
  (monitorKept_modLine (f := fun c => { c with entryMark := false, recoveryDue := false }) (fun _ => rfl) fun _ => rfl).trans
    (.of_keeps (keeps_examine ..).released (bankStep_examine ..).released.toBankStep)

/-! ### The gathering of a record -/

/-- The context that line `l` has when its monitor has gathered a record. -/
def gatheredAt (l : LineNo) (h : Handed) (s : State) : Line :=
  gatheredContext (startsWindow s.stamp (s.line l).monitor) s.stamp (s.activeBank .faultPlan) h (s.line l)

/-- From `s` to `t` the monitor of the line has gathered the record, and no more. -/
def GathersFrom (l : LineNo) (h : Handed) (s t : State) : Prop :=
  (t.line l).monitor = (gatheredAt l h s).monitor ∧ (t.line l).faultBank = (gatheredAt l h s).faultBank

theorem line_gatherRecord_eq : (gatherRecord l h s).line l = gatheredAt l h s := by
  rw [line_gatherRecord]
  rfl

theorem gathersFrom_gatherRecord (l : LineNo) (h : Handed) (s : State) : GathersFrom l h s (gatherRecord l h s) := by
  rw [GathersFrom, line_gatherRecord_eq]
  exact ⟨rfl, rfl⟩

theorem GathersFrom.kept (gathered : GathersFrom l h s t) (after : MonitorKept l t u) : GathersFrom l h s u :=
  ⟨after.monitor.trans gathered.1, after.bank.trans gathered.2⟩

theorem GathersFrom.behind (before : MonitorKept l s t) (gathered : GathersFrom l h t u) : GathersFrom l h s u := by
  unfold GathersFrom gatheredAt gatheredContext at *
  rw [before.monitor, before.bank, before.stamp, before.active] at gathered
  exact gathered

theorem gathersFrom_useRecord (masked back : Bool) (o : RecordOrder) (open_ : s.stamp.toNat % 64 ≠ 63) :
    GathersFrom l h s (useRecord l h masked back o s) := by
  cases o with
  | blocksFirst =>
    have used := monitorKept_useBlocks (l := l) (h := h) masked back s
    unfold useRecord
    dsimp only
    rw [monitorRecord_of_open (by rw [used.stamp]; exact open_)]
    exact .behind used (gathersFrom_gatherRecord ..)
  | monitorFirst =>
    unfold useRecord
    dsimp only
    rw [monitorRecord_of_open open_]
    split
    · exact (gathersFrom_gatherRecord l h s).kept (monitorKept_useBlocks ..)
    · exact gathersFrom_gatherRecord ..

/-- A record handed before the last multiframe of its window is gathered. -/
theorem gathersFrom_handRecord (back : Bool) (o : RecordOrder) (open_ : s.stamp.toNat % 64 ≠ 63) :
    GathersFrom l h s (handRecord l h back o s) := by
  cases sense : h.lost with
  | true =>
    rw [handRecord_of_lost sense, monitorRecord_of_open open_]
    exact gathersFrom_gatherRecord ..
  | false =>
    have masked : MonitorKept l s (maskReduced l s) := monitorKept_modLine (fun _ => rfl) fun _ => rfl
    have before := masked.trans (monitorKept_timers l (maskReduced l s))
    rw [handRecord_of_sense sense]
    exact (GathersFrom.behind before
      (gathersFrom_useRecord _ _ _ (by rw [before.stamp]; exact open_))).kept (monitorKept_settle ..)

/-! ### The record as the line hands it -/

/-- The record that a sense-lost line hands to its monitor (R110, R144). -/
def lostRecord (c : Line) : Handed := ⟨c.lastI, c.lastVt, c.lastVr, true, false, true, c.state = .test⟩

/-- An invalid record that its line does not use goes to the monitor alone. -/
theorem invalidRecord_of_unused (o : RecordOrder)
    (unused : (s.line l).senseLost = true ∨ 7 ≤ (s.line l).invalidRun ∧ (s.line l).state ≠ .disabled) :
    invalidRecord l o s = monitorRecord l (lostRecord (s.line l)) (heldState l s) := by
  obtain ⟨tone, held⟩ := line_heldState (l := l) (s := s)
  have lost : ((s.line l).senseLost ||
      decide (min 8 ((s.line l).invalidRun + 1) = 8 ∧ (s.line l).state ≠ .disabled)) = true := by
    obtain lost | ⟨run, enabled⟩ := unused
    · rw [lost, Bool.true_or]
    · rw [decide_eq_true (p := _ ∧ _) ⟨by omega, enabled⟩, Bool.or_true]
  rw [lost] at held
  rw [invalidRecord_handed, held]
  exact handRecord_of_lost rfl

theorem monitorKept_heldState (l : LineNo) (s : State) : MonitorKept l s (heldState l s) := by
  obtain ⟨tone, held⟩ := line_heldState (l := l) (s := s)
  have only := (unmoved_heldState l s).toOnlyLine
  exact ⟨by rw [held], by rw [held], only.stamp, only.tables.activeBank _⟩

/-- The monitor's gathering of a record that its line uses, as the vocabulary has it. -/
theorem gathers_used (c : Line) (stamp : Stamp) (bank : Bank) (echo : Option FeedCode) (i vt vr : Word16) :
    (gatheredContext (startsWindow stamp c.monitor) stamp bank (c.handedRecord echo i vt vr) c).monitor =
      c.gathers stamp echo i vt vr false :=
  (gathers_eq ..).symm

/-- The monitor's gathering of a record of a sense-lost line, as the vocabulary has it. -/
theorem gathers_lost (c : Line) (stamp : Stamp) (bank : Bank) (i vt vr : Word16) :
    (gatheredContext (startsWindow stamp c.monitor) stamp bank (lostRecord c) c).monitor =
      c.gathers stamp none i vt vr true := by
  unfold Line.gathers
  simp only [← startsWindow_iff, gatheredContext]
  split <;> rfl

theorem faultBank_gathered (c : Line) (stamp : Stamp) (bank : Bank) :
    (gatheredContext (startsWindow stamp c.monitor) stamp bank h c).faultBank =
      if c.StartsWindow stamp then bank else c.faultBank :=
  ite_congr (propext (startsWindow_iff ..)) (fun _ => rfl) fun _ => rfl

end

end Sys2Proof.Proofs

/-! The close of a fault window (R109 to R119): its observation, the entry that matches it, and the runs that it updates. -/

namespace Sys2Proof.Proofs

open Sys2Proof.Machine

section

variable {l : LineNo} {s : State} {echo : Option FeedCode} {status i vt vr : Word16} {o : RecordOrder}

/-! ### A record before and in the last multiframe -/

theorem monitorKept_of_checked {m : State} (checked : Checked l echo i vt vr s m) : MonitorKept l s m := by
  obtain ⟨a, b, reduced⟩ := checked.reduced
  have masked : MonitorKept l m (maskReduced l m) := monitorKept_modLine (fun _ => rfl) fun _ => rfl
  rw [maskReduced, reduced] at masked
  have line : (withAlarm a b (setLine l ((s.line l).checked (s.profile l).feedMask echo i vt vr) s)).line l =
      (s.line l).checked (s.profile l).feedMask echo i vt vr := line_setLine_self ..
  have kept : ((s.line l).checked (s.profile l).feedMask echo i vt vr).monitor = (s.line l).monitor ∧
      ((s.line l).checked (s.profile l).feedMask echo i vt vr).faultBank = (s.line l).faultBank := by
    cases echo <;> exact ⟨rfl, rfl⟩
  refine ⟨?_, ?_, masked.stamp.symm, masked.active.symm⟩
  · rw [← masked.monitor, line]
    exact kept.1
  · rw [← masked.bank, line]
    exact kept.2

theorem usesRecord_or_unused (c : Line) (echo : Option FeedCode) : c.usesRecord echo ∨
    echo = none ∧ (c.senseLost = true ∨ 7 ≤ c.invalidRun ∧ c.state ≠ .disabled) := by
  cases echo with
  | some f => exact .inl (.inl rfl)
  | none =>
    by_cases lost : c.senseLost = true ∨ 7 ≤ c.invalidRun ∧ c.state ≠ .disabled
    · exact .inr ⟨rfl, lost⟩
    · refine .inl (.inr ?_)
      obtain ⟨sense, short⟩ := not_or.mp lost
      refine ⟨Bool.eq_false_iff.mpr sense, ?_⟩
      by_cases disabled : c.state = .disabled
      · exact .inl disabled
      · exact .inr (not_le.mp fun run => short ⟨run, disabled⟩)

theorem not_unused_of_usesRecord {c : Line} (used : c.usesRecord echo) :
    ¬ (echo = none ∧ (c.senseLost = true ∨ 7 ≤ c.invalidRun ∧ c.state ≠ .disabled)) := by
  rintro ⟨rfl, lost⟩
  obtain valid | ⟨sense, rest⟩ := used
  · exact absurd valid (by decide)
  · obtain lost | ⟨run, enabled⟩ := lost
    · rw [sense] at lost
      exact Bool.noConfusion lost
    · obtain disabled | short := rest
      · exact enabled disabled
      · omega

/-- Before the last multiframe of its window a record is gathered by the monitor, whoever else uses it. -/
theorem gathers_senseRecord (carries : carriesEcho status echo) (open_ : s.stamp.toNat % 64 ≠ 63) :
    ((senseRecord l status i vt vr o s).line l).monitor = (s.line l).gathers s.stamp echo i vt vr
        (decide (echo = none ∧ ((s.line l).senseLost = true ∨ 7 ≤ (s.line l).invalidRun ∧ (s.line l).state ≠ .disabled))) ∧
      ((senseRecord l status i vt vr o s).line l).faultBank =
        if (s.line l).StartsWindow s.stamp then s.activeBank .faultPlan else (s.line l).faultBank := by
  obtain used | ⟨rfl, unused⟩ := usesRecord_or_unused (s.line l) echo
  · obtain ⟨m, checked, handed⟩ := senseRecord_of_uses i vt vr o carries used
    have before := monitorKept_of_checked checked
    have gathered := GathersFrom.behind before (gathersFrom_handRecord (h := (s.line l).handedRecord echo i vt vr)
      (s.line l).senseLost o (by rw [before.stamp]; exact open_))
    rw [← handed] at gathered
    rw [decide_eq_false (not_unused_of_usesRecord used)]
    exact ⟨gathered.1.trans (gathers_used ..), gathered.2.trans (faultBank_gathered ..)⟩
  · have handed : senseRecord l status i vt vr o s = invalidRecord l o s := by
      rw [senseRecord, validEcho_of_carries carries]
    have before := monitorKept_heldState l s
    have gathered := GathersFrom.behind before (gathersFrom_gatherRecord l (lostRecord (s.line l)) (heldState l s))
    rw [← monitorRecord_of_open (by rw [before.stamp]; exact open_), ← invalidRecord_of_unused o unused, ← handed] at gathered
    rw [decide_eq_true ⟨rfl, unused⟩]
    exact ⟨gathered.1.trans (gathers_lost ..), gathered.2.trans (faultBank_gathered ..)⟩

/-- In the last multiframe the record of a sense-lost line closes its window, which it discards. -/
theorem closes_senseRecord (carries : carriesEcho status none) (last : s.stamp.toNat % 64 = 63)
    (unused : (s.line l).senseLost = true ∨ 7 ≤ (s.line l).invalidRun ∧ (s.line l).state ≠ .disabled) :
    ((senseRecord l status i vt vr o s).line l).monitor =
        { (s.line l).gathers s.stamp none i vt vr true with closed := true } ∧
      ((senseRecord l status i vt vr o s).line l).faultBank =
        if (s.line l).StartsWindow s.stamp then s.activeBank .faultPlan else (s.line l).faultBank := by
  have handed : senseRecord l status i vt vr o s = invalidRecord l o s := by
    rw [senseRecord, validEcho_of_carries carries]
  have before := monitorKept_heldState l s
  have gathered := GathersFrom.behind before (gathersFrom_gatherRecord l (lostRecord (s.line l)) (heldState l s))
  have discards : (lostRecord (s.line l)).discards = true := by
    simp [lostRecord, Handed.discards]
  rw [handed, invalidRecord_of_unused o unused, monitorRecord_of_discards discards (by rw [before.stamp]; exact last),
    line_modLine_self]
  exact ⟨congrArg (fun m : FaultMonitor => { m with closed := true }) (gathered.1.trans (gathers_lost ..)),
    gathered.2.trans (faultBank_gathered ..)⟩

/-! ### The observation and the entry that matches it -/

theorem band_iff {t1 t2 t3 v : Int} (low : t1 < t2) (high : t2 < t3) :
    (band t1 t2 t3 v = 0 ↔ v < t1) ∧ (band t1 t2 t3 v = 1 ↔ t1 ≤ v ∧ v < t2) ∧
      (band t1 t2 t3 v = 2 ↔ t2 ≤ v ∧ v < t3) ∧ (band t1 t2 t3 v = 3 ↔ t3 ≤ v) := by
  unfold band
  grind

theorem met_iff {w : Wanted} {v : Nat} : w.met v = true ↔ (w.care = true → w.value = v) := by
  unfold Wanted.met
  cases w.care <;> simp

theorem fits_iff {e : ClassEntry} {w : Observation} : e.fits w = true ↔ e.enabled = true ∧
    (e.tdc.care = true → e.tdc.value = w.tdc) ∧ (e.rdc.care = true → e.rdc.value = w.rdc) ∧
    (e.tac.care = true → e.tac.value = w.tac) ∧ (e.rac.care = true → e.rac.value = w.rac) ∧
    (e.ilp.care = true → e.ilp.value = w.ilp) ∧ (e.group.care = true → e.group.value = groupCode w.group) := by
  unfold ClassEntry.fits
  simp only [Bool.and_eq_true, met_iff, and_assoc]

/-- Entry `k` of the line's FAULT_PLAN bank matches the window under way (R114). -/
def entryFits (s : State) (l : LineNo) (k : Nat) : Bool :=
  (s.faultEntry l k).valid && (readClassEntry (s.faultEntry l k).words).fits (observation s l)

theorem matchingEntry_of_first {k : Nat} (low : 1 ≤ k) (high : k ≤ 16) (fits : entryFits s l k = true)
    (first : ∀ j, 1 ≤ j → j < k → entryFits s l j = false) :
    matchingEntry s l = some (readClassEntry (s.faultEntry l k).words) := by
  have found : (List.range 16).find? (fun j => entryFits s l (j + 1)) = some (k - 1) := by
    rw [List.find?_range_eq_some]
    refine ⟨by rw [Nat.sub_add_cancel low]; exact fits, List.mem_range.mpr (by omega), fun j below => ?_⟩
    rw [first (j + 1) (by omega) (by omega)]
    rfl
  have matched := congrArg (Option.map fun j => readClassEntry (s.faultEntry l (j + 1)).words) found
  rw [Option.map_some, Nat.sub_add_cancel low] at matched
  exact matched

theorem matchingEntry_of_none (none_ : ∀ k, 1 ≤ k → k ≤ 16 → entryFits s l k = false) : matchingEntry s l = none := by
  have missed : (List.range 16).find? (fun j => entryFits s l (j + 1)) = none := by
    rw [List.find?_range_eq_none]
    intro j below
    rw [none_ (j + 1) (by omega) (by omega)]
    rfl
  exact congrArg (Option.map fun j => readClassEntry (s.faultEntry l (j + 1)).words) missed

theorem windowClass_of_some {e : ClassEntry} (matched : matchingEntry s l = some e) : windowClass s l = e.faultClass := by
  rw [windowClass, matched]
  rfl

theorem windowClass_of_none (missed : matchingEntry s l = none) : windowClass s l = 0 := by
  rw [windowClass, missed]
  rfl

/-! ### The close -/

theorem windowCounted_iff : windowCounted s l = true ↔ (s.line l).monitor.closed = true ∧
    (s.line l).monitor.discard = false ∧ (s.line l).state ≠ .test ∧ (s.faultEntry l 0).valid = true := by
  simp [windowCounted, and_assoc]

/-- The state with another fault monitor in the line. -/
def withMonitor (l : LineNo) (m : FaultMonitor) (s : State) : State := setLine l { s.line l with monitor := m } s

theorem line_withMonitor {m : FaultMonitor} : (withMonitor l m s).line l = { s.line l with monitor := m } :=
  line_setLine_self ..

/-- Another monitor with the same sums and extremes is matched by the same entry. -/
theorem matchingEntry_withMonitor {m : FaultMonitor} (same : measurements m = measurements (s.line l).monitor) :
    matchingEntry (withMonitor l m s) l = matchingEntry s l := by
  have entry (k : Nat) : (withMonitor l m s).faultEntry l k = s.faultEntry l k := by
    rw [State.faultEntry, line_withMonitor]
    rfl
  have observed : observation (withMonitor l m s) l = observation s l := by
    rw [observation, entry, line_withMonitor, same]
    rfl
  unfold matchingEntry
  simp only [entry, observed]

theorem windowClass_withMonitor {m : FaultMonitor} (same : measurements m = measurements (s.line l).monitor) :
    windowClass (withMonitor l m s) l = windowClass s l := by
  rw [windowClass, matchingEntry_withMonitor same, windowClass]

theorem windowCounted_withMonitor {m : FaultMonitor} : windowCounted (withMonitor l m s) l = true ↔
    m.closed = true ∧ m.discard = false ∧ (s.line l).state ≠ .test ∧ (s.faultEntry l 0).valid = true := by
  rw [windowCounted_iff, State.faultEntry, line_withMonitor]
  exact Iff.rfl

theorem faultConfirmEntry_of_uncounted (uncounted : windowCounted s l = false) : faultConfirmEntry s l = none := by
  unfold faultConfirmEntry
  split
  · simp [uncounted]
  · rfl

theorem faultConfirmEntry_of_short (short : ∀ e, matchingEntry s l = some e →
    e.faultClass = 0 ∨ e.faultClass = (s.line l).monitor.confirmedClass ∨ (s.line l).monitor.candidateRun < e.confirmCount) :
    faultConfirmEntry s l = none := by
  unfold faultConfirmEntry
  split
  · next e matched =>
    refine if_neg ?_
    simp only [Bool.and_eq_true, bne_iff_ne, decide_eq_true_eq]
    rintro ⟨⟨⟨-, class_⟩, other⟩, reached⟩
    obtain zero | same | below := short e matched
    · exact class_ zero
    · exact other same
    · omega
  · rfl

theorem faultConfirmEntry_of_due {e : ClassEntry} (matched : matchingEntry s l = some e) (counted : windowCounted s l = true)
    (candidate : (s.line l).monitor.candidateClass = some e.faultClass) (class_ : e.faultClass ≠ 0)
    (other : e.faultClass ≠ (s.line l).monitor.confirmedClass)
    (reached : e.confirmCount ≤ (s.line l).monitor.candidateRun) : faultConfirmEntry s l = some e := by
  simp [faultConfirmEntry, matched, counted, candidate, class_, other, reached]

theorem faultClearIfDue_of_uncounted (uncounted : windowCounted s l = false) : faultClearIfDue l s = s :=
  if_neg (by simp [faultClearDue, uncounted])

theorem faultClearIfDue_of_short (short : (s.line l).monitor.confirmedClass = 0 ∨ (s.line l).monitor.clearRun = 0 ∨
    (s.line l).monitor.clearRun < (s.line l).monitor.confirmedClear.getD 0) : faultClearIfDue l s = s := by
  refine if_neg fun due => ?_
  simp only [faultClearDue, Bool.and_eq_true, bne_iff_ne, decide_eq_true_eq] at due
  obtain ⟨⟨⟨-, class_⟩, reached⟩, one⟩ := due
  obtain none_ | zero | below := short
  · exact class_ none_
  · omega
  · omega

/-- A window that closes is marked closed, and discarded in TEST (R110, R119). -/
def closedMonitor (c : Line) : FaultMonitor :=
  { c.monitor with closed := true, discard := c.monitor.discard || decide (c.state = .test) }

/-- The monitor of a counted window: both runs are updated by its class (R115). -/
def countedMonitor (cls : Nat) (m : FaultMonitor) : FaultMonitor :=
  { m with
    closed := true, candidateClass := some cls
    candidateRun := if m.candidateClass = some cls then min 15 (m.candidateRun + 1) else 1
    clearRun := if m.confirmedClass = 0 then 0 else if cls = m.confirmedClass then 0 else min 15 (m.clearRun + 1) }

section

variable (last : s.stamp.toNat % 64 = 63) (opened : (s.line l).monitor.closed = false)

include last opened

theorem windowCloseDue_of_last : windowCloseDue s l = true := by
  simp [windowCloseDue, windowLength, last, opened]

theorem windowCloseIfDue_of_uncounted
    (uncounted : ¬ windowCounted (withMonitor l (closedMonitor (s.line l)) s) l = true) :
    windowCloseIfDue l s = withMonitor l (closedMonitor (s.line l)) s :=
  (if_pos (windowCloseDue_of_last last opened)).trans (if_neg uncounted)

/-- A counted window updates both runs and confirms or clears. -/
theorem windowCloseIfDue_of_counted (counts : (s.line l).monitor.discard = false) (working : (s.line l).state ≠ .test)
    (valid : (s.faultEntry l 0).valid = true) :
    let v := withMonitor l (countedMonitor (windowClass s l) (s.line l).monitor) s
    (∀ e, faultConfirmEntry v l = some e → windowCloseIfDue l s = confirmFault l e v) ∧
      (faultConfirmEntry v l = none → windowCloseIfDue l s = faultClearIfDue l v) := by
  intro v
  have closed : closedMonitor (s.line l) = { (s.line l).monitor with closed := true } := by
    rw [closedMonitor, decide_eq_false working, Bool.or_false]
  have counted : windowCounted (withMonitor l (closedMonitor (s.line l)) s) l = true := by
    rw [windowCounted_withMonitor, closed]
    exact ⟨rfl, counts, working, valid⟩
  have updated : modLine l (fun c => { c with
      monitor := c.monitor.updateRuns (windowClass (withMonitor l (closedMonitor (s.line l)) s) l) })
      (withMonitor l (closedMonitor (s.line l)) s) = v := by
    rw [windowClass_withMonitor (m := closedMonitor (s.line l)) rfl, modLine, line_withMonitor, closed]
    exact setLine_setLine ..
  have closing : modLine l (fun c => { c with monitor := c.monitor.close (c.state = .test) }) s =
      withMonitor l (closedMonitor (s.line l)) s := rfl
  unfold windowCloseIfDue
  dsimp only
  rw [if_pos (windowCloseDue_of_last last opened), closing, if_pos counted, updated]
  exact ⟨fun e found => by rw [found], fun missed => by rw [missed]⟩

end

end

end Sys2Proof.Proofs

/-! The events of a fault window's close, and the obligation that puts its parts together. -/

namespace Sys2Proof.Proofs

open Sys2Proof.Machine

section

variable {l : LineNo} {s : State}

/-! ### The events -/

theorem exec_faultWindowClose (sync : s.highway.sync = .sync) (l : LineNo) :
    exec (.faultWindowClose l) s = .next (windowCloseIfDue l s) := next_inSync sync _

theorem exec_faultConfirm (sync : s.highway.sync = .sync) (l : LineNo) :
    exec (.faultConfirm l) s = .next (faultConfirmIfDue l s) := next_inSync sync _

theorem exec_faultClear (sync : s.highway.sync = .sync) (l : LineNo) :
    exec (.faultClear l) s = .next (faultClearIfDue l s) := next_inSync sync _

theorem faultConfirmIfDue_of_none (none_ : faultConfirmEntry s l = none) : faultConfirmIfDue l s = s := by
  unfold faultConfirmIfDue
  rw [none_]

theorem faultConfirmIfDue_of_some {e : ClassEntry} (due : faultConfirmEntry s l = some e) :
    faultConfirmIfDue l s = confirmFault l e s := by
  unfold faultConfirmIfDue
  rw [due]

/-- In TEST no class is confirmed or cleared (R119). -/
theorem faultEvents_of_test (sync : s.highway.sync = .sync) (test : (s.line l).state = .test) :
    exec (.faultConfirm l) s = .next s ∧ exec (.faultClear l) s = .next s := by
  have uncounted : windowCounted s l = false :=
    Bool.eq_false_iff.mpr fun counted => (windowCounted_iff.mp counted).2.2.1 test
  rw [exec_faultConfirm sync, exec_faultClear sync, faultConfirmIfDue_of_none (faultConfirmEntry_of_uncounted uncounted),
    faultClearIfDue_of_uncounted uncounted]
  exact ⟨rfl, rfl⟩

/-! ### The close of a window -/

section

variable (sync : s.highway.sync = .sync) (last : s.stamp.toNat % 64 = 63) (opened : (s.line l).monitor.closed = false)

include sync last opened

theorem close_of_test (test : (s.line l).state = .test) : exec (.faultWindowClose l) s =
    .next (withMonitor l { (s.line l).monitor with closed := true, discard := true } s) := by
  have closed : closedMonitor (s.line l) = { (s.line l).monitor with closed := true, discard := true } := by
    rw [closedMonitor, decide_eq_true test, Bool.or_true]
  have uncounted : ¬ windowCounted (withMonitor l (closedMonitor (s.line l)) s) l = true := fun counted =>
    (windowCounted_withMonitor.mp counted).2.2.1 test
  rw [exec_faultWindowClose sync, windowCloseIfDue_of_uncounted last opened uncounted, closed]

theorem close_of_uncounted (working : (s.line l).state ≠ .test)
    (uncounted : (s.line l).monitor.discard = true ∨ (s.faultEntry l 0).valid = false) :
    exec (.faultWindowClose l) s = .next (withMonitor l { (s.line l).monitor with closed := true } s) := by
  have closed : closedMonitor (s.line l) = { (s.line l).monitor with closed := true } := by
    rw [closedMonitor, decide_eq_false working, Bool.or_false]
  have uncounted' : ¬ windowCounted (withMonitor l (closedMonitor (s.line l)) s) l = true := fun counted => by
    rw [closed, windowCounted_withMonitor] at counted
    obtain ⟨-, counts, -, valid⟩ := counted
    obtain discard | invalid := uncounted
    · exact Bool.noConfusion (counts.symm.trans discard)
    · exact Bool.noConfusion (invalid.symm.trans valid)
  rw [exec_faultWindowClose sync, windowCloseIfDue_of_uncounted last opened uncounted', closed]

/-- The close of a counted window is the update of its runs, and then the confirmation or the clearing of a class. -/
theorem close_of_counted (working : (s.line l).state ≠ .test) (counts : (s.line l).monitor.discard = false)
    (valid : (s.faultEntry l 0).valid = true) :
    let m := countedMonitor (windowClass s l) (s.line l).monitor
    let v := withMonitor l m s
    ((∀ e, matchingEntry s l = some e →
        e.faultClass = 0 ∨ e.faultClass = (s.line l).monitor.confirmedClass ∨ m.candidateRun < e.confirmCount) →
      (m.confirmedClass = 0 ∨ m.clearRun = 0 ∨ m.clearRun < m.confirmedClear.getD 0 →
        exec (.faultWindowClose l) s = .next v) ∧
      exec (.faultWindowClose l) s = exec (.faultClear l) v) ∧
    ∀ e, matchingEntry s l = some e → e.faultClass ≠ 0 → e.faultClass ≠ (s.line l).monitor.confirmedClass →
      e.confirmCount ≤ m.candidateRun → exec (.faultWindowClose l) s = exec (.faultConfirm l) v := by
  intro m v
  have line : v.line l = { s.line l with monitor := m } := line_withMonitor
  have matching : matchingEntry v l = matchingEntry s l := matchingEntry_withMonitor rfl
  have counted : windowCounted v l = true := windowCounted_withMonitor.mpr ⟨rfl, counts, working, valid⟩
  obtain ⟨confirms, clears⟩ := windowCloseIfDue_of_counted last opened counts working valid
  rw [exec_faultWindowClose sync, exec_faultClear (s := v) sync, exec_faultConfirm (s := v) sync]
  refine ⟨fun short => ?_, fun e matched class_ other reached => ?_⟩
  · have none_ : faultConfirmEntry v l = none := faultConfirmEntry_of_short (by rw [matching, line]; exact short)
    rw [clears none_]
    exact ⟨fun still => by rw [faultClearIfDue_of_short (s := v) (by rw [line]; exact still)], rfl⟩
  · have due : faultConfirmEntry v l = some e := by
      refine faultConfirmEntry_of_due (matching.trans matched) counted ?_ class_ (by rw [line]; exact other)
        (by rw [line]; exact reached)
      rw [line, ← windowClass_of_some matched]
      rfl
    rw [confirms e due, faultConfirmIfDue_of_some due]

end

/-! ### The last multiframe of a DISABLED line's window -/

/-- A record of a DISABLED line in the last multiframe: the check, the monitor with its close, the examination, and the
migrations. -/
theorem closes_disabled {status i vt vr : Word16} {o : RecordOrder} {f : FeedCode} (sync : s.highway.sync = .sync)
    (carries : carriesEcho status (some f)) (disabled : (s.line l).state = .disabled) (sense : (s.line l).senseLost = false)
    (recovered : (s.line l).recoveryDue = false) (closed : (s.line l).openString = []) :
    ∃ a b z,
      a = { setLine l ((s.line l).checked (s.profile l).feedMask (some f) i vt vr) s with
        report := { s.report with alarm := a.report.alarm, alarmLost := a.report.alarmLost } } ∧
      MonitorTakes l (s.line l) (some f) i vt vr a b ∧
      Examines l (setLine l { b.line l with entryMark := false } b) z ∧
      MigrationsComplete z (senseRecord l status i vt vr o s) := by
  obtain ⟨alarm, lost, handed⟩ := validRecord_of_still f i vt vr o (.inl disabled) sense recovered closed
  have made : senseRecord l status i vt vr o s = validRecord l f (clampSense i) (clampSense vt) (clampSense vr) o s := by
    rw [senseRecord, validEcho_of_carries carries]
  have checkedLine : (withAlarm alarm lost (setLine l ((s.line l).checked (s.profile l).feedMask (some f) i vt vr) s)).line l =
      (s.line l).checked (s.profile l).feedMask (some f) i vt vr := line_setLine_self ..
  have same := eq_of_withAlarm (a := alarm) (b := lost)
    (y := setLine l ((s.line l).checked (s.profile l).feedMask (some f) i vt vr) s) rfl
  have syncA : (withAlarm alarm lost (setLine l ((s.line l).checked (s.profile l).feedMask (some f) i vt vr) s)).highway.sync =
      .sync := sync
  generalize withAlarm alarm lost (setLine l ((s.line l).checked (s.profile l).feedMask (some f) i vt vr) s) = a
    at handed checkedLine same syncA
  have taken := monitorTakes_monitorRecord syncA l (s.line l) (some f) i vt vr
  have step := lineStep_monitorRecord l ((s.line l).handedRecord (some f) i vt vr) a
  generalize monitorRecord l ((s.line l).handedRecord (some f) i vt vr) a = b at handed taken step
  have clear : (b.line l).recoveryDue = false := by
    rw [step.sense.recovery, checkedLine]
    exact recovered
  have marked : clearMarks l b = setLine l { b.line l with entryMark := false } b := by
    unfold clearMarks modLine
    rw [← clear]
  have syncZ : (examine l (clearMarks l b)).highway.sync = .sync := by
    rw [(onlyLine_examine ..).highway]
    exact (congrArg Highway.sync step.highway).trans syncA
  refine ⟨a, b, _, same, taken, ?_, by rw [made, handed]; exact migrationsComplete_releaseBanks syncZ⟩
  rw [← marked]
  exact examines_examine ..

/-! ### The entry that matches -/

theorem entryFits_iff {k : Nat} : entryFits s l k = true ↔ (s.faultEntry l k).valid = true ∧
    (readClassEntry (s.faultEntry l k).words).fits (observation s l) = true := Bool.and_eq_true_iff

end

/-- Settles O48: the bands, the observation and its entry by their definitions; a record is gathered, and the last of its window
closes it; and each close by the case of its window. -/
theorem faultWindowCloses : Obligations.FaultWindowCloses := by
  unfold Obligations.FaultWindowCloses
  refine ⟨fun _ _ _ _ low high => band_iff low high, fun s l => rfl, fun s l => ?_,
    fun s l status i vt vr o echo arrives carries open_ => ?_,
    fun s l status i vt vr o f arrives carries last disabled sense recovered closed _ => ?_,
    fun s l status i vt vr o arrives carries last unused => ?_, fun _ _ => windowCounted_iff,
    fun s l sync last opened => ?_, fun _ _ => faultEvents_of_test⟩
  · intro w entry fits
    have fits_iff' (k : Nat) : entryFits s l k = true ↔ fits k := entryFits_iff.trans (and_congr_right fun _ => fits_iff)
    have misses (k : Nat) (unfit : ¬ fits k) : entryFits s l k = false :=
      Bool.eq_false_iff.mpr fun fit => unfit ((fits_iff' k).mp fit)
    refine ⟨fun k low high fit first => ?_, fun none_ => ?_⟩
    · have matched := matchingEntry_of_first low high ((fits_iff' k).mpr fit) fun j one below => misses j (first j one below)
      exact ⟨matched, windowClass_of_some matched⟩
    · have missed := matchingEntry_of_none (s := s) (l := l) fun k low high => misses k (none_ k low high)
      exact ⟨missed, windowClass_of_none missed⟩
  · exact ⟨_, exec_senseRecord_of_arrives arrives .., gathers_senseRecord (s := s.recordPassed l) carries open_⟩
  · obtain ⟨a, b, z, same, taken, examined, migrated⟩ :=
      closes_disabled (s := s.recordPassed l) (i := i) (vt := vt) (vr := vr) (o := o) arrives.1 carries disabled sense
        recovered closed
    exact ⟨a, b, z, _, exec_senseRecord_of_arrives arrives .., same, taken, examined, migrated⟩
  · exact ⟨_, exec_senseRecord_of_arrives arrives .., closes_senseRecord (s := s.recordPassed l) carries last unused⟩
  · exact ⟨close_of_test sync last opened, fun working => ⟨close_of_uncounted sync last opened working, fun counts valid =>
      close_of_counted sync last opened working counts valid⟩⟩

end Sys2Proof.Proofs
